-- ==== Sys2Proof/Word.lean ====
section
/-! DEFINITION. The word types of the asset codec block (spec/00_scope.md rule R7): a byte is 8 bits, a register is
32 bits, a PCM sample is a signed 16-bit integer. -/

namespace Sys2Proof

/-- One byte of a stream or a buffer (R7). -/
abbrev Byte := BitVec 8

/-- One register of the register file, and one command word (R7, R22, R91). -/
abbrev Word := BitVec 32

/-- One PCM sample in its 16-bit two's complement form (R7, R109). -/
abbrev Sample := BitVec 16

end Sys2Proof
end

