-- ==== Sys2Proof/Config.lean ====
section
/-! DEFINITION. What an implementation fixes (spec/00_scope.md rule R6) and the free values of the model.

`Config` holds the parameters that R6 says the model takes as arguments. A state carries one `Config`, no step changes it,
and every statement about all states is therefore a statement about every choice of the parameters. Of the placements,
`REG_BASE`, `SRC_BASE`, `AUX_BASE` and `DST_BASE`, "no rule depends on them" (R6, R69): they say where in the host's address space
an access of a window falls (`HostAccess.busAddress`), and no step reads them. -/

namespace Sys2Proof

/-- The build-time parameters of one block (R6, 92_eei_decisions.md D3, D35). -/
structure Config where
  /-- capacity in bytes of the SRC buffer -/
  srcCap : Nat
  /-- capacity in bytes of the AUX buffer -/
  auxCap : Nat
  /-- capacity in bytes of the DST buffer -/
  dstCap : Nat
  /-- the reflected CRC-32 polynomial of the UPS unit (R225, R227) -/
  crcPoly : Word
  /-- `REG_BASE`: the address of the register window in the host's address space (R6, R22, R69) -/
  regBase : Nat
  /-- `SRC_BASE`: the address of the SRC window in the host's address space (R6, R69) -/
  srcBase : Nat
  /-- `AUX_BASE`: the address of the AUX window in the host's address space (R6, R69) -/
  auxBase : Nat
  /-- `DST_BASE`: the address of the DST window in the host's address space (R6, R69) -/
  dstBase : Nat
  deriving DecidableEq, Repr

/-- The bounds R6 puts on the capacities: at least 1 and below `2^32`. It puts none on the polynomial and the placements. -/
abbrev Config.wf (c : Config) : Prop :=
  (1 ≤ c.srcCap ∧ c.srcCap < 2 ^ 32) ∧ (1 ≤ c.auxCap ∧ c.auxCap < 2 ^ 32) ∧ (1 ≤ c.dstCap ∧ c.dstCap < 2 ^ 32)

/-- The parameters of the block that `State.reset` describes. `CRC_POLY` is the default R227 binds it to. The three
capacities are OPEN in R6; DESIGN CHOICE (log entry 1): `2^24 - 1 + 65535`, the figure R6 names as enough for every legal
IPS patch. The four placements are OPEN in R6 too; DESIGN CHOICE (log entry 1): 0 and multiples of `2^28`, so that no two
windows overlap. Unsafe for a claim about reset that rests on a figure; no statement of this package does. -/
def Config.default : Config :=
  { srcCap := 16842750, auxCap := 16842750, dstCap := 16842750, crcPoly := 0xEDB88820#32
    regBase := 0, srcBase := 0x10000000, auxBase := 0x20000000, dstBase := 0x30000000 }

/-- FREE VALUE (log entry 2): the byte that a host read returns where the spec says the byte is unspecified (R38, R67: "a
read returns any value, and two reads of it may differ") or states none (at or above the capacity, log entry 6). It is applied
to a counter in `State` that every such read advances, so two reads are not related. It has no body. -/
opaque Config.freeByte : Nat → Byte

end Sys2Proof
end

