-- ==== Sys2Proof/Syntax.lean ====
section
/-! DEFINITION. The instructions: one constructor per row of spec/opcode_table.json. The block decodes at two levels
(spec/30_encoding.md rule R90): twelve commands and the illegal catch-all, which the host writes to `CMD`, and twenty-one
kinds of stream element, which an engine interprets while its command runs. -/

namespace Sys2Proof

/-- One instruction of either level. Fields are the operands after decoding; a list whose length a format fixes is checked
in WellFormed.lean. -/
inductive Instr where
  -- the command level (R91 to R95)
  /-- `TDEC2` (R134): flips `h`, `v` -/
  | tdec2 (h v : Bool)
  /-- `TDEC4` (R135): flips `h`, `v` -/
  | tdec4 (h v : Bool)
  /-- `TENC2` (R137): flips `h`, `v` -/
  | tenc2 (h v : Bool)
  /-- `TENC4` (R138): flips `h`, `v` -/
  | tenc4 (h v : Bool)
  /-- `TASM2` (R140): width and height in tiles -/
  | tasm2 (w ht : Byte)
  /-- `TASM4` (R141): width and height in tiles -/
  | tasm4 (w ht : Byte)
  /-- `CEXP` (R152) -/
  | cexp
  /-- `CPACK` (R153) -/
  | cpack
  /-- `BRRDEC` (R161) -/
  | brrdec
  /-- `LZDEC` (R182) -/
  | lzdec
  /-- `IPSAPPLY` (R201) -/
  | ipsapply
  /-- `UPSAPPLY` (R228) -/
  | upsapply
  /-- `(illegal)`: every command word that R93 does not make legal (R95) -/
  | illegal (word : Word)
  -- the stream level (R100 to R118)
  /-- `TILE2` (R100): the 16 plane bytes of a packed 2bpp tile -/
  | tile2 (planes : List Byte)
  /-- `TILE4` (R101): the 32 plane bytes of a packed 4bpp tile -/
  | tile4 (planes : List Byte)
  /-- `UTILE` (R103): the 64 index bytes of an unpacked tile -/
  | utile (pixels : List Byte)
  /-- `IMAGE` (R105): the `64*W*HT` index bytes of an assembled image -/
  | image (pixels : List Byte)
  /-- `FLIP` (R104): the two flags of one flip-list byte -/
  | flip (fh fv : Bool)
  /-- `COLOR15` (R106): bit 15 and the three 5-bit channels of a packed colour -/
  | color15 (x : Bool) (b g r : BitVec 5)
  /-- `RGB24` (R107): the three bytes of an expanded colour -/
  | rgb24 (r g b : Byte)
  /-- `BRRBLK` (R108): the header fields and the 16 nibbles in decoding order -/
  | brrblk (shift : BitVec 4) (filter : BitVec 2) (loop fin : Bool) (nibbles : List (BitVec 4))
  /-- `PCM16` (R109): one sample -/
  | pcm16 (sample : Sample)
  /-- `LZCTRL` (R110): a control byte -/
  | lzctrl (ctrl : Byte)
  /-- `LZLIT` (R110): a literal token -/
  | lzlit (data : Byte)
  /-- `LZMATCH` (R111): the two bytes of a match token; `LZ_CFG` says how they split -/
  | lzmatch (b0 b1 : Byte)
  /-- `LZEND` (R112): the end marker -/
  | lzend (marker : Byte)
  /-- `IPSMAGIC` (R113): `"PATCH"` -/
  | ipsmagic
  /-- `IPSREC` (R113): a normal record, its offset and its 1 to 65535 data bytes -/
  | ipsrec (offset : BitVec 24) (data : List Byte)
  /-- `IPSRLE` (R113): an RLE record, its offset, run size and value -/
  | ipsrle (offset : BitVec 24) (runSize : BitVec 16) (value : Byte)
  /-- `IPSEOF` (R113, R114): `"EOF"` -/
  | ipseof
  /-- `UPSMAGIC` (R115): `"UPS1"` -/
  | upsmagic
  /-- `VLV` (R116): the base-128 digits, least significant first -/
  | vlv (digits : List (BitVec 7))
  /-- `UPSRUN` (R117): the digits of the relative offset and the non-zero XOR bytes -/
  | upsrun (rel : List (BitVec 7)) (xors : List Byte)
  /-- `UPSTRAILER` (R118): the three CRC fields -/
  | upstrailer (srcCrc tgtCrc patchCrc : Word)
  deriving DecidableEq, Repr

/-- The kinds of stream element. The bytes of a stream do not say their own kind: the engine's position selects it (R119,
and the column `selected_by` of the opcode table), so a decoder of stream bytes is told the kind. -/
inductive Element where
  | tile2 | tile4 | utile | image | flip | color15 | rgb24 | brrblk | pcm16
  | lzctrl | lzlit | lzmatch | lzend
  | ipsmagic | ipsrec | ipsrle | ipseof
  | upsmagic | vlv | upsrun | upstrailer
  deriving DecidableEq, Repr

/-- What a decoder is given: a 32-bit command word, or the bytes of one stream element of a known kind (R90). -/
inductive Code where
  | command (w : Word)
  | stream (kind : Element) (bytes : List Byte)
  deriving DecidableEq, Repr

end Sys2Proof
end

