-- ==== Sys2Proof/WellFormed.lean ====
section
/-! DEFINITION. Well-formed instructions: the legality of a command word (spec/30_encoding.md rule R93) and the lengths and
value ranges of the stream formats (R100 to R118). -/

namespace Sys2Proof

/-- One row of the match and mask table of R93. -/
structure CommandRow where
  mnemonic : String
  mask : Word
  pattern : Word
  /-- the row has the extra condition `W != 0` and `HT != 0` -/
  needsSize : Bool
  deriving DecidableEq, Repr

/-- The table of R93. -/
def commandRows : List CommandRow :=
  [ ⟨"TDEC2", 0xFFFFFCFF#32, 0x00000010#32, false⟩,
    ⟨"TDEC4", 0xFFFFFCFF#32, 0x00000011#32, false⟩,
    ⟨"TENC2", 0xFFFFFCFF#32, 0x00000012#32, false⟩,
    ⟨"TENC4", 0xFFFFFCFF#32, 0x00000013#32, false⟩,
    ⟨"TASM2", 0x0000FFFF#32, 0x00000014#32, true⟩,
    ⟨"TASM4", 0x0000FFFF#32, 0x00000015#32, true⟩,
    ⟨"CEXP", 0xFFFFFFFF#32, 0x00000020#32, false⟩,
    ⟨"CPACK", 0xFFFFFFFF#32, 0x00000021#32, false⟩,
    ⟨"BRRDEC", 0xFFFFFFFF#32, 0x00000030#32, false⟩,
    ⟨"LZDEC", 0xFFFFFFFF#32, 0x00000040#32, false⟩,
    ⟨"IPSAPPLY", 0xFFFFFFFF#32, 0x00000050#32, false⟩,
    ⟨"UPSAPPLY", 0xFFFFFFFF#32, 0x00000060#32, false⟩ ]

/-- The row matches the word: the masked bits agree and the extra condition holds (`W` is bits 23:16, `HT` bits 31:24). -/
def CommandRow.matches (r : CommandRow) (w : Word) : Bool :=
  (w &&& r.mask) == r.pattern &&
    (!r.needsSize || (w.extractLsb' 16 8 != 0#8 && w.extractLsb' 24 8 != 0#8))

/-- A command word is legal when some row of R93 matches it. -/
def legalWord (w : Word) : Bool := commandRows.any (·.matches w)

/-- The three bytes `"EOF"` as a big-endian offset: no record can have it (R114). -/
def eofOffset : BitVec 24 := 0x454F46#24

/-- The checks that the formats put on an instruction's operands. -/
def Instr.wellFormed : Instr → Bool
  | .tdec2 _ _ | .tdec4 _ _ | .tenc2 _ _ | .tenc4 _ _ => true
  | .tasm2 w ht | .tasm4 w ht => w != 0#8 && ht != 0#8
  | .cexp | .cpack | .brrdec | .lzdec | .ipsapply | .upsapply => true
  | .illegal w => !legalWord w
  | .tile2 planes => planes.length == 16
  | .tile4 planes => planes.length == 32
  | .utile pixels => pixels.length == 64
  | .image pixels => pixels.length % 64 == 0 && pixels.length != 0
  | .flip _ _ | .color15 _ _ _ _ | .rgb24 _ _ _ => true
  | .brrblk _ _ _ _ nibbles => nibbles.length == 16
  | .pcm16 _ | .lzctrl _ | .lzlit _ | .lzmatch _ _ | .lzend _ => true
  | .ipsmagic | .ipseof | .upsmagic => true
  | .ipsrec offset data => offset != eofOffset && data.length != 0 && decide (data.length < 65536)
  | .ipsrle offset _ _ => offset != eofOffset
  | .vlv digits => digits.length != 0
  | .upsrun rel xors => rel.length != 0 && xors.all (· != 0#8)
  | .upstrailer _ _ _ => true

end Sys2Proof
end

