-- ==== Sys2Proof/Decode.lean ====
section
/-! DEFINITION. The decoder and, after it, the encoder: command words (spec/30_encoding.md rules R91 to R95) and stream
elements (R100 to R118). Decoding is total. A command word that R93 does not make legal decodes to `Instr.illegal`, whose
meaning R95 gives; stream bytes that are not an element of the given kind are rejected by name. -/

namespace Sys2Proof

/-! ## Byte order (R60) -/

/-- The two bytes as a 16-bit word, the first byte least significant. -/
def le16 (b0 b1 : Byte) : BitVec 16 := b1 ++ b0

/-- The two bytes as a 16-bit word, the first byte most significant. -/
def be16 (b0 b1 : Byte) : BitVec 16 := b0 ++ b1

/-- The three bytes as a 24-bit word, the first byte most significant. -/
def be24 (b0 b1 b2 : Byte) : BitVec 24 := b0 ++ b1 ++ b2

/-- The four bytes as a 32-bit word, the first byte least significant. -/
def le32 (b0 b1 b2 b3 : Byte) : Word := b3 ++ b2 ++ b1 ++ b0

/-- The bytes of a 16-bit word, least significant first. -/
def bytesLe16 (w : BitVec 16) : List Byte := [w.extractLsb' 0 8, w.extractLsb' 8 8]

/-- The bytes of a 16-bit word, most significant first. -/
def bytesBe16 (w : BitVec 16) : List Byte := [w.extractLsb' 8 8, w.extractLsb' 0 8]

/-- The bytes of a 24-bit word, most significant first. -/
def bytesBe24 (w : BitVec 24) : List Byte := [w.extractLsb' 16 8, w.extractLsb' 8 8, w.extractLsb' 0 8]

/-- The bytes of a 32-bit word, least significant first. -/
def bytesLe32 (w : Word) : List Byte :=
  [w.extractLsb' 0 8, w.extractLsb' 8 8, w.extractLsb' 16 8, w.extractLsb' 24 8]

/-! ## Command words (R91 to R95) -/

/-- The command a word stands for (R92, R93, R94): `H = w[8]`, `V = w[9]`, `W = w[23:16]`, `HT = w[31:24]`. -/
def decodeCommand (w : Word) : Instr :=
  if w &&& 0xFFFFFCFF#32 = 0x00000010#32 then .tdec2 (w.getLsbD 8) (w.getLsbD 9)
  else if w &&& 0xFFFFFCFF#32 = 0x00000011#32 then .tdec4 (w.getLsbD 8) (w.getLsbD 9)
  else if w &&& 0xFFFFFCFF#32 = 0x00000012#32 then .tenc2 (w.getLsbD 8) (w.getLsbD 9)
  else if w &&& 0xFFFFFCFF#32 = 0x00000013#32 then .tenc4 (w.getLsbD 8) (w.getLsbD 9)
  else if w &&& 0x0000FFFF#32 = 0x00000014#32 ∧ w.extractLsb' 16 8 ≠ 0#8 ∧ w.extractLsb' 24 8 ≠ 0#8 then
    .tasm2 (w.extractLsb' 16 8) (w.extractLsb' 24 8)
  else if w &&& 0x0000FFFF#32 = 0x00000015#32 ∧ w.extractLsb' 16 8 ≠ 0#8 ∧ w.extractLsb' 24 8 ≠ 0#8 then
    .tasm4 (w.extractLsb' 16 8) (w.extractLsb' 24 8)
  else if w = 0x00000020#32 then .cexp
  else if w = 0x00000021#32 then .cpack
  else if w = 0x00000030#32 then .brrdec
  else if w = 0x00000040#32 then .lzdec
  else if w = 0x00000050#32 then .ipsapply
  else if w = 0x00000060#32 then .upsapply
  else .illegal w

/-! ## Stream elements (R100 to R118) -/

/-- Why bytes are not an element of the kind asked for. -/
inductive DecodeError where
  /-- the number of bytes is not the length the format fixes -/
  | wrongLength
  /-- a flip-list byte with one of bits 7:2 set (R104) -/
  | reservedFlipBits
  /-- the bytes are not the fixed text of a magic or terminator -/
  | wrongMagic
  /-- the three offset bytes spell `"EOF"` (R114) -/
  | offsetIsEof
  /-- a normal record with size 0 (R113) -/
  | sizeZero
  /-- an RLE record whose size field is not 0 (R113) -/
  | sizeNotZero
  /-- a VLV with no byte that has bit 7 set (R116) -/
  | vlvUnterminated
  /-- a run with no closing `00` (R117) -/
  | runUnterminated
  /-- bytes left over after the element -/
  | trailingBytes
  deriving DecidableEq, Repr

/-- `"PATCH"` (R10). -/
def patchMagic : List Byte := [0x50#8, 0x41#8, 0x54#8, 0x43#8, 0x48#8]

/-- `"EOF"` (R10). -/
def eofMagic : List Byte := [0x45#8, 0x4F#8, 0x46#8]

/-- `"UPS1"` (R10). -/
def upsMagic : List Byte := [0x55#8, 0x50#8, 0x53#8, 0x31#8]

/-- The two nibbles of a BRR data byte, the high one first (R108, R163). -/
def nibblesOf (b : Byte) : List (BitVec 4) := [b.extractLsb' 4 4, b.extractLsb' 0 4]

/-- The digits of the VLV at the head of the bytes, and the bytes after it (R116): bit 7 is 1 on the last byte only. -/
def takeVlv : List Byte → Except DecodeError (List (BitVec 7) × List Byte)
  | [] => .error .vlvUnterminated
  | b :: bs =>
    if b.getLsbD 7 then .ok ([b.extractLsb' 0 7], bs)
    else
      match takeVlv bs with
      | .ok (ds, rest) => .ok (b.extractLsb' 0 7 :: ds, rest)
      | .error e => .error e

/-- The XOR bytes before the first `00`, and the bytes after it (R117). -/
def takeXors : List Byte → Except DecodeError (List Byte × List Byte)
  | [] => .error .runUnterminated
  | b :: bs =>
    if b = 0#8 then .ok ([], bs)
    else
      match takeXors bs with
      | .ok (xs, rest) => .ok (b :: xs, rest)
      | .error e => .error e

/-- The bytes are exactly the fixed text. -/
def decodeMagic (text bytes : List Byte) (i : Instr) : Except DecodeError Instr :=
  if bytes = text then .ok i else .error .wrongMagic

/-- A BRR block from its header byte and its 8 data bytes (R108, R162). -/
def decodeBrrBlock (hdr : Byte) (data : List Byte) : Except DecodeError Instr :=
  if data.length = 8 then
    .ok (.brrblk (hdr.extractLsb' 4 4) (hdr.extractLsb' 2 2) (hdr.getLsbD 1) (hdr.getLsbD 0) (data.flatMap nibblesOf))
  else .error .wrongLength

/-- A normal IPS record (R113). -/
def decodeIpsRecord (offset : BitVec 24) (size : BitVec 16) (data : List Byte) : Except DecodeError Instr :=
  if offset = eofOffset then .error .offsetIsEof
  else if size = 0#16 then .error .sizeZero
  else if data.length = size.toNat then .ok (.ipsrec offset data)
  else .error .wrongLength

/-- An IPS RLE record (R113). -/
def decodeIpsRle (offset : BitVec 24) (size runSize : BitVec 16) (value : Byte) : Except DecodeError Instr :=
  if offset = eofOffset then .error .offsetIsEof
  else if size ≠ 0#16 then .error .sizeNotZero
  else .ok (.ipsrle offset runSize value)

/-- A VLV and nothing after it (R116). -/
def decodeVlv (bytes : List Byte) : Except DecodeError Instr :=
  match takeVlv bytes with
  | .ok (ds, []) => .ok (.vlv ds)
  | .ok (_, _ :: _) => .error .trailingBytes
  | .error e => .error e

/-- A UPS run and nothing after it (R117). -/
def decodeUpsRun (bytes : List Byte) : Except DecodeError Instr :=
  match takeVlv bytes with
  | .error e => .error e
  | .ok (ds, rest) =>
    match takeXors rest with
    | .ok (xs, []) => .ok (.upsrun ds xs)
    | .ok (_, _ :: _) => .error .trailingBytes
    | .error e => .error e

/-- The element of the given kind that the bytes are, all of them. -/
def decodeElement (kind : Element) (bytes : List Byte) : Except DecodeError Instr :=
  match kind with
  | .tile2 => if bytes.length = 16 then .ok (.tile2 bytes) else .error .wrongLength
  | .tile4 => if bytes.length = 32 then .ok (.tile4 bytes) else .error .wrongLength
  | .utile => if bytes.length = 64 then .ok (.utile bytes) else .error .wrongLength
  | .image => if bytes.length % 64 = 0 ∧ bytes.length ≠ 0 then .ok (.image bytes) else .error .wrongLength
  | .flip =>
    match bytes with
    | [b] => if b.extractLsb' 2 6 = 0#6 then .ok (.flip (b.getLsbD 0) (b.getLsbD 1)) else .error .reservedFlipBits
    | _ => .error .wrongLength
  | .color15 =>
    match bytes with
    | [b0, b1] =>
      .ok (.color15 ((le16 b0 b1).getLsbD 15) ((le16 b0 b1).extractLsb' 10 5) ((le16 b0 b1).extractLsb' 5 5)
        ((le16 b0 b1).extractLsb' 0 5))
    | _ => .error .wrongLength
  | .rgb24 =>
    match bytes with
    | [r, g, b] => .ok (.rgb24 r g b)
    | _ => .error .wrongLength
  | .brrblk =>
    match bytes with
    | hdr :: data => decodeBrrBlock hdr data
    | [] => .error .wrongLength
  | .pcm16 =>
    match bytes with
    | [b0, b1] => .ok (.pcm16 (le16 b0 b1))
    | _ => .error .wrongLength
  | .lzctrl =>
    match bytes with
    | [b] => .ok (.lzctrl b)
    | _ => .error .wrongLength
  | .lzlit =>
    match bytes with
    | [b] => .ok (.lzlit b)
    | _ => .error .wrongLength
  | .lzmatch =>
    match bytes with
    | [b0, b1] => .ok (.lzmatch b0 b1)
    | _ => .error .wrongLength
  | .lzend =>
    match bytes with
    | [b] => .ok (.lzend b)
    | _ => .error .wrongLength
  | .ipsmagic => decodeMagic patchMagic bytes .ipsmagic
  | .ipsrec =>
    match bytes with
    | o0 :: o1 :: o2 :: s0 :: s1 :: data => decodeIpsRecord (be24 o0 o1 o2) (be16 s0 s1) data
    | _ => .error .wrongLength
  | .ipsrle =>
    match bytes with
    | [o0, o1, o2, s0, s1, n0, n1, v] => decodeIpsRle (be24 o0 o1 o2) (be16 s0 s1) (be16 n0 n1) v
    | _ => .error .wrongLength
  | .ipseof => decodeMagic eofMagic bytes .ipseof
  | .upsmagic => decodeMagic upsMagic bytes .upsmagic
  | .vlv => decodeVlv bytes
  | .upsrun => decodeUpsRun bytes
  | .upstrailer =>
    match bytes with
    | [a0, a1, a2, a3, b0, b1, b2, b3, c0, c1, c2, c3] =>
      .ok (.upstrailer (le32 a0 a1 a2 a3) (le32 b0 b1 b2 b3) (le32 c0 c1 c2 c3))
    | _ => .error .wrongLength

/-- The decoder of both levels (R90). -/
def decode : Code → Except DecodeError Instr
  | .command w => .ok (decodeCommand w)
  | .stream kind bytes => decodeElement kind bytes

/-! ## The encoder -/

/-- The command word of a tile command with flips: `opc | H << 8 | V << 9` (R134, R135, R137, R138). -/
def encodeFlips (opc : Byte) (h v : Bool) : Word := 0#22 ++ BitVec.ofBool v ++ BitVec.ofBool h ++ opc

/-- The command word of an assembly command: `opc | W << 16 | HT << 24` (R140, R141). -/
def encodeSize (opc w ht : Byte) : Word := ht ++ w ++ 0#8 ++ opc

/-- The bytes of a VLV (R116): 7 value bits a byte, bit 7 set on the last. -/
def encodeVlv : List (BitVec 7) → List Byte
  | [] => []
  | [d] => [1#1 ++ d]
  | d :: d' :: ds => (0#1 ++ d) :: encodeVlv (d' :: ds)

/-- The data bytes of a BRR block from its nibbles, two a byte, the first in the high half (R108). -/
def encodeNibbles : List (BitVec 4) → List Byte
  | hi :: lo :: rest => (hi ++ lo) :: encodeNibbles rest
  | _ => []

/-- The 16-bit word of a packed colour, `xbbbbbgggggrrrrr` (R106). -/
def colorWord (x : Bool) (b g r : BitVec 5) : BitVec 16 := BitVec.ofBool x ++ b ++ g ++ r

/-- The code of an instruction: the command word of R91 to R94, or the bytes of the stream format with the kind that selects
it. -/
def encode : Instr → Code
  | .tdec2 h v => .command (encodeFlips 0x10#8 h v)
  | .tdec4 h v => .command (encodeFlips 0x11#8 h v)
  | .tenc2 h v => .command (encodeFlips 0x12#8 h v)
  | .tenc4 h v => .command (encodeFlips 0x13#8 h v)
  | .tasm2 w ht => .command (encodeSize 0x14#8 w ht)
  | .tasm4 w ht => .command (encodeSize 0x15#8 w ht)
  | .cexp => .command 0x00000020#32
  | .cpack => .command 0x00000021#32
  | .brrdec => .command 0x00000030#32
  | .lzdec => .command 0x00000040#32
  | .ipsapply => .command 0x00000050#32
  | .upsapply => .command 0x00000060#32
  | .illegal w => .command w
  | .tile2 planes => .stream .tile2 planes
  | .tile4 planes => .stream .tile4 planes
  | .utile pixels => .stream .utile pixels
  | .image pixels => .stream .image pixels
  | .flip fh fv => .stream .flip [0#6 ++ BitVec.ofBool fv ++ BitVec.ofBool fh]
  | .color15 x b g r => .stream .color15 (bytesLe16 (colorWord x b g r))
  | .rgb24 r g b => .stream .rgb24 [r, g, b]
  | .brrblk shift filter loop fin nibbles =>
    .stream .brrblk ((shift ++ filter ++ BitVec.ofBool loop ++ BitVec.ofBool fin) :: encodeNibbles nibbles)
  | .pcm16 sample => .stream .pcm16 (bytesLe16 sample)
  | .lzctrl ctrl => .stream .lzctrl [ctrl]
  | .lzlit data => .stream .lzlit [data]
  | .lzmatch b0 b1 => .stream .lzmatch [b0, b1]
  | .lzend marker => .stream .lzend [marker]
  | .ipsmagic => .stream .ipsmagic patchMagic
  | .ipsrec offset data => .stream .ipsrec (bytesBe24 offset ++ bytesBe16 (BitVec.ofNat 16 data.length) ++ data)
  | .ipsrle offset runSize value => .stream .ipsrle (bytesBe24 offset ++ bytesBe16 0#16 ++ bytesBe16 runSize ++ [value])
  | .ipseof => .stream .ipseof eofMagic
  | .upsmagic => .stream .upsmagic upsMagic
  | .vlv digits => .stream .vlv (encodeVlv digits)
  | .upsrun rel xors => .stream .upsrun (encodeVlv rel ++ xors ++ [0#8])
  | .upstrailer srcCrc tgtCrc patchCrc =>
    .stream .upstrailer (bytesLe32 srcCrc ++ bytesLe32 tgtCrc ++ bytesLe32 patchCrc)

/-- The bytes of a stream element; a command has none. -/
def streamBytes (i : Instr) : List Byte :=
  match encode i with
  | .command _ => []
  | .stream _ bytes => bytes

/-! ## The opcode table's own numbering of bits -/

/-- The first `n` bytes of a number, bits 7:0 first. -/
def bytesOfNat (n w : Nat) : List Byte := (List.range n).map fun k => BitVec.ofNat 8 (w >>> (8 * k))

/-- The kind of stream element that a row of so many bits stands for when nothing selects one. Only the rows the table
gives a length of their own appear; DESIGN CHOICE (log entry 3). -/
def elementOfWidth (nbits : Nat) : Option Element :=
  match nbits with
  | 16 => some .color15
  | 24 => some .rgb24
  | 40 => some .ipsmagic
  | 64 => some .ipsrle
  | 72 => some .brrblk
  | 96 => some .upstrailer
  | 128 => some .tile2
  | 256 => some .tile4
  | 512 => some .utile
  | _ => none

/-- The instruction the decoder reads from an instruction whose bits are `w`, numbered as spec/opcode_table.json numbers
them. A 32-bit row is a command word; a row of another width is a stream element, of which bits 7:0 are the first byte.
An 8-bit row is a flip-list byte when its bits 7:2 are 0 (the one 8-bit row with fixed bits) and otherwise a literal token. -/
def decodeTableWord (nbits w : Nat) : Option Instr :=
  if nbits = 32 then some (decodeCommand (BitVec.ofNat 32 w))
  else if nbits = 8 then
    match decodeElement .flip (bytesOfNat 1 w) with
    | .ok i => some i
    | .error _ => some (.lzlit (BitVec.ofNat 8 w))
  else
    match elementOfWidth nbits with
    | none => none
    | some kind =>
      match decodeElement kind (bytesOfNat (nbits / 8) w) with
      | .ok i => some i
      | .error _ => none

end Sys2Proof
end

