-- ==== Sys2Proof/Machine/State.lean ====
section
/-! DEFINITION. The state of the asset codec block: the ten registers (spec/10_state.md rule R22), the three buffers (R37),
the op-local working state of the running engine (R35), the host accesses still to come (R71), and the reasons a step can
stop. All of it is plain data. -/

namespace Sys2Proof.Machine

/-! ## Names -/

/-- The three buffer address spaces (R37). -/
inductive Buffer where
  | src | aux | dst
  deriving DecidableEq, Repr

/-- The depth of a tile command, 2 or 4 bits per pixel (R94). -/
inductive Depth where
  | two | four
  deriving DecidableEq, Repr

/-- The typed errors (R251), the reserved ones included. -/
inductive Err where
  | badMagic | truncatedRecord | unexpectedEof | checksumMismatch | sourceCrcMismatch | targetCrcMismatch
  | invalidHeader | offsetTooLarge | distanceOutOfBounds | danglingPointer | indexOutOfRange | malformedEscape | tooLong
  | sourceSizeMismatch | outputLimitExceeded | endBeforeBlocks | noEnd | lengthZero | illegalCommand | illegalOperand
  deriving DecidableEq, Repr

/-! ## Memory -/

/-- The contents of one buffer: the listed cells, addresses strictly rising. An address that is not listed holds no value:
in SRC and AUX it is a byte the host has not written since reset (R68), in DST a byte that is unspecified (R67). -/
abbrev Memory := List Host.Cell

/-! ## The op-local working state of the engines (R35)

It is created when a command starts and is gone when the command ends. The output length `n` of R35 is the length of the
working copy `out` (R66). -/

/-- `TDEC2`, `TDEC4`, `TENC2`, `TENC4`: the stream cursor and the output so far. -/
structure TileWork where
  depth : Depth
  h : Bool
  v : Bool
  /-- stream cursor, an offset into SRC -/
  c : Nat
  out : List Byte
  deriving DecidableEq, Repr

/-- `TASM2`, `TASM4`: the flip flags read so far (their number is the AUX cursor) and the flipped tiles placed so far
(`8*d` times their number is the SRC cursor). -/
structure AsmWork where
  depth : Depth
  w : Nat
  ht : Nat
  flips : List (Bool × Bool)
  tiles : List (List Byte)
  deriving DecidableEq, Repr

/-- `CEXP`, `CPACK`: the stream cursor and the output so far. -/
structure ColorWork where
  c : Nat
  out : List Byte
  deriving DecidableEq, Repr

/-- `BRRDEC`: cursor, output, the two previous samples and the loop record (R160). -/
structure BrrWork where
  c : Nat
  out : List Byte
  p1 : Sample
  p2 : Sample
  loopValid : Bool
  /-- in samples (R31) -/
  loopPoint : Nat
  deriving DecidableEq, Repr

/-- `LZDEC`: cursor, output, the current control byte and how many of its bits are unused (R180). -/
structure LzWork where
  c : Nat
  ctrl : Byte
  bitsLeft : Nat
  out : List Byte
  deriving DecidableEq, Repr

/-- Where `IPSAPPLY` stands in its patch: at the magic, or at a record boundary (R202). -/
inductive IpsPhase where
  | magic | records
  deriving DecidableEq, Repr

/-- `IPSAPPLY`: patch cursor (an offset into AUX) and output (R200). -/
structure IpsWork where
  phase : IpsPhase
  c : Nat
  out : List Byte
  deriving DecidableEq, Repr

/-- Where `UPSAPPLY` stands in its patch: at the magic, at the source size, at the target size (the source size read), or
in the runs (R228). -/
inductive UpsPhase where
  | magic | sourceSize
  | targetSize (sourceSize : Nat)
  | runs
  deriving DecidableEq, Repr

/-- `UPSAPPLY`: patch cursor, output cursor, output and the three CRC accumulators (R220, R226). The cursor and the sizes
are natural numbers without bound (R224). -/
structure UpsWork where
  phase : UpsPhase
  c : Nat
  cur : Nat
  out : List Byte
  srcAcc : Word
  tgtAcc : Word
  patchAcc : Word
  deriving DecidableEq, Repr

/-- The working state of the running command, or `idle` between commands (R35, R285). -/
inductive Work where
  | idle
  | tdec (t : TileWork)
  | tenc (t : TileWork)
  | tasm (a : AsmWork)
  | cexp (k : ColorWork)
  | cpack (k : ColorWork)
  | brr (b : BrrWork)
  | lz (z : LzWork)
  | ips (p : IpsWork)
  | ups (u : UpsWork)
  deriving DecidableEq, Repr

/-! ## The host (R71) -/

/-- One access of the host, or the platform's reset (R22, R63, R290). A register access names a byte offset in the register
window and its width in bytes. -/
inductive HostAccess where
  | regRead (offset width : Nat)
  | regWrite (offset width : Nat) (value : Word)
  | bufRead (buffer : Buffer) (address : Nat)
  | bufWrite (buffer : Buffer) (address : Nat) (value : Byte)
  | reset
  deriving DecidableEq, Repr

/-- What the last host read returned. The model's own: the spec's read returns its value to the host. -/
inductive Reply where
  | none
  | word (value : Word)
  | byte (value : Byte)
  deriving DecidableEq, Repr

/-! ## The state -/

/-- The whole machine. -/
structure State where
  /-- the build-time parameters (R6); no step changes them -/
  cfg : Config
  /-- `CMD`, offset 0x00 (R23) -/
  cmd : Word
  /-- `STATUS`, offset 0x04 (R24) -/
  status : Word
  /-- `ERR_POS`, offset 0x08 (R25) -/
  errPos : Word
  /-- `SRC_LEN`, offset 0x0C (R26) -/
  srcLen : Word
  /-- `AUX_LEN`, offset 0x10 (R26) -/
  auxLen : Word
  /-- `OUT_LIMIT`, offset 0x14 (R27) -/
  outLimit : Word
  /-- `OUT_LEN`, offset 0x18 (R28) -/
  outLen : Word
  /-- `LZ_CFG`, offset 0x1C (R29) -/
  lzCfg : Word
  /-- `LZ_TARGET`, offset 0x20 (R30) -/
  lzTarget : Word
  /-- `BRR_LOOP`, offset 0x24 (R31) -/
  brrLoop : Word
  /-- the SRC buffer (R37) -/
  src : Memory
  /-- the AUX buffer (R37) -/
  aux : Memory
  /-- the DST buffer (R37) -/
  dst : Memory
  /-- the op-local working state (R35) -/
  work : Work
  /-- the host accesses still to come, oldest first (R71); the model's own -/
  host : List HostAccess
  /-- the value the last host read returned; the model's own -/
  reply : Reply
  /-- the index of the next free value (log entry 2); the model's own -/
  freeIdx : Nat
  deriving DecidableEq, Repr

/-! ## Stops -/

/-- Reasons a step stops with a fault. -/
inductive Fault where
  /-- An engine needs a byte of SRC or AUX that the host has not written since reset: "A model should treat the read as a
  fault" (R68; 93_implementation_defined.md U1). Raised by the fetch of stream elements and by the meanings that read a
  buffer themselves. Safe: the spec calls the result unpredictable. -/
  | unwrittenByte (buffer : Buffer) (address : Nat)
  /-- A command did not end within the model's bound on its engine steps (log entry 15). Raised by the engine loop when its fuel is used up, which no
  state reaches; that it is never raised is one of the package's statements. Safe. -/
  | notTerminated
  deriving DecidableEq, Repr

/-- Reasons an instruction has no meaning where it stands. -/
inductive Refusal where
  /-- The instruction has no meaning yet; its mnemonic as the opcode table has it. Raised by exec's refused arms only. Safe. -/
  | notModelled (mnemonic : String)
  /-- A stream element is executed where no engine stands at a point that selects it. The spec gives a stream element a
  meaning only as the piece of a stream that the running engine interprets (R12, R90, R119). Raised by the meanings of stream
  elements; a step raises it in no state, since a step takes elements from the running engine's own stream. Safe. -/
  | notSelected
  deriving DecidableEq, Repr

/-- What one step, one instruction or one engine step answers. -/
abbrev Result := Host.Outcome State Fault Refusal

/-! ## Reset -/

/-- The state right after reset (R22, R38, R290) of a block with the given parameters: every register at its reset value,
no byte of any buffer known, idle. The model's own fields start empty: DESIGN CHOICE (log entries 2 and 4). -/
def State.resetWith (cfg : Config) : State :=
  { cfg := cfg
    cmd := 0x00000000#32
    status := 0x00000000#32
    errPos := 0x00000000#32
    srcLen := 0x00000000#32
    auxLen := 0x00000000#32
    outLimit := 0x00000000#32
    outLen := 0x00000000#32
    lzCfg := 0x00000304#32
    lzTarget := 0x00000000#32
    brrLoop := 0x00000000#32
    src := []
    aux := []
    dst := []
    work := .idle
    host := []
    reply := .none
    freeIdx := 0 }

/-- The machine right after reset. -/
def State.reset : State := State.resetWith Config.default

end Sys2Proof.Machine
end

