-- ==== Sys2Proof/Machine/Flags.lean ====
section
/-! DEFINITION. The numbers and flag words a command leaves: the error codes (spec/60_exceptions.md rule R251), the
`STATUS` word (R24) and the `BRR_LOOP` word (R31). -/

namespace Sys2Proof.Machine

/-- The code of an error (R251). -/
def Err.code : Err → BitVec 8
  | .badMagic => 1#8
  | .truncatedRecord => 2#8
  | .unexpectedEof => 3#8
  | .checksumMismatch => 4#8
  | .sourceCrcMismatch => 5#8
  | .targetCrcMismatch => 6#8
  | .invalidHeader => 7#8
  | .offsetTooLarge => 8#8
  | .distanceOutOfBounds => 9#8
  | .danglingPointer => 10#8
  | .indexOutOfRange => 11#8
  | .malformedEscape => 12#8
  | .tooLong => 13#8
  | .sourceSizeMismatch => 14#8
  | .outputLimitExceeded => 15#8
  | .endBeforeBlocks => 16#8
  | .noEnd => 17#8
  | .lengthZero => 18#8
  | .illegalCommand => 19#8
  | .illegalOperand => 20#8

/-- `STATUS` after a command: `ERR` in bits 7:0, `DONE` (bit 8) set, bits 31:9 zero (R24). -/
def statusWord (code : BitVec 8) : Word := 1#24 ++ code

/-- `BRR_LOOP`: `VALID` in bit 31, `POINT` in bits 30:0 (R31, R161). -/
def loopWord (valid : Bool) (point : Nat) : Word := BitVec.ofBool valid ++ BitVec.ofNat 31 point

/-- `STATUS.ERR` (R24). -/
def State.errCode (s : State) : BitVec 8 := s.status.extractLsb' 0 8

/-- `STATUS.DONE` (R24). -/
def State.done (s : State) : Bool := s.status.getLsbD 8

/-- `BRR_LOOP.VALID` (R31). -/
def State.loopValid (s : State) : Bool := s.brrLoop.getLsbD 31

/-- `BRR_LOOP.POINT` (R31). -/
def State.loopPoint (s : State) : Nat := (s.brrLoop.extractLsb' 0 31).toNat

end Sys2Proof.Machine
end

