-- ==== Sys2Proof/Machine/Ops.lean ====
section
/-! DEFINITION. The operations every command shares: reading and writing a buffer (spec/20_memory.md), ending a command with
an error (spec/60_exceptions.md rule R256) and ending it with success (R255). The block has no handler, so there is no
return from an error: the next write to `CMD` simply runs (R257). -/

namespace Sys2Proof.Machine

/-! ## Memory -/

/-- The byte at an address, or none where no byte is known. -/
def Memory.read : Memory → Nat → Option Byte
  | [], _ => none
  | (k, v) :: m, a => if k = a then some v else Memory.read m a

/-- Sets the byte at an address; the list stays in rising order. -/
def Memory.write : Memory → Nat → Byte → Memory
  | [], a, v => [(a, v)]
  | (k, x) :: m, a, v =>
    if a < k then (a, v) :: (k, x) :: m
    else if a = k then (a, v) :: m
    else (k, x) :: Memory.write m a v

/-- The memory that holds the bytes at addresses `a`, `a + 1`, ... and nothing else. -/
def Memory.ofBytes : Nat → List Byte → Memory
  | _, [] => []
  | a, b :: bs => (a, b) :: Memory.ofBytes (a + 1) bs

/-- The canonical form: addresses strictly rising. An unlisted address holds no value, so no entry can equal what it reads
as. -/
def Memory.wf : Memory → Bool
  | [] => true
  | (k, _) :: m => m.all (fun c => decide (k < c.1)) && Memory.wf m

/-- The contents of a buffer. -/
def State.buffer (s : State) : Buffer → Memory
  | .src => s.src
  | .aux => s.aux
  | .dst => s.dst

/-- The capacity of a buffer (R6). -/
def State.capacity (s : State) : Buffer → Nat
  | .src => s.cfg.srcCap
  | .aux => s.cfg.auxCap
  | .dst => s.cfg.dstCap

/-! ## Stops inside a command -/

/-- How a piece of a command can end before its result: `raise E(pos)` (R256), or a fault of the model. -/
inductive Stop where
  | raise (e : Err) (pos : Nat)
  | fault (f : Fault)
  deriving DecidableEq, Repr

/-- `if bad: raise e(pos)` (R11). -/
def failIf (bad : Prop) [Decidable bad] (e : Err) (pos : Nat) : Except Stop Unit :=
  if bad then .error (.raise e pos) else .ok ()

/-- `MemRead(S, a, 1)` (R11, R63). A byte the host has not written faults (R68). -/
def State.readByte (s : State) (b : Buffer) (a : Nat) : Except Stop Byte :=
  match (s.buffer b).read a with
  | some v => .ok v
  | none => .error (.fault (.unwrittenByte b a))

/-- `MemRead(S, a, n)`: `n` single-byte reads in ascending address order (R11, R63). -/
def State.readBytes (s : State) (b : Buffer) (a : Nat) : Nat → Except Stop (List Byte)
  | 0 => .ok []
  | n + 1 =>
    match s.readByte b a with
    | .error e => .error e
    | .ok v =>
      match s.readBytes b (a + 1) n with
      | .error e => .error e
      | .ok vs => .ok (v :: vs)

/-! ## The end of a command -/

/-- `BRR_LOOP` after an error: 0 if the command is `BRRDEC`, else unchanged (R31, R256). -/
def State.loopAfterError (s : State) : Word :=
  match s.work with
  | .brr _ => 0#32
  | _ => s.brrLoop

/-- `BRR_LOOP` after a success: the loop record if the command is `BRRDEC`, else unchanged (R31, R255). -/
def State.loopAfterSuccess (s : State) : Word :=
  match s.work with
  | .brr b => loopWord b.loopValid b.loopPoint
  | _ => s.brrLoop

/-- `raise e(pos)` (R256): the six lines of the rule. Every byte of DST becomes unspecified, the working state is gone. -/
def State.raise (s : State) (e : Err) (pos : Nat) : State :=
  { s with
    status := statusWord e.code
    errPos := BitVec.ofNat 32 pos
    outLen := 0#32
    brrLoop := s.loopAfterError
    dst := []
    work := .idle }

/-- `commit(n)` (R255) of a working copy of `n` bytes: they become DST below `n`, DST above becomes unspecified (R67). -/
def State.commit (s : State) (out : List Byte) : State :=
  { s with
    status := statusWord 0#8
    errPos := 0#32
    outLen := BitVec.ofNat 32 out.length
    brrLoop := s.loopAfterSuccess
    dst := Memory.ofBytes 0 out
    work := .idle }

/-- The state with another working state. -/
def State.setWork (s : State) (w : Work) : State := { s with work := w }

/-- A stop inside a command ends the command with the error (R256), or the step with the fault. -/
def State.stop (s : State) : Stop → Result
  | .raise e pos => .next (s.raise e pos)
  | .fault f => .fault f

/-- The command goes on with another working state, or stops. -/
def State.continueWith (s : State) (r : Except Stop Work) : Result :=
  match r with
  | .ok w => .next (s.setWork w)
  | .error st => s.stop st

/-! ## What an engine reads next -/

/-- What the running engine finds at its cursor: the next stream element, or the end of the command with its output. -/
inductive Fetched where
  | element (i : Instr)
  | done (out : List Byte)
  deriving DecidableEq, Repr

/-- The element that the bytes of the given kind are. A byte list the kind does not admit is an error of the caller's choice. -/
def fetchAs (kind : Element) (bytes : List Byte) (e : Err) (pos : Nat) : Except Stop Fetched :=
  match decodeElement kind bytes with
  | .ok i => .ok (.element i)
  | .error _ => .error (.raise e pos)

end Sys2Proof.Machine
end

