-- ==== Sys2Proof/Machine/Operands.lean ====
section
/-! DEFINITION. The operand forms: the effective output bound (spec/10_state.md rule R27), the fields of `LZ_CFG` (R29), the
split of an LZ match word (spec/30_encoding.md rule R111), the value of a VLV (R116, R221), and the depth of a tile command
(R94). -/

namespace Sys2Proof.Machine

/-- `limit = min(R.OUT_LIMIT, DST_CAP)` (R27). -/
def State.limit (s : State) : Nat := min s.outLimit.toNat s.cfg.dstCap

/-- The depth `d` (R94). -/
def Depth.bits : Depth → Nat
  | .two => 2
  | .four => 4

/-- The packed tile size `T = 8*d` in bytes (R100, R101). -/
def Depth.tileBytes : Depth → Nat
  | .two => 16
  | .four => 32

/-- The kind of packed tile of a depth. -/
def Depth.tileKind : Depth → Element
  | .two => .tile2
  | .four => .tile4

/-! ## `LZ_CFG` (R29) -/

/-- `LEN_BITS`, bits 3:0. -/
def lzLenBits (cfg : Word) : Nat := (cfg.extractLsb' 0 4).toNat

/-- `LEN_LOW`, bit 4. -/
def lzLenLow (cfg : Word) : Bool := cfg.getLsbD 4

/-- `PAIR_LE`, bit 5. -/
def lzPairLe (cfg : Word) : Bool := cfg.getLsbD 5

/-- `TERM`, bits 7:6. -/
def lzTerm (cfg : Word) : Nat := (cfg.extractLsb' 6 2).toNat

/-- `LEN_BIAS`, bits 15:8. -/
def lzLenBias (cfg : Word) : Nat := (cfg.extractLsb' 8 8).toNat

/-- `END_CTRL`, bits 23:16. -/
def lzEndCtrl (cfg : Word) : Byte := cfg.extractLsb' 16 8

/-- The grammar check of R181: the reserved bits are 0, `LEN_BITS` is not 0, `TERM` is not 3. -/
def lzLegal (cfg : Word) : Bool :=
  cfg.extractLsb' 24 8 == 0#8 && lzLenBits cfg != 0 && lzTerm cfg != 3

/-- The match word `w` of two bytes (R111). -/
def lzWord (cfg : Word) (b0 b1 : Byte) : Nat :=
  if lzPairLe cfg then b1.toNat * 256 + b0.toNat else b0.toNat * 256 + b1.toNat

/-- The length field: the high `LEN_BITS` bits of the word, or the low ones when `LEN_LOW = 1` (R111). -/
def lzLenField (cfg : Word) (b0 b1 : Byte) : Nat :=
  if lzLenLow cfg then lzWord cfg b0 b1 % 2 ^ lzLenBits cfg else lzWord cfg b0 b1 / 2 ^ (16 - lzLenBits cfg)

/-- The distance field: the other `16 - LEN_BITS` bits (R111). -/
def lzDist (cfg : Word) (b0 b1 : Byte) : Nat :=
  if lzLenLow cfg then lzWord cfg b0 b1 / 2 ^ lzLenBits cfg else lzWord cfg b0 b1 % 2 ^ (16 - lzLenBits cfg)

/-- The copy length `lenf + LEN_BIAS` (R111). -/
def lzLength (cfg : Word) (b0 b1 : Byte) : Nat := lzLenField cfg b0 b1 + lzLenBias cfg

/-! ## VLV -/

/-- The value of a VLV: digit `k` has weight `2^(7*k)` (R116, R221). -/
def vlvValue : List (BitVec 7) → Nat
  | [] => 0
  | d :: ds => d.toNat + 128 * vlvValue ds

end Sys2Proof.Machine
end

