-- ==== Sys2Proof/Machine/Brr.lean ====
section
/-! DEFINITION. The BRR ADPCM decoder (spec/42_brr.md). Arithmetic is on exact integers and narrowed at the end; R164, R165
and R168 say that no value leaves 32 bits, so this is the 32-bit arithmetic of the rules. -/

namespace Sys2Proof.Machine

/-- `x >> n` on a signed value: `floor(x / 2^n)` (R10, R165). -/
def asr (x : Int) (n : Nat) : Int := x / 2 ^ n

/-- `clamp16(v)` (R11, R168). -/
def clamp16 (v : Int) : Int := if v < -32768 then -32768 else if 32767 < v then 32767 else v

/-- `scale(s, shift)` (R164); a zero nibble counts as non-negative. -/
def scale (s : Int) (shift : Nat) : Int :=
  if shift ≤ 12 then s * 2 ^ shift else if s < 0 then -2048 else 2047

/-- `term(filter, p1, p2)` (R165): each product is shifted on its own, the sign in the numerator. -/
def term (filter : Nat) (p1 p2 : Int) : Int :=
  match filter with
  | 0 => 0
  | 1 => asr (p1 * 15) 4
  | 2 => asr (p1 * 61) 5 + asr (p2 * -15) 4
  | _ => asr (p1 * 115) 6 + asr (p2 * -13) 4

/-- The sample of one nibble (R163, R164, R165, R168). -/
def brrSample (shift filter : Nat) (nibble : BitVec 4) (p1 p2 : Sample) : Sample :=
  BitVec.ofInt 16 (clamp16 (scale nibble.toInt shift + term filter p1.toInt p2.toInt))

/-- One sample is produced: its two bytes, low byte first, are appended (R109), then `p2 = p1; p1 = sample` (R168). -/
def BrrWork.emit (b : BrrWork) (sample : Sample) : BrrWork :=
  { b with out := b.out ++ bytesLe16 sample, p1 := sample, p2 := b.p1 }

/-- The 16 nibbles of a block in turn (R161 step 2). -/
def BrrWork.decode (shift filter : Nat) : BrrWork → List (BitVec 4) → BrrWork
  | b, [] => b
  | b, nib :: nibs => BrrWork.decode shift filter (b.emit (brrSample shift filter nib b.p1 b.p2)) nibs

/-- The number of samples emitted: two output bytes each (R109, R169). -/
def BrrWork.samples (b : BrrWork) : Nat := b.out.length / 2

/-- The whole block: its samples, then the loop record (R166), then the cursor. -/
def BrrWork.block (b : BrrWork) (shift filter : Nat) (loop : Bool) (nibbles : List (BitVec 4)) : BrrWork :=
  let b' := BrrWork.decode shift filter b nibbles
  { b' with
    c := b.c + 9
    loopValid := loop || b.loopValid
    loopPoint := if loop then b.samples else b.loopPoint }

/-- The check of `BRRDEC` before its first block (R161). -/
def brrChecks (s : State) : Except Stop Unit := failIf (s.cfg.srcCap < s.srcLen.toNat) .illegalOperand 0

/-- `BRRDEC`: the next block. Nothing left is `NoEnd`, fewer than 9 bytes `EndBeforeBlocks` (R170); the limit is checked when
the header has been read and before the data bytes are (R161, R169). -/
def brrFetch (b : BrrWork) (s : State) : Except Stop Fetched := do
  failIf (s.srcLen.toNat ≤ b.c) .noEnd b.c
  failIf (s.srcLen.toNat - b.c < 9) .endBeforeBlocks b.c
  let hdr ← s.readByte .src b.c
  failIf (s.limit < 2 * (b.samples + 16)) .outputLimitExceeded b.c
  let data ← s.readBytes .src (b.c + 1) 8
  fetchAs .brrblk (hdr :: data) .endBeforeBlocks b.c

/-- `BRRBLK` (R108, R161): 16 samples, the loop record, and the end of the command when `end` is set (R167). -/
def execBrrblk (shift : BitVec 4) (filter : BitVec 2) (loop fin : Bool) (nibbles : List (BitVec 4)) (s : State) : Result :=
  match s.work with
  | .brr b =>
    if nibbles.length = 16 then
      if s.limit < 2 * (b.samples + 16) then s.stop (.raise .outputLimitExceeded b.c)
      else
        let b' := b.block shift.toNat filter.toNat loop nibbles
        if fin then .next ((s.setWork (.brr b')).commit b'.out) else .next (s.setWork (.brr b'))
    else .refused .notSelected
  | _ => .refused .notSelected

/-- `PCM16` (R109, R161): the decoder produces one sample. A block does this 16 times (`BrrWork.decode`); no stream holds one. -/
def execPcm16 (sample : Sample) (s : State) : Result :=
  match s.work with
  | .brr b => .next (s.setWork (.brr (b.emit sample)))
  | _ => .refused .notSelected

end Sys2Proof.Machine
end

