-- ==== Sys2Proof/Machine/Color.lean ====
section
/-! DEFINITION. The colour converter (spec/41_color.md). It searches no palette and gives no meaning to entry 0 (R155). -/

namespace Sys2Proof.Machine

/-- `widen(c5) = (c5 << 3) | (c5 >> 2)` (R150). -/
def widen (c5 : BitVec 5) : Byte := (c5.setWidth 8 <<< 3) ||| (c5.setWidth 8 >>> 2)

/-- `narrow(c8) = c8 >> 3` (R150). -/
def narrow (c8 : Byte) : BitVec 5 := (c8 >>> 3).setWidth 5

/-- The checks of `CEXP` (R152). -/
def cexpChecks (s : State) : Except Stop Unit := do
  failIf (s.cfg.srcCap < s.srcLen.toNat) .illegalOperand 0
  failIf (s.srcLen.toNat % 2 ≠ 0) .unexpectedEof (s.srcLen.toNat - 1)
  failIf (s.limit < 3 * (s.srcLen.toNat / 2)) .outputLimitExceeded (2 * (s.limit / 3))

/-- The checks of `CPACK` (R153). -/
def cpackChecks (s : State) : Except Stop Unit := do
  failIf (s.cfg.srcCap < s.srcLen.toNat) .illegalOperand 0
  failIf (s.srcLen.toNat % 3 ≠ 0) .unexpectedEof (s.srcLen.toNat - s.srcLen.toNat % 3)
  failIf (s.limit < 2 * (s.srcLen.toNat / 3)) .outputLimitExceeded (3 * (s.limit / 2))

/-- `CEXP`: the next packed colour, or the end (R152). -/
def cexpFetch (k : ColorWork) (s : State) : Except Stop Fetched :=
  if s.srcLen.toNat ≤ k.c then .ok (.done k.out)
  else do
    failIf (s.srcLen.toNat - k.c < 2) .unexpectedEof k.c
    let bytes ← s.readBytes .src k.c 2
    fetchAs .color15 bytes .unexpectedEof k.c

/-- `CPACK`: the next expanded colour, or the end (R153). -/
def cpackFetch (k : ColorWork) (s : State) : Except Stop Fetched :=
  if s.srcLen.toNat ≤ k.c then .ok (.done k.out)
  else do
    failIf (s.srcLen.toNat - k.c < 3) .unexpectedEof k.c
    let bytes ← s.readBytes .src k.c 3
    fetchAs .rgb24 bytes .unexpectedEof k.c

/-- `COLOR15` (R106, R152): the three channels are widened and appended in the order R, G, B; bit 15 is ignored. -/
def execColor15 (_x : Bool) (b g r : BitVec 5) (s : State) : Result :=
  match s.work with
  | .cexp k => .next (s.setWork (.cexp { c := k.c + 2, out := k.out ++ [widen r, widen g, widen b] }))
  | _ => .refused .notSelected

/-- `RGB24` (R107, R153): the three channels are narrowed and appended as a packed colour with bit 15 zero. -/
def execRgb24 (r g b : Byte) (s : State) : Result :=
  match s.work with
  | .cpack k =>
    .next (s.setWork (.cpack
      { c := k.c + 3, out := k.out ++ bytesLe16 (colorWord false (narrow b) (narrow g) (narrow r)) }))
  | _ => .refused .notSelected

end Sys2Proof.Machine
end

