-- ==== Sys2Proof/Machine/Ips.lean ====
section
/-! DEFINITION. The IPS patch apply engine (spec/44_ips.md). `OffsetTooLarge` is never raised (R208). -/

namespace Sys2Proof.Machine

/-- The unsigned number of a byte sequence, first byte most significant (`be16`, `be24` of R11). -/
def beNat (bytes : List Byte) : Nat := bytes.foldl (fun acc b => acc * 256 + b.toNat) 0

/-- The check of `IPSAPPLY` and `UPSAPPLY` before anything is read (R201, R228). -/
def patchChecks (s : State) : Except Stop Unit :=
  failIf (s.cfg.srcCap < s.srcLen.toNat ∨ s.cfg.auxCap < s.auxLen.toNat) .illegalOperand 0

/-- The output made at least `e` bytes long, the new bytes 0 (`extend` of R201). -/
def extendTo (out : List Byte) (e : Nat) : List Byte := out ++ List.replicate (e - out.length) 0#8

/-- The bytes `offset`, `offset + 1`, ... of the output replaced by the data, in an output at least that long. -/
def overwrite (out : List Byte) (offset : Nat) (data : List Byte) : List Byte :=
  out.take offset ++ data ++ out.drop (offset + data.length)

/-- One record of either kind (R204, R205): the output grows to `offset + k` with zeros, then `k` bytes are written. -/
def applyRecord (out : List Byte) (offset : Nat) (data : List Byte) : List Byte :=
  overwrite (extendTo out (offset + data.length)) offset data

/-- A record at cursor `c` whose three offset bytes have been read and are not `"EOF"` (R201, R204, R205). The limit is
checked before the data bytes of a normal record are read. -/
def ipsFetchRecord (c : Nat) (offsetBytes : List Byte) (s : State) : Except Stop Fetched := do
  failIf (s.auxLen.toNat - c < 5) .truncatedRecord c
  let sizeBytes ← s.readBytes .aux (c + 3) 2
  if beNat sizeBytes ≠ 0 then
    failIf (s.auxLen.toNat - c < 5 + beNat sizeBytes) .truncatedRecord c
    failIf (s.limit < beNat offsetBytes + beNat sizeBytes) .outputLimitExceeded c
    let data ← s.readBytes .aux (c + 5) (beNat sizeBytes)
    fetchAs .ipsrec (offsetBytes ++ sizeBytes ++ data) .truncatedRecord c
  else
    failIf (s.auxLen.toNat - c < 8) .truncatedRecord c
    let rest ← s.readBytes .aux (c + 5) 3
    fetchAs .ipsrle (offsetBytes ++ sizeBytes ++ rest) .truncatedRecord c

/-- `IPSAPPLY`: the magic (R207), then at each record boundary the terminator or a record (R202, R114). -/
def ipsFetch (p : IpsWork) (s : State) : Except Stop Fetched :=
  match p.phase with
  | .magic => do
    failIf (s.auxLen.toNat < 5) .badMagic 0
    let bytes ← s.readBytes .aux 0 5
    fetchAs .ipsmagic bytes .badMagic 0
  | .records => do
    failIf (s.auxLen.toNat - p.c < 3) .truncatedRecord p.c
    let offsetBytes ← s.readBytes .aux p.c 3
    if offsetBytes = eofMagic then fetchAs .ipseof offsetBytes .truncatedRecord p.c
    else ipsFetchRecord p.c offsetBytes s

/-- `IPSMAGIC` (R113, R203): the header is there; the output starts as a copy of the source, if the source fits the limit. -/
def execIpsmagic (s : State) : Result :=
  match s.work with
  | .ips p =>
    if p.phase = .magic then
      if s.limit < s.srcLen.toNat then s.stop (.raise .outputLimitExceeded 0)
      else
        match s.readBytes .src 0 s.srcLen.toNat with
        | .error st => s.stop st
        | .ok bytes => .next (s.setWork (.ips { phase := .records, c := 5, out := bytes }))
    else .refused .notSelected
  | _ => .refused .notSelected

/-- What a record of `len` bytes in the patch does to the engine (R204, R205, R209). -/
def ipsRecord (offset : Nat) (data : List Byte) (len : Nat) (s : State) : Result :=
  match s.work with
  | .ips p =>
    if p.phase = .records then
      if s.limit < offset + data.length then s.stop (.raise .outputLimitExceeded p.c)
      else .next (s.setWork (.ips { p with c := p.c + len, out := applyRecord p.out offset data }))
    else .refused .notSelected
  | _ => .refused .notSelected

/-- `IPSREC` (R113, R204). -/
def execIpsrec (offset : BitVec 24) (data : List Byte) (s : State) : Result :=
  if (Instr.ipsrec offset data).wellFormed then ipsRecord offset.toNat data (5 + data.length) s
  else .refused .notSelected

/-- `IPSRLE` (R113, R205); with run size 0 nothing is written but the output still grows to the offset. -/
def execIpsrle (offset : BitVec 24) (runSize : BitVec 16) (value : Byte) (s : State) : Result :=
  if (Instr.ipsrle offset runSize value).wellFormed then
    ipsRecord offset.toNat (List.replicate runSize.toNat value) 8 s
  else .refused .notSelected

/-- `IPSEOF` (R202): the patch is complete and the command commits; bytes after it are not read (R210). -/
def execIpseof (s : State) : Result :=
  match s.work with
  | .ips p => if p.phase = .records then .next (s.commit p.out) else .refused .notSelected
  | _ => .refused .notSelected

end Sys2Proof.Machine
end

