-- ==== Sys2Proof/Machine/Lz.lean ====
section
/-! DEFINITION. The LZ token decompressor (spec/43_lz.md), driven by `LZ_CFG`. -/

namespace Sys2Proof.Machine

/-- The checks of `LZDEC` (R181, R182). -/
def lzChecks (s : State) : Except Stop Unit := do
  failIf (s.cfg.srcCap < s.srcLen.toNat) .illegalOperand 0
  failIf (lzLegal s.lzCfg = false) .illegalOperand 0

/-- The byte-by-byte copy of R187: each step appends the byte `dist` places back from the end of the output as it then
stands. -/
def lzCopy (dist : Nat) : Nat → List Byte → List Byte
  | 0, out => out
  | n + 1, out => lzCopy dist n (out ++ [out.getD (out.length - dist) 0#8])

/-- The state after one bit of the control byte is used: `ctrl = (ctrl << 1) & 0xFF; bits_left = bits_left - 1` (R182). -/
def LzWork.useBit (z : LzWork) : LzWork := { z with ctrl := z.ctrl <<< 1, bitsLeft := z.bitsLeft - 1 }

/-- What happens where input has run out at a token boundary: the end of a `TERM = 0` stream, an error otherwise (R188). -/
def lzInputEnd (z : LzWork) (s : State) : Except Stop Fetched :=
  if lzTerm s.lzCfg = 0 then .ok (.done z.out) else .error (.raise .unexpectedEof z.c)

/-- `LZDEC`: the end by output length (R188), else the next control byte or end marker when all bits are used (R183), else
the token that the next control bit selects (R184, R185). -/
def lzFetch (z : LzWork) (s : State) : Except Stop Fetched :=
  if lzTerm s.lzCfg = 1 ∧ z.out.length = s.lzTarget.toNat then .ok (.done z.out)
  else if z.bitsLeft = 0 then
    if s.srcLen.toNat ≤ z.c then lzInputEnd z s
    else do
      let b ← s.readByte .src z.c
      if lzTerm s.lzCfg = 2 ∧ b = lzEndCtrl s.lzCfg then fetchAs .lzend [b] .unexpectedEof z.c
      else fetchAs .lzctrl [b] .unexpectedEof z.c
  else if z.ctrl.getLsbD 7 = false then
    if s.srcLen.toNat ≤ z.c then lzInputEnd z s
    else do
      failIf (s.limit < z.out.length + 1) .outputLimitExceeded z.c
      let b ← s.readByte .src z.c
      fetchAs .lzlit [b] .unexpectedEof z.c
  else
    if s.srcLen.toNat ≤ z.c then lzInputEnd z s
    else do
      failIf (s.srcLen.toNat - z.c < 2) .unexpectedEof z.c
      let bytes ← s.readBytes .src z.c 2
      fetchAs .lzmatch bytes .unexpectedEof z.c

/-- `LZCTRL` (R110, R183): the byte becomes the control byte, all 8 of its bits unused. -/
def execLzctrl (ctrl : Byte) (s : State) : Result :=
  match s.work with
  | .lz z =>
    if z.bitsLeft = 0 ∧ ¬(lzTerm s.lzCfg = 2 ∧ ctrl = lzEndCtrl s.lzCfg) then
      .next (s.setWork (.lz { z with c := z.c + 1, ctrl := ctrl, bitsLeft := 8 }))
    else .refused .notSelected
  | _ => .refused .notSelected

/-- `LZEND` (R112, R188): the end marker is consumed and the command ends. -/
def execLzend (marker : Byte) (s : State) : Result :=
  match s.work with
  | .lz z =>
    if z.bitsLeft = 0 ∧ lzTerm s.lzCfg = 2 ∧ marker = lzEndCtrl s.lzCfg then .next (s.commit z.out)
    else .refused .notSelected
  | _ => .refused .notSelected

/-- `LZLIT` (R184): the byte is appended; `OutputLimitExceeded` where it does not fit (R189). -/
def execLzlit (data : Byte) (s : State) : Result :=
  match s.work with
  | .lz z =>
    if z.bitsLeft ≠ 0 ∧ z.ctrl.getLsbD 7 = false then
      if s.limit < z.out.length + 1 then s.stop (.raise .outputLimitExceeded z.c)
      else .next (s.setWork (.lz { z.useBit with c := z.c + 1, out := z.out ++ [data] }))
    else .refused .notSelected
  | _ => .refused .notSelected

/-- The checks of a match, in order (R182, R186, R188, R189). -/
def lzMatchChecks (length dist : Nat) (z : LzWork) (s : State) : Except Stop Unit := do
  failIf (length = 0) .lengthZero z.c
  failIf (dist = 0 ∨ z.out.length < dist) .distanceOutOfBounds z.c
  failIf (s.limit < z.out.length + length) .outputLimitExceeded z.c
  failIf (lzTerm s.lzCfg = 1 ∧ s.lzTarget.toNat < z.out.length + length) .outputLimitExceeded z.c

/-- `LZMATCH` (R111, R185): the checks, then the copy. -/
def execLzmatch (b0 b1 : Byte) (s : State) : Result :=
  match s.work with
  | .lz z =>
    if z.bitsLeft ≠ 0 ∧ z.ctrl.getLsbD 7 = true then
      match lzMatchChecks (lzLength s.lzCfg b0 b1) (lzDist s.lzCfg b0 b1) z s with
      | .error st => s.stop st
      | .ok _ =>
        .next (s.setWork (.lz { z.useBit with
          c := z.c + 2
          out := lzCopy (lzDist s.lzCfg b0 b1) (lzLength s.lzCfg b0 b1) z.out }))
    else .refused .notSelected
  | _ => .refused .notSelected

end Sys2Proof.Machine
end

