-- ==== Sys2Proof/Machine/Tile.lean ====
section
/-! DEFINITION. The tile planar codec (spec/40_tile.md): unpack, flips, pack, the checks of the six tile commands, what the
tile engines read next, and the meanings of the tile stream elements. The unit applies no palette (R142). -/

namespace Sys2Proof.Machine

/-! ## Tiles as matrices -/

/-- A tile matrix: column `x` from the left, row `y` from the top (R9). -/
abbrev Matrix := Nat → Nat → Byte

/-- `planeoff(p, y)`: the byte of a packed tile that holds plane `p` of row `y` (R101, R130). -/
def planeOff (p y : Nat) : Nat := 2 * y + p % 2 + (if 2 ≤ p then 16 else 0)

/-- The plane and the row that byte `off` of a packed tile holds (R100, R101, R136). -/
def planeAt (off : Nat) : Nat × Nat := if off < 16 then (off % 2, off / 2) else (2 + off % 2, (off - 16) / 2)

/-- `unpack(tb, d)` (R130): bit `p` of pixel `(x, y)` is bit `7 - x` of the byte at `planeoff(p, y)`. -/
def unpack (tb : List Byte) (d : Depth) : Matrix := fun x y =>
  BitVec.ofNat 8 (((List.range d.bits).map fun p => ((tb.getD (planeOff p y) 0#8).getLsbD (7 - x)).toNat * 2 ^ p).sum)

/-- `hflip` (R131). -/
def hflip (m : Matrix) : Matrix := fun x y => m (7 - x) y

/-- `vflip` (R132). -/
def vflip (m : Matrix) : Matrix := fun x y => m x (7 - y)

/-- `flip(m, H, V)` (R132). -/
def flip (m : Matrix) (h v : Bool) : Matrix := fun x y => m (if h then 7 - x else x) (if v then 7 - y else y)

/-- Byte `planeoff(p, y)` of a packed tile: its bit `7 - x` is bit `p` of `m(x, y)` (R136). -/
def packByte (m : Matrix) (p y : Nat) : Byte :=
  BitVec.ofNat 8 (((List.range 8).map fun x => ((m x y).getLsbD p).toNat * 2 ^ (7 - x)).sum)

/-- `pack(m, d)` (R136). -/
def pack (m : Matrix) (d : Depth) : List Byte :=
  (List.range d.tileBytes).map fun off => packByte m (planeAt off).1 (planeAt off).2

/-- The 64 bytes of an unpacked tile: pixel `(x, y)` is byte `8*y + x` (R103). -/
def tileBytes (m : Matrix) : List Byte := (List.range 64).map fun k => m (k % 8) (k / 8)

/-- The matrix of an unpacked tile (R103). -/
def tileMatrix (pixels : List Byte) : Matrix := fun x y => pixels.getD (8 * y + x) 0#8

/-- The assembled image (R105, R140): image pixel `(X, Y)` is byte `Y*8*W + X` and belongs to tile `(X / 8, Y / 8)`, which is
tile `(Y / 8) * W + X / 8` of the sheet. -/
def assemble (w ht : Nat) (tiles : List (List Byte)) : List Byte :=
  (List.range (64 * (w * ht))).map fun k =>
    (tiles.getD (k / (8 * w) / 8 * w + k % (8 * w) / 8) []).getD (8 * (k / (8 * w) % 8) + k % (8 * w) % 8) 0#8

/-! ## The checks of the commands -/

/-- The checks of `TDEC2`, `TDEC4` (R134, R135). -/
def tdecChecks (d : Depth) (s : State) : Except Stop Unit := do
  failIf (s.cfg.srcCap < s.srcLen.toNat) .illegalOperand 0
  failIf (s.srcLen.toNat % d.tileBytes ≠ 0) .unexpectedEof (s.srcLen.toNat - s.srcLen.toNat % d.tileBytes)
  failIf (s.limit < 64 * (s.srcLen.toNat / d.tileBytes)) .outputLimitExceeded (d.tileBytes * (s.limit / 64))

/-- The range check of `TENC2`, `TENC4`: ascending addresses, the first offender wins (R137). -/
def scanPixels (d : Depth) (s : State) (a : Nat) : Nat → Except Stop Unit
  | 0 => .ok ()
  | n + 1 => do
    let v ← s.readByte .src a
    failIf (2 ^ d.bits ≤ v.toNat) .indexOutOfRange a
    scanPixels d s (a + 1) n

/-- The checks of `TENC2`, `TENC4` (R137, R138). -/
def tencChecks (d : Depth) (s : State) : Except Stop Unit := do
  failIf (s.cfg.srcCap < s.srcLen.toNat) .illegalOperand 0
  failIf (s.srcLen.toNat % 64 ≠ 0) .unexpectedEof (s.srcLen.toNat - s.srcLen.toNat % 64)
  failIf (s.limit < d.tileBytes * (s.srcLen.toNat / 64)) .outputLimitExceeded (64 * (s.limit / d.tileBytes))
  scanPixels d s 0 s.srcLen.toNat

/-- The checks of `TASM2`, `TASM4` up to the flip list (R140, R141); `n` is `W * HT`. -/
def tasmChecks (d : Depth) (n : Nat) (s : State) : Except Stop Unit := do
  failIf (s.cfg.srcCap < s.srcLen.toNat ∨ s.cfg.auxCap < s.auxLen.toNat) .illegalOperand 0
  failIf (s.srcLen.toNat < d.tileBytes * n) .unexpectedEof s.srcLen.toNat
  failIf (d.tileBytes * n < s.srcLen.toNat) .illegalOperand (d.tileBytes * n)
  failIf (s.auxLen.toNat < n) .unexpectedEof s.auxLen.toNat
  failIf (n < s.auxLen.toNat) .illegalOperand n
  failIf (s.limit < 64 * n) .outputLimitExceeded 0

/-! ## What the tile engines read next -/

/-- `TDEC2`, `TDEC4`: the next packed tile, or the end of the sheet (R134). -/
def tdecFetch (t : TileWork) (s : State) : Except Stop Fetched :=
  if s.srcLen.toNat ≤ t.c then .ok (.done t.out)
  else do
    failIf (s.srcLen.toNat - t.c < t.depth.tileBytes) .unexpectedEof t.c
    let bytes ← s.readBytes .src t.c t.depth.tileBytes
    fetchAs t.depth.tileKind bytes .unexpectedEof t.c

/-- `TENC2`, `TENC4`: the next unpacked tile, or the end of the sheet (R137). -/
def tencFetch (t : TileWork) (s : State) : Except Stop Fetched :=
  if s.srcLen.toNat ≤ t.c then .ok (.done t.out)
  else do
    failIf (s.srcLen.toNat - t.c < 64) .unexpectedEof t.c
    let bytes ← s.readBytes .src t.c 64
    fetchAs .utile bytes .unexpectedEof t.c

/-- `TASM2`, `TASM4`: first the flip list, a byte with one of bits 7:2 set being `IllegalOperand` at its index; then the
tiles; then the image (R140). -/
def tasmFetch (a : AsmWork) (s : State) : Except Stop Fetched :=
  if a.flips.length < a.w * a.ht then do
    let b ← s.readByte .aux a.flips.length
    fetchAs .flip [b] .illegalOperand a.flips.length
  else if a.tiles.length < a.w * a.ht then do
    let bytes ← s.readBytes .src (a.depth.tileBytes * a.tiles.length) a.depth.tileBytes
    fetchAs a.depth.tileKind bytes .unexpectedEof (a.depth.tileBytes * a.tiles.length)
  else .ok (.element (.image (assemble a.w a.ht a.tiles)))

/-! ## The meanings of the tile stream elements -/

/-- A packed tile of depth `d`. In a decode command it is unpacked, flipped as the command's `H`, `V` say and appended
(R134); in an assembly command it is unpacked, flipped as its own flip byte says and placed (R140). -/
def packedTile (d : Depth) (planes : List Byte) (s : State) : Result :=
  match s.work with
  | .tdec t =>
    if t.depth = d ∧ planes.length = d.tileBytes then
      .next (s.setWork (.tdec { t with
        c := t.c + d.tileBytes
        out := t.out ++ tileBytes (flip (unpack planes d) t.h t.v) }))
    else .refused .notSelected
  | .tasm a =>
    if a.depth = d ∧ planes.length = d.tileBytes ∧ a.w * a.ht ≤ a.flips.length ∧ a.tiles.length < a.w * a.ht then
      let f := a.flips.getD a.tiles.length (false, false)
      .next (s.setWork (.tasm { a with tiles := a.tiles ++ [tileBytes (flip (unpack planes d) f.1 f.2)] }))
    else .refused .notSelected
  | _ => .refused .notSelected

/-- `TILE2` (R100, R130). -/
def execTile2 (planes : List Byte) (s : State) : Result := packedTile .two planes s

/-- `TILE4` (R101, R130). -/
def execTile4 (planes : List Byte) (s : State) : Result := packedTile .four planes s

/-- The offset of the first pixel that is out of range for the depth, if there is one (R137). -/
def firstOutOfRange (d : Depth) : List Byte → Nat → Option Nat
  | [], _ => none
  | v :: vs, k => if 2 ^ d.bits ≤ v.toNat then some k else firstOutOfRange d vs (k + 1)

/-- `UTILE` (R103, R137): an encode command flips the matrix as `H`, `V` say, packs it and appends the packed tile; a pixel
out of range ends the command with `IndexOutOfRange` at its offset. -/
def execUtile (pixels : List Byte) (s : State) : Result :=
  match s.work with
  | .tenc t =>
    if pixels.length = 64 then
      match firstOutOfRange t.depth pixels 0 with
      | some k => s.stop (.raise .indexOutOfRange (t.c + k))
      | none =>
        .next (s.setWork (.tenc { t with
          c := t.c + 64
          out := t.out ++ pack (flip (tileMatrix pixels) t.h t.v) t.depth }))
    else .refused .notSelected
  | _ => .refused .notSelected

/-- `FLIP` (R104, R140): the flags of the next tile of the flip list. -/
def execFlip (fh fv : Bool) (s : State) : Result :=
  match s.work with
  | .tasm a =>
    if a.flips.length < a.w * a.ht then .next (s.setWork (.tasm { a with flips := a.flips ++ [(fh, fv)] }))
    else .refused .notSelected
  | _ => .refused .notSelected

/-- `IMAGE` (R105, R140): the assembled image is the output of the command, `commit(64 * N)`. The image an assembly engine
produces is the one its placed tiles make. -/
def execImage (pixels : List Byte) (s : State) : Result :=
  match s.work with
  | .tasm a =>
    if a.w * a.ht ≤ a.flips.length ∧ a.w * a.ht ≤ a.tiles.length ∧ pixels = assemble a.w a.ht a.tiles then
      .next (s.commit pixels)
    else .refused .notSelected
  | _ => .refused .notSelected

end Sys2Proof.Machine
end

