-- ==== Sys2Proof/Machine/Ups.lean ====
section
/-! DEFINITION. The UPS patch apply engine and CRC-32 (spec/45_ups.md). -/

namespace Sys2Proof.Machine

/-! ## CRC-32 (R225) -/

/-- One of the 8 shifts of a byte. -/
def crcShift (poly acc : Word) : Word := if acc.getLsbD 0 then (acc >>> 1) ^^^ poly else acc >>> 1

/-- `n` shifts. -/
def crcShifts (poly : Word) : Nat → Word → Word
  | 0, acc => acc
  | n + 1, acc => crcShifts poly n (crcShift poly acc)

/-- One byte: `acc ^ b` into bits 7:0, then 8 shifts. -/
def crcByte (poly acc : Word) (b : Byte) : Word := crcShifts poly 8 (acc ^^^ b.setWidth 32)

/-- The accumulator after the bytes, in order. -/
def crcFeed (poly acc : Word) (bytes : List Byte) : Word := bytes.foldl (crcByte poly) acc

/-- The initial value of an accumulator (R225, R226). -/
def crcInit : Word := 0xFFFFFFFF#32

/-- The checksum of an accumulator. -/
def crcFinish (acc : Word) : Word := acc ^^^ 0xFFFFFFFF#32

/-- `crc32(s)` (R225). -/
def crc32 (poly : Word) (bytes : List Byte) : Word := crcFinish (crcFeed poly crcInit bytes)

/-! ## Reading the body -/

/-- `body_end = AUX_LEN - 12` (R221, R228). -/
def State.bodyEnd (s : State) : Nat := s.auxLen.toNat - 12

/-- The bytes of the VLV at AUX offset `a`, of which at most `n` are left in the body; reaching the end of the body is
`UnexpectedEof` there (R221, R223). -/
def readVlv (s : State) (a : Nat) : Nat → Except Stop (List Byte)
  | 0 => .error (.raise .unexpectedEof a)
  | n + 1 => do
    let b ← s.readByte .aux a
    if b.getLsbD 7 then .ok [b]
    else do
      let rest ← readVlv s (a + 1) n
      .ok (b :: rest)

/-- The XOR bytes at AUX offset `a` and the `00` that ends them, with at most `n` bytes left in the body (R228, R234). -/
def readXors (s : State) (a : Nat) : Nat → Except Stop (List Byte)
  | 0 => .error (.raise .unexpectedEof a)
  | n + 1 => do
    let b ← s.readByte .aux a
    if b = 0#8 then .ok [b]
    else do
      let rest ← readXors s (a + 1) n
      .ok (b :: rest)

/-- `UPSAPPLY`: the magic (R229), the two sizes (R230), the runs while the body lasts (R232), then the trailer (R235). -/
def upsFetch (u : UpsWork) (s : State) : Except Stop Fetched :=
  match u.phase with
  | .magic => do
    failIf (s.auxLen.toNat < 4) .badMagic 0
    let bytes ← s.readBytes .aux 0 4
    fetchAs .upsmagic bytes .badMagic 0
  | .sourceSize | .targetSize _ => do
    let bytes ← readVlv s u.c (s.bodyEnd - u.c)
    fetchAs .vlv bytes .unexpectedEof u.c
  | .runs =>
    if u.c < s.bodyEnd then do
      let rel ← readVlv s u.c (s.bodyEnd - u.c)
      let xors ← readXors s (u.c + rel.length) (s.bodyEnd - (u.c + rel.length))
      fetchAs .upsrun (rel ++ xors) .unexpectedEof u.c
    else do
      let bytes ← s.readBytes .aux s.bodyEnd 12
      fetchAs .upstrailer bytes .unexpectedEof u.c

/-! ## The meanings of the UPS stream elements -/

/-- `UPSMAGIC` (R115, R229): the magic is there; a patch shorter than 16 bytes is `UnexpectedEof` (R234). -/
def execUpsmagic (s : State) : Result :=
  match s.work with
  | .ups u =>
    if u.phase = .magic then
      if s.auxLen.toNat < 16 then s.stop (.raise .unexpectedEof s.auxLen.toNat)
      else .next (s.setWork (.ups { u with phase := .sourceSize, c := 4 }))
    else .refused .notSelected
  | _ => .refused .notSelected

/-- The source extended with zeros, or truncated, to `target` bytes (R231). -/
def initialOutput (source : List Byte) (target : Nat) : List Byte :=
  source.take target ++ List.replicate (target - source.length) 0#8

/-- The target size has been read: the checks of R230 and R237, then the initial output of R231. -/
def upsStart (sourceSize target : Nat) (u : UpsWork) (s : State) : Except Stop Work := do
  failIf (sourceSize ≠ s.srcLen.toNat) .sourceSizeMismatch 4
  failIf (s.limit < target) .outputLimitExceeded 4
  let bytes ← s.readBytes .src 0 (min s.srcLen.toNat target)
  .ok (.ups { u with phase := .runs, cur := 0, out := initialOutput bytes target })

/-- `VLV` (R116, R221) in the two places where one stands alone: the source size and the target size (R230). The relative
offset of a run is read as part of the run. -/
def execVlv (digits : List (BitVec 7)) (s : State) : Result :=
  match s.work with
  | .ups u =>
    if digits.length ≠ 0 then
      match u.phase with
      | .sourceSize =>
        .next (s.setWork (.ups { u with phase := .targetSize (vlvValue digits), c := u.c + digits.length }))
      | .targetSize sourceSize =>
        s.continueWith (upsStart sourceSize (vlvValue digits) { u with c := u.c + digits.length } s)
      | .magic | .runs => .refused .notSelected
    else .refused .notSelected
  | _ => .refused .notSelected

/-- The XOR bytes of a run from the output cursor on; one at or past the end of the output is consumed and writes nothing
(R232, R233). -/
def xorRun : List Byte → Nat → List Byte → List Byte
  | [], _, out => out
  | b :: bs, cur, out =>
    xorRun bs (cur + 1) (if cur < out.length then out.set cur (out.getD cur 0#8 ^^^ b) else out)

/-- `UPSRUN` (R117, R232): the cursor moves on by the relative offset, then one place a XOR byte, then one more past the
closing `00`. -/
def execUpsrun (rel : List (BitVec 7)) (xors : List Byte) (s : State) : Result :=
  match s.work with
  | .ups u =>
    if u.phase = .runs ∧ u.c < s.bodyEnd ∧ (Instr.upsrun rel xors).wellFormed = true then
      .next (s.setWork (.ups { u with
        c := u.c + rel.length + xors.length + 1
        cur := u.cur + vlvValue rel + xors.length + 1
        out := xorRun xors (u.cur + vlvValue rel) u.out }))
    else .refused .notSelected
  | _ => .refused .notSelected

/-- The three checks of R235 in trailer order, each on its accumulator (R226). -/
def upsVerify (srcCrc tgtCrc patchCrc : Word) (u : UpsWork) (s : State) : Except Stop Unit := do
  let source ← s.readBytes .src 0 s.srcLen.toNat
  failIf (crcFinish (crcFeed s.cfg.crcPoly u.srcAcc source) ≠ srcCrc) .sourceCrcMismatch s.bodyEnd
  failIf (crcFinish (crcFeed s.cfg.crcPoly u.tgtAcc u.out) ≠ tgtCrc) .targetCrcMismatch (s.bodyEnd + 4)
  let body ← s.readBytes .aux 0 s.bodyEnd
  failIf (crcFinish (crcFeed s.cfg.crcPoly u.patchAcc body) ≠ patchCrc) .checksumMismatch (s.bodyEnd + 8)

/-- `UPSTRAILER` (R118, R235): the checks, then the command commits; a mismatch commits nothing (R238). -/
def execUpstrailer (srcCrc tgtCrc patchCrc : Word) (s : State) : Result :=
  match s.work with
  | .ups u =>
    if u.phase = .runs ∧ s.bodyEnd ≤ u.c then
      match upsVerify srcCrc tgtCrc patchCrc u s with
      | .error st => s.stop st
      | .ok _ => .next (s.commit u.out)
    else .refused .notSelected
  | _ => .refused .notSelected

end Sys2Proof.Machine
end

