-- ==== Sys2Proof/Machine/Engine.lean ====
section
/-! DEFINITION. The engine loop all twelve commands share: read the next stream element, give it its meaning, until the
command has ended (spec/10_state.md rules R21, R35; spec/20_memory.md rule R71). -/

namespace Sys2Proof.Machine

/-- What the running engine reads next. An idle block reads nothing; it is never asked. -/
def engineFetch (s : State) : Except Stop Fetched :=
  match s.work with
  | .idle => .ok (.done [])
  | .tdec t => tdecFetch t s
  | .tenc t => tencFetch t s
  | .tasm a => tasmFetch a s
  | .cexp k => cexpFetch k s
  | .cpack k => cpackFetch k s
  | .brr b => brrFetch b s
  | .lz z => lzFetch z s
  | .ips p => ipsFetch p s
  | .ups u => upsFetch u s

/-- The meaning of a stream element. A command word is no stream element. -/
def execElement (i : Instr) (s : State) : Result :=
  match i with
  | .tdec2 _ _ | .tdec4 _ _ | .tenc2 _ _ | .tenc4 _ _ | .tasm2 _ _ | .tasm4 _ _ => .refused .notSelected
  | .cexp | .cpack | .brrdec | .lzdec | .ipsapply | .upsapply | .illegal _ => .refused .notSelected
  | .tile2 planes => execTile2 planes s
  | .tile4 planes => execTile4 planes s
  | .utile pixels => execUtile pixels s
  | .image pixels => execImage pixels s
  | .flip fh fv => execFlip fh fv s
  | .color15 x b g r => execColor15 x b g r s
  | .rgb24 r g b => execRgb24 r g b s
  | .brrblk shift filter loop fin nibbles => execBrrblk shift filter loop fin nibbles s
  | .pcm16 sample => execPcm16 sample s
  | .lzctrl ctrl => execLzctrl ctrl s
  | .lzlit data => execLzlit data s
  | .lzmatch b0 b1 => execLzmatch b0 b1 s
  | .lzend marker => execLzend marker s
  | .ipsmagic => execIpsmagic s
  | .ipsrec offset data => execIpsrec offset data s
  | .ipsrle offset runSize value => execIpsrle offset runSize value s
  | .ipseof => execIpseof s
  | .upsmagic => execUpsmagic s
  | .vlv digits => execVlv digits s
  | .upsrun rel xors => execUpsrun rel xors s
  | .upstrailer srcCrc tgtCrc patchCrc => execUpstrailer srcCrc tgtCrc patchCrc s

/-- One step of the running engine. -/
def engineStep (s : State) : Result :=
  match engineFetch s with
  | .error st => s.stop st
  | .ok (.done out) => .next (s.commit out)
  | .ok (.element i) => execElement i s

/-- Engine steps until the command has ended, at most so many. -/
def runEngine : Nat → State → Result
  | 0, _ => .fault .notTerminated
  | n + 1, s =>
    match engineStep s with
    | .next s' => if s'.work = .idle then .next s' else runEngine n s'
    | .fault f => .fault f
    | .refused r => .refused r

/-- A bound on the engine steps of a command: every stream element takes at least one byte of SRC or AUX, and two steps more
end the command (R307; log entry 15). -/
def State.fuel (s : State) : Nat := s.srcLen.toNat + s.auxLen.toNat + 2

/-- A command: its working state is created (R35), its checks are made in order (R258), then its engine runs to the end as
part of the same step (R65). -/
def runCommand (work : Work) (checks : State → Except Stop Unit) (s : State) : Result :=
  match checks (s.setWork work) with
  | .error st => (s.setWork work).stop st
  | .ok _ => runEngine s.fuel (s.setWork work)

end Sys2Proof.Machine
end

