-- ==== Sys2Proof/Machine/Commands.lean ====
section
/-! DEFINITION. The meanings of the command words: the twelve commands of spec/30_encoding.md rule R92 and the illegal word
(R95). Each names the initial working state of R35 and the checks of its own rule. -/

namespace Sys2Proof.Machine

/-- The working state a tile sheet command starts with. -/
def TileWork.start (depth : Depth) (h v : Bool) : TileWork := { depth := depth, h := h, v := v, c := 0, out := [] }

/-- The working state an assembly command starts with. -/
def AsmWork.start (depth : Depth) (w ht : Byte) : AsmWork :=
  { depth := depth, w := w.toNat, ht := ht.toNat, flips := [], tiles := [] }

/-- The working state a colour command starts with. -/
def ColorWork.start : ColorWork := { c := 0, out := [] }

/-- `p1 = 0; p2 = 0; c = 0; n = 0; loop_valid = 0; loop_point = 0` (R161). -/
def BrrWork.start : BrrWork := { c := 0, out := [], p1 := 0#16, p2 := 0#16, loopValid := false, loopPoint := 0 }

/-- `c = 0; n = 0; ctrl = 0; bits_left = 0` (R182). -/
def LzWork.start : LzWork := { c := 0, ctrl := 0#8, bitsLeft := 0, out := [] }

/-- The working state of `IPSAPPLY` before the magic (R200). -/
def IpsWork.start : IpsWork := { phase := .magic, c := 0, out := [] }

/-- The working state of `UPSAPPLY` before the magic; each accumulator starts at 0xFFFFFFFF (R35, R226). -/
def UpsWork.start : UpsWork :=
  { phase := .magic, c := 0, cur := 0, out := [], srcAcc := crcInit, tgtAcc := crcInit, patchAcc := crcInit }

/-- `TDEC2` (R134). -/
def execTdec2 (h v : Bool) (s : State) : Result := runCommand (.tdec (.start .two h v)) (tdecChecks .two) s

/-- `TDEC4` (R135). -/
def execTdec4 (h v : Bool) (s : State) : Result := runCommand (.tdec (.start .four h v)) (tdecChecks .four) s

/-- `TENC2` (R137). -/
def execTenc2 (h v : Bool) (s : State) : Result := runCommand (.tenc (.start .two h v)) (tencChecks .two) s

/-- `TENC4` (R138). -/
def execTenc4 (h v : Bool) (s : State) : Result := runCommand (.tenc (.start .four h v)) (tencChecks .four) s

/-- `TASM2` (R140). -/
def execTasm2 (w ht : Byte) (s : State) : Result :=
  runCommand (.tasm (.start .two w ht)) (tasmChecks .two (w.toNat * ht.toNat)) s

/-- `TASM4` (R141). -/
def execTasm4 (w ht : Byte) (s : State) : Result :=
  runCommand (.tasm (.start .four w ht)) (tasmChecks .four (w.toNat * ht.toNat)) s

/-- `CEXP` (R152). -/
def execCexp (s : State) : Result := runCommand (.cexp .start) cexpChecks s

/-- `CPACK` (R153). -/
def execCpack (s : State) : Result := runCommand (.cpack .start) cpackChecks s

/-- `BRRDEC` (R161). -/
def execBrrdec (s : State) : Result := runCommand (.brr .start) brrChecks s

/-- `LZDEC` (R182). -/
def execLzdec (s : State) : Result := runCommand (.lz .start) lzChecks s

/-- `IPSAPPLY` (R201). -/
def execIpsapply (s : State) : Result := runCommand (.ips .start) patchChecks s

/-- `UPSAPPLY` (R228). -/
def execUpsapply (s : State) : Result := runCommand (.ups .start) patchChecks s

/-- The illegal word (R95): `raise IllegalCommand(0)`; no operand register is read (R271), no engine starts. -/
def execIllegal (_word : Word) (s : State) : Result := .next ((s.setWork .idle).raise .illegalCommand 0)

end Sys2Proof.Machine
end

