-- ==== Sys2Proof/Machine/Dispatch.lean ====
section
/-! DEFINITION. The meaning of every instruction, one arm per constructor (spec/30_encoding.md rules R92, R95, R100 to R118). -/

namespace Sys2Proof.Machine

/-- What an instruction does to the state. -/
def exec (i : Instr) (s : State) : Host.Outcome State Fault Refusal :=
  match i with
  | .tdec2 h v => Sys2Proof.Machine.execTdec2 h v s
  | .tdec4 h v => Sys2Proof.Machine.execTdec4 h v s
  | .tenc2 h v => Sys2Proof.Machine.execTenc2 h v s
  | .tenc4 h v => Sys2Proof.Machine.execTenc4 h v s
  | .tasm2 w ht => Sys2Proof.Machine.execTasm2 w ht s
  | .tasm4 w ht => Sys2Proof.Machine.execTasm4 w ht s
  | .cexp => Sys2Proof.Machine.execCexp s
  | .cpack => Sys2Proof.Machine.execCpack s
  | .brrdec => Sys2Proof.Machine.execBrrdec s
  | .lzdec => Sys2Proof.Machine.execLzdec s
  | .ipsapply => Sys2Proof.Machine.execIpsapply s
  | .upsapply => Sys2Proof.Machine.execUpsapply s
  | .illegal word => Sys2Proof.Machine.execIllegal word s
  | .tile2 planes => Sys2Proof.Machine.execTile2 planes s
  | .tile4 planes => Sys2Proof.Machine.execTile4 planes s
  | .utile pixels => Sys2Proof.Machine.execUtile pixels s
  | .image pixels => Sys2Proof.Machine.execImage pixels s
  | .flip fh fv => Sys2Proof.Machine.execFlip fh fv s
  | .color15 x b g r => Sys2Proof.Machine.execColor15 x b g r s
  | .rgb24 r g b => Sys2Proof.Machine.execRgb24 r g b s
  | .brrblk shift filter loop fin nibbles => Sys2Proof.Machine.execBrrblk shift filter loop fin nibbles s
  | .pcm16 sample => Sys2Proof.Machine.execPcm16 sample s
  | .lzctrl ctrl => Sys2Proof.Machine.execLzctrl ctrl s
  | .lzlit data => Sys2Proof.Machine.execLzlit data s
  | .lzmatch b0 b1 => Sys2Proof.Machine.execLzmatch b0 b1 s
  | .lzend marker => Sys2Proof.Machine.execLzend marker s
  | .ipsmagic => Sys2Proof.Machine.execIpsmagic s
  | .ipsrec offset data => Sys2Proof.Machine.execIpsrec offset data s
  | .ipsrle offset runSize value => Sys2Proof.Machine.execIpsrle offset runSize value s
  | .ipseof => Sys2Proof.Machine.execIpseof s
  | .upsmagic => Sys2Proof.Machine.execUpsmagic s
  | .vlv digits => Sys2Proof.Machine.execVlv digits s
  | .upsrun rel xors => Sys2Proof.Machine.execUpsrun rel xors s
  | .upstrailer srcCrc tgtCrc patchCrc => Sys2Proof.Machine.execUpstrailer srcCrc tgtCrc patchCrc s

end Sys2Proof.Machine
end

