-- ==== Sys2Proof/Machine/HostBus.lean ====
section
/-! DEFINITION. The host side of the block: reads and writes of the register file (spec/10_state.md rules R22 to R33), reads
and writes of the buffers (R37, spec/20_memory.md rules R63, R67), and the platform's reset (spec/70_reset_and_hazards.md
rule R290). No access has a side effect but a write to `CMD` (R64), which Step.lean executes. Where the platform places the four
windows in the host's address space is a parameter (R6, R69); no access depends on it. -/

namespace Sys2Proof.Machine

/-- Where the platform places the window of a buffer in the host's address space: `SRC_BASE`, `AUX_BASE`, `DST_BASE` (R6, R69). -/
def bufferBase (c : Config) : Buffer → Nat
  | .src => c.srcBase
  | .aux => c.auxBase
  | .dst => c.dstBase

/-- The address in the host's address space of the first byte that an access names: a register is at its offset from `REG_BASE`
(R22), byte `a` of a buffer at `a` from the base of the buffer's window (R69). The platform's reset names none (R290). On a platform
whose DMA agent reaches the buffers without windows (R69), a buffer's base is where that agent sees it (log entry 12). -/
def HostAccess.busAddress (c : Config) : HostAccess → Option Nat
  | .regRead offset _ => some (c.regBase + offset)
  | .regWrite offset _ _ => some (c.regBase + offset)
  | .bufRead b a => some (bufferBase c b + a)
  | .bufWrite b a _ => some (bufferBase c b + a)
  | .reset => none

/-- A naturally aligned 32-bit word access of the register window; any other is reserved (R32, R62). -/
def regAccessOk (offset width : Nat) : Bool := width == 4 && offset % 4 == 0

/-- The register at an offset (R22); a reserved offset reads 0 (R32). -/
def State.readReg (s : State) (offset : Nat) : Word :=
  if offset = 0x00 then s.cmd
  else if offset = 0x04 then s.status
  else if offset = 0x08 then s.errPos
  else if offset = 0x0C then s.srcLen
  else if offset = 0x10 then s.auxLen
  else if offset = 0x14 then s.outLimit
  else if offset = 0x18 then s.outLen
  else if offset = 0x1C then s.lzCfg
  else if offset = 0x20 then s.lzTarget
  else if offset = 0x24 then s.brrLoop
  else 0#32

/-- A host write of the register at an offset (R22). A write to a read-only register or a reserved offset is ignored (R32,
R33). At offset 0x00 this is the storing half of R23. -/
def State.writeReg (s : State) (offset : Nat) (v : Word) : State :=
  if offset = 0x00 then { s with cmd := v }
  else if offset = 0x0C then { s with srcLen := v }
  else if offset = 0x10 then { s with auxLen := v }
  else if offset = 0x14 then { s with outLimit := v }
  else if offset = 0x1C then { s with lzCfg := v }
  else if offset = 0x20 then { s with lzTarget := v }
  else s

/-- What the host gets from a register read: 0 for a reserved access (R32). -/
def State.hostRegRead (s : State) (offset width : Nat) : Word :=
  if regAccessOk offset width then s.readReg offset else 0#32

/-- The byte that buffer `b` holds at an address: none at or above the capacity, where the buffer has no byte (R7, R37), and none
where the spec leaves the byte unspecified (R38, R67, R68). -/
def State.bufferByte (s : State) (b : Buffer) (a : Nat) : Option Byte :=
  if a < s.capacity b then (s.buffer b).read a else none

/-- `HostRead(S, a)` (R63). A byte the buffer holds is returned; otherwise the spec states no value and the reply is a free
value, a new one at every such read (log entries 2 and 6). No access can fault (92_eei_decisions.md D38). -/
def State.hostBufRead (s : State) (b : Buffer) (a : Nat) : State :=
  match s.bufferByte b a with
  | some v => { s with reply := .byte v }
  | none => { s with reply := .byte (Config.freeByte s.freeIdx), freeIdx := s.freeIdx + 1 }

/-- `HostWrite(S, a, v)` (R63) to SRC or AUX. A host write to DST is ignored (R37, R67), and so is one at or above the capacity
(D38; log entry 6). -/
def State.hostBufWrite (s : State) (b : Buffer) (a : Nat) (v : Byte) : State :=
  if a < s.capacity b then
    match b with
    | .src => { s with src := s.src.write a v }
    | .aux => { s with aux := s.aux.write a v }
    | .dst => s
  else s

/-- Reset by the platform (R290): every register takes its reset value, no buffer byte is known, the block is idle. The
parameters, the host's later accesses and the free values already used stay. -/
def State.platformReset (s : State) : State :=
  { State.resetWith s.cfg with host := s.host, freeIdx := s.freeIdx }

/-- A host access to an idle block, but for the execution of a command. Every access has an effect: "no access can fault, so the
host side of the model is total" (92_eei_decisions.md D38). -/
def State.hostAccess (s : State) (a : HostAccess) : State :=
  match a with
  | .regRead offset width => { s with reply := .word (s.hostRegRead offset width) }
  | .regWrite offset width v => if regAccessOk offset width then s.writeReg offset v else s
  | .bufRead b addr => s.hostBufRead b addr
  | .bufWrite b addr v => s.hostBufWrite b addr v
  | .reset => s.platformReset

/-- The command word of an access that is a write to `CMD` (R23). -/
def HostAccess.command? : HostAccess → Option Word
  | .regWrite offset width v => if regAccessOk offset width && offset == 0 then some v else none
  | _ => none

end Sys2Proof.Machine
end

