-- ==== Sys2Proof/Machine/Fetch.lean ====
section
/-! DEFINITION. What the machine does next: a running engine takes its next stream element, an idle block takes the host's
next access, and "nothing happens until the host writes `CMD`" (spec/70_reset_and_hazards.md rule R290). -/

namespace Sys2Proof.Machine

/-- The next thing the machine does. -/
inductive Action where
  /-- nothing: the block is idle and no host access is waiting -/
  | wait
  /-- a host access other than a command, on the state with the access taken from the queue -/
  | access (a : HostAccess) (s : State)
  /-- a command, on the state with the access taken from the queue and the word stored in `CMD` (R23) -/
  | command (i : Instr) (s : State)
  /-- the next stream element of the running engine -/
  | element (i : Instr)
  /-- the running engine has reached its end with this output -/
  | finish (out : List Byte)
  /-- the running engine's command ends with an error, or the step with a fault -/
  | stop (st : Stop)
  deriving DecidableEq, Repr

/-- The state with the oldest host access taken from the queue. -/
def State.takeAccess (s : State) (rest : List HostAccess) : State := { s with host := rest }

/-- What the block does next when it is idle (R71). -/
def hostNext (s : State) : Action :=
  match s.host with
  | [] => .wait
  | a :: rest =>
    match a.command? with
    | some w => .command (decodeCommand w) ((s.takeAccess rest).writeReg 0 w)
    | none => .access a (s.takeAccess rest)

/-- What the running engine does next. -/
def engineNext (s : State) : Action :=
  match engineFetch s with
  | .error st => .stop st
  | .ok (.done out) => .finish out
  | .ok (.element i) => .element i

/-- What the machine does next. -/
def nextAction (s : State) : Action :=
  match s.work with
  | .idle => hostNext s
  | _ => engineNext s

/-! ## Placing an instruction where the next step takes it (log entry 3) -/

/-- The state in which SRC holds exactly these bytes from address 0 and the engine with this working state reads them. -/
def State.withStream (s : State) (w : Work) (bytes : List Byte) : State :=
  { s with src := Memory.ofBytes 0 bytes, srcLen := BitVec.ofNat 32 bytes.length, work := w }

/-- The same for an engine that reads AUX. -/
def State.withAuxStream (s : State) (w : Work) (bytes : List Byte) : State :=
  { s with aux := Memory.ofBytes 0 bytes, auxLen := BitVec.ofNat 32 bytes.length, work := w }

/-- The state whose next step takes the command word or the stream element that `decodeTableWord` reads from the same bits. -/
def State.placeTableWord (s : State) (nbits w : Nat) : State :=
  if nbits = 32 then { s with work := .idle, host := .regWrite 0 4 (BitVec.ofNat 32 w) :: s.host }
  else if nbits = 8 then
    match decodeElement .flip (bytesOfNat 1 w) with
    | .ok _ => s.withAuxStream (.tasm (.start .two 1#8 1#8)) (bytesOfNat 1 w)
    | .error _ =>
      { s.withStream (.lz { LzWork.start with bitsLeft := 8 }) (bytesOfNat 1 w) with outLimit := 0xFFFFFFFF#32 }
  else
    match elementOfWidth nbits with
    | some .color15 => s.withStream (.cexp .start) (bytesOfNat 2 w)
    | some .rgb24 => s.withStream (.cpack .start) (bytesOfNat 3 w)
    | some .ipsmagic => s.withAuxStream (.ips .start) (bytesOfNat 5 w)
    | some .ipsrle => s.withAuxStream (.ips { IpsWork.start with phase := .records }) (bytesOfNat 8 w)
    | some .upstrailer => s.withAuxStream (.ups { UpsWork.start with phase := .runs }) (bytesOfNat 12 w)
    | some .brrblk => { s.withStream (.brr .start) (bytesOfNat 9 w) with outLimit := 0xFFFFFFFF#32 }
    | some .tile2 => s.withStream (.tdec (.start .two false false)) (bytesOfNat 16 w)
    | some .tile4 => s.withStream (.tdec (.start .four false false)) (bytesOfNat 32 w)
    | some .utile => s.withStream (.tenc (.start .four false false)) (bytesOfNat 64 w)
    | _ => s

end Sys2Proof.Machine
end

