-- ==== Sys2Proof/Machine/Step.lean ====
section
/-! DEFINITION. One step of the machine. An idle block takes the host's next access; a write to `CMD` runs its whole command
in this one step (spec/20_memory.md rule R65). In a state in which an engine is running, which no run from reset reaches,
one step is one stream element of it. -/

namespace Sys2Proof.Machine

/-- One step. -/
def step (s : State) : Host.Outcome State Fault Refusal :=
  match nextAction s with
  | .wait => .next s
  | .access a s' => .next (s'.hostAccess a)
  | .command i s' => exec i s'
  | .element i => exec i s
  | .finish out => .next (s.commit out)
  | .stop st => s.stop st

/-- The state with an instruction stored where `step` takes its next instruction: a command word as the host's next access,
a write to `CMD`; a stream element in the stream of an engine that stands at it. -/
def State.withFetchWord (s : State) (nbits w : Nat) : State := s.placeTableWord nbits w

end Sys2Proof.Machine
end

