-- ==== Sys2Proof/Safety.lean ====
section
/-! DEFINITION. The terms the claims use: what a command leaves (spec/60_exceptions.md rules R255, R256), inputs that the
host has loaded (spec/70_reset_and_hazards.md rule R293), the iteration of steps, and the invariant of the machine. -/

namespace Sys2Proof

/-- The instruction is a command word, legal or not (R91 to R95); the others are stream elements. -/
def Instr.isCommand : Instr → Bool
  | .tdec2 _ _ | .tdec4 _ _ | .tenc2 _ _ | .tenc4 _ _ | .tasm2 _ _ | .tasm4 _ _ => true
  | .cexp | .cpack | .brrdec | .lzdec | .ipsapply | .upsapply | .illegal _ => true
  | .tile2 _ | .tile4 _ | .utile _ | .image _ | .flip _ _ | .color15 _ _ _ _ | .rgb24 _ _ _ => false
  | .brrblk _ _ _ _ _ | .pcm16 _ | .lzctrl _ | .lzlit _ | .lzmatch _ _ | .lzend _ => false
  | .ipsmagic | .ipsrec _ _ | .ipsrle _ _ _ | .ipseof => false
  | .upsmagic | .vlv _ | .upsrun _ _ | .upstrailer _ _ _ => false

end Sys2Proof

namespace Sys2Proof.Machine

/-! ## What a command leaves -/

/-- The state a command leaves when it succeeds with these output bytes (R255): `STATUS = 0x100`, `ERR_POS = 0`, `OUT_LEN`
the number of bytes, DST those bytes and nothing else known, `BRR_LOOP` as before. -/
def State.succeeded (s : State) (out : List Byte) : State :=
  { s with
    status := 0x00000100#32
    errPos := 0x00000000#32
    outLen := BitVec.ofNat 32 out.length
    dst := Memory.ofBytes 0 out
    work := .idle }

/-- The state a command leaves when it fails (R256): the error code, `DONE`, the position, no output, DST unspecified,
`BRR_LOOP` as before. -/
def State.failed (s : State) (code : BitVec 8) (pos : Nat) : State :=
  { s with
    status := 0x000001#24 ++ code
    errPos := BitVec.ofNat 32 pos
    outLen := 0x00000000#32
    dst := []
    work := .idle }

/-- The same with `BRR_LOOP` written, which only `BRRDEC` does (R31). -/
def State.withLoop (s : State) (loop : Word) : State := { s with brrLoop := loop }

/-! ## Loaded inputs -/

/-- The memory holds these bytes at addresses `a`, `a + 1`, ... -/
def Holds (m : Memory) (a : Nat) (bytes : List Byte) : Prop :=
  ∀ k (h : k < bytes.length), m.read (a + k) = some bytes[k]

/-- The host has written every byte below the length registers (R293, R303). -/
def State.Loaded (s : State) : Prop :=
  (∀ a, a < s.srcLen.toNat → (s.src.read a).isSome = true) ∧ (∀ a, a < s.auxLen.toNat → (s.aux.read a).isSome = true)

/-! ## The parts of a command -/

/-- The working state a command starts with (R35). -/
def startWork : Instr → Option Work
  | .tdec2 h v => some (.tdec { depth := .two, h := h, v := v, c := 0, out := [] })
  | .tdec4 h v => some (.tdec { depth := .four, h := h, v := v, c := 0, out := [] })
  | .tenc2 h v => some (.tenc { depth := .two, h := h, v := v, c := 0, out := [] })
  | .tenc4 h v => some (.tenc { depth := .four, h := h, v := v, c := 0, out := [] })
  | .tasm2 w ht => some (.tasm { depth := .two, w := w.toNat, ht := ht.toNat, flips := [], tiles := [] })
  | .tasm4 w ht => some (.tasm { depth := .four, w := w.toNat, ht := ht.toNat, flips := [], tiles := [] })
  | .cexp => some (.cexp { c := 0, out := [] })
  | .cpack => some (.cpack { c := 0, out := [] })
  | .brrdec => some (.brr { c := 0, out := [], p1 := 0#16, p2 := 0#16, loopValid := false, loopPoint := 0 })
  | .lzdec => some (.lz { c := 0, ctrl := 0#8, bitsLeft := 0, out := [] })
  | .ipsapply => some (.ips { phase := .magic, c := 0, out := [] })
  | .upsapply =>
    some (.ups
      { phase := .magic, c := 0, cur := 0, out := [], srcAcc := 0xFFFFFFFF#32, tgtAcc := 0xFFFFFFFF#32,
        patchAcc := 0xFFFFFFFF#32 })
  | _ => none

/-- The checks a command makes before its engine reads anything (R258). -/
def startChecks : Instr → State → Except Stop Unit
  | .tdec2 _ _ => tdecChecks .two
  | .tdec4 _ _ => tdecChecks .four
  | .tenc2 _ _ => tencChecks .two
  | .tenc4 _ _ => tencChecks .four
  | .tasm2 w ht => tasmChecks .two (w.toNat * ht.toNat)
  | .tasm4 w ht => tasmChecks .four (w.toNat * ht.toNat)
  | .cexp => cexpChecks
  | .cpack => cpackChecks
  | .brrdec => brrChecks
  | .lzdec => lzChecks
  | .ipsapply | .upsapply => patchChecks
  | _ => fun _ => .ok ()

/-- The commands that read AUX and `AUX_LEN` (R26). -/
def readsAux : Instr → Bool
  | .tasm2 _ _ | .tasm4 _ _ | .ipsapply | .upsapply => true
  | _ => false

/-- The stream a running engine reads, and its cursor in it (R21). The trailer of a UPS patch stands at the end of the body. -/
def Work.cursor : Work → Buffer × Nat
  | .idle => (.src, 0)
  | .tdec t | .tenc t => (.src, t.c)
  | .tasm a =>
    if a.flips.length < a.w * a.ht then (.aux, a.flips.length) else (.src, a.depth.tileBytes * a.tiles.length)
  | .cexp k | .cpack k => (.src, k.c)
  | .brr b => (.src, b.c)
  | .lz z => (.src, z.c)
  | .ips p => (.aux, p.c)
  | .ups u => (.aux, u.c)

/-- The length register of a stream buffer (R26). -/
def State.streamLen (s : State) : Buffer → Nat
  | .src => s.srcLen.toNat
  | .aux => s.auxLen.toNat
  | .dst => 0

/-! ## BRR samples -/

/-- The samples of a block's nibbles in order, from the two previous samples (R161 step 2, R168). -/
def sampleList (shift filter : Nat) : Sample → Sample → List (BitVec 4) → List Sample
  | _, _, [] => []
  | p1, p2, nib :: nibs =>
    brrSample shift filter nib p1 p2 :: sampleList shift filter (brrSample shift filter nib p1 p2) p1 nibs

/-- `clamp16` on a signed 32-bit value (R168). -/
def clamp16Word (v : Word) : Sample :=
  if v.slt (BitVec.ofInt 32 (-32768)) then BitVec.ofInt 16 (-32768)
  else if (BitVec.ofInt 32 32767).slt v then BitVec.ofInt 16 32767
  else v.setWidth 16

/-- One sample in 32-bit fixed-point arithmetic, "multiply then arithmetic shift" (R165): every value is a 32-bit word, `>>` is
the arithmetic shift of a word. -/
def sample32 (shift : BitVec 4) (filter : BitVec 2) (nibble : BitVec 4) (p1 p2 : Sample) : Sample :=
  let s : Word := nibble.signExtend 32
  let q1 : Word := p1.signExtend 32
  let q2 : Word := p2.signExtend 32
  let v : Word :=
    if shift.toNat ≤ 12 then s <<< shift.toNat
    else if s.slt 0#32 then BitVec.ofInt 32 (-2048) else BitVec.ofInt 32 2047
  let f : Word :=
    if filter = 0#2 then 0#32
    else if filter = 1#2 then (q1 * 15#32).sshiftRight 4
    else if filter = 2#2 then (q1 * 61#32).sshiftRight 5 + (q2 * BitVec.ofInt 32 (-15)).sshiftRight 4
    else (q1 * 115#32).sshiftRight 6 + (q2 * BitVec.ofInt 32 (-13)).sshiftRight 4
  clamp16Word (v + f)

/-- A BRR block other than its `end` flag: shift, filter, loop flag, nibbles (R108). -/
structure BrrBlock where
  shift : BitVec 4
  filter : BitVec 2
  loop : Bool
  nibbles : List (BitVec 4)
  deriving DecidableEq, Repr

/-- The bytes of a block with the given `end` flag. -/
def BrrBlock.bytes (k : BrrBlock) (fin : Bool) : List Byte := streamBytes (.brrblk k.shift k.filter k.loop fin k.nibbles)

/-- The history, the output and the loop record after a block (R161): the output grows by the block's samples, the loop record
is the number of samples emitted before the block. -/
def BrrBlock.run (b : BrrWork) (k : BrrBlock) : BrrWork :=
  let samples := sampleList k.shift.toNat k.filter.toNat b.p1 b.p2 k.nibbles
  { c := b.c + 9
    out := b.out ++ samples.flatMap bytesLe16
    p1 := (b.p1 :: samples).getLastD 0#16
    p2 := (b.p2 :: b.p1 :: samples).dropLast.getLastD 0#16
    loopValid := b.loopValid || k.loop
    loopPoint := if k.loop then b.out.length / 2 else b.loopPoint }

/-! ## LZ token streams -/

/-- A token (R110). -/
inductive LzToken where
  | lit (data : Byte)
  | copy (b0 b1 : Byte)
  deriving DecidableEq, Repr

/-- The control bit that selects the token. -/
def LzToken.bit : LzToken → Bool
  | .lit _ => false
  | .copy _ _ => true

/-- The bytes of the token. -/
def LzToken.bytes : LzToken → List Byte
  | .lit d => [d]
  | .copy b0 b1 => [b0, b1]

/-- The output after one token (R184, R185). -/
def LzToken.run (cfg : Word) (out : List Byte) : LzToken → List Byte
  | .lit d => out ++ [d]
  | .copy b0 b1 => lzCopy (lzDist cfg b0 b1) (lzLength cfg b0 b1) out

/-- The token is legal after this output: its length is not 0 and its distance reaches an earlier byte (R186). -/
def LzToken.legal (cfg : Word) (out : List Byte) : LzToken → Prop
  | .lit _ => True
  | .copy b0 b1 => lzLength cfg b0 b1 ≠ 0 ∧ lzDist cfg b0 b1 ≠ 0 ∧ lzDist cfg b0 b1 ≤ out.length

/-- Every token is legal where it stands. -/
def legalTokens (cfg : Word) : List Byte → List LzToken → Prop
  | _, [] => True
  | out, t :: ts => t.legal cfg out ∧ legalTokens cfg (t.run cfg out) ts

/-- A group: a control byte and up to 8 tokens (R110). -/
structure LzGroup where
  ctrl : Byte
  toks : List LzToken
  deriving DecidableEq, Repr

/-- The control byte selects the group's tokens, most significant bit first (R110, R183); unused bits are not examined. -/
def LzGroup.Selects (g : LzGroup) : Prop :=
  g.toks.length ≤ 8 ∧ ∀ k (h : k < g.toks.length), g.ctrl.getLsbD (7 - k) = (g.toks[k]).bit

/-- The bytes of a group. -/
def LzGroup.bytes (g : LzGroup) : List Byte := g.ctrl :: g.toks.flatMap LzToken.bytes

/-! ## IPS records and UPS runs -/

/-- The output after one IPS record (R204, R205). -/
def recordOutput (out : List Byte) : Instr → List Byte
  | .ipsrec offset data => applyRecord out offset.toNat data
  | .ipsrle offset runSize value => applyRecord out offset.toNat (List.replicate runSize.toNat value)
  | _ => out

/-- The end of a record, `offset + k` (R209); none for an instruction that is no record. -/
def recordEnd : Instr → Option Nat
  | .ipsrec offset data => some (offset.toNat + data.length)
  | .ipsrle offset runSize _ => some (offset.toNat + runSize.toNat)
  | _ => none

/-- A UPS run: the digits of its relative offset and its XOR bytes (R117). -/
structure Run where
  rel : List (BitVec 7)
  xors : List Byte
  deriving DecidableEq, Repr

/-- The bytes of a run. -/
def Run.bytes (r : Run) : List Byte := streamBytes (.upsrun r.rel r.xors)

/-- The output cursor and the output after runs (R232). -/
def runsOutput : List Run → Nat → List Byte → List Byte
  | [], _, out => out
  | r :: rs, cur, out =>
    runsOutput rs (cur + vlvValue r.rel + r.xors.length + 1) (xorRun r.xors (cur + vlvValue r.rel) out)

/-! ## Several steps -/

/-- `n` steps, stopping at a fault or a refusal. -/
def steps : Nat → State → Result
  | 0, s => .next s
  | n + 1, s =>
    match step s with
    | .next s' => steps n s'
    | .fault f => .fault f
    | .refused r => .refused r

/-! ## The invariant -/

/-- The error codes the block produces (R251, 93_implementation_defined.md U12). -/
def producedCodes : List (BitVec 8) :=
  [0#8, 1#8, 2#8, 3#8, 4#8, 5#8, 6#8, 9#8, 11#8, 14#8, 15#8, 16#8, 17#8, 18#8, 19#8, 20#8]

/-- The result registers agree with each other (R24, R25, R28, R31, R251). -/
structure State.RegInv (s : State) : Prop where
  /-- bits 31:9 of `STATUS` are 0 -/
  reserved : s.status.extractLsb' 9 23 = 0#23
  /-- `STATUS.ERR` is a code the block produces -/
  code : s.errCode ∈ producedCodes
  /-- before the first command there is no result -/
  notDone : s.done = false → s.errCode = 0#8 ∧ s.outLen = 0#32 ∧ s.brrLoop = 0#32
  /-- after a success `ERR_POS` is 0 -/
  posZero : s.errCode = 0#8 → s.errPos = 0#32
  /-- after an error there is no output -/
  noOutput : s.errCode ≠ 0#8 → s.outLen = 0#32
  /-- `POINT` is 0 when `VALID` is -/
  loopZero : s.loopValid = false → s.loopPoint = 0
  /-- `POINT` is the first sample of a block -/
  loopBlock : s.loopPoint % 16 = 0

/-- The buffers are in canonical form and inside their capacities; DST holds exactly the output (R28, R67, R78). -/
structure State.MemInv (s : State) : Prop where
  cfg : s.cfg.wf
  srcWf : s.src.wf = true
  auxWf : s.aux.wf = true
  srcCap : ∀ c ∈ s.src, c.1 < s.cfg.srcCap
  auxCap : ∀ c ∈ s.aux, c.1 < s.cfg.auxCap
  dstCells : s.dst.map Prod.fst = List.range s.outLen.toNat
  outCap : s.outLen.toNat ≤ s.cfg.dstCap

/-- The running engine: its cursor is inside its stream, at an element boundary, and its output is inside the limit (R21,
R27, R78). -/
def State.WorkInv (s : State) : Prop :=
  match s.work with
  | .idle => True
  | .tdec t =>
    s.srcLen.toNat ≤ s.cfg.srcCap ∧ t.c ≤ s.srcLen.toNat ∧ s.srcLen.toNat % t.depth.tileBytes = 0 ∧
      t.c % t.depth.tileBytes = 0 ∧ t.out.length = 64 * (t.c / t.depth.tileBytes) ∧
      64 * (s.srcLen.toNat / t.depth.tileBytes) ≤ s.limit
  | .tenc t =>
    s.srcLen.toNat ≤ s.cfg.srcCap ∧ t.c ≤ s.srcLen.toNat ∧ s.srcLen.toNat % 64 = 0 ∧ t.c % 64 = 0 ∧
      t.out.length = t.depth.tileBytes * (t.c / 64) ∧ t.depth.tileBytes * (s.srcLen.toNat / 64) ≤ s.limit
  | .tasm a =>
    s.srcLen.toNat ≤ s.cfg.srcCap ∧ s.auxLen.toNat ≤ s.cfg.auxCap ∧
      s.srcLen.toNat = a.depth.tileBytes * (a.w * a.ht) ∧ s.auxLen.toNat = a.w * a.ht ∧ 64 * (a.w * a.ht) ≤ s.limit ∧
      a.flips.length ≤ a.w * a.ht ∧ a.tiles.length ≤ a.w * a.ht ∧ (a.tiles ≠ [] → a.flips.length = a.w * a.ht) ∧
      (∀ t ∈ a.tiles, t.length = 64)
  | .cexp k =>
    s.srcLen.toNat ≤ s.cfg.srcCap ∧ k.c ≤ s.srcLen.toNat ∧ s.srcLen.toNat % 2 = 0 ∧ k.c % 2 = 0 ∧
      k.out.length = 3 * (k.c / 2) ∧ 3 * (s.srcLen.toNat / 2) ≤ s.limit
  | .cpack k =>
    s.srcLen.toNat ≤ s.cfg.srcCap ∧ k.c ≤ s.srcLen.toNat ∧ s.srcLen.toNat % 3 = 0 ∧ k.c % 3 = 0 ∧
      k.out.length = 2 * (k.c / 3) ∧ 2 * (s.srcLen.toNat / 3) ≤ s.limit
  | .brr b =>
    s.srcLen.toNat ≤ s.cfg.srcCap ∧ b.c ≤ s.srcLen.toNat ∧ b.c % 9 = 0 ∧ b.out.length = 32 * (b.c / 9) ∧
      b.out.length ≤ s.limit ∧ 2 * b.loopPoint ≤ b.out.length ∧ b.loopPoint % 16 = 0 ∧
      (b.loopValid = false → b.loopPoint = 0)
  | .lz z =>
    s.srcLen.toNat ≤ s.cfg.srcCap ∧ z.c ≤ s.srcLen.toNat ∧ lzLegal s.lzCfg = true ∧ z.bitsLeft ≤ 8 ∧
      z.out.length ≤ s.limit ∧ (lzTerm s.lzCfg = 1 → z.out.length ≤ s.lzTarget.toNat)
  | .ips p =>
    s.srcLen.toNat ≤ s.cfg.srcCap ∧ s.auxLen.toNat ≤ s.cfg.auxCap ∧ p.c ≤ s.auxLen.toNat ∧ p.out.length ≤ s.limit ∧
      (p.phase = .magic → p.c = 0) ∧ (p.phase = .records → 5 ≤ p.c ∧ s.srcLen.toNat ≤ p.out.length)
  | .ups u =>
    s.srcLen.toNat ≤ s.cfg.srcCap ∧ s.auxLen.toNat ≤ s.cfg.auxCap ∧ u.out.length ≤ s.limit ∧
      u.srcAcc = 0xFFFFFFFF#32 ∧ u.tgtAcc = 0xFFFFFFFF#32 ∧ u.patchAcc = 0xFFFFFFFF#32 ∧
      (u.phase = .magic → u.c = 0) ∧ (u.phase ≠ .magic → 16 ≤ s.auxLen.toNat ∧ 4 ≤ u.c ∧ u.c ≤ s.bodyEnd)

/-- The invariant of the machine: every step keeps it, and it holds at reset. -/
structure State.Inv (s : State) : Prop where
  reg : s.RegInv
  mem : s.MemInv
  work : s.WorkInv

end Sys2Proof.Machine
end

