-- ==== Sys2Proof/Certificates/Slice0/Obligations.lean ====
section
/-! DEFINITION. The statements for the provers. Each docstring says which rules of spec/ it formalises. -/

open Sys2Proof Sys2Proof.Machine

/-! ## Encoding (spec/30_encoding.md) -/

/-- Decoding what the encoder makes of a well-formed instruction gives it back: all twelve commands, the illegal word and all
twenty-one stream elements, every operand at every value (R91 to R95, R100 to R118). -/
def Obligations.DecodeOfEncodeIsTheInstruction : Prop :=
  ∀ i : Instr, i.wellFormed = true → decode (encode i) = .ok i

/-- What decodes is well formed, and the encoder makes exactly the bits it was decoded from: no bit is dropped, and nothing
with a reserved bit set decodes (R91 to R95, R100 to R118). -/
def Obligations.EncodeOfDecodeIsTheCode : Prop :=
  ∀ (c : Code) (i : Instr), decode c = .ok i → encode i = c ∧ i.wellFormed = true

/-- R93: legality in the rule's words (opcode, reserved bits, unused fields, sizes) is the rule's match and mask table, at most
one row of which matches; every other word decodes to the illegal instruction, and to nothing else. -/
def Obligations.CommandWordIsLegalExactlyAsTheTableSays : Prop :=
  ∀ w : Word,
    (legalWord w = true ↔
      (w.extractLsb' 0 8 ∈ [0x10#8, 0x11#8, 0x12#8, 0x13#8, 0x14#8, 0x15#8, 0x20#8, 0x21#8, 0x30#8, 0x40#8, 0x50#8, 0x60#8]) ∧
      w.extractLsb' 10 6 = 0#6 ∧
      (w.extractLsb' 0 8 ∉ [0x10#8, 0x11#8, 0x12#8, 0x13#8] → w.extractLsb' 8 2 = 0#2) ∧
      (w.extractLsb' 0 8 ∉ [0x14#8, 0x15#8] → w.extractLsb' 16 16 = 0#16) ∧
      (w.extractLsb' 0 8 ∈ [0x14#8, 0x15#8] → w.extractLsb' 16 8 ≠ 0#8 ∧ w.extractLsb' 24 8 ≠ 0#8)) ∧
    (∀ r ∈ commandRows, ∀ r' ∈ commandRows, r.matches w = true → r'.matches w = true → r = r') ∧
    (legalWord w = false ↔ decodeCommand w = .illegal w) ∧
    (∀ v, decodeCommand w = .illegal v → v = w)

/-- Words and bytes written out from the encodings of R91 to R118 decode to the instructions they stand for. -/
def Obligations.WrittenOutCodesDecodeToTheirInstructions : Prop :=
  decodeCommand 0x00000110#32 = .tdec2 true false ∧ decodeCommand 0x00000213#32 = .tenc4 false true ∧
  decodeCommand 0x01020014#32 = .tasm2 2#8 1#8 ∧ decodeCommand 0x00000040#32 = .lzdec ∧
  decodeCommand 0x00020014#32 = .illegal 0x00020014#32 ∧
  decodeElement .flip [0x02#8] = .ok (.flip false true) ∧
  decodeElement .color15 [0x34#8, 0x12#8] = .ok (.color15 false 4#5 17#5 20#5) ∧
  decodeElement .brrblk [0xA9#8, 0x12#8, 0#8, 0#8, 0#8, 0#8, 0#8, 0#8, 0#8] =
    .ok (.brrblk 10#4 2#2 false true
      [1#4, 2#4, 0#4, 0#4, 0#4, 0#4, 0#4, 0#4, 0#4, 0#4, 0#4, 0#4, 0#4, 0#4, 0#4, 0#4]) ∧
  decodeElement .vlv [0x16#8, 0x81#8] = .ok (.vlv [22#7, 1#7]) ∧
  decodeElement .ipsrle [0#8, 0#8, 3#8, 0#8, 0#8, 0#8, 4#8, 0xEE#8] = .ok (.ipsrle 3#24 4#16 0xEE#8)

/-! ## The step -/

/-- R23: a host write of `w` to `CMD` stores `w` and executes its command to completion in that one step; an illegal word is
stored too and executes as `IllegalCommand(0)`; `CMD` reads back as last written, and reading it has no side effect. -/
def Obligations.CmdWriteStoresTheWordAndRunsItsCommand : Prop :=
  ∀ (s : State) (rest : List HostAccess), s.work = .idle →
    (∀ w : Word, s.host = .regWrite 0x00 4 w :: rest →
      step s = exec (decodeCommand w) { s with host := rest, cmd := w } ∧
      (∀ t, step s = .next t → t.work = .idle ∧ t.cmd = w) ∧
      (legalWord w = false → step s = .next (({ s with host := rest, cmd := w } : State).failed 19#8 0))) ∧
    (s.host = .regRead 0x00 4 :: rest → step s = .next { s with host := rest, reply := .word s.cmd })

/-- One step of a running engine gives the element that the engine reads its meaning, and ends the command where the engine
finds the end of its stream or an error. That a running state has steps of its own, one stream element each, is the model's
choice (log entry 8, DEDUCED): R65 makes the whole command one step. -/
def Obligations.StepOfARunningEngineRunsTheElementItReads : Prop :=
  ∀ s : State, s.work ≠ .idle →
    (∀ i, engineFetch s = .ok (.element i) → step s = exec i s) ∧
    (∀ out, engineFetch s = .ok (.done out) → step s = .next ((s.succeeded out).withLoop s.loopAfterSuccess)) ∧
    (∀ e pos, engineFetch s = .error (.raise e pos) →
      step s = .next ((s.failed e.code pos).withLoop s.loopAfterError)) ∧
    (∀ f, engineFetch s = .error (.fault f) → step s = .fault f)

/-- The element a running engine reads stands, byte for byte as the encoder writes it, at the engine's cursor, inside the
length the host has given, and is well formed (R21, R78, R90). The assembled image is produced, not read. -/
def Obligations.FetchedElementStandsAtTheCursor : Prop :=
  ∀ (s : State) (i : Instr), s.WorkInv → s.work ≠ .idle → engineFetch s = .ok (.element i) →
    (∃ a, s.work = .tasm a ∧ i = .image (assemble a.w a.ht a.tiles)) ∨
    (i.isCommand = false ∧ i.wellFormed = true ∧ streamBytes i ≠ [] ∧
      Holds (s.buffer s.work.cursor.1) s.work.cursor.2 (streamBytes i) ∧
      s.work.cursor.2 + (streamBytes i).length ≤ s.streamLen s.work.cursor.1)

/-! ## Reset (spec/70_reset_and_hazards.md) -/

/-- Reset (R290): `State.reset` has the reset values; the platform's reset puts every register at them, no byte of SRC, AUX or DST is
known afterwards, the block is idle; and nothing happens until the host writes `CMD`: with no access waiting the state stays,
and no other access starts an engine or changes a result. That the
platform's reset keeps the parameters and the accesses still waiting is the model's choice (log entries 4 and 12). -/
def Obligations.ResetPutsEveryRegisterAtItsResetValue : Prop :=
  (∀ s t : State, (t = State.reset ∨ (s.work = .idle ∧ (∃ rest, s.host = .reset :: rest) ∧ step s = .next t)) →
    t.cmd = 0#32 ∧ t.status = 0#32 ∧ t.errPos = 0#32 ∧ t.srcLen = 0#32 ∧ t.auxLen = 0#32 ∧ t.outLimit = 0#32 ∧
    t.outLen = 0#32 ∧ t.lzCfg = 0x00000304#32 ∧ t.lzTarget = 0#32 ∧ t.brrLoop = 0#32 ∧
    (∀ b a, (t.buffer b).read a = none) ∧ t.work = .idle) ∧
  (∀ s rest, s.work = .idle → s.host = .reset :: rest → ∃ t, step s = .next t ∧ t.host = rest ∧ t.cfg = s.cfg) ∧
  (∀ s, s.work = .idle → s.host = [] → step s = .next s) ∧
  (∀ (s t : State) (a : HostAccess) (rest : List HostAccess), s.work = .idle → s.host = a :: rest →
    (∀ w, a ≠ .regWrite 0x00 4 w) → a ≠ .reset → step s = .next t →
    t.work = .idle ∧ t.status = s.status ∧ t.errPos = s.errPos ∧ t.outLen = s.outLen ∧ t.dst = s.dst ∧ t.brrLoop = s.brrLoop)

/-- R294: straight after reset, with `SRC_LEN = 0`, `AUX_LEN = 0`, `OUT_LIMIT = 0`: what each command leaves. No buffer byte is
read: the buffers hold none. -/
def Obligations.CommandsStraightAfterReset : Prop :=
  ∀ (cfg : Config) (s : State), s = State.resetWith cfg →
    (∀ h v, exec (.tdec2 h v) s = .next (s.succeeded []) ∧ exec (.tdec4 h v) s = .next (s.succeeded []) ∧
      exec (.tenc2 h v) s = .next (s.succeeded []) ∧ exec (.tenc4 h v) s = .next (s.succeeded [])) ∧
    exec .cexp s = .next (s.succeeded []) ∧ exec .cpack s = .next (s.succeeded []) ∧
    exec .lzdec s = .next (s.succeeded []) ∧
    exec .brrdec s = .next (s.failed 17#8 0) ∧
    exec .ipsapply s = .next (s.failed 1#8 0) ∧ exec .upsapply s = .next (s.failed 1#8 0) ∧
    (∀ w ht : Byte, w ≠ 0#8 → ht ≠ 0#8 →
      exec (.tasm2 w ht) s = .next (s.failed 3#8 0) ∧ exec (.tasm4 w ht) s = .next (s.failed 3#8 0))

/-! ## The whole machine -/

/-- The invariant holds right after reset, for every legal choice of the parameters; the capacities of `State.reset` are the
model's choice (log entry 1). -/
def Obligations.InvariantHoldsAtReset : Prop :=
  State.reset.Inv ∧ ∀ cfg : Config, cfg.wf → (State.resetWith cfg).Inv

/-- Every step keeps the invariant: DST holds exactly `OUT_LEN` bytes and `OUT_LEN <= DST_CAP`, the buffers keep their
canonical form inside their capacities, the result registers agree and their reserved bits read 0, and a running engine's
cursor stays inside its stream and its output inside the limit (R21, R24, R25, R27, R28, R31, R78; U12). -/
def Obligations.StepKeepsTheInvariant : Prop :=
  ∀ s t : State, s.Inv → step s = .next t → t.Inv

/-- The block never writes SRC or AUX (R76), and no instruction changes `CMD` or another register the host writes (R22, R255, R304).
The parameters, the waiting accesses, the last reply and the counter of the free byte, which no instruction changes either, are
the model's own fields (log entries 12, 4 and 2, DESIGN CHOICE). -/
def Obligations.NoInstructionWritesSrcOrAux : Prop :=
  ∀ (i : Instr) (s t : State), exec i s = .next t →
    t.src = s.src ∧ t.aux = s.aux ∧
    t.cmd = s.cmd ∧ t.srcLen = s.srcLen ∧ t.auxLen = s.auxLen ∧ t.outLimit = s.outLimit ∧ t.lzCfg = s.lzCfg ∧
    t.lzTarget = s.lzTarget ∧ t.cfg = s.cfg ∧ t.host = s.host ∧ t.reply = s.reply ∧ t.freeIdx = s.freeIdx

/-- The frame of every stream element: it changes only the working state, or it ends the command with an output or with an
error, writing only what R255 and R256 list; `BRR_LOOP` changes only if the engine is BRR. -/
def Obligations.ElementChangesOnlyTheWorkingStateOrEndsTheCommand : Prop :=
  ∀ (i : Instr) (s t : State), i.isCommand = false → exec i s = .next t →
    s.work ≠ .idle ∧
    ((t = { s with work := t.work } ∧ t.work ≠ .idle) ∨
      (∃ out, t = (s.succeeded out).withLoop t.brrLoop) ∨
      (∃ e pos, t = (s.failed (Err.code e) pos).withLoop t.brrLoop)) ∧
    ((∀ b, s.work ≠ .brr b) → t.brrLoop = s.brrLoop)

/-- Every command that goes to its end either succeeds, writing only the result registers and DST below `n`, with `n <= limit`
(R255), or ends with one error the block produces, writing only what R256 lists; `CMD`, the RW registers, SRC and AUX keep
their values, and `BRR_LOOP` is written by `BRRDEC` only, 0 on its errors. -/
def Obligations.CommandLeavesACompleteOutputOrOneError : Prop :=
  ∀ (i : Instr) (s t : State), i.isCommand = true → exec i s = .next t →
    ((∃ out, out.length ≤ s.limit ∧ t = (s.succeeded out).withLoop t.brrLoop) ∨
      (∃ e pos, Err.code e ∈ producedCodes ∧ t = (s.failed (Err.code e) pos).withLoop t.brrLoop ∧
        (i = .brrdec → t.brrLoop = 0#32))) ∧
    (i ≠ .brrdec → t.brrLoop = s.brrLoop)

/-- Every command ends, and the machine never meets an instruction without a meaning: no command exhausts its bound or is refused,
and no step from any state does either. That every command terminates is R307; the bound, `SRC_LEN + AUX_LEN + 2` engine steps, is
the model's (log entry 15, DEDUCED), and so is what counts as refused, a stream element that no engine selects (log entry 7,
DEDUCED). -/
def Obligations.EveryCommandEndsAndNoStepIsRefused : Prop :=
  (∀ (i : Instr) (s : State), exec i s ≠ .fault .notTerminated) ∧
  (∀ (i : Instr) (s : State) (r : Refusal), i.isCommand = true → exec i s ≠ .refused r) ∧
  (∀ (s : State) (r : Refusal), step s ≠ .refused r) ∧
  (∀ s : State, step s ≠ .fault .notTerminated)

/-- A command over inputs that the host has loaded (R293) completes, whatever they are: malformed input is a typed error. -/
def Obligations.CommandOverLoadedInputsCompletes : Prop :=
  ∀ (i : Instr) (s : State), i.isCommand = true → s.Loaded →
    ∃ t, exec i s = .next t ∧ t.work = .idle ∧ t.done = true

/-- R14: a command's result is a function of the command, the operand registers it reads and the bytes of SRC and AUX below
the stated lengths, and of nothing else: two states that agree on those and on the capacities and the CRC polynomial give the same
result registers and the same DST, wherever the platform places their windows (R6). -/
def Obligations.CommandResultDependsOnItsInputsOnly : Prop :=
  ∀ (i : Instr) (s s' t : State), i.isCommand = true →
    s'.cfg.srcCap = s.cfg.srcCap → s'.cfg.auxCap = s.cfg.auxCap → s'.cfg.dstCap = s.cfg.dstCap →
    s'.cfg.crcPoly = s.cfg.crcPoly → s'.srcLen = s.srcLen → s'.outLimit = s.outLimit →
    (readsAux i = true → s'.auxLen = s.auxLen) →
    (i = .lzdec → s'.lzCfg = s.lzCfg ∧ (lzTerm s.lzCfg = 1 → s'.lzTarget = s.lzTarget)) →
    (∀ a, a < s.srcLen.toNat → s'.src.read a = s.src.read a) →
    (readsAux i = true → ∀ a, a < s.auxLen.toNat → s'.aux.read a = s.aux.read a) →
    exec i s = .next t →
    ∃ t', exec i s' = .next t' ∧ t'.status = t.status ∧ t'.errPos = t.errPos ∧ t'.outLen = t.outLen ∧ t'.dst = t.dst ∧
      (i = .brrdec → t'.brrLoop = t.brrLoop)

/-- A command is one step (R65). The single steps inside a command, one stream element each, are the model's choice (log entry 8,
DEDUCED), and so is the bound on their number (log entry 15, DEDUCED). The one step is the run of those: its checks fail and
it ends with their error, or it ends in exactly the state that single steps, one stream element each, reach from its starting
working state, every state before that one running. -/
def Obligations.AtomicCommandIsTheRunOfItsElements : Prop :=
  ∀ (i : Instr) (w : Work) (s : State), startWork i = some w →
    (∀ st, startChecks i s = .error st → exec i s = ({ s with work := w } : State).stop st) ∧
    (startChecks i s = .ok () →
      ∀ t, exec i s = .next t ↔
        ∃ n, n ≤ s.fuel ∧ steps n { s with work := w } = .next t ∧ t.work = .idle ∧
          ∀ k, k < n → ∃ u, steps k { s with work := w } = .next u ∧ u.work ≠ .idle)

/-! ## The host side (spec/10_state.md, spec/20_memory.md) -/

/-- A host write of an aligned word at an offset other than `CMD`'s, and a read at any aligned offset: the five RW registers other
than `CMD` take the value written, every other offset reads as before, and nothing else changes (R22, R26, R27, R29, R30, R61).
`CMD` is covered by `CmdWriteStoresTheWordAndRunsItsCommand` (O5). -/
def Obligations.HostWritesOfRegistersReadBack : Prop :=
  ∀ (s : State) (offset : Nat) (v : Word) (rest : List HostAccess), s.work = .idle → offset % 4 = 0 →
    (offset ≠ 0x00 → s.host = .regWrite offset 4 v :: rest →
      ∃ t, step s = .next t ∧
        (∀ o, t.readReg o = if o = offset ∧ o ∈ [0x0C, 0x10, 0x14, 0x1C, 0x20] then v else s.readReg o) ∧
        t.src = s.src ∧ t.aux = s.aux ∧ t.dst = s.dst ∧ t.work = .idle ∧ t.host = rest ∧ t.cfg = s.cfg ∧
        t.reply = s.reply ∧ t.freeIdx = s.freeIdx) ∧
    (s.host = .regRead offset 4 :: rest → step s = .next { s with host := rest, reply := .word (s.readReg offset) })

/-- R32: an access at offset 0x28 or above, or one that is not a naturally aligned 32-bit word, reads 0, writes nothing and has
no side effect. R33: a host write to a read-only register is ignored, whatever the value, and no register read has a side
effect. -/
def Obligations.ReservedAndReadOnlyAccessesDoNothing : Prop :=
  ∀ (s : State) (offset width : Nat) (v : Word) (rest : List HostAccess), s.work = .idle →
    ((0x28 ≤ offset ∨ width ≠ 4 ∨ offset % 4 ≠ 0) →
      (s.host = .regRead offset width :: rest → step s = .next { s with host := rest, reply := .word 0#32 }) ∧
      (s.host = .regWrite offset width v :: rest → step s = .next { s with host := rest })) ∧
    (offset ∈ [0x04, 0x08, 0x18, 0x24] → s.host = .regWrite offset 4 v :: rest → step s = .next { s with host := rest }) ∧
    (s.host = .regRead offset width :: rest → ∃ value, step s = .next { s with host := rest, reply := .word value })

/-- The host's accesses to the buffers (R37, R63, R67): a write to SRC or AUX sets that byte and nothing else; a write to DST is
ignored; a read of a byte that the buffer holds returns it and changes nothing; and no access can fault
(92_eei_decisions.md D38). The model's own: a read of a byte that has no stated value answers with any value and advances the
counter of the free byte (log entry 2, DESIGN CHOICE); at or above the capacity a write is ignored and a read is such a read (log
entry 6); DST lists exactly the bytes below `OUT_LEN` in a state that satisfies the invariant (log entry 10, DESIGN CHOICE). -/
def Obligations.HostAccessesToBuffers : Prop :=
  ∀ (s : State) (a : Nat) (v : Byte) (rest : List HostAccess), s.work = .idle →
    (a < s.cfg.srcCap → s.host = .bufWrite .src a v :: rest →
      ∃ m, step s = .next { s with host := rest, src := m } ∧ ∀ x, m.read x = if x = a then some v else s.src.read x) ∧
    (a < s.cfg.auxCap → s.host = .bufWrite .aux a v :: rest →
      ∃ m, step s = .next { s with host := rest, aux := m } ∧ ∀ x, m.read x = if x = a then some v else s.aux.read x) ∧
    (∀ b, b = .dst ∨ s.capacity b ≤ a → s.host = .bufWrite b a v :: rest → step s = .next { s with host := rest }) ∧
    (∀ b, s.host = .bufRead b a :: rest →
      (∀ x, a < s.capacity b → (s.buffer b).read a = some x → step s = .next { s with host := rest, reply := .byte x }) ∧
      (s.capacity b ≤ a ∨ (s.buffer b).read a = none →
        ∃ x, step s = .next { s with host := rest, reply := .byte x, freeIdx := s.freeIdx + 1 })) ∧
    (∀ h, s.host = h :: rest → h.command? = none → ∃ t, step s = .next t ∧ t.work = .idle ∧ t.host = rest) ∧
    (s.Inv → ((s.dst.read a).isSome = true ↔ a < s.outLen.toNat))

/-! ## Illegal words (spec/30_encoding.md R95, spec/60_exceptions.md R271) -/

/-- R95: an illegal word raises `IllegalCommand(0)`: code 19, `DONE`, position 0, no output, DST unspecified, `BRR_LOOP` and
everything else unchanged; the word itself is stored in `CMD`. The word 0 is one of them. -/
def Obligations.IllegalWordRaisesIllegalCommand : Prop :=
  legalWord 0x00000000#32 = false ∧
  (∀ (s : State) (w : Word), exec (.illegal w) s = .next (s.failed 19#8 0)) ∧
  (∀ (s : State) (w : Word) (rest : List HostAccess), s.work = .idle → s.host = .regWrite 0x00 4 w :: rest →
    legalWord w = false → step s = .next (({ s with host := rest, cmd := w } : State).failed 19#8 0))

/-! ## The tile codec (spec/40_tile.md) -/

/-- R133, with R131 and R132: the flips on the 8 by 8 matrix. -/
def Obligations.FlipsAreInvolutionsAndCommute : Prop :=
  ∀ (m : Matrix) (x y : Nat), x < 8 → y < 8 →
    hflip m x y = m (7 - x) y ∧ vflip m x y = m x (7 - y) ∧
    hflip (hflip m) x y = m x y ∧ vflip (vflip m) x y = m x y ∧
    hflip (vflip m) x y = vflip (hflip m) x y ∧
    flip m false false x y = m x y ∧ flip m true false x y = hflip m x y ∧ flip m false true x y = vflip m x y ∧
    flip m true true x y = hflip (vflip m) x y

/-- R139: unpacking a packed matrix gives it back, for both depths and every matrix whose entries are in range; and packing an
unpacked tile gives back its bytes. -/
def Obligations.UnpackAndPackAreInverse : Prop :=
  ∀ d : Depth,
    (∀ m : Matrix, (∀ x y, x < 8 → y < 8 → (m x y).toNat < 2 ^ d.bits) →
      (pack m d).length = d.tileBytes ∧ ∀ x y, x < 8 → y < 8 → unpack (pack m d) d x y = m x y) ∧
    (∀ tb : List Byte, tb.length = d.tileBytes → pack (unpack tb d) d = tb)

/-- R130: bit `p` of pixel `(x, y)` is bit `7 - x` of the byte at `planeoff(p, y)`, and every index is in `0 .. 2^d - 1`. -/
def Obligations.UnpackedPixelBitsAreThePlaneBits : Prop :=
  ∀ (d : Depth) (tb : List Byte) (x y : Nat), tb.length = d.tileBytes → x < 8 → y < 8 →
    (unpack tb d x y).toNat < 2 ^ d.bits ∧
    ∀ p, p < d.bits →
      ∃ h : 2 * y + p % 2 + (if 2 ≤ p then 16 else 0) < tb.length,
        (unpack tb d x y).getLsbD p = (tb[2 * y + p % 2 + (if 2 ≤ p then 16 else 0)]).getLsbD (7 - x)

/-- `TILE2` and `TILE4` complete (R130, R134, R140): a decode engine of the depth appends the 64 indices of the flipped tile,
an assembly engine that has its whole flip list places them under the tile's own flags; nothing else changes. -/
def Obligations.PackedTileElementsComplete : Prop :=
  ∀ (s : State) (planes : List Byte),
    (∀ t, s.work = .tdec t → t.depth = .two → planes.length = 16 →
      exec (.tile2 planes) s = .next { s with work := .tdec { t with
        c := t.c + 16, out := t.out ++ tileBytes (flip (unpack planes .two) t.h t.v) } }) ∧
    (∀ t, s.work = .tdec t → t.depth = .four → planes.length = 32 →
      exec (.tile4 planes) s = .next { s with work := .tdec { t with
        c := t.c + 32, out := t.out ++ tileBytes (flip (unpack planes .four) t.h t.v) } }) ∧
    (∀ a fh fv, s.work = .tasm a → a.depth = .two → planes.length = 16 → a.flips.length = a.w * a.ht →
      a.flips[a.tiles.length]? = some (fh, fv) →
      exec (.tile2 planes) s = .next { s with work := .tasm { a with
        tiles := a.tiles ++ [tileBytes (flip (unpack planes .two) fh fv)] } }) ∧
    (∀ a fh fv, s.work = .tasm a → a.depth = .four → planes.length = 32 → a.flips.length = a.w * a.ht →
      a.flips[a.tiles.length]? = some (fh, fv) →
      exec (.tile4 planes) s = .next { s with work := .tasm { a with
        tiles := a.tiles ++ [tileBytes (flip (unpack planes .four) fh fv)] } })

/-- `UTILE`, `FLIP` and `IMAGE` complete (R104, R105, R136, R137, R140): the flipped matrix is packed and appended, or, where a
pixel is out of range, the command ends with `IndexOutOfRange` at the lowest such offset; the flags of the next tile are
recorded; the image that the placed tiles make is the output. -/
def Obligations.UtileFlipAndImageElementsComplete : Prop :=
  (∀ (s : State) (t : TileWork) (pixels : List Byte), s.work = .tenc t → pixels.length = 64 →
    ((∀ p ∈ pixels, p.toNat < 2 ^ t.depth.bits) →
      exec (.utile pixels) s = .next { s with work := .tenc { t with
        c := t.c + 64, out := t.out ++ pack (flip (tileMatrix pixels) t.h t.v) t.depth } }) ∧
    (∀ k (h : k < pixels.length), 2 ^ t.depth.bits ≤ (pixels[k]).toNat →
      (∀ j (hj : j < k), (pixels[j]'(Nat.lt_trans hj h)).toNat < 2 ^ t.depth.bits) →
      exec (.utile pixels) s = .next (s.failed 11#8 (t.c + k)))) ∧
  (∀ (s : State) (a : AsmWork), s.work = .tasm a →
    (∀ fh fv, a.flips.length < a.w * a.ht →
      exec (.flip fh fv) s = .next { s with work := .tasm { a with flips := a.flips ++ [(fh, fv)] } }) ∧
    (a.flips.length = a.w * a.ht → a.tiles.length = a.w * a.ht →
      exec (.image (assemble a.w a.ht a.tiles)) s = .next (s.succeeded (assemble a.w a.ht a.tiles))))

/-- R105, R140: tile `(tx, ty)` is tile `ty*W + tx` of the sheet and occupies the image region `(8tx..8tx+8, 8ty..8ty+8)`; image
pixel `(X, Y)` is byte `Y*8*W + X`. -/
def Obligations.AssembledImagePlacesEveryTile : Prop :=
  ∀ (w ht : Nat) (tiles : List (List Byte)), tiles.length = w * ht → (∀ t ∈ tiles, t.length = 64) →
    (assemble w ht tiles).length = 64 * (w * ht) ∧
    ∀ tx ty x y, tx < w → ty < ht → x < 8 → y < 8 →
      ∃ (h : ty * w + tx < tiles.length) (h' : 8 * y + x < (tiles[ty * w + tx]).length),
        (assemble w ht tiles)[(8 * ty + y) * (8 * w) + (8 * tx + x)]? = some ((tiles[ty * w + tx])[8 * y + x])

/-- `TDEC2` and `TDEC4` (R134, R135): a sheet of any number of whole tiles decodes to their 64 indices each, every tile flipped
as the command says. -/
def Obligations.TdecDecodesEveryTileOfTheSheet : Prop :=
  ∀ (s : State) (h v : Bool) (tiles : List (List Byte)),
    Holds s.src 0 tiles.flatten → s.srcLen.toNat = tiles.flatten.length → s.srcLen.toNat ≤ s.cfg.srcCap →
    64 * tiles.length ≤ s.limit →
    ((∀ t ∈ tiles, t.length = 16) →
      exec (.tdec2 h v) s = .next (s.succeeded (tiles.flatMap fun tb => tileBytes (flip (unpack tb .two) h v)))) ∧
    ((∀ t ∈ tiles, t.length = 32) →
      exec (.tdec4 h v) s = .next (s.succeeded (tiles.flatMap fun tb => tileBytes (flip (unpack tb .four) h v))))

/-- `TENC2` and `TENC4` (R137, R138): a sheet of any number of unpacked tiles whose pixels are in range packs tile by tile, every
tile flipped before packing. -/
def Obligations.TencPacksEveryTileOfTheSheet : Prop :=
  ∀ (s : State) (h v : Bool) (tiles : List (List Byte)),
    Holds s.src 0 tiles.flatten → s.srcLen.toNat = tiles.flatten.length → s.srcLen.toNat ≤ s.cfg.srcCap →
    (∀ t ∈ tiles, t.length = 64) →
    (16 * tiles.length ≤ s.limit → (∀ t ∈ tiles, ∀ p ∈ t, p.toNat < 4) →
      exec (.tenc2 h v) s = .next (s.succeeded (tiles.flatMap fun px => pack (flip (tileMatrix px) h v) .two))) ∧
    (32 * tiles.length ≤ s.limit → (∀ t ∈ tiles, ∀ p ∈ t, p.toNat < 16) →
      exec (.tenc4 h v) s = .next (s.succeeded (tiles.flatMap fun px => pack (flip (tileMatrix px) h v) .four)))

/-- `TASM2` and `TASM4` (R140, R141): exactly `W*HT` tiles and as many flip bytes give the assembled image of the tiles, each
flipped as its own flip byte says. -/
def Obligations.TasmAssemblesTheFlippedTiles : Prop :=
  ∀ (s : State) (w ht : Byte) (tiles : List (List Byte)) (flips : List (Bool × Bool)),
    w ≠ 0#8 → ht ≠ 0#8 → tiles.length = w.toNat * ht.toNat → flips.length = w.toNat * ht.toNat →
    Holds s.src 0 tiles.flatten → s.srcLen.toNat = tiles.flatten.length → s.srcLen.toNat ≤ s.cfg.srcCap →
    Holds s.aux 0 (flips.flatMap fun f => streamBytes (.flip f.1 f.2)) → s.auxLen.toNat = flips.length →
    s.auxLen.toNat ≤ s.cfg.auxCap → 64 * (w.toNat * ht.toNat) ≤ s.limit →
    ((∀ t ∈ tiles, t.length = 16) →
      exec (.tasm2 w ht) s = .next (s.succeeded (assemble w.toNat ht.toNat
        (List.zipWith (fun tb f => tileBytes (flip (unpack tb .two) f.1 f.2)) tiles flips)))) ∧
    ((∀ t ∈ tiles, t.length = 32) →
      exec (.tasm4 w ht) s = .next (s.succeeded (assemble w.toNat ht.toNat
        (List.zipWith (fun tb f => tileBytes (flip (unpack tb .four) f.1 f.2)) tiles flips))))

/-- The errors of the sheet and colour commands, in the order of R258, with their positions (R134, R135, R137, R138, R152, R153,
R270): a length above the capacity, a length that is not a whole number of elements, an output that does not fit; for the
encode commands then the lowest address of a pixel that is out of range. `size` is the input size of an element and `k` its
output size. -/
def Obligations.SheetCommandsReportTheFirstFailingCheck : Prop :=
  ∀ (s : State) (i : Instr) (size k : Nat),
    ((∃ h v, i = .tdec2 h v) ∧ size = 16 ∧ k = 64) ∨ ((∃ h v, i = .tdec4 h v) ∧ size = 32 ∧ k = 64) ∨
    ((∃ h v, i = .tenc2 h v) ∧ size = 64 ∧ k = 16) ∨ ((∃ h v, i = .tenc4 h v) ∧ size = 64 ∧ k = 32) ∨
    (i = .cexp ∧ size = 2 ∧ k = 3) ∨ (i = .cpack ∧ size = 3 ∧ k = 2) →
    (s.cfg.srcCap < s.srcLen.toNat → exec i s = .next (s.failed 20#8 0)) ∧
    (s.srcLen.toNat ≤ s.cfg.srcCap → s.srcLen.toNat % size ≠ 0 →
      exec i s = .next (s.failed 3#8 (s.srcLen.toNat - s.srcLen.toNat % size))) ∧
    (s.srcLen.toNat ≤ s.cfg.srcCap → s.srcLen.toNat % size = 0 → s.limit < k * (s.srcLen.toNat / size) →
      exec i s = .next (s.failed 15#8 (size * (s.limit / k)))) ∧
    (∀ (h v : Bool) (good : List Byte) (bad : Byte) (bound : Nat),
      (i = .tenc2 h v ∧ bound = 4) ∨ (i = .tenc4 h v ∧ bound = 16) →
      s.srcLen.toNat ≤ s.cfg.srcCap → s.srcLen.toNat % size = 0 → k * (s.srcLen.toNat / size) ≤ s.limit →
      Holds s.src 0 (good ++ [bad]) → good.length < s.srcLen.toNat → (∀ p ∈ good, p.toNat < bound) → bound ≤ bad.toNat →
      exec i s = .next (s.failed 11#8 good.length))

/-- The errors of the assembly commands in the order of R258, with their positions (R140, R141, R270): a length above its
capacity, SRC short, SRC long, the flip list short, the flip list long, the image not fitting, then the lowest index of a
flip byte with a reserved bit set. -/
def Obligations.TasmReportsTheFirstFailingCheck : Prop :=
  ∀ (s : State) (w ht : Byte) (i : Instr) (size n : Nat),
    (i = .tasm2 w ht ∧ size = 16) ∨ (i = .tasm4 w ht ∧ size = 32) → n = w.toNat * ht.toNat →
    ((s.cfg.srcCap < s.srcLen.toNat ∨ s.cfg.auxCap < s.auxLen.toNat) → exec i s = .next (s.failed 20#8 0)) ∧
    (s.srcLen.toNat ≤ s.cfg.srcCap → s.auxLen.toNat ≤ s.cfg.auxCap →
      (s.srcLen.toNat < size * n → exec i s = .next (s.failed 3#8 s.srcLen.toNat)) ∧
      (size * n < s.srcLen.toNat → exec i s = .next (s.failed 20#8 (size * n))) ∧
      (s.srcLen.toNat = size * n → s.auxLen.toNat < n → exec i s = .next (s.failed 3#8 s.auxLen.toNat)) ∧
      (s.srcLen.toNat = size * n → n < s.auxLen.toNat → exec i s = .next (s.failed 20#8 n)) ∧
      (s.srcLen.toNat = size * n → s.auxLen.toNat = n → s.limit < 64 * n → exec i s = .next (s.failed 15#8 0)) ∧
      (∀ (good : List (Bool × Bool)) (bad : Byte), s.srcLen.toNat = size * n → s.auxLen.toNat = n → 64 * n ≤ s.limit →
        Holds s.aux 0 ((good.flatMap fun f => streamBytes (.flip f.1 f.2)) ++ [bad]) → good.length < n →
        bad.extractLsb' 2 6 ≠ 0#6 → exec i s = .next (s.failed 20#8 good.length)))

/-! ## The colour converter (spec/41_color.md) -/

/-- R150: the channel functions. -/
def Obligations.WidenAndNarrowChannels : Prop :=
  (∀ c5 : BitVec 5, (widen c5).toNat = c5.toNat * 8 + c5.toNat / 4 ∧ narrow (widen c5) = c5) ∧
  (∀ c8 : Byte, (narrow c8).toNat = c8.toNat / 8) ∧
  widen 0#5 = 0#8 ∧ widen 1#5 = 8#8 ∧ widen 4#5 = 33#8 ∧ widen 16#5 = 132#8 ∧ widen 31#5 = 255#8

/-- `COLOR15` and `RGB24` complete (R152, R153): three widened bytes R, G, B, bit 15 ignored; or the two bytes of the packed word,
low byte first, bit 15 zero. -/
def Obligations.ColourElementsComplete : Prop :=
  ∀ (s : State) (k : ColorWork),
    (s.work = .cexp k → ∀ (x : Bool) (b g r : BitVec 5),
      exec (.color15 x b g r) s = .next { s with work := .cexp {
        c := k.c + 2, out := k.out ++ [widen r, widen g, widen b] } }) ∧
    (s.work = .cpack k → ∀ (r g b : Byte),
      ∃ w : BitVec 16, w.extractLsb' 0 5 = narrow r ∧ w.extractLsb' 5 5 = narrow g ∧ w.extractLsb' 10 5 = narrow b ∧
        w.getLsbD 15 = false ∧
        exec (.rgb24 r g b) s = .next { s with work := .cpack {
          c := k.c + 3, out := k.out ++ [w.extractLsb' 0 8, w.extractLsb' 8 8] } })

/-- `CEXP` and `CPACK` (R151, R152, R153): any number of colours. -/
def Obligations.ColourCommandsConvertEveryColour : Prop :=
  (∀ (s : State) (ws : List (BitVec 16)),
    Holds s.src 0 (ws.flatMap fun w => [w.extractLsb' 0 8, w.extractLsb' 8 8]) → s.srcLen.toNat = 2 * ws.length →
    s.srcLen.toNat ≤ s.cfg.srcCap → 3 * ws.length ≤ s.limit →
    exec .cexp s = .next (s.succeeded
      (ws.flatMap fun w => [widen (w.extractLsb' 0 5), widen (w.extractLsb' 5 5), widen (w.extractLsb' 10 5)]))) ∧
  (∀ (s : State) (cs : List (Byte × Byte × Byte)),
    Holds s.src 0 (cs.flatMap fun c => [c.1, c.2.1, c.2.2]) → s.srcLen.toNat = 3 * cs.length →
    s.srcLen.toNat ≤ s.cfg.srcCap → 2 * cs.length ≤ s.limit →
    exec .cpack s = .next (s.succeeded
      (cs.flatMap fun c => bytesLe16 (0#1 ++ narrow c.2.2 ++ narrow c.2.1 ++ narrow c.1))))

/-- R154: `CPACK` of the output of `CEXP` on words with bit 15 clear returns the same words, whatever else the second state holds;
and `CEXP` of the output of `CPACK` returns `widen(narrow(c8))` of each channel, which is `c8` only for a value `widen` takes. -/
def Obligations.ColourCommandsRoundTrip : Prop :=
  (∀ (s t u : State) (ws : List (BitVec 16)), (∀ w ∈ ws, w.getLsbD 15 = false) →
    Holds s.src 0 (ws.flatMap bytesLe16) → s.srcLen.toNat = 2 * ws.length → s.srcLen.toNat ≤ s.cfg.srcCap →
    3 * ws.length ≤ s.limit → exec .cexp s = .next t →
    u.src = t.dst → u.srcLen = t.outLen → u.srcLen.toNat ≤ u.cfg.srcCap → 2 * ws.length ≤ u.limit →
    exec .cpack u = .next (u.succeeded (ws.flatMap bytesLe16))) ∧
  (∀ (s t u : State) (cs : List Byte), cs.length % 3 = 0 →
    Holds s.src 0 cs → s.srcLen.toNat = cs.length → s.srcLen.toNat ≤ s.cfg.srcCap →
    2 * (cs.length / 3) ≤ s.limit → exec .cpack s = .next t →
    u.src = t.dst → u.srcLen = t.outLen → u.srcLen.toNat ≤ u.cfg.srcCap → cs.length ≤ u.limit →
    exec .cexp u = .next (u.succeeded (cs.map fun c8 => widen (narrow c8)))) ∧
  (∀ c8 : Byte, widen (narrow c8) = c8 ↔ ∃ c5, widen c5 = c8)

/-! ## The BRR decoder (spec/42_brr.md) -/

/-- R164, R165, R168: the sample computed on exact integers is the sample of 32-bit fixed-point arithmetic, "multiply then
arithmetic shift": nothing overflows, for every shift, filter, nibble and history. -/
def Obligations.SampleIsTheThirtyTwoBitArithmetic : Prop :=
  ∀ (shift : BitVec 4) (filter : BitVec 2) (nibble : BitVec 4) (p1 p2 : Sample),
    brrSample shift.toNat filter.toNat nibble p1 p2 = sample32 shift filter nibble p1 p2

/-- R164, R165, R168: the scaled nibble, the filter term with its products shifted one by one and rounded toward minus
infinity, their sum clamped to 16 bits; and the history, which takes the clamped value. -/
def Obligations.SampleIsTheClampedSum : Prop :=
  ∀ (shift : BitVec 4) (filter : BitVec 2) (nibble : BitVec 4) (b : BrrWork) (v f : Int) (x : Sample),
    v = scale nibble.toInt shift.toNat → f = term filter.toNat b.p1.toInt b.p2.toInt →
    x = brrSample shift.toNat filter.toNat nibble b.p1 b.p2 →
    v = (if shift.toNat ≤ 12 then nibble.toInt * 2 ^ shift.toNat else if nibble.toInt < 0 then -2048 else 2047) ∧
    f = (if filter = 0#2 then 0
         else if filter = 1#2 then (b.p1.toInt * 15).fdiv 16
         else if filter = 2#2 then (b.p1.toInt * 61).fdiv 32 + (b.p2.toInt * -15).fdiv 16
         else (b.p1.toInt * 115).fdiv 64 + (b.p2.toInt * -13).fdiv 16) ∧
    x.toInt = max (-32768) (min 32767 (v + f)) ∧
    (b.emit x).p1 = x ∧ (b.emit x).p2 = b.p1

/-- `BRRBLK` and `PCM16` complete (R109, R161, R166, R167, R169): a block whose 32 bytes fit appends its 16 samples, records its
loop flag and moves the cursor by 9, and ends the command when `end` is set; one that does not fit is `OutputLimitExceeded` at
its header, with `BRR_LOOP` 0, both when it is executed and when a step reads it; one sample is two bytes and a shift of the
history. -/
def Obligations.BrrElementsComplete : Prop :=
  ∀ (s : State) (b : BrrWork) (k : BrrBlock), s.work = .brr b → k.nibbles.length = 16 →
    (2 * (b.out.length / 2 + 16) ≤ s.limit →
      exec (.brrblk k.shift k.filter k.loop false k.nibbles) s = .next { s with work := .brr (BrrBlock.run b k) } ∧
      exec (.brrblk k.shift k.filter k.loop true k.nibbles) s =
        .next ((s.succeeded (BrrBlock.run b k).out).withLoop
          (loopWord (BrrBlock.run b k).loopValid (BrrBlock.run b k).loopPoint))) ∧
    (s.limit < 2 * (b.out.length / 2 + 16) → ∀ fin,
      exec (.brrblk k.shift k.filter k.loop fin k.nibbles) s = .next ((s.failed 15#8 b.c).withLoop 0#32) ∧
      (Holds s.src b.c (k.bytes fin) → b.c + 9 ≤ s.srcLen.toNat →
        step s = .next ((s.failed 15#8 b.c).withLoop 0#32))) ∧
    (∀ x : Sample, exec (.pcm16 x) s = .next { s with work := .brr { b with
      out := b.out ++ [x.extractLsb' 0 8, x.extractLsb' 8 8], p1 := x, p2 := b.p1 } })

/-- R170: where the next block is needed, nothing left is `NoEnd` at `SRC_LEN` and 1 to 8 bytes left is `EndBeforeBlocks` at the
partial block; an empty stream is `NoEnd(0)`. `BRR_LOOP` is 0 after either. -/
def Obligations.BrrStreamThatStopsShort : Prop :=
  (∀ (s : State) (b : BrrWork), s.work = .brr b →
    (b.c = s.srcLen.toNat → step s = .next ((s.failed 17#8 s.srcLen.toNat).withLoop 0#32)) ∧
    (b.c < s.srcLen.toNat → s.srcLen.toNat - b.c < 9 → step s = .next ((s.failed 16#8 b.c).withLoop 0#32))) ∧
  (∀ s : State, s.srcLen = 0#32 → exec .brrdec s = .next ((s.failed 17#8 0).withLoop 0#32)) ∧
  (∀ s : State, 0 < s.srcLen.toNat → s.srcLen.toNat < 9 → s.srcLen.toNat ≤ s.cfg.srcCap →
    exec .brrdec s = .next ((s.failed 16#8 0).withLoop 0#32))

/-- `BRRDEC` (R161, R166, R167): blocks without `end` and then one with it, anything after that: the samples of all of them, the
history running on from block to block, and the loop record of the last block that carries the flag. -/
def Obligations.BrrdecDecodesAStream : Prop :=
  ∀ (s : State) (blocks : List BrrBlock) (last : BrrBlock) (b : BrrWork) (more : Nat),
    (∀ k ∈ blocks, k.nibbles.length = 16) → last.nibbles.length = 16 →
    Holds s.src 0 (blocks.flatMap (·.bytes false) ++ last.bytes true) →
    s.srcLen.toNat = 9 * (blocks.length + 1) + more → s.srcLen.toNat ≤ s.cfg.srcCap →
    32 * (blocks.length + 1) ≤ s.limit →
    b = (blocks ++ [last]).foldl BrrBlock.run
      { c := 0, out := [], p1 := 0#16, p2 := 0#16, loopValid := false, loopPoint := 0 } →
    exec .brrdec s = .next ((s.succeeded b.out).withLoop (loopWord b.loopValid b.loopPoint))

/-! ## The LZ decompressor (spec/43_lz.md) -/

/-- R187: the copy keeps the output, appends `length` bytes, each the byte `dist` places before it in the output as it then
stands, so that the last `dist` bytes are repeated cyclically. -/
def Obligations.LzCopyRepeatsTheLastBytes : Prop :=
  ∀ (dist length : Nat) (out : List Byte), 1 ≤ dist → dist ≤ out.length →
    (lzCopy dist length out).length = out.length + length ∧
    (lzCopy dist length out).take out.length = out ∧
    ∀ i, i < length →
      (lzCopy dist length out)[out.length + i]? = (lzCopy dist length out)[out.length + i - dist]? ∧
      (lzCopy dist length out)[out.length + i]? = out[out.length - dist + i % dist]?

/-- R111: the match word and its two fields, for every split, either end and either byte order; under the reset grammar lengths
are 3 to 18 and distances 0 to 4095. -/
def Obligations.MatchWordSplitsAsTheGrammarSays : Prop :=
  (∀ (cfg : Word) (b0 b1 : Byte) (w : BitVec 16) (bits : Nat), bits = (cfg.extractLsb' 0 4).toNat → 1 ≤ bits →
    w = (if cfg.getLsbD 5 then b1 ++ b0 else b0 ++ b1) →
    lzDist cfg b0 b1 = (if cfg.getLsbD 4 then w.extractLsb' bits (16 - bits) else w.extractLsb' 0 (16 - bits)).toNat ∧
    lzLength cfg b0 b1 =
      (if cfg.getLsbD 4 then w.extractLsb' 0 bits else w.extractLsb' (16 - bits) bits).toNat +
        (cfg.extractLsb' 8 8).toNat) ∧
  (∀ b0 b1 : Byte,
    lzLength 0x00000304#32 b0 b1 = b0.toNat / 16 + 3 ∧ lzDist 0x00000304#32 b0 b1 = b0.toNat % 16 * 256 + b1.toNat ∧
    3 ≤ lzLength 0x00000304#32 b0 b1 ∧ lzLength 0x00000304#32 b0 b1 ≤ 18 ∧ lzDist 0x00000304#32 b0 b1 ≤ 4095)

/-- `LZCTRL`, `LZLIT`, `LZEND` complete (R110, R112, R183, R184, R188, R189): a control byte where all bits are used, a literal
where the next bit is 0, the end marker where `TERM = 2` reserves it. A literal that does not fit is `OutputLimitExceeded` at its
byte, both when it is executed and when a step comes to it. -/
def Obligations.LzControlLiteralAndEndComplete : Prop :=
  ∀ (s : State) (z : LzWork) (x : Byte), s.work = .lz z →
    (z.bitsLeft = 0 → (lzTerm s.lzCfg ≠ 2 ∨ x ≠ lzEndCtrl s.lzCfg) →
      exec (.lzctrl x) s = .next { s with work := .lz { z with c := z.c + 1, ctrl := x, bitsLeft := 8 } }) ∧
    (z.bitsLeft = 0 → lzTerm s.lzCfg = 2 → x = lzEndCtrl s.lzCfg → exec (.lzend x) s = .next (s.succeeded z.out)) ∧
    (z.bitsLeft ≠ 0 → z.ctrl.getLsbD 7 = false → z.out.length + 1 ≤ s.limit →
      exec (.lzlit x) s = .next { s with work := .lz {
        c := z.c + 1, ctrl := z.ctrl <<< 1, bitsLeft := z.bitsLeft - 1, out := z.out ++ [x] } }) ∧
    (z.bitsLeft ≠ 0 → z.ctrl.getLsbD 7 = false → s.limit < z.out.length + 1 →
      exec (.lzlit x) s = .next (s.failed 15#8 z.c) ∧
      (z.c < s.srcLen.toNat → (lzTerm s.lzCfg = 1 → z.out.length ≠ s.lzTarget.toNat) → step s = .next (s.failed 15#8 z.c)))

/-- `LZMATCH` completes (R185, R186, R188, R189): `LengthZero` before `DistanceOutOfBounds` before `OutputLimitExceeded`, each at
the pair's offset and writing nothing; else the copy, the bit used, the cursor moved by 2. -/
def Obligations.LzMatchCompletes : Prop :=
  ∀ (s : State) (z : LzWork) (b0 b1 : Byte) (length dist : Nat), s.work = .lz z → z.bitsLeft ≠ 0 →
    z.ctrl.getLsbD 7 = true → length = lzLength s.lzCfg b0 b1 → dist = lzDist s.lzCfg b0 b1 →
    (length = 0 → exec (.lzmatch b0 b1) s = .next (s.failed 18#8 z.c)) ∧
    (length ≠ 0 → (dist = 0 ∨ z.out.length < dist) → exec (.lzmatch b0 b1) s = .next (s.failed 9#8 z.c)) ∧
    (length ≠ 0 → dist ≠ 0 → dist ≤ z.out.length →
      (s.limit < z.out.length + length ∨ (lzTerm s.lzCfg = 1 ∧ s.lzTarget.toNat < z.out.length + length)) →
      exec (.lzmatch b0 b1) s = .next (s.failed 15#8 z.c)) ∧
    (length ≠ 0 → dist ≠ 0 → dist ≤ z.out.length → z.out.length + length ≤ s.limit →
      (lzTerm s.lzCfg = 1 → z.out.length + length ≤ s.lzTarget.toNat) →
      exec (.lzmatch b0 b1) s = .next { s with work := .lz {
        c := z.c + 2, ctrl := z.ctrl <<< 1, bitsLeft := z.bitsLeft - 1, out := lzCopy dist length z.out } })

/-- R270, R181: `IllegalOperand`. Every command over `SRC_LEN > SRC_CAP`, and every command that reads AUX over
`AUX_LEN > AUX_CAP`, ends with it at 0, `BRR_LOOP` being 0 after `BRRDEC`; so does `LZDEC` with an illegal `LZ_CFG`, and every other
value of that register passes its checks; the assembly commands end with it at the end of the wanted sheet or flip list where
there is more, and at a flip byte with a reserved bit set. -/
def Obligations.IllegalOperandIsRaisedAsTheTableSays : Prop :=
  (∀ (s : State) (i : Instr), i.isCommand = true → (∀ w, i ≠ .illegal w) →
    (s.cfg.srcCap < s.srcLen.toNat ∨ (readsAux i = true ∧ s.cfg.auxCap < s.auxLen.toNat)) →
    exec i s = .next ((s.failed 20#8 0).withLoop (if i = .brrdec then 0#32 else s.brrLoop))) ∧
  (∀ s : State,
    ((s.lzCfg.extractLsb' 24 8 ≠ 0#8 ∨ s.lzCfg.extractLsb' 0 4 = 0#4 ∨ s.lzCfg.extractLsb' 6 2 = 3#2) →
      exec .lzdec s = .next (s.failed 20#8 0)) ∧
    (s.lzCfg.extractLsb' 24 8 = 0#8 → s.lzCfg.extractLsb' 0 4 ≠ 0#4 → s.lzCfg.extractLsb' 6 2 ≠ 3#2 →
      s.srcLen.toNat ≤ s.cfg.srcCap → startChecks .lzdec s = .ok ())) ∧
  (∀ (s : State) (w ht : Byte) (i : Instr) (size n : Nat),
    (i = .tasm2 w ht ∧ size = 16) ∨ (i = .tasm4 w ht ∧ size = 32) → n = w.toNat * ht.toNat →
    s.srcLen.toNat ≤ s.cfg.srcCap → s.auxLen.toNat ≤ s.cfg.auxCap →
    (size * n < s.srcLen.toNat → exec i s = .next (s.failed 20#8 (size * n))) ∧
    (s.srcLen.toNat = size * n → n < s.auxLen.toNat → exec i s = .next (s.failed 20#8 n)) ∧
    (∀ (good : List (Bool × Bool)) (bad : Byte), s.srcLen.toNat = size * n → s.auxLen.toNat = n → 64 * n ≤ s.limit →
      Holds s.aux 0 ((good.flatMap fun f => streamBytes (.flip f.1 f.2)) ++ [bad]) → good.length < n →
      bad.extractLsb' 2 6 ≠ 0#6 → exec i s = .next (s.failed 20#8 good.length)))

/-- R188, R190: how an LZ stream ends. With `TERM = 1` it ends as soon as the output has `LZ_TARGET` bytes, before anything is
read; otherwise, where the input has run out when a control byte or a token is needed, a `TERM = 0` stream ends and any other
is `UnexpectedEof` at `SRC_LEN`; a match pair of one byte is `UnexpectedEof` at that byte; with `TERM = 2` it ends at the marker
read as a control byte; and a match that would pass the target is `OutputLimitExceeded`. -/
def Obligations.LzStreamEnds : Prop :=
  ∀ (s : State) (z : LzWork), s.work = .lz z →
    (lzTerm s.lzCfg = 1 → z.out.length = s.lzTarget.toNat → step s = .next (s.succeeded z.out)) ∧
    ((lzTerm s.lzCfg = 1 → z.out.length ≠ s.lzTarget.toNat) →
      (z.c = s.srcLen.toNat → lzTerm s.lzCfg = 0 → step s = .next (s.succeeded z.out)) ∧
      (z.c = s.srcLen.toNat → lzTerm s.lzCfg ≠ 0 → step s = .next (s.failed 3#8 s.srcLen.toNat)) ∧
      (z.c + 1 = s.srcLen.toNat → z.bitsLeft ≠ 0 → z.ctrl.getLsbD 7 = true →
        step s = .next (s.failed 3#8 (s.srcLen.toNat - 1)))) ∧
    (lzTerm s.lzCfg = 2 → z.bitsLeft = 0 → z.c < s.srcLen.toNat → Holds s.src z.c [lzEndCtrl s.lzCfg] →
      step s = .next (s.succeeded z.out)) ∧
    (∀ b0 b1 : Byte, lzTerm s.lzCfg = 1 → z.bitsLeft ≠ 0 → z.ctrl.getLsbD 7 = true → lzLength s.lzCfg b0 b1 ≠ 0 →
      lzDist s.lzCfg b0 b1 ≠ 0 → lzDist s.lzCfg b0 b1 ≤ z.out.length →
      s.lzTarget.toNat < z.out.length + lzLength s.lzCfg b0 b1 →
      exec (.lzmatch b0 b1) s = .next (s.failed 15#8 z.c))

/-- `LZDEC` (R182 to R188): any stream of groups, each control byte selecting its tokens and only the last group holding fewer
than 8, every match legal where it stands, decompresses to what its tokens make: with `TERM = 0` where the stream is the whole
input; with `TERM = 1` where the output is `LZ_TARGET` bytes, whatever follows; with `TERM = 2` where the marker follows full
groups whose control bytes are not the marker, whatever follows it. -/
def Obligations.LzdecDecompressesATokenStream : Prop :=
  ∀ (s : State) (groups : List LzGroup) (out : List Byte) (more : Nat),
    lzLegal s.lzCfg = true → (∀ g ∈ groups, g.Selects) → (∀ g ∈ groups.dropLast, g.toks.length = 8) →
    legalTokens s.lzCfg [] (groups.flatMap (·.toks)) →
    out = (groups.flatMap (·.toks)).foldl (fun o t => t.run s.lzCfg o) [] → out.length ≤ s.limit →
    Holds s.src 0 (groups.flatMap (·.bytes)) → s.srcLen.toNat ≤ s.cfg.srcCap →
    ((lzTerm s.lzCfg = 0 ∧ s.srcLen.toNat = (groups.flatMap (·.bytes)).length) ∨
      (lzTerm s.lzCfg = 1 ∧ s.srcLen.toNat = (groups.flatMap (·.bytes)).length + more ∧ out.length = s.lzTarget.toNat) ∨
      (lzTerm s.lzCfg = 2 ∧ (∀ g ∈ groups, g.toks.length = 8 ∧ g.ctrl ≠ lzEndCtrl s.lzCfg) ∧
        Holds s.src (groups.flatMap (·.bytes)).length [lzEndCtrl s.lzCfg] ∧
        s.srcLen.toNat = (groups.flatMap (·.bytes)).length + 1 + more)) →
    exec .lzdec s = .next (s.succeeded out)

/-! ## The IPS engine (spec/44_ips.md) -/

/-- `IPSMAGIC`, `IPSREC`, `IPSRLE`, `IPSEOF` complete (R202 to R205, R209): the copy of the source, a record of either kind, the
end; where the source or a record's end is past the limit, `OutputLimitExceeded` at 0 or at the record, both when the element is
executed and when a step reads it. -/
def Obligations.IpsElementsComplete : Prop :=
  ∀ (s : State) (p : IpsWork), s.work = .ips p →
    (∀ source, p.phase = .magic → Holds s.src 0 source → s.srcLen.toNat = source.length → source.length ≤ s.limit →
      exec .ipsmagic s = .next { s with work := .ips { phase := .records, c := 5, out := source } }) ∧
    (p.phase = .magic → s.limit < s.srcLen.toNat → exec .ipsmagic s = .next (s.failed 15#8 0) ∧
      (Holds s.aux 0 patchMagic → 5 ≤ s.auxLen.toNat → step s = .next (s.failed 15#8 0))) ∧
    (∀ i e, p.phase = .records → i.wellFormed = true → recordEnd i = some e →
      (e ≤ s.limit → exec i s = .next { s with work := .ips { p with
        c := p.c + (streamBytes i).length, out := recordOutput p.out i } }) ∧
      (s.limit < e → exec i s = .next (s.failed 15#8 p.c) ∧
        (Holds s.aux p.c (streamBytes i) → p.c + (streamBytes i).length ≤ s.auxLen.toNat →
          step s = .next (s.failed 15#8 p.c)))) ∧
    (p.phase = .records → exec .ipseof s = .next (s.succeeded p.out))

/-- R204, R205: a record makes the output at least `offset + k` bytes long, never shorter; its `k` bytes stand at the offset, every
other byte is the old one, and the bytes of a gap are 0. -/
def Obligations.RecordWritesItsBytesAndGrowsWithZeros : Prop :=
  ∀ (out data : List Byte) (offset : Nat),
    (applyRecord out offset data).length = max out.length (offset + data.length) ∧
    ∀ a, a < (applyRecord out offset data).length →
      (applyRecord out offset data)[a]? =
        if offset ≤ a ∧ a < offset + data.length then data[a - offset]?
        else if a < out.length then out[a]? else some 0#8

/-- `IPSAPPLY` (R201, R206, R210): the records of a patch are applied to the source in stream order, whatever stands after
`"EOF"`. -/
def Obligations.IpsapplyAppliesItsRecordsInOrder : Prop :=
  ∀ (s : State) (source : List Byte) (records : List Instr) (more : Nat),
    (∀ i ∈ records, i.wellFormed = true ∧ ∃ e, recordEnd i = some e ∧ e ≤ s.limit) →
    Holds s.src 0 source → s.srcLen.toNat = source.length → s.srcLen.toNat ≤ s.cfg.srcCap → source.length ≤ s.limit →
    Holds s.aux 0 (patchMagic ++ records.flatMap streamBytes ++ eofMagic) →
    s.auxLen.toNat = (patchMagic ++ records.flatMap streamBytes ++ eofMagic).length + more →
    s.auxLen.toNat ≤ s.cfg.auxCap →
    exec .ipsapply s = .next (s.succeeded (records.foldl recordOutput source))

/-- R207: a patch shorter than the magic or with another one is `BadMagic(0)`, and where AUX ends before the bytes a record needs
the error is `TruncatedRecord` at the record: 3 bytes at a record boundary, then 2 size bytes, then the data or the RLE bytes. -/
def Obligations.IpsFramingErrors : Prop :=
  (∀ s : State, s.srcLen.toNat ≤ s.cfg.srcCap → s.auxLen.toNat ≤ s.cfg.auxCap →
    (s.auxLen.toNat < 5 ∨ ∃ m, m.length = 5 ∧ m ≠ patchMagic ∧ Holds s.aux 0 m) →
    exec .ipsapply s = .next (s.failed 1#8 0)) ∧
  (∀ (s : State) (p : IpsWork) (o z : List Byte), s.work = .ips p → p.phase = .records → o.length = 3 → z.length = 2 →
    (s.auxLen.toNat - p.c < 3 → step s = .next (s.failed 2#8 p.c)) ∧
    (3 ≤ s.auxLen.toNat - p.c → s.auxLen.toNat - p.c < 5 → Holds s.aux p.c o → o ≠ eofMagic →
      step s = .next (s.failed 2#8 p.c)) ∧
    (5 ≤ s.auxLen.toNat - p.c → Holds s.aux p.c (o ++ z) → o ≠ eofMagic →
      (z = [0#8, 0#8] → s.auxLen.toNat - p.c < 8 → step s = .next (s.failed 2#8 p.c)) ∧
      (z ≠ [0#8, 0#8] → s.auxLen.toNat - p.c < 5 + beNat z → step s = .next (s.failed 2#8 p.c))))

/-! ## The UPS engine (spec/45_ups.md) -/

/-- R221, R222: the value of a VLV is the sum of its 7-bit digits, digit `k` shifted by `7*k`, with no offset; trailing zero digits
do not change it; and the decoder reads back the digits of any VLV, whatever follows it. -/
def Obligations.VlvIsBaseOneTwentyEight : Prop :=
  ∀ (ds : List (BitVec 7)), ds ≠ [] →
    vlvValue ds = ((List.range ds.length).map fun k => (ds.getD k 0#7).toNat * 2 ^ (7 * k)).sum ∧
    vlvValue (ds ++ [0#7]) = vlvValue ds ∧
    (∀ d, ds = [d] → vlvValue ds = d.toNat) ∧
    ∀ rest, takeVlv (streamBytes (.vlv ds) ++ rest) = .ok (ds, rest)

/-- R225: the byte-wise CRC is the bit-wise reflected one: the bits of the message, each byte least significant bit first, each
deciding together with bit 0 of the accumulator whether the polynomial is applied; for every polynomial. The checksum of the
empty sequence is 0. -/
def Obligations.CrcIsTheReflectedBitwiseCrc : Prop :=
  ∀ (poly acc : Word) (bytes : List Byte),
    crcFeed poly acc bytes =
      (bytes.flatMap fun b => (List.range 8).map fun k => b.getLsbD k).foldl
        (fun (a : Word) (bit : Bool) => if a.getLsbD 0 != bit then (a >>> 1) ^^^ poly else a >>> 1) acc ∧
    crc32 poly bytes = crcFeed poly 0xFFFFFFFF#32 bytes ^^^ 0xFFFFFFFF#32 ∧ crc32 poly [] = 0#32

/-- `UPSMAGIC`, `VLV`, `UPSRUN` complete (R229 to R234, R237): the magic (a patch shorter than 16 bytes is `UnexpectedEof`), the two
sizes with their checks and the initial output, a run. -/
def Obligations.UpsElementsComplete : Prop :=
  ∀ (s : State) (u : UpsWork), s.work = .ups u →
    (u.phase = .magic → 16 ≤ s.auxLen.toNat →
      exec .upsmagic s = .next { s with work := .ups { u with phase := .sourceSize, c := 4 } }) ∧
    (u.phase = .magic → s.auxLen.toNat < 16 → exec .upsmagic s = .next (s.failed 3#8 s.auxLen.toNat)) ∧
    (∀ ds, ds ≠ [] → u.phase = .sourceSize →
      exec (.vlv ds) s = .next { s with work := .ups { u with phase := .targetSize (vlvValue ds), c := u.c + ds.length } }) ∧
    (∀ ds n, ds ≠ [] → u.phase = .targetSize n →
      (n ≠ s.srcLen.toNat → exec (.vlv ds) s = .next (s.failed 14#8 4)) ∧
      (n = s.srcLen.toNat → s.limit < vlvValue ds → exec (.vlv ds) s = .next (s.failed 15#8 4)) ∧
      (∀ source, n = s.srcLen.toNat → vlvValue ds ≤ s.limit → Holds s.src 0 source → source.length = n →
        exec (.vlv ds) s = .next { s with work := .ups { u with
          phase := .runs, c := u.c + ds.length, cur := 0
          out := source.take (vlvValue ds) ++ List.replicate (vlvValue ds - n) 0#8 } })) ∧
    (∀ rel xors, rel ≠ [] → (∀ x ∈ xors, x ≠ 0#8) → u.phase = .runs → u.c < s.auxLen.toNat - 12 →
      exec (.upsrun rel xors) s = .next { s with work := .ups { u with
        c := u.c + rel.length + xors.length + 1
        cur := u.cur + vlvValue rel + xors.length + 1
        out := xorRun xors (u.cur + vlvValue rel) u.out } })

/-- R223, R229, R234: a patch shorter than the magic or with another one is `BadMagic(0)`; one with the magic and fewer than 16
bytes is `UnexpectedEof` at `AUX_LEN`; a VLV with no last byte, or a run with no closing `00`, before the trailer is
`UnexpectedEof` at the end of the body. -/
def Obligations.UpsFramingErrors : Prop :=
  (∀ s : State, s.srcLen.toNat ≤ s.cfg.srcCap → s.auxLen.toNat ≤ s.cfg.auxCap →
    ((s.auxLen.toNat < 4 ∨ ∃ m, m.length = 4 ∧ m ≠ upsMagic ∧ Holds s.aux 0 m) →
      exec .upsapply s = .next (s.failed 1#8 0)) ∧
    (4 ≤ s.auxLen.toNat → Holds s.aux 0 upsMagic → s.auxLen.toNat < 16 →
      exec .upsapply s = .next (s.failed 3#8 s.auxLen.toNat))) ∧
  (∀ (s : State) (u : UpsWork) (rest : List Byte), s.work = .ups u → 16 ≤ s.auxLen.toNat →
    u.c + rest.length = s.auxLen.toNat - 12 → Holds s.aux u.c rest →
    ((∀ b ∈ rest, b.getLsbD 7 = false) →
      (u.phase = .sourceSize ∨ (∃ n, u.phase = .targetSize n) ∨ (u.phase = .runs ∧ rest ≠ [])) →
      step s = .next (s.failed 3#8 (s.auxLen.toNat - 12))) ∧
    (∀ rel xors, rel ≠ [] → rest = streamBytes (.vlv rel) ++ xors → (∀ x ∈ xors, x ≠ 0#8) → u.phase = .runs →
      step s = .next (s.failed 3#8 (s.auxLen.toNat - 12))))

/-- R232, R233: the XOR bytes of a run change the output bytes from the cursor on and no others, and those at or past the end of the
output write nothing; the output keeps its length. -/
def Obligations.RunXorsTheBytesAtItsCursor : Prop :=
  ∀ (xors out : List Byte) (cur : Nat),
    (xorRun xors cur out).length = out.length ∧
    ∀ a (h : a < out.length), (xorRun xors cur out)[a]? =
      some (if cur ≤ a ∧ a < cur + xors.length then out[a] ^^^ xors.getD (a - cur) 0#8 else out[a])

/-- `UPSAPPLY` (R228, R230 to R235): a patch whose sizes are right, whose runs fill the body and whose three CRCs match gives the
source, extended or truncated to the target size, with the runs applied. -/
def Obligations.UpsapplyAppliesItsRuns : Prop :=
  ∀ (s : State) (source body : List Byte) (sd td : List (BitVec 7)) (runs : List Run) (srcCrc tgtCrc patchCrc : Word)
    (out : List Byte),
    sd ≠ [] → td ≠ [] → vlvValue sd = source.length → (∀ r ∈ runs, r.rel ≠ [] ∧ ∀ x ∈ r.xors, x ≠ 0#8) →
    Holds s.src 0 source → s.srcLen.toNat = source.length → s.srcLen.toNat ≤ s.cfg.srcCap → vlvValue td ≤ s.limit →
    body = upsMagic ++ streamBytes (.vlv sd) ++ streamBytes (.vlv td) ++ runs.flatMap Run.bytes →
    Holds s.aux 0 (body ++ streamBytes (.upstrailer srcCrc tgtCrc patchCrc)) → s.auxLen.toNat = body.length + 12 →
    s.auxLen.toNat ≤ s.cfg.auxCap →
    out = runsOutput runs 0 (source.take (vlvValue td) ++ List.replicate (vlvValue td - source.length) 0#8) →
    crc32 s.cfg.crcPoly source = srcCrc → crc32 s.cfg.crcPoly out = tgtCrc → crc32 s.cfg.crcPoly body = patchCrc →
    exec .upsapply s = .next (s.succeeded out)

/-- R235, R238: after the runs the three CRCs are checked in trailer order, the first mismatch is reported at its field, and only
when all match is the output committed. -/
def Obligations.UpsTrailerChecksItsCrcsInOrder : Prop :=
  ∀ (s : State) (u : UpsWork) (source body : List Byte) (srcCrc tgtCrc patchCrc : Word),
    s.work = .ups u → u.phase = .runs → u.c = s.auxLen.toNat - 12 → 16 ≤ s.auxLen.toNat →
    u.srcAcc = 0xFFFFFFFF#32 → u.tgtAcc = 0xFFFFFFFF#32 → u.patchAcc = 0xFFFFFFFF#32 →
    Holds s.src 0 source → source.length = s.srcLen.toNat → Holds s.aux 0 body → body.length = s.auxLen.toNat - 12 →
    exec (.upstrailer srcCrc tgtCrc patchCrc) s = .next
      (if crc32 s.cfg.crcPoly source ≠ srcCrc then s.failed 5#8 (s.auxLen.toNat - 12)
       else if crc32 s.cfg.crcPoly u.out ≠ tgtCrc then s.failed 6#8 (s.auxLen.toNat - 8)
       else if crc32 s.cfg.crcPoly body ≠ patchCrc then s.failed 4#8 (s.auxLen.toNat - 4)
       else s.succeeded u.out)
end

