-- ==== Sys2Proof/Laws/Memory.lean ====
section
/-! SUPPORT. The laws of the memory operations: a read after a write, the canonical form, and memories made from bytes. -/

namespace Sys2Proof.Machine.Memory

@[simp] theorem read_nil (a : Nat) : Memory.read [] a = none := rfl

/-- A read after a write to the same address gives the value written. -/
@[simp] theorem read_write_same (m : Memory) (a : Nat) (v : Byte) : (Memory.write m a v).read a = some v := by
  induction m with
  | nil => simp [Memory.write, Memory.read]
  | cons c m ih =>
    obtain ⟨k, x⟩ := c
    simp only [Memory.write]
    split
    · simp [Memory.read]
    · split
      · simp [Memory.read]
      · rw [Memory.read, if_neg (by omega)]
        exact ih

/-- A write leaves every other address alone. -/
theorem read_write_other (m : Memory) {a b : Nat} (v : Byte) (h : b ≠ a) :
    (Memory.write m a v).read b = Memory.read m b := by
  induction m with
  | nil => simp [Memory.write, Memory.read, Ne.symm h]
  | cons c m ih =>
    obtain ⟨k, x⟩ := c
    simp only [Memory.write]
    split
    · rw [Memory.read, if_neg (Ne.symm h)]
    · split
      · rename_i h2
        subst h2
        rw [Memory.read, Memory.read, if_neg (Ne.symm h), if_neg (Ne.symm h)]
      · simp only [Memory.read, ih]

/-- Both cases of a read after a write. -/
theorem read_write (m : Memory) (a b : Nat) (v : Byte) :
    (Memory.write m a v).read b = if b = a then some v else Memory.read m b := by
  split
  · rename_i h
    subst h
    exact read_write_same m b v
  · exact read_write_other m v ‹_›

/-- The addresses a memory lists after a write. -/
theorem mem_write {m : Memory} {a : Nat} {v : Byte} {c : Host.Cell} (h : c ∈ Memory.write m a v) :
    c = (a, v) ∨ c ∈ m := by
  induction m with
  | nil => simpa [Memory.write] using h
  | cons d m ih =>
    obtain ⟨k, x⟩ := d
    simp only [Memory.write] at h
    split at h
    · simpa using h
    · split at h
      · rcases List.mem_cons.1 h with h | h
        · exact .inl h
        · exact .inr (List.mem_cons_of_mem _ h)
      · rcases List.mem_cons.1 h with h | h
        · exact .inr (h ▸ List.mem_cons_self)
        · rcases ih h with h | h
          · exact .inl h
          · exact .inr (List.mem_cons_of_mem _ h)

/-- The canonical form, cell by cell. -/
theorem wf_cons (k : Nat) (x : Byte) (m : Memory) :
    Memory.wf ((k, x) :: m) = true ↔ (∀ c ∈ m, k < c.1) ∧ Memory.wf m = true := by
  simp [Memory.wf]

/-- A write keeps the canonical form. -/
theorem write_wf {m : Memory} (a : Nat) (v : Byte) (h : Memory.wf m = true) : Memory.wf (Memory.write m a v) = true := by
  induction m with
  | nil => rfl
  | cons c m ih =>
    obtain ⟨k, x⟩ := c
    obtain ⟨hk, hm⟩ := (wf_cons k x m).1 h
    simp only [Memory.write]
    split
    · rename_i h1
      refine (wf_cons _ _ _).2 ⟨fun c hc => ?_, h⟩
      rcases List.mem_cons.1 hc with hc | hc
      · subst hc
        exact h1
      · exact Nat.lt_trans h1 (hk c hc)
    · split
      · rename_i h2
        subst h2
        exact (wf_cons _ _ _).2 ⟨hk, hm⟩
      · refine (wf_cons _ _ _).2 ⟨fun c hc => ?_, ih hm⟩
        rcases mem_write hc with hc | hc
        · subst hc
          simp only
          omega
        · exact hk c hc

/-- The addresses of a memory made from bytes. -/
theorem ofBytes_addresses (a : Nat) (bs : List Byte) :
    (Memory.ofBytes a bs).map Prod.fst = List.range' a bs.length := by
  induction bs generalizing a with
  | nil => rfl
  | cons b bs ih => simp [Memory.ofBytes, ih, List.range'_succ]

/-- A cell of a memory made from bytes lies at or above the first address. -/
theorem mem_ofBytes_ge {a : Nat} {bs : List Byte} {c : Host.Cell} (h : c ∈ Memory.ofBytes a bs) : a ≤ c.1 := by
  have : c.1 ∈ (Memory.ofBytes a bs).map Prod.fst := List.mem_map_of_mem h
  rw [ofBytes_addresses, List.mem_range'] at this
  obtain ⟨i, _, hi⟩ := this
  omega

/-- A memory made from bytes has the canonical form. -/
theorem ofBytes_wf (a : Nat) (bs : List Byte) : Memory.wf (Memory.ofBytes a bs) = true := by
  induction bs generalizing a with
  | nil => rfl
  | cons b bs ih =>
    refine (wf_cons _ _ _).2 ⟨fun c hc => ?_, ih _⟩
    have := mem_ofBytes_ge hc
    omega

/-- What a memory made from bytes reads as. -/
theorem read_ofBytes (a : Nat) (bs : List Byte) (b : Nat) :
    (Memory.ofBytes a bs).read b = if a ≤ b then bs[b - a]? else none := by
  induction bs generalizing a with
  | nil => simp [Memory.ofBytes]
  | cons x bs ih =>
    simp only [Memory.ofBytes, Memory.read, ih]
    by_cases h : a = b
    · subst h
      simp
    · rw [if_neg h]
      by_cases hb : a + 1 ≤ b
      · rw [if_pos hb, if_pos (by omega), show b - a = (b - (a + 1)) + 1 by omega]
        simp
      · rw [if_neg hb, if_neg (by omega)]

end Sys2Proof.Machine.Memory
end

