-- ==== Sys2Proof/Laws/State.lean ====
section
/-! SUPPORT. One lemma per field of the state and named update: what the update leaves in the field. -/

namespace Sys2Proof.Machine.State

/-! ## `setWork` -/

@[simp] theorem setWork_cfg (s : State) (w : Work) : (s.setWork w).cfg = s.cfg := rfl
@[simp] theorem setWork_cmd (s : State) (w : Work) : (s.setWork w).cmd = s.cmd := rfl
@[simp] theorem setWork_status (s : State) (w : Work) : (s.setWork w).status = s.status := rfl
@[simp] theorem setWork_errPos (s : State) (w : Work) : (s.setWork w).errPos = s.errPos := rfl
@[simp] theorem setWork_srcLen (s : State) (w : Work) : (s.setWork w).srcLen = s.srcLen := rfl
@[simp] theorem setWork_auxLen (s : State) (w : Work) : (s.setWork w).auxLen = s.auxLen := rfl
@[simp] theorem setWork_outLimit (s : State) (w : Work) : (s.setWork w).outLimit = s.outLimit := rfl
@[simp] theorem setWork_outLen (s : State) (w : Work) : (s.setWork w).outLen = s.outLen := rfl
@[simp] theorem setWork_lzCfg (s : State) (w : Work) : (s.setWork w).lzCfg = s.lzCfg := rfl
@[simp] theorem setWork_lzTarget (s : State) (w : Work) : (s.setWork w).lzTarget = s.lzTarget := rfl
@[simp] theorem setWork_brrLoop (s : State) (w : Work) : (s.setWork w).brrLoop = s.brrLoop := rfl
@[simp] theorem setWork_src (s : State) (w : Work) : (s.setWork w).src = s.src := rfl
@[simp] theorem setWork_aux (s : State) (w : Work) : (s.setWork w).aux = s.aux := rfl
@[simp] theorem setWork_dst (s : State) (w : Work) : (s.setWork w).dst = s.dst := rfl
@[simp] theorem setWork_work (s : State) (w : Work) : (s.setWork w).work = w := rfl
@[simp] theorem setWork_host (s : State) (w : Work) : (s.setWork w).host = s.host := rfl
@[simp] theorem setWork_reply (s : State) (w : Work) : (s.setWork w).reply = s.reply := rfl
@[simp] theorem setWork_freeIdx (s : State) (w : Work) : (s.setWork w).freeIdx = s.freeIdx := rfl

/-! ## `raise` -/

@[simp] theorem raise_cfg (s : State) (e : Err) (pos : Nat) : (s.raise e pos).cfg = s.cfg := rfl
@[simp] theorem raise_cmd (s : State) (e : Err) (pos : Nat) : (s.raise e pos).cmd = s.cmd := rfl
@[simp] theorem raise_status (s : State) (e : Err) (pos : Nat) : (s.raise e pos).status = statusWord e.code := rfl
@[simp] theorem raise_errPos (s : State) (e : Err) (pos : Nat) : (s.raise e pos).errPos = BitVec.ofNat 32 pos := rfl
@[simp] theorem raise_srcLen (s : State) (e : Err) (pos : Nat) : (s.raise e pos).srcLen = s.srcLen := rfl
@[simp] theorem raise_auxLen (s : State) (e : Err) (pos : Nat) : (s.raise e pos).auxLen = s.auxLen := rfl
@[simp] theorem raise_outLimit (s : State) (e : Err) (pos : Nat) : (s.raise e pos).outLimit = s.outLimit := rfl
@[simp] theorem raise_outLen (s : State) (e : Err) (pos : Nat) : (s.raise e pos).outLen = 0#32 := rfl
@[simp] theorem raise_lzCfg (s : State) (e : Err) (pos : Nat) : (s.raise e pos).lzCfg = s.lzCfg := rfl
@[simp] theorem raise_lzTarget (s : State) (e : Err) (pos : Nat) : (s.raise e pos).lzTarget = s.lzTarget := rfl
@[simp] theorem raise_brrLoop (s : State) (e : Err) (pos : Nat) : (s.raise e pos).brrLoop = s.loopAfterError := rfl
@[simp] theorem raise_src (s : State) (e : Err) (pos : Nat) : (s.raise e pos).src = s.src := rfl
@[simp] theorem raise_aux (s : State) (e : Err) (pos : Nat) : (s.raise e pos).aux = s.aux := rfl
@[simp] theorem raise_dst (s : State) (e : Err) (pos : Nat) : (s.raise e pos).dst = [] := rfl
@[simp] theorem raise_work (s : State) (e : Err) (pos : Nat) : (s.raise e pos).work = .idle := rfl
@[simp] theorem raise_host (s : State) (e : Err) (pos : Nat) : (s.raise e pos).host = s.host := rfl
@[simp] theorem raise_reply (s : State) (e : Err) (pos : Nat) : (s.raise e pos).reply = s.reply := rfl
@[simp] theorem raise_freeIdx (s : State) (e : Err) (pos : Nat) : (s.raise e pos).freeIdx = s.freeIdx := rfl

/-! ## `commit` -/

@[simp] theorem commit_cfg (s : State) (out : List Byte) : (s.commit out).cfg = s.cfg := rfl
@[simp] theorem commit_cmd (s : State) (out : List Byte) : (s.commit out).cmd = s.cmd := rfl
@[simp] theorem commit_status (s : State) (out : List Byte) : (s.commit out).status = statusWord 0#8 := rfl
@[simp] theorem commit_errPos (s : State) (out : List Byte) : (s.commit out).errPos = 0#32 := rfl
@[simp] theorem commit_srcLen (s : State) (out : List Byte) : (s.commit out).srcLen = s.srcLen := rfl
@[simp] theorem commit_auxLen (s : State) (out : List Byte) : (s.commit out).auxLen = s.auxLen := rfl
@[simp] theorem commit_outLimit (s : State) (out : List Byte) : (s.commit out).outLimit = s.outLimit := rfl
@[simp] theorem commit_outLen (s : State) (out : List Byte) : (s.commit out).outLen = BitVec.ofNat 32 out.length := rfl
@[simp] theorem commit_lzCfg (s : State) (out : List Byte) : (s.commit out).lzCfg = s.lzCfg := rfl
@[simp] theorem commit_lzTarget (s : State) (out : List Byte) : (s.commit out).lzTarget = s.lzTarget := rfl
@[simp] theorem commit_brrLoop (s : State) (out : List Byte) : (s.commit out).brrLoop = s.loopAfterSuccess := rfl
@[simp] theorem commit_src (s : State) (out : List Byte) : (s.commit out).src = s.src := rfl
@[simp] theorem commit_aux (s : State) (out : List Byte) : (s.commit out).aux = s.aux := rfl
@[simp] theorem commit_dst (s : State) (out : List Byte) : (s.commit out).dst = Memory.ofBytes 0 out := rfl
@[simp] theorem commit_work (s : State) (out : List Byte) : (s.commit out).work = .idle := rfl
@[simp] theorem commit_host (s : State) (out : List Byte) : (s.commit out).host = s.host := rfl
@[simp] theorem commit_reply (s : State) (out : List Byte) : (s.commit out).reply = s.reply := rfl
@[simp] theorem commit_freeIdx (s : State) (out : List Byte) : (s.commit out).freeIdx = s.freeIdx := rfl

/-! ## `takeAccess` -/

@[simp] theorem takeAccess_cfg (s : State) (rest : List HostAccess) : (s.takeAccess rest).cfg = s.cfg := rfl
@[simp] theorem takeAccess_cmd (s : State) (rest : List HostAccess) : (s.takeAccess rest).cmd = s.cmd := rfl
@[simp] theorem takeAccess_status (s : State) (rest : List HostAccess) : (s.takeAccess rest).status = s.status := rfl
@[simp] theorem takeAccess_errPos (s : State) (rest : List HostAccess) : (s.takeAccess rest).errPos = s.errPos := rfl
@[simp] theorem takeAccess_srcLen (s : State) (rest : List HostAccess) : (s.takeAccess rest).srcLen = s.srcLen := rfl
@[simp] theorem takeAccess_auxLen (s : State) (rest : List HostAccess) : (s.takeAccess rest).auxLen = s.auxLen := rfl
@[simp] theorem takeAccess_outLimit (s : State) (rest : List HostAccess) : (s.takeAccess rest).outLimit = s.outLimit := rfl
@[simp] theorem takeAccess_outLen (s : State) (rest : List HostAccess) : (s.takeAccess rest).outLen = s.outLen := rfl
@[simp] theorem takeAccess_lzCfg (s : State) (rest : List HostAccess) : (s.takeAccess rest).lzCfg = s.lzCfg := rfl
@[simp] theorem takeAccess_lzTarget (s : State) (rest : List HostAccess) : (s.takeAccess rest).lzTarget = s.lzTarget := rfl
@[simp] theorem takeAccess_brrLoop (s : State) (rest : List HostAccess) : (s.takeAccess rest).brrLoop = s.brrLoop := rfl
@[simp] theorem takeAccess_src (s : State) (rest : List HostAccess) : (s.takeAccess rest).src = s.src := rfl
@[simp] theorem takeAccess_aux (s : State) (rest : List HostAccess) : (s.takeAccess rest).aux = s.aux := rfl
@[simp] theorem takeAccess_dst (s : State) (rest : List HostAccess) : (s.takeAccess rest).dst = s.dst := rfl
@[simp] theorem takeAccess_work (s : State) (rest : List HostAccess) : (s.takeAccess rest).work = s.work := rfl
@[simp] theorem takeAccess_host (s : State) (rest : List HostAccess) : (s.takeAccess rest).host = rest := rfl
@[simp] theorem takeAccess_reply (s : State) (rest : List HostAccess) : (s.takeAccess rest).reply = s.reply := rfl
@[simp] theorem takeAccess_freeIdx (s : State) (rest : List HostAccess) : (s.takeAccess rest).freeIdx = s.freeIdx := rfl

/-! ## `succeeded` -/

@[simp] theorem succeeded_cfg (s : State) (out : List Byte) : (s.succeeded out).cfg = s.cfg := rfl
@[simp] theorem succeeded_cmd (s : State) (out : List Byte) : (s.succeeded out).cmd = s.cmd := rfl
@[simp] theorem succeeded_status (s : State) (out : List Byte) : (s.succeeded out).status = 0x00000100#32 := rfl
@[simp] theorem succeeded_errPos (s : State) (out : List Byte) : (s.succeeded out).errPos = 0#32 := rfl
@[simp] theorem succeeded_srcLen (s : State) (out : List Byte) : (s.succeeded out).srcLen = s.srcLen := rfl
@[simp] theorem succeeded_auxLen (s : State) (out : List Byte) : (s.succeeded out).auxLen = s.auxLen := rfl
@[simp] theorem succeeded_outLimit (s : State) (out : List Byte) : (s.succeeded out).outLimit = s.outLimit := rfl
@[simp] theorem succeeded_outLen (s : State) (out : List Byte) : (s.succeeded out).outLen = BitVec.ofNat 32 out.length := rfl
@[simp] theorem succeeded_lzCfg (s : State) (out : List Byte) : (s.succeeded out).lzCfg = s.lzCfg := rfl
@[simp] theorem succeeded_lzTarget (s : State) (out : List Byte) : (s.succeeded out).lzTarget = s.lzTarget := rfl
@[simp] theorem succeeded_brrLoop (s : State) (out : List Byte) : (s.succeeded out).brrLoop = s.brrLoop := rfl
@[simp] theorem succeeded_src (s : State) (out : List Byte) : (s.succeeded out).src = s.src := rfl
@[simp] theorem succeeded_aux (s : State) (out : List Byte) : (s.succeeded out).aux = s.aux := rfl
@[simp] theorem succeeded_dst (s : State) (out : List Byte) : (s.succeeded out).dst = Memory.ofBytes 0 out := rfl
@[simp] theorem succeeded_work (s : State) (out : List Byte) : (s.succeeded out).work = .idle := rfl
@[simp] theorem succeeded_host (s : State) (out : List Byte) : (s.succeeded out).host = s.host := rfl
@[simp] theorem succeeded_reply (s : State) (out : List Byte) : (s.succeeded out).reply = s.reply := rfl
@[simp] theorem succeeded_freeIdx (s : State) (out : List Byte) : (s.succeeded out).freeIdx = s.freeIdx := rfl

/-! ## `failed` -/

@[simp] theorem failed_cfg (s : State) (code : BitVec 8) (pos : Nat) : (s.failed code pos).cfg = s.cfg := rfl
@[simp] theorem failed_cmd (s : State) (code : BitVec 8) (pos : Nat) : (s.failed code pos).cmd = s.cmd := rfl
@[simp] theorem failed_status (s : State) (code : BitVec 8) (pos : Nat) : (s.failed code pos).status = 0x000001#24 ++ code := rfl
@[simp] theorem failed_errPos (s : State) (code : BitVec 8) (pos : Nat) : (s.failed code pos).errPos = BitVec.ofNat 32 pos := rfl
@[simp] theorem failed_srcLen (s : State) (code : BitVec 8) (pos : Nat) : (s.failed code pos).srcLen = s.srcLen := rfl
@[simp] theorem failed_auxLen (s : State) (code : BitVec 8) (pos : Nat) : (s.failed code pos).auxLen = s.auxLen := rfl
@[simp] theorem failed_outLimit (s : State) (code : BitVec 8) (pos : Nat) : (s.failed code pos).outLimit = s.outLimit := rfl
@[simp] theorem failed_outLen (s : State) (code : BitVec 8) (pos : Nat) : (s.failed code pos).outLen = 0#32 := rfl
@[simp] theorem failed_lzCfg (s : State) (code : BitVec 8) (pos : Nat) : (s.failed code pos).lzCfg = s.lzCfg := rfl
@[simp] theorem failed_lzTarget (s : State) (code : BitVec 8) (pos : Nat) : (s.failed code pos).lzTarget = s.lzTarget := rfl
@[simp] theorem failed_brrLoop (s : State) (code : BitVec 8) (pos : Nat) : (s.failed code pos).brrLoop = s.brrLoop := rfl
@[simp] theorem failed_src (s : State) (code : BitVec 8) (pos : Nat) : (s.failed code pos).src = s.src := rfl
@[simp] theorem failed_aux (s : State) (code : BitVec 8) (pos : Nat) : (s.failed code pos).aux = s.aux := rfl
@[simp] theorem failed_dst (s : State) (code : BitVec 8) (pos : Nat) : (s.failed code pos).dst = [] := rfl
@[simp] theorem failed_work (s : State) (code : BitVec 8) (pos : Nat) : (s.failed code pos).work = .idle := rfl
@[simp] theorem failed_host (s : State) (code : BitVec 8) (pos : Nat) : (s.failed code pos).host = s.host := rfl
@[simp] theorem failed_reply (s : State) (code : BitVec 8) (pos : Nat) : (s.failed code pos).reply = s.reply := rfl
@[simp] theorem failed_freeIdx (s : State) (code : BitVec 8) (pos : Nat) : (s.failed code pos).freeIdx = s.freeIdx := rfl

/-! ## `withLoop` -/

@[simp] theorem withLoop_cfg (s : State) (loop : Word) : (s.withLoop loop).cfg = s.cfg := rfl
@[simp] theorem withLoop_cmd (s : State) (loop : Word) : (s.withLoop loop).cmd = s.cmd := rfl
@[simp] theorem withLoop_status (s : State) (loop : Word) : (s.withLoop loop).status = s.status := rfl
@[simp] theorem withLoop_errPos (s : State) (loop : Word) : (s.withLoop loop).errPos = s.errPos := rfl
@[simp] theorem withLoop_srcLen (s : State) (loop : Word) : (s.withLoop loop).srcLen = s.srcLen := rfl
@[simp] theorem withLoop_auxLen (s : State) (loop : Word) : (s.withLoop loop).auxLen = s.auxLen := rfl
@[simp] theorem withLoop_outLimit (s : State) (loop : Word) : (s.withLoop loop).outLimit = s.outLimit := rfl
@[simp] theorem withLoop_outLen (s : State) (loop : Word) : (s.withLoop loop).outLen = s.outLen := rfl
@[simp] theorem withLoop_lzCfg (s : State) (loop : Word) : (s.withLoop loop).lzCfg = s.lzCfg := rfl
@[simp] theorem withLoop_lzTarget (s : State) (loop : Word) : (s.withLoop loop).lzTarget = s.lzTarget := rfl
@[simp] theorem withLoop_brrLoop (s : State) (loop : Word) : (s.withLoop loop).brrLoop = loop := rfl
@[simp] theorem withLoop_src (s : State) (loop : Word) : (s.withLoop loop).src = s.src := rfl
@[simp] theorem withLoop_aux (s : State) (loop : Word) : (s.withLoop loop).aux = s.aux := rfl
@[simp] theorem withLoop_dst (s : State) (loop : Word) : (s.withLoop loop).dst = s.dst := rfl
@[simp] theorem withLoop_work (s : State) (loop : Word) : (s.withLoop loop).work = s.work := rfl
@[simp] theorem withLoop_host (s : State) (loop : Word) : (s.withLoop loop).host = s.host := rfl
@[simp] theorem withLoop_reply (s : State) (loop : Word) : (s.withLoop loop).reply = s.reply := rfl
@[simp] theorem withLoop_freeIdx (s : State) (loop : Word) : (s.withLoop loop).freeIdx = s.freeIdx := rfl

/-! ## `writeReg` changes only the register it names -/

theorem writeReg_cmd_only (s : State) (v : Word) : s.writeReg 0x00 v = { s with cmd := v } := rfl

theorem writeReg_srcLen_only (s : State) (v : Word) : s.writeReg 0x0C v = { s with srcLen := v } := rfl

theorem writeReg_auxLen_only (s : State) (v : Word) : s.writeReg 0x10 v = { s with auxLen := v } := rfl

theorem writeReg_outLimit_only (s : State) (v : Word) : s.writeReg 0x14 v = { s with outLimit := v } := rfl

theorem writeReg_lzCfg_only (s : State) (v : Word) : s.writeReg 0x1C v = { s with lzCfg := v } := rfl

theorem writeReg_lzTarget_only (s : State) (v : Word) : s.writeReg 0x20 v = { s with lzTarget := v } := rfl

/-! ## Functions of the state that a change of the working state does not touch -/

@[simp] theorem setWork_buffer (s : State) (w : Work) (b : Buffer) : (s.setWork w).buffer b = s.buffer b := by
  cases b <;> rfl

@[simp] theorem setWork_capacity (s : State) (w : Work) (b : Buffer) : (s.setWork w).capacity b = s.capacity b := by
  cases b <;> rfl

@[simp] theorem setWork_limit (s : State) (w : Work) : (s.setWork w).limit = s.limit := rfl

@[simp] theorem setWork_fuel (s : State) (w : Work) : (s.setWork w).fuel = s.fuel := rfl

@[simp] theorem setWork_bodyEnd (s : State) (w : Work) : (s.setWork w).bodyEnd = s.bodyEnd := rfl

@[simp] theorem setWork_readByte (s : State) (w : Work) (b : Buffer) (a : Nat) :
    (s.setWork w).readByte b a = s.readByte b a := by
  cases b <;> rfl

@[simp] theorem setWork_readBytes (s : State) (w : Work) (b : Buffer) (a n : Nat) :
    (s.setWork w).readBytes b a n = s.readBytes b a n := by
  induction n generalizing a with
  | zero => rfl
  | succ n ih => simp [State.readBytes, ih]

@[simp] theorem setWork_setWork (s : State) (w w' : Work) : (s.setWork w).setWork w' = s.setWork w' := rfl

/-! ## The ends of a command in the claims' terms -/

/-- For an engine other than BRR, `commit` leaves what `succeeded` says. -/
theorem commit_eq_succeeded (s : State) (out : List Byte) (h : s.loopAfterSuccess = s.brrLoop) :
    s.commit out = s.succeeded out := by
  simp only [State.commit, State.succeeded, h]
  rfl

/-- For an engine other than BRR, `raise` leaves what `failed` says. -/
theorem raise_eq_failed (s : State) (e : Err) (pos : Nat) (h : s.loopAfterError = s.brrLoop) :
    s.raise e pos = s.failed e.code pos := by
  simp only [State.raise, State.failed, h]
  rfl

/-- `commit` with the loop record written. -/
theorem commit_eq_withLoop (s : State) (out : List Byte) :
    s.commit out = (s.succeeded out).withLoop s.loopAfterSuccess := rfl

/-- `raise` with the loop record written. -/
theorem raise_eq_withLoop (s : State) (e : Err) (pos : Nat) :
    s.raise e pos = (s.failed e.code pos).withLoop s.loopAfterError := rfl

end Sys2Proof.Machine.State
end

