-- ==== Sys2Proof/Laws/HostBus.lean ====
section
/-! SUPPORT. What a host access can do, each said once: the reply and the counter after a read, the buffer after a write,
what every access but the platform's reset leaves as it is, and that none depends on the placement of the windows. -/

namespace Sys2Proof.Machine.State

/-- A byte the buffer holds lies below its capacity. -/
theorem bufferByte_eq_some {s : State} {b : Buffer} {a : Nat} {v : Byte} :
    s.bufferByte b a = some v ↔ a < s.capacity b ∧ (s.buffer b).read a = some v := by
  unfold bufferByte
  split <;> simp [*]

/-- There is no byte at or above the capacity, nor where none is listed. -/
theorem bufferByte_eq_none {s : State} {b : Buffer} {a : Nat} :
    s.bufferByte b a = none ↔ s.capacity b ≤ a ∨ (s.buffer b).read a = none := by
  unfold bufferByte
  split <;> simp [*]; omega

/-- A buffer read changes the reply and the counter of the free byte only. -/
theorem hostBufRead_eq (s : State) (b : Buffer) (a : Nat) :
    ∃ v n, s.hostBufRead b a = { s with reply := .byte v, freeIdx := n } ∧
      ((s.bufferByte b a = some v ∧ n = s.freeIdx) ∨ (s.bufferByte b a = none ∧ n = s.freeIdx + 1)) := by
  unfold hostBufRead
  cases h : s.bufferByte b a with
  | some v => exact ⟨v, s.freeIdx, rfl, .inl ⟨rfl, rfl⟩⟩
  | none => exact ⟨_, _, rfl, .inr ⟨rfl, rfl⟩⟩

/-- A buffer write sets one byte of SRC or AUX below the capacity, or does nothing. -/
theorem hostBufWrite_eq (s : State) (b : Buffer) (a : Nat) (v : Byte) :
    (b = .src ∧ a < s.cfg.srcCap ∧ s.hostBufWrite b a v = { s with src := s.src.write a v }) ∨
    (b = .aux ∧ a < s.cfg.auxCap ∧ s.hostBufWrite b a v = { s with aux := s.aux.write a v }) ∨
    ((b = .dst ∨ s.capacity b ≤ a) ∧ s.hostBufWrite b a v = s) := by
  unfold hostBufWrite
  cases b <;> split <;> simp_all [capacity]

/-- Every access but the platform's reset leaves the results, DST, the working state, the parameters and the waiting accesses. -/
theorem hostAccess_frame (s : State) (x : HostAccess) (h : x ≠ .reset) :
    (s.hostAccess x).status = s.status ∧ (s.hostAccess x).errPos = s.errPos ∧ (s.hostAccess x).outLen = s.outLen ∧
    (s.hostAccess x).brrLoop = s.brrLoop ∧ (s.hostAccess x).dst = s.dst ∧ (s.hostAccess x).work = s.work ∧
    (s.hostAccess x).cfg = s.cfg ∧ (s.hostAccess x).host = s.host := by
  cases x with
  | regRead o w => exact ⟨rfl, rfl, rfl, rfl, rfl, rfl, rfl, rfl⟩
  | regWrite o w v =>
    simp only [hostAccess, writeReg]
    repeat' split
    all_goals exact ⟨rfl, rfl, rfl, rfl, rfl, rfl, rfl, rfl⟩
  | bufRead b a =>
    obtain ⟨v, n, e, -⟩ := hostBufRead_eq s b a
    simp [hostAccess, e]
  | bufWrite b a v =>
    obtain ⟨-, -, e⟩ | ⟨-, -, e⟩ | ⟨-, e⟩ := hostBufWrite_eq s b a v <;> simp [hostAccess, e]
  | reset => exact absurd rfl h

/-- A host access keeps the canonical form of the buffers the host writes. -/
theorem hostAccess_wf (s : State) (x : HostAccess) (hs : s.src.wf = true) (ha : s.aux.wf = true) :
    (s.hostAccess x).src.wf = true ∧ (s.hostAccess x).aux.wf = true := by
  cases x with
  | regRead o w => exact ⟨hs, ha⟩
  | regWrite o w v =>
    simp only [hostAccess, writeReg]
    repeat' split
    all_goals exact ⟨hs, ha⟩
  | bufRead b a =>
    obtain ⟨v, n, e, -⟩ := hostBufRead_eq s b a
    simp [hostAccess, e, hs, ha]
  | bufWrite b a v =>
    obtain ⟨-, -, e⟩ | ⟨-, -, e⟩ | ⟨-, e⟩ := hostBufWrite_eq s b a v <;> simp [hostAccess, e, hs, ha, Sys2Proof.Machine.Memory.write_wf]
  | reset => exact ⟨rfl, rfl⟩

/-- A state whose windows the platform has placed elsewhere. -/
def moveWindows (s : State) (reg src aux dst : Nat) : State :=
  { s with cfg := { s.cfg with regBase := reg, srcBase := src, auxBase := aux, dstBase := dst } }

@[simp] theorem moveWindows_capacity (s : State) (b : Buffer) (r x a d : Nat) :
    (s.moveWindows r x a d).capacity b = s.capacity b := by cases b <;> rfl
@[simp] theorem moveWindows_buffer (s : State) (b : Buffer) (r x a d : Nat) :
    (s.moveWindows r x a d).buffer b = s.buffer b := by cases b <;> rfl
@[simp] theorem moveWindows_limit (s : State) (r x a d : Nat) : (s.moveWindows r x a d).limit = s.limit := rfl
@[simp] theorem moveWindows_bufferByte (s : State) (b : Buffer) (i r x a d : Nat) :
    (s.moveWindows r x a d).bufferByte b i = s.bufferByte b i := by simp [bufferByte]

/-- No access depends on a placement (R6, R69): it does the same wherever the windows are. -/
theorem hostAccess_moveWindows (s : State) (h : HostAccess) (r x a d : Nat) :
    (s.moveWindows r x a d).hostAccess h = (s.hostAccess h).moveWindows r x a d := by
  cases h with
  | regRead o w => rfl
  | regWrite o w v =>
    simp only [hostAccess, writeReg]
    repeat' split
    all_goals rfl
  | bufRead b i =>
    simp only [hostAccess, hostBufRead, moveWindows_bufferByte]
    cases s.bufferByte b i <;> rfl
  | bufWrite b i v =>
    simp only [hostAccess, hostBufWrite, moveWindows_capacity]
    split
    · cases b <;> rfl
    · rfl
  | reset => rfl

end Sys2Proof.Machine.State
end

