-- ==== Sys2Proof/Laws/Ops.lean ====
section
/-! SUPPORT. What the shared operations can do, each said once: checks, reads, stops, fetching, the meanings two elements
share, the engine loop and the start of a command. -/

namespace Sys2Proof.Machine

/-! ## Sequencing in `Except` -/

/-- A sequence succeeds when its first part does and the rest does on its result. -/
theorem bind_eq_ok {α β : Type} {x : Except Stop α} {f : α → Except Stop β} {r : β} :
    (x >>= f) = .ok r ↔ ∃ a, x = .ok a ∧ f a = .ok r := by
  cases x <;> simp [bind, Except.bind]

/-- A sequence stops where its first part stops, or where the rest does on its result. -/
theorem bind_eq_error {α β : Type} {x : Except Stop α} {f : α → Except Stop β} {st : Stop} :
    (x >>= f) = .error st ↔ x = .error st ∨ ∃ a, x = .ok a ∧ f a = .error st := by
  cases x <;> simp [bind, Except.bind]

/-! ## Checks -/

@[simp] theorem failIf_eq_ok {bad : Prop} [Decidable bad] {e : Err} {pos : Nat} {u : Unit} :
    failIf bad e pos = .ok u ↔ ¬bad := by
  unfold failIf
  split <;> simp_all

@[simp] theorem failIf_eq_error {bad : Prop} [Decidable bad] {e : Err} {pos : Nat} {st : Stop} :
    failIf bad e pos = .error st ↔ bad ∧ st = .raise e pos := by
  unfold failIf
  split <;> simp_all [eq_comm]

theorem failIf_pos {bad : Prop} [Decidable bad] {e : Err} {pos : Nat} (h : bad) :
    failIf bad e pos = .error (.raise e pos) := by
  simp [failIf, h]

theorem failIf_neg {bad : Prop} [Decidable bad] {e : Err} {pos : Nat} (h : ¬bad) : failIf bad e pos = .ok () := by
  simp [failIf, h]

/-! ## Reads -/

theorem readByte_eq_ok {s : State} {b : Buffer} {a : Nat} {v : Byte} :
    s.readByte b a = .ok v ↔ (s.buffer b).read a = some v := by
  unfold State.readByte
  cases (s.buffer b).read a <;> simp

/-- The only way a read stops. -/
theorem readByte_eq_error {s : State} {b : Buffer} {a : Nat} {st : Stop} :
    s.readByte b a = .error st ↔ (s.buffer b).read a = none ∧ st = .fault (.unwrittenByte b a) := by
  unfold State.readByte
  cases (s.buffer b).read a <;> simp [eq_comm]

@[simp] theorem readBytes_zero (s : State) (b : Buffer) (a : Nat) : s.readBytes b a 0 = .ok [] := rfl

/-- A longer read is a byte and the rest. -/
theorem readBytes_succ_eq_ok {s : State} {b : Buffer} {a n : Nat} {vs : List Byte} :
    s.readBytes b a (n + 1) = .ok vs ↔
      ∃ v rest, vs = v :: rest ∧ (s.buffer b).read a = some v ∧ s.readBytes b (a + 1) n = .ok rest := by
  rw [State.readBytes]
  cases h : s.readByte b a with
  | error e => simp [readByte_eq_error] at h; simp [h.1]
  | ok v =>
    rw [readByte_eq_ok] at h
    cases h' : s.readBytes b (a + 1) n with
    | error e => simp [h]
    | ok rest => simp [h, eq_comm]

/-- A read of `n` bytes that succeeds gives `n` bytes. -/
theorem readBytes_length {s : State} {b : Buffer} {a n : Nat} {vs : List Byte} (h : s.readBytes b a n = .ok vs) :
    vs.length = n := by
  induction n generalizing a vs with
  | zero => simp at h; simp [← h]
  | succ n ih =>
    obtain ⟨v, rest, rfl, _, hr⟩ := readBytes_succ_eq_ok.1 h
    simp [ih hr]

/-- The only way a read of several bytes stops: a byte of its range that the host has not written. -/
theorem readBytes_eq_error {s : State} {b : Buffer} {a n : Nat} {st : Stop} (h : s.readBytes b a n = .error st) :
    ∃ k, k < n ∧ (s.buffer b).read (a + k) = none ∧ st = .fault (.unwrittenByte b (a + k)) := by
  induction n generalizing a with
  | zero => cases h
  | succ n ih =>
    rw [State.readBytes] at h
    cases hv : s.readByte b a with
    | error e =>
      rw [hv] at h
      obtain ⟨hn, rfl⟩ := readByte_eq_error.1 hv
      cases h
      exact ⟨0, by omega, hn, rfl⟩
    | ok v =>
      rw [hv] at h
      cases hr : s.readBytes b (a + 1) n with
      | error e =>
        rw [hr] at h
        cases h
        obtain ⟨k, hk, hn, rfl⟩ := ih hr
        rw [show a + 1 + k = a + (k + 1) by omega] at hn ⊢
        exact ⟨k + 1, by omega, hn, rfl⟩
      | ok rest => rw [hr] at h; cases h

/-- A read of bytes that are all there succeeds. -/
theorem readBytes_isOk {s : State} {b : Buffer} {a n : Nat}
    (h : ∀ k, k < n → ((s.buffer b).read (a + k)).isSome = true) : ∃ vs, s.readBytes b a n = .ok vs := by
  cases hr : s.readBytes b a n with
  | ok vs => exact ⟨vs, rfl⟩
  | error st =>
    obtain ⟨k, hk, hn, _⟩ := readBytes_eq_error hr
    have := h k hk
    rw [hn] at this
    cases this

/-- A read of bytes that the memory holds gives them. -/
theorem readBytes_of_holds {s : State} {b : Buffer} {a : Nat} {bs : List Byte} (h : Holds (s.buffer b) a bs) :
    s.readBytes b a bs.length = .ok bs := by
  induction bs generalizing a with
  | nil => rfl
  | cons x bs ih =>
    refine readBytes_succ_eq_ok.2 ⟨x, bs, rfl, h 0 (Nat.succ_pos _), ih fun k hk => ?_⟩
    have := h (k + 1) (by simpa using hk)
    rw [show a + 1 + k = a + (k + 1) by omega]
    simpa using this

/-- Bytes that are read are held. -/
theorem holds_of_readBytes {s : State} {b : Buffer} {a n : Nat} {bs : List Byte} (h : s.readBytes b a n = .ok bs) :
    Holds (s.buffer b) a bs := by
  induction n generalizing a bs with
  | zero =>
    simp at h
    subst h
    intro k hk
    simp at hk
  | succ n ih =>
    obtain ⟨v, rest, rfl, hv, hr⟩ := readBytes_succ_eq_ok.1 h
    intro k hk
    cases k with
    | zero => simpa using hv
    | succ k =>
      have := ih hr k (by simpa using hk)
      rw [show a + (k + 1) = a + 1 + k by omega]
      simpa using this

/-- Held bytes in two parts. -/
theorem holds_append {m : Memory} {a : Nat} {xs ys : List Byte} :
    Holds m a (xs ++ ys) ↔ Holds m a xs ∧ Holds m (a + xs.length) ys := by
  constructor
  · intro h
    refine ⟨fun k hk => ?_, fun k hk => ?_⟩
    · have := h k (by simp; omega)
      rwa [List.getElem_append_left hk] at this
    · have := h (xs.length + k) (by simp; omega)
      rw [List.getElem_append_right (by omega)] at this
      rw [show a + xs.length + k = a + (xs.length + k) by omega]
      simpa using this
  · rintro ⟨h1, h2⟩ k hk
    by_cases hx : k < xs.length
    · rw [List.getElem_append_left hx]
      exact h1 k hx
    · rw [List.getElem_append_right (by omega)]
      have := h2 (k - xs.length) (by simp at hk; omega)
      rwa [show a + xs.length + (k - xs.length) = a + k by omega] at this

/-- A memory made from bytes holds them. -/
theorem holds_ofBytes (bs : List Byte) : Holds (Memory.ofBytes 0 bs) 0 bs := by
  intro k hk
  rw [Memory.read_ofBytes]
  simp [hk]

/-! ## Stops -/

/-- A stop that gives a next state is an error, and the state is the one `raise` leaves. -/
theorem stop_eq_next {s t : State} {st : Stop} :
    s.stop st = .next t ↔ ∃ e pos, st = .raise e pos ∧ t = s.raise e pos := by
  cases st <;> simp [State.stop, eq_comm]

/-- Going on, or stopping with an error: the only next states of `continueWith`. -/
theorem continueWith_eq_next {s t : State} {r : Except Stop Work} :
    s.continueWith r = .next t ↔
      (∃ w, r = .ok w ∧ t = s.setWork w) ∨ ∃ e pos, r = .error (.raise e pos) ∧ t = s.raise e pos := by
  cases r with
  | ok w => simp [State.continueWith, eq_comm]
  | error st => simp [State.continueWith, stop_eq_next]

/-! ## Fetching -/

/-- What is fetched is what the decoder reads from the bytes. -/
theorem fetchAs_eq_ok {kind : Element} {bytes : List Byte} {e : Err} {pos : Nat} {f : Fetched} :
    fetchAs kind bytes e pos = .ok f ↔ ∃ i, decodeElement kind bytes = .ok i ∧ f = .element i := by
  unfold fetchAs
  cases decodeElement kind bytes <;> simp [eq_comm]

/-- Fetching bytes that are no element of the kind is the error given. -/
theorem fetchAs_eq_error {kind : Element} {bytes : List Byte} {e : Err} {pos : Nat} {st : Stop} :
    fetchAs kind bytes e pos = .error st ↔ (∃ d, decodeElement kind bytes = .error d) ∧ st = .raise e pos := by
  unfold fetchAs
  cases decodeElement kind bytes <;> simp [eq_comm]

/-! ## The engine loop -/

/-- One engine step that ends the command ends the loop. -/
theorem runEngine_of_end {n : Nat} {s t : State} (h : engineStep s = .next t) (ht : t.work = .idle) :
    runEngine (n + 1) s = .next t := by
  simp [runEngine, h, ht]

/-- One engine step that leaves the command running is followed by the rest of the loop. -/
theorem runEngine_of_step {n : Nat} {s t : State} (h : engineStep s = .next t) (ht : t.work ≠ .idle) :
    runEngine (n + 1) s = runEngine n t := by
  simp [runEngine, h, ht]

/-- The loop gives a next state only by an engine step that gives one, the last of them ending the command. -/
theorem runEngine_succ_eq_next {n : Nat} {s t : State} :
    runEngine (n + 1) s = .next t ↔
      ∃ s', engineStep s = .next s' ∧ ((s'.work = .idle ∧ t = s') ∨ (s'.work ≠ .idle ∧ runEngine n s' = .next t)) := by
  rw [runEngine]
  cases h : engineStep s with
  | next s' =>
    by_cases hw : s'.work = .idle
    · simp [hw, eq_comm]
    · simp [hw]
  | fault f => simp
  | refused r => simp

/-- A property that holds where the loop starts and that every engine step keeps holds where it ends. -/
theorem runEngine_keeps {P : State → Prop} (step : ∀ s s', P s → engineStep s = .next s' → P s') {n : Nat}
    {s t : State} (hs : P s) (h : runEngine n s = .next t) : P t := by
  induction n generalizing s with
  | zero => simp [runEngine] at h
  | succ n ih =>
    obtain ⟨s', h1, h2⟩ := runEngine_succ_eq_next.1 h
    rcases h2 with ⟨_, rfl⟩ | ⟨_, h2⟩
    · exact step _ _ hs h1
    · exact ih (step _ _ hs h1) h2

/-- The loop ends only in an idle block. -/
theorem runEngine_idle {n : Nat} {s t : State} (h : runEngine n s = .next t) : t.work = .idle := by
  induction n generalizing s with
  | zero => simp [runEngine] at h
  | succ n ih =>
    obtain ⟨s', _, h2⟩ := runEngine_succ_eq_next.1 h
    rcases h2 with ⟨h1, rfl⟩ | ⟨_, h2⟩
    · exact h1
    · exact ih h2

/-- What a command can do: its checks fail with an error, or its engine runs to the end. -/
theorem runCommand_eq_next {w : Work} {checks : State → Except Stop Unit} {s t : State} :
    runCommand w checks s = .next t ↔
      (∃ e pos, checks (s.setWork w) = .error (.raise e pos) ∧ t = (s.setWork w).raise e pos) ∨
        (checks (s.setWork w) = .ok () ∧ runEngine s.fuel (s.setWork w) = .next t) := by
  unfold runCommand
  cases h : checks (s.setWork w) with
  | error st => simp [stop_eq_next]
  | ok u => simp

/-! ## The meanings two elements share -/

/-- What a packed tile can do. -/
theorem packedTile_eq_next {d : Depth} {planes : List Byte} {s t : State} :
    packedTile d planes s = .next t ↔
      (∃ k, s.work = .tdec k ∧ k.depth = d ∧ planes.length = d.tileBytes ∧
        t = s.setWork (.tdec { k with
          c := k.c + d.tileBytes, out := k.out ++ tileBytes (flip (unpack planes d) k.h k.v) })) ∨
      (∃ a, s.work = .tasm a ∧ a.depth = d ∧ planes.length = d.tileBytes ∧ a.w * a.ht ≤ a.flips.length ∧
        a.tiles.length < a.w * a.ht ∧
        t = s.setWork (.tasm { a with
          tiles := a.tiles ++ [tileBytes (flip (unpack planes d) (a.flips.getD a.tiles.length (false, false)).1
            (a.flips.getD a.tiles.length (false, false)).2)] })) := by
  unfold packedTile
  cases s.work with
  | tdec k =>
    simp only [Work.tdec.injEq, reduceCtorEq, false_and, exists_false, or_false, exists_eq_left']
    split
    · simp_all [eq_comm]
    · constructor
      · intro h; cases h
      · rintro ⟨h1, h2, -⟩; exact absurd (And.intro h1 h2) ‹_›
  | tasm a =>
    simp only [Work.tasm.injEq, reduceCtorEq, false_and, exists_false, false_or, exists_eq_left']
    split
    · simp_all [eq_comm]
    · constructor
      · intro h; cases h
      · rintro ⟨h1, h2, h3, h4, -⟩; exact absurd (And.intro h1 (And.intro h2 (And.intro h3 h4))) ‹_›
  | _ => simp

/-- What an IPS record can do: the error where its end is past the limit, or the record applied. -/
theorem ipsRecord_eq_next {offset len : Nat} {data : List Byte} {s t : State} :
    ipsRecord offset data len s = .next t ↔
      ∃ p, s.work = .ips p ∧ p.phase = .records ∧
        ((s.limit < offset + data.length ∧ t = s.raise .outputLimitExceeded p.c) ∨
          (offset + data.length ≤ s.limit ∧
            t = s.setWork (.ips { p with c := p.c + len, out := applyRecord p.out offset data }))) := by
  unfold ipsRecord
  cases s.work with
  | ips p =>
    simp only [Work.ips.injEq, exists_eq_left']
    by_cases hp : p.phase = .records
    · by_cases hl : s.limit < offset + data.length
      · simp [hp, hl, State.stop, eq_comm, Nat.not_le.2 hl]
      · simp [hp, hl, eq_comm, Nat.not_lt.1 hl]
    · simp [hp]
  | _ => simp

end Sys2Proof.Machine
end

