-- ==== Sys2Proof/Laws/PerInstr.lean ====
section
/-! SUPPORT. The family `RoundTrip`, one lemma per instruction: decoding the code of a well-formed instruction gives it back. -/

namespace Sys2Proof.Laws

/-- Decoding what the encoder makes of a well-formed instruction gives the instruction. -/
def RoundTrip.Statement (i : Instr) : Prop := i.wellFormed = true → decode (encode i) = .ok i

/-! ## Words as numbers -/

/-- A concatenation as a number. -/
theorem toNat_append_add {m n : Nat} (x : BitVec m) (y : BitVec n) : (x ++ y).toNat = x.toNat * 2 ^ n + y.toNat := by
  rw [BitVec.toNat_append, Nat.shiftLeft_eq, Nat.mul_comm, ← Nat.two_pow_add_eq_or_of_lt y.isLt]

/-- A field of a word as a number. -/
theorem extract_eq {w : Nat} (x : BitVec w) (a n : Nat) (y : BitVec n) :
    x.extractLsb' a n = y ↔ x.toNat / 2 ^ a % 2 ^ n = y.toNat := by
  rw [← BitVec.toNat_inj, BitVec.extractLsb'_toNat, Nat.shiftRight_eq_div_pow]

/-- A bit of a word as a number. -/
theorem getLsbD_eq {w : Nat} (x : BitVec w) (a : Nat) : x.getLsbD a = decide (x.toNat / 2 ^ a % 2 = 1) := by
  rw [BitVec.getLsbD, Nat.testBit_eq_decide_div_mod_eq]

/-- The low half of a word. -/
theorem low16_eq (w : Word) (p : Nat) (hp : p < 65536) :
    w &&& 0x0000FFFF#32 = BitVec.ofNat 32 p ↔ w.toNat % 65536 = p := by
  rw [← BitVec.toNat_inj, BitVec.toNat_and, show (0x0000FFFF#32).toNat = 2 ^ 16 - 1 from rfl,
    Nat.and_two_pow_sub_one_eq_mod]
  simp
  omega

/-- A word that a flip row matches has the row's opcode. -/
theorem opcode_of_flipRow {w : Word} {p : Word} (h : w &&& 0xFFFFFCFF#32 = p) : w &&& 0x000000FF#32 = p &&& 0x000000FF#32 := by
  rw [← h, BitVec.and_assoc]
  rfl

/-- The low byte of a word. -/
theorem low8_toNat (w : Word) : (w &&& 0x000000FF#32).toNat = w.toNat % 256 := by
  rw [BitVec.toNat_and, show (0x000000FF#32).toNat = 2 ^ 8 - 1 from rfl, Nat.and_two_pow_sub_one_eq_mod]

/-- A word with another opcode is not matched by a flip row. -/
theorem not_flipRow {w : Word} {p : Word} (h : w.toNat % 256 ≠ p.toNat % 256) : w &&& 0xFFFFFCFF#32 ≠ p := fun hp =>
  h (by rw [← low8_toNat, ← low8_toNat, opcode_of_flipRow hp])

/-! ## Assembly words -/

/-- The number of an assembly word. -/
theorem encodeSize_toNat (opc w ht : Byte) :
    (encodeSize opc w ht).toNat = ht.toNat * 2 ^ 24 + w.toNat * 2 ^ 16 + opc.toNat := by
  unfold encodeSize
  erw [toNat_append_add, toNat_append_add, toNat_append_add]
  simp
  omega

/-- The width field of an assembly word. -/
theorem encodeSize_w (opc w ht : Byte) : (encodeSize opc w ht).extractLsb' 16 8 = w := by
  have := opc.isLt; have := w.isLt; have := ht.isLt
  rw [extract_eq, encodeSize_toNat]
  omega

/-- The height field of an assembly word. -/
theorem encodeSize_ht (opc w ht : Byte) : (encodeSize opc w ht).extractLsb' 24 8 = ht := by
  have := opc.isLt; have := w.isLt; have := ht.isLt
  rw [extract_eq, encodeSize_toNat]
  omega

/-- The low half of an assembly word is its opcode. -/
theorem encodeSize_low (opc w ht : Byte) : encodeSize opc w ht &&& 0x0000FFFF#32 = BitVec.ofNat 32 opc.toNat := by
  have := opc.isLt; have := w.isLt; have := ht.isLt
  rw [low16_eq _ _ (by omega), encodeSize_toNat]
  omega

/-- An assembly word is matched by no flip row. -/
theorem encodeSize_not_flipRow {opc w ht : Byte} {p : Word} (h : opc.toNat ≠ p.toNat % 256) :
    encodeSize opc w ht &&& 0xFFFFFCFF#32 ≠ p := by
  have := opc.isLt
  refine not_flipRow ?_
  rw [encodeSize_toNat]
  omega

/-! ## Bytes of words -/

/-- The bytes of a 16-bit word give it back. -/
theorem le16_bytes (x : BitVec 16) : le16 (x.extractLsb' 0 8) (x.extractLsb' 8 8) = x := by
  refine BitVec.eq_of_toNat_eq ?_
  have := x.isLt
  unfold le16
  erw [toNat_append_add]
  simp only [BitVec.extractLsb'_toNat, Nat.shiftRight_eq_div_pow]
  omega

/-- The big-endian bytes of a 16-bit word give it back. -/
theorem be16_bytes (x : BitVec 16) : be16 (x.extractLsb' 8 8) (x.extractLsb' 0 8) = x := le16_bytes x

/-- The big-endian bytes of a 24-bit word give it back. -/
theorem be24_bytes (x : BitVec 24) : be24 (x.extractLsb' 16 8) (x.extractLsb' 8 8) (x.extractLsb' 0 8) = x := by
  refine BitVec.eq_of_toNat_eq ?_
  have := x.isLt
  unfold be24
  erw [toNat_append_add, toNat_append_add]
  simp only [BitVec.extractLsb'_toNat, Nat.shiftRight_eq_div_pow]
  omega

/-- The bytes of a 32-bit word give it back. -/
theorem le32_bytes (x : Word) :
    le32 (x.extractLsb' 0 8) (x.extractLsb' 8 8) (x.extractLsb' 16 8) (x.extractLsb' 24 8) = x := by
  refine BitVec.eq_of_toNat_eq ?_
  have := x.isLt
  unfold le32
  erw [toNat_append_add, toNat_append_add, toNat_append_add]
  simp only [BitVec.extractLsb'_toNat, Nat.shiftRight_eq_div_pow]
  omega

/-- The number of a packed colour word. -/
theorem colorWord_toNat (x : Bool) (b g r : BitVec 5) :
    (colorWord x b g r).toNat = x.toNat * 2 ^ 15 + b.toNat * 2 ^ 10 + g.toNat * 2 ^ 5 + r.toNat := by
  unfold colorWord
  erw [toNat_append_add, toNat_append_add, toNat_append_add]
  simp only [BitVec.toNat_ofBool]
  omega

/-- The number of a BRR header byte. -/
theorem header_toNat (shift : BitVec 4) (filter : BitVec 2) (loop fin : Bool) :
    (shift ++ filter ++ BitVec.ofBool loop ++ BitVec.ofBool fin : BitVec 8).toNat =
      shift.toNat * 16 + filter.toNat * 4 + loop.toNat * 2 + fin.toNat := by
  erw [toNat_append_add, toNat_append_add, toNat_append_add]
  simp only [BitVec.toNat_ofBool]
  omega

/-! ## Lists of digits and nibbles -/

/-- The nibbles of the encoded data bytes are the nibbles. -/
theorem nibblesOf_append (hi lo : BitVec 4) : nibblesOf (hi ++ lo) = [hi, lo] := by
  have := hi.isLt; have := lo.isLt
  have e := toNat_append_add hi lo
  unfold nibblesOf
  congr 1
  · rw [extract_eq]
    erw [e]
    omega
  · congr 1
    rw [extract_eq]
    erw [e]
    omega

/-- An even number of nibbles comes back from its bytes, half as many. -/
theorem encodeNibbles_spec (n : Nat) (nibs : List (BitVec 4)) (h : nibs.length = 2 * n) :
    (encodeNibbles nibs).length = n ∧ (encodeNibbles nibs).flatMap nibblesOf = nibs := by
  induction n generalizing nibs with
  | zero =>
    obtain rfl : nibs = [] := List.length_eq_zero_iff.1 (by omega)
    exact ⟨rfl, rfl⟩
  | succ n ih =>
    match nibs, h with
    | hi :: lo :: rest, h =>
      obtain ⟨h1, h2⟩ := ih rest (by simp at h; omega)
      refine ⟨by simp [encodeNibbles, h1], ?_⟩
      rw [encodeNibbles, List.flatMap_cons, h2, nibblesOf_append]
      rfl

/-- A digit with the mark of the last byte. -/
theorem last_digit (d : BitVec 7) :
    (1#1 ++ d : BitVec 8).getLsbD 7 = true ∧ (1#1 ++ d : BitVec 8).extractLsb' 0 7 = d := by
  have := d.isLt
  have e := toNat_append_add 1#1 d
  refine ⟨?_, ?_⟩
  · rw [getLsbD_eq]
    erw [e]
    simp
    omega
  · rw [extract_eq]
    erw [e]
    simp
    omega

/-- A digit with the mark of a byte that is not the last. -/
theorem inner_digit (d : BitVec 7) :
    (0#1 ++ d : BitVec 8).getLsbD 7 = false ∧ (0#1 ++ d : BitVec 8).extractLsb' 0 7 = d := by
  have := d.isLt
  have e := toNat_append_add 0#1 d
  refine ⟨?_, ?_⟩
  · rw [getLsbD_eq]
    erw [e]
    simp
    omega
  · rw [extract_eq]
    erw [e]
    simp
    omega

/-- The digits come back from the head of a byte list, with what follows them. -/
theorem takeVlv_encodeVlv (ds : List (BitVec 7)) (h : ds ≠ []) (rest : List Byte) :
    takeVlv (encodeVlv ds ++ rest) = .ok (ds, rest) := by
  induction ds with
  | nil => exact absurd rfl h
  | cons d ds ih =>
    cases ds with
    | nil =>
      rw [encodeVlv, List.singleton_append, takeVlv]
      erw [if_pos (last_digit d).1, (last_digit d).2]
    | cons d' ds =>
      rw [encodeVlv, List.cons_append, takeVlv]
      erw [if_neg (by rw [(inner_digit d).1]; decide), ih (by simp), (inner_digit d).2]

/-- The XOR bytes come back from the head of a byte list, with what follows their closing `00`. -/
theorem takeXors_append (xs : List Byte) (h : xs.all (· != 0#8) = true) (rest : List Byte) :
    takeXors (xs ++ 0#8 :: rest) = .ok (xs, rest) := by
  induction xs with
  | nil => simp [takeXors]
  | cons x xs ih =>
    simp only [List.all_cons, Bool.and_eq_true, bne_iff_ne] at h
    rw [List.cons_append, takeXors, if_neg h.1, ih (by simpa using h.2)]

/-! ## The commands -/

theorem RoundTrip.tdec2 (h v : Bool) : RoundTrip.Statement (.tdec2 h v) := by
  intro _; cases h <;> cases v <;> decide

theorem RoundTrip.tdec4 (h v : Bool) : RoundTrip.Statement (.tdec4 h v) := by
  intro _; cases h <;> cases v <;> decide

theorem RoundTrip.tenc2 (h v : Bool) : RoundTrip.Statement (.tenc2 h v) := by
  intro _; cases h <;> cases v <;> decide

theorem RoundTrip.tenc4 (h v : Bool) : RoundTrip.Statement (.tenc4 h v) := by
  intro _; cases h <;> cases v <;> decide

theorem RoundTrip.tasm2 (w ht : Byte) : RoundTrip.Statement (.tasm2 w ht) := by
  intro h
  simp only [Instr.wellFormed, Bool.and_eq_true, bne_iff_ne] at h
  rw [encode, decode, decodeCommand, if_neg (encodeSize_not_flipRow (by decide)),
    if_neg (encodeSize_not_flipRow (by decide)), if_neg (encodeSize_not_flipRow (by decide)),
    if_neg (encodeSize_not_flipRow (by decide)), encodeSize_w, encodeSize_ht, if_pos ⟨encodeSize_low _ _ _, h⟩]

theorem RoundTrip.tasm4 (w ht : Byte) : RoundTrip.Statement (.tasm4 w ht) := by
  intro h
  simp only [Instr.wellFormed, Bool.and_eq_true, bne_iff_ne] at h
  have e : ¬(encodeSize 0x15#8 w ht &&& 0x0000FFFF#32 = 0x14#32 ∧ w ≠ 0#8 ∧ ht ≠ 0#8) := fun hc => by
    rw [encodeSize_low] at hc
    exact absurd hc.1 (by decide)
  rw [encode, decode, decodeCommand, if_neg (encodeSize_not_flipRow (by decide)),
    if_neg (encodeSize_not_flipRow (by decide)), if_neg (encodeSize_not_flipRow (by decide)),
    if_neg (encodeSize_not_flipRow (by decide)), encodeSize_w, encodeSize_ht, if_neg e,
    if_pos ⟨encodeSize_low _ _ _, h⟩]

theorem RoundTrip.cexp : RoundTrip.Statement .cexp := fun _ => by decide

theorem RoundTrip.cpack : RoundTrip.Statement .cpack := fun _ => by decide

theorem RoundTrip.brrdec : RoundTrip.Statement .brrdec := fun _ => by decide

theorem RoundTrip.lzdec : RoundTrip.Statement .lzdec := fun _ => by decide

theorem RoundTrip.ipsapply : RoundTrip.Statement .ipsapply := fun _ => by decide

theorem RoundTrip.upsapply : RoundTrip.Statement .upsapply := fun _ => by decide

theorem RoundTrip.illegal (w : Word) : RoundTrip.Statement (.illegal w) := by
  intro h
  simp only [Instr.wellFormed, legalWord, commandRows, List.any_cons, List.any_nil, CommandRow.matches, Bool.not_eq_true',
    Bool.or_eq_false_iff, Bool.and_eq_false_iff, beq_eq_false_iff_ne, Bool.not_false, Bool.true_or, Bool.not_true,
    Bool.false_or, bne_eq_false_iff_eq, Bool.true_eq_false, or_false] at h
  obtain ⟨h1, h2, h3, h4, h5, h6, h7, h8, h9, h10, h11, h12, -⟩ := h
  have e : ∀ {p : Word}, w &&& 0xFFFFFFFF#32 ≠ p → w ≠ p := fun {p} hp hw => hp (by
    rw [← hw]
    exact BitVec.and_allOnes)
  rw [encode, decode, decodeCommand, if_neg h1, if_neg h2, if_neg h3, if_neg h4, if_neg (by tauto), if_neg (by tauto),
    if_neg (e h7), if_neg (e h8), if_neg (e h9), if_neg (e h10), if_neg (e h11), if_neg (e h12)]

/-! ## The stream elements -/

theorem RoundTrip.tile2 (planes : List Byte) : RoundTrip.Statement (.tile2 planes) := by
  intro h
  simp only [Instr.wellFormed, beq_iff_eq] at h
  simp [encode, decode, decodeElement, h]

theorem RoundTrip.tile4 (planes : List Byte) : RoundTrip.Statement (.tile4 planes) := by
  intro h
  simp only [Instr.wellFormed, beq_iff_eq] at h
  simp [encode, decode, decodeElement, h]

theorem RoundTrip.utile (pixels : List Byte) : RoundTrip.Statement (.utile pixels) := by
  intro h
  simp only [Instr.wellFormed, beq_iff_eq] at h
  simp [encode, decode, decodeElement, h]

theorem RoundTrip.image (pixels : List Byte) : RoundTrip.Statement (.image pixels) := by
  intro h
  simp only [Instr.wellFormed, Bool.and_eq_true, beq_iff_eq, bne_iff_ne] at h
  rw [encode, decode, decodeElement, if_pos h]

theorem RoundTrip.flip (fh fv : Bool) : RoundTrip.Statement (.flip fh fv) := by
  intro _; cases fh <;> cases fv <;> decide

theorem RoundTrip.color15 (x : Bool) (b g r : BitVec 5) : RoundTrip.Statement (.color15 x b g r) := by
  intro _
  have := b.isLt; have := g.isLt; have := r.isLt
  have e := colorWord_toNat x b g r
  simp only [encode, decode, decodeElement, bytesLe16, le16_bytes]
  congr 2
  · rw [getLsbD_eq, e]
    cases x <;> simp <;> omega
  · rw [extract_eq, e]
    cases x <;> simp <;> omega
  · rw [extract_eq, e]
    cases x <;> simp <;> omega
  · rw [extract_eq, e]
    cases x <;> simp <;> omega

theorem RoundTrip.rgb24 (r g b : Byte) : RoundTrip.Statement (.rgb24 r g b) := fun _ => rfl

theorem RoundTrip.brrblk (shift : BitVec 4) (filter : BitVec 2) (loop fin : Bool) (nibbles : List (BitVec 4)) :
    RoundTrip.Statement (.brrblk shift filter loop fin nibbles) := by
  intro h
  simp only [Instr.wellFormed, beq_iff_eq] at h
  obtain ⟨h1, h2⟩ := encodeNibbles_spec 8 nibbles h
  have := shift.isLt; have := filter.isLt
  have e := header_toNat shift filter loop fin
  simp only [encode, decode, decodeElement, decodeBrrBlock, h1, h2, if_true]
  congr 2
  · rw [extract_eq, e]
    cases loop <;> cases fin <;> simp <;> omega
  · rw [extract_eq, e]
    cases loop <;> cases fin <;> simp <;> omega
  · rw [getLsbD_eq, e]
    cases loop <;> cases fin <;> simp <;> omega
  · rw [getLsbD_eq, e]
    cases loop <;> cases fin <;> simp <;> omega

theorem RoundTrip.pcm16 (sample : Sample) : RoundTrip.Statement (.pcm16 sample) := by
  intro _
  simp [encode, decode, decodeElement, bytesLe16, le16_bytes]

theorem RoundTrip.lzctrl (ctrl : Byte) : RoundTrip.Statement (.lzctrl ctrl) := fun _ => rfl

theorem RoundTrip.lzlit (data : Byte) : RoundTrip.Statement (.lzlit data) := fun _ => rfl

theorem RoundTrip.lzmatch (b0 b1 : Byte) : RoundTrip.Statement (.lzmatch b0 b1) := fun _ => rfl

theorem RoundTrip.lzend (marker : Byte) : RoundTrip.Statement (.lzend marker) := fun _ => rfl

theorem RoundTrip.ipsmagic : RoundTrip.Statement .ipsmagic := fun _ => by decide

theorem RoundTrip.ipsrec (offset : BitVec 24) (data : List Byte) : RoundTrip.Statement (.ipsrec offset data) := by
  intro h
  simp only [Instr.wellFormed, Bool.and_eq_true, bne_iff_ne, decide_eq_true_eq] at h
  obtain ⟨⟨h1, h2⟩, h3⟩ := h
  have hs : BitVec.ofNat 16 data.length ≠ 0#16 := fun hc => by
    have := congrArg BitVec.toNat hc
    simp at this
    omega
  simp only [encode, decode, decodeElement, bytesBe24, bytesBe16, List.cons_append, List.nil_append, be24_bytes,
    be16_bytes, decodeIpsRecord]
  rw [if_neg h1, if_neg hs, if_pos (by simp; omega)]

theorem RoundTrip.ipsrle (offset : BitVec 24) (runSize : BitVec 16) (value : Byte) :
    RoundTrip.Statement (.ipsrle offset runSize value) := by
  intro h
  simp only [Instr.wellFormed, bne_iff_ne] at h
  simp only [encode, decode, decodeElement, bytesBe24, bytesBe16, List.cons_append, List.nil_append, be24_bytes,
    be16_bytes, decodeIpsRle]
  rw [if_neg h, if_neg (by simp)]

theorem RoundTrip.ipseof : RoundTrip.Statement .ipseof := fun _ => by decide

theorem RoundTrip.upsmagic : RoundTrip.Statement .upsmagic := fun _ => by decide

theorem RoundTrip.vlv (digits : List (BitVec 7)) : RoundTrip.Statement (.vlv digits) := by
  intro h
  simp only [Instr.wellFormed, bne_iff_ne, ne_eq, List.length_eq_zero_iff] at h
  have e := takeVlv_encodeVlv digits h []
  rw [List.append_nil] at e
  simp only [encode, decode, decodeElement, decodeVlv, e]

theorem RoundTrip.upsrun (rel : List (BitVec 7)) (xors : List Byte) : RoundTrip.Statement (.upsrun rel xors) := by
  intro h
  simp only [Instr.wellFormed, Bool.and_eq_true, bne_iff_ne, ne_eq, List.length_eq_zero_iff] at h
  simp only [encode, decode, decodeElement, decodeUpsRun, List.append_assoc, takeVlv_encodeVlv rel h.1,
    takeXors_append xors h.2]

theorem RoundTrip.upstrailer (srcCrc tgtCrc patchCrc : Word) : RoundTrip.Statement (.upstrailer srcCrc tgtCrc patchCrc) := by
  intro _
  simp only [encode, decode, decodeElement, bytesLe32, List.cons_append, List.nil_append, le32_bytes]

end Sys2Proof.Laws
end

