-- ==== Sys2Proof/Tests/Slice0.lean ====
section
/-! SUPPORT. The model's own tests. Expected results come from spec/95_test_vectors.md and from the examples of the rules,
not from the model; each section names its source. Then, for every statement of Obligations.lean that has hypotheses, a
witness that meets them. -/

namespace Sys2Proof.Tests

open Sys2Proof Sys2Proof.Machine

/-! ## WellFormed: an ill-formed term for each check, refused -/

theorem test_wf_tasm_width : Instr.wellFormed (.tasm2 0#8 2#8) = false := by decide
theorem test_wf_tasm_height : Instr.wellFormed (.tasm4 2#8 0#8) = false := by decide
theorem test_wf_illegal : Instr.wellFormed (.illegal 0x00000110#32) = false := by decide
theorem test_wf_tile2 : Instr.wellFormed (.tile2 (List.replicate 15 0#8)) = false := by decide
theorem test_wf_tile4 : Instr.wellFormed (.tile4 (List.replicate 16 0#8)) = false := by decide
theorem test_wf_utile : Instr.wellFormed (.utile (List.replicate 63 0#8)) = false := by decide
theorem test_wf_image : Instr.wellFormed (.image []) = false ∧ Instr.wellFormed (.image [0#8]) = false := by decide
theorem test_wf_brrblk : Instr.wellFormed (.brrblk 0#4 0#2 false true [1#4]) = false := by decide
theorem test_wf_ipsrec_eof : Instr.wellFormed (.ipsrec 0x454F46#24 [1#8]) = false := by decide
theorem test_wf_ipsrec_empty : Instr.wellFormed (.ipsrec 0#24 []) = false := by decide
theorem test_wf_ipsrec_long (n : Nat) (h : 65536 ≤ n) : Instr.wellFormed (.ipsrec 0#24 (List.replicate n 0#8)) = false := by
  simp [Instr.wellFormed]; omega
theorem test_wf_ipsrle_eof : Instr.wellFormed (.ipsrle 0x454F46#24 1#16 0#8) = false := by decide
theorem test_wf_vlv : Instr.wellFormed (.vlv []) = false := by decide
theorem test_wf_upsrun_rel : Instr.wellFormed (.upsrun [] [1#8]) = false := by decide
theorem test_wf_upsrun_zero : Instr.wellFormed (.upsrun [1#7] [5#8, 0#8]) = false := by decide

/-! ## Decoding: codes written out from R91 to R118 and from section 2.1 of the vectors -/

theorem test_decode_tile_commands :
    decodeCommand 0b00000000000000000000000100010000#32 = .tdec2 true false ∧
    decodeCommand 0b00000000000000000000001100010001#32 = .tdec4 true true ∧
    decodeCommand 0b00000000000000000000000100010010#32 = .tenc2 true false ∧
    decodeCommand 0b00000000000000000000001000010011#32 = .tenc4 false true ∧
    decodeCommand 0b00000001000000100000000000010100#32 = .tasm2 2#8 1#8 ∧
    decodeCommand 0b00000010000000010000000000010101#32 = .tasm4 1#8 2#8 ∧
    decodeCommand 0xFFFF0014#32 = .tasm2 255#8 255#8 := by decide

theorem test_decode_other_commands :
    decodeCommand 0b00000000000000000000000000100000#32 = .cexp ∧
    decodeCommand 0b00000000000000000000000000100001#32 = .cpack ∧
    decodeCommand 0b00000000000000000000000000110000#32 = .brrdec ∧
    decodeCommand 0b00000000000000000000000001000000#32 = .lzdec ∧
    decodeCommand 0b00000000000000000000000001010000#32 = .ipsapply ∧
    decodeCommand 0b00000000000000000000000001100000#32 = .upsapply := by decide

theorem test_decode_illegal_words :
    [0x00000000#32, 0x000000FF#32, 0x00000120#32, 0x00000410#32, 0x00010010#32, 0x00000114#32, 0x00020014#32,
      0x02000014#32, 0x00010030#32].all (fun w => decide (decodeCommand w = .illegal w)) = true := by decide

theorem test_decode_tiles :
    decodeElement .tile2 (List.replicate 16 0x80#8) = .ok (.tile2 (List.replicate 16 0x80#8)) ∧
    decodeElement .tile4 (List.replicate 32 0x01#8) = .ok (.tile4 (List.replicate 32 0x01#8)) ∧
    decodeElement .utile (List.replicate 64 0x03#8) = .ok (.utile (List.replicate 64 0x03#8)) ∧
    decodeElement .image (List.replicate 64 0x03#8) = .ok (.image (List.replicate 64 0x03#8)) ∧
    decodeElement .tile2 (List.replicate 17 0x80#8) = .error .wrongLength := by decide

theorem test_decode_flip :
    decodeElement .flip [0b00000001#8] = .ok (.flip true false) ∧
    decodeElement .flip [0b00000010#8] = .ok (.flip false true) ∧
    decodeElement .flip [0b00000100#8] = .error .reservedFlipBits := by decide

/-- The words 0x7C00 and 0x1234 of section 2.3, the triple of R107. -/
theorem test_decode_colours :
    decodeElement .color15 [0x00#8, 0x7C#8] = .ok (.color15 false 31#5 0#5 0#5) ∧
    decodeElement .color15 [0x34#8, 0x12#8] = .ok (.color15 false 4#5 17#5 20#5) ∧
    decodeElement .color15 [0x00#8, 0xFC#8] = .ok (.color15 true 31#5 0#5 0#5) ∧
    decodeElement .rgb24 [0x12#8, 0x34#8, 0x56#8] = .ok (.rgb24 0x12#8 0x34#8 0x56#8) := by decide

/-- "header `A9` = `1010 1001`: shift 10, filter 2, loop 0, end 1" (section 2.4); the PCM bytes of the same section. -/
theorem test_decode_brr :
    decodeElement .brrblk [0b10101001#8, 0x12#8, 0x3F#8, 0#8, 0#8, 0#8, 0#8, 0#8, 0x80#8] =
      .ok (.brrblk 10#4 2#2 false true
        [1#4, 2#4, 3#4, 15#4, 0#4, 0#4, 0#4, 0#4, 0#4, 0#4, 0#4, 0#4, 0#4, 0#4, 8#4, 0#4]) ∧
    decodeElement .pcm16 [0x00#8, 0x80#8] = .ok (.pcm16 (BitVec.ofInt 16 (-32768))) ∧
    decodeElement .pcm16 [0xFF#8, 0x07#8] = .ok (.pcm16 2047#16) := by decide

theorem test_decode_lz :
    decodeElement .lzctrl [0x20#8] = .ok (.lzctrl 0b00100000#8) ∧
    decodeElement .lzlit [0x41#8] = .ok (.lzlit 0x41#8) ∧
    decodeElement .lzmatch [0x10#8, 0x02#8] = .ok (.lzmatch 0x10#8 0x02#8) ∧
    decodeElement .lzend [0xFF#8] = .ok (.lzend 0xFF#8) := by decide

/-- Records of section 2.6. -/
theorem test_decode_ips :
    decodeElement .ipsmagic [0x50#8, 0x41#8, 0x54#8, 0x43#8, 0x48#8] = .ok .ipsmagic ∧
    decodeElement .ipsrec [0x00#8, 0x00#8, 0x04#8, 0x00#8, 0x02#8, 0x09#8, 0x08#8] = .ok (.ipsrec 4#24 [9#8, 8#8]) ∧
    decodeElement .ipsrle [0x00#8, 0x00#8, 0x01#8, 0x00#8, 0x00#8, 0x00#8, 0x03#8, 0xAA#8] =
      .ok (.ipsrle 1#24 3#16 0xAA#8) ∧
    decodeElement .ipseof [0x45#8, 0x4F#8, 0x46#8] = .ok .ipseof ∧
    decodeElement .ipsrec [0x45#8, 0x4F#8, 0x46#8, 0x00#8, 0x01#8, 0x07#8] = .error .offsetIsEof ∧
    decodeElement .ipsmagic [0x50#8, 0x41#8, 0x54#8, 0x43#8, 0x68#8] = .error .wrongMagic := by decide

/-- Bytes of section 2.7 and 2.8, and the trailer of scenario 6. -/
theorem test_decode_ups :
    decodeElement .upsmagic [0x55#8, 0x50#8, 0x53#8, 0x31#8] = .ok .upsmagic ∧
    decodeElement .vlv [0x00#8, 0x00#8, 0x81#8] = .ok (.vlv [0#7, 0#7, 1#7]) ∧
    decodeElement .upsrun [0x82#8, 0x06#8, 0x07#8, 0x00#8] = .ok (.upsrun [2#7] [6#8, 7#8]) ∧
    decodeElement .upstrailer
      [0xA0#8, 0x25#8, 0x54#8, 0x95#8, 0xFD#8, 0xC9#8, 0x35#8, 0x5B#8, 0x0B#8, 0xE6#8, 0xE8#8, 0x64#8] =
      .ok (.upstrailer 0x955425A0#32 0x5B35C9FD#32 0x64E8E60B#32) ∧
    decodeElement .vlv [0x00#8] = .error .vlvUnterminated ∧
    decodeElement .vlv [0x81#8, 0x00#8] = .error .trailingBytes ∧
    decodeElement .upsrun [0x82#8, 0x06#8] = .error .runUnterminated := by decide

/-- Encodings of section 2.7: 150, 16383, `2^32`, and the values of the non-minimal forms. -/
theorem test_vlv_values :
    vlvValue [22#7, 1#7] = 150 ∧ vlvValue [127#7, 127#7] = 16383 ∧
    vlvValue [0#7, 0#7, 0#7, 0#7, 16#7] = 2 ^ 32 ∧ vlvValue [1#7, 0#7] = 1 := by decide

/-! ## One step each: the vectors of section 95, parts 1 and 2 -/

/-- An idle block with the given bytes loaded and a limit. -/
def box (src aux : List Byte) (limit : Word) : State :=
  { State.resetWith { Config.default with srcCap := 256, auxCap := 256, dstCap := 256 } with
    src := Memory.ofBytes 0 src
    srcLen := BitVec.ofNat 32 src.length
    aux := Memory.ofBytes 0 aux
    auxLen := BitVec.ofNat 32 aux.length
    outLimit := limit }

/-- The output of a step that succeeded: "ok n" of the vectors, with the bytes. -/
def okBytes : Result → Option (List Byte)
  | .next t =>
    if t.status = 0x00000100#32 ∧ t.errPos = 0#32 ∧ t.dst.map Prod.fst = List.range t.outLen.toNat then
      some (t.dst.map Prod.snd)
    else none
  | _ => none

/-- The error of a step: "E(p)" of the vectors. -/
def errAt : Result → Option (Word × Nat)
  | .next t => if t.outLen = 0#32 ∧ t.dst = [] then some (t.status, t.errPos.toNat) else none
  | _ => none

/-- `BRR_LOOP` after a step. -/
def loopOf : Result → Option Word
  | .next t => some t.brrLoop
  | _ => none

/-- The step of a host's write of a command word. -/
def cmd (w : Word) (s : State) : Result := step { s with host := [.regWrite 0x00 4 w] }

/-- Tile `A` of section 2.2. -/
def tileA : List Byte :=
  [0x80#8, 0x00#8, 0x00#8, 0x40#8, 0x20#8, 0x20#8, 0#8, 0#8, 0#8, 0#8, 0#8, 0#8, 0#8, 0#8, 0x01#8, 0x01#8]

/-- A row of eight zero indices. -/
def row0 : List Byte := List.replicate 8 0#8

/-- Its indices under `TDEC2 h`. -/
def tileAH : List Byte :=
  [0#8, 0#8, 0#8, 0#8, 0#8, 0#8, 0#8, 1#8] ++ [0#8, 0#8, 0#8, 0#8, 0#8, 0#8, 2#8, 0#8] ++
    [0#8, 0#8, 0#8, 0#8, 0#8, 3#8, 0#8, 0#8] ++ row0 ++ row0 ++ row0 ++ row0 ++ [3#8, 0#8, 0#8, 0#8, 0#8, 0#8, 0#8, 0#8]

/-- Its indices under `TDEC2 v`. -/
def tileAV : List Byte :=
  [0#8, 0#8, 0#8, 0#8, 0#8, 0#8, 0#8, 3#8] ++ row0 ++ row0 ++ row0 ++ row0 ++ [0#8, 0#8, 3#8, 0#8, 0#8, 0#8, 0#8, 0#8] ++
    [0#8, 2#8, 0#8, 0#8, 0#8, 0#8, 0#8, 0#8] ++ [1#8, 0#8, 0#8, 0#8, 0#8, 0#8, 0#8, 0#8]

/-- The 4bpp tile of R135. -/
def tile4 : List Byte :=
  [0x80#8, 0x80#8, 0x01#8] ++ List.replicate 13 0#8 ++ [0x80#8, 0x80#8, 0#8, 0x01#8] ++ List.replicate 12 0#8

theorem test_tdec2_h : okBytes (cmd 0x00000110#32 (box tileA [] 64#32)) = some tileAH := by decide
theorem test_tdec2_limit : errAt (cmd 0x00000010#32 (box (tileA ++ tileA) [] 127#32)) = some (0x10F#32, 16) := by
  decide
theorem test_tdec4 : okBytes (cmd 0x00000011#32 (box tile4 [] 64#32)) =
    some ([0x0F#8, 0#8, 0#8, 0#8, 0#8, 0#8, 0#8, 0#8] ++ [0#8, 0#8, 0#8, 0#8, 0#8, 0#8, 0#8, 0x09#8] ++
      row0 ++ row0 ++ row0 ++ row0 ++ row0 ++ row0) := by decide
theorem test_tdec4_cut : errAt (cmd 0x00000011#32 (box (tile4 ++ tileA) [] 256#32)) = some (0x103#32, 32) := by
  decide
theorem test_tenc2 : okBytes (cmd 0x00000212#32 (box tileAV [] 16#32)) = some tileA := by decide
theorem test_tenc2_range : errAt (cmd 0x00000012#32
    (box (List.replicate 5 0#8 ++ [4#8] ++ List.replicate 3 0#8 ++ [7#8] ++ List.replicate 54 0#8) [] 256#32)) =
    some (0x10B#32, 5) := by decide
theorem test_tenc4_h : okBytes (cmd 0x00000113#32
    (box (List.flatten (List.replicate 8 [0#8, 1#8, 2#8, 3#8, 4#8, 5#8, 6#8, 7#8])) [] 32#32)) =
    some (List.flatten (List.replicate 8 [0xAA#8, 0xCC#8]) ++ List.flatten (List.replicate 8 [0xF0#8, 0x00#8])) := by
  decide
theorem test_tenc4_whole_byte : errAt (cmd 0x00000013#32 (box (List.replicate 63 0#8 ++ [0x10#8]) [] 256#32)) =
    some (0x10B#32, 63) := by decide
theorem test_tasm2 : okBytes (cmd 0x01010014#32 (box tileA [0x02#8] 64#32)) = some tileAV := by decide
theorem test_tasm2_flip_byte : errAt (cmd 0x01020014#32 (box (tileA ++ tileA) [0x00#8, 0x04#8] 128#32)) =
    some (0x114#32, 1) := by decide
/-- Two tiles side by side: the first image row is row 0 of each (R140). -/
theorem test_tasm2_order : (okBytes (cmd 0x01020014#32 (box (tileA ++ tileA) [0x00#8, 0x01#8] 128#32))).map (·.take 16) =
    some [1#8, 0#8, 0#8, 0#8, 0#8, 0#8, 0#8, 0#8, 0#8, 0#8, 0#8, 0#8, 0#8, 0#8, 0#8, 1#8] := by decide +kernel
theorem test_tasm4 : (okBytes (cmd 0x01010015#32 (box tile4 [0x03#8] 64#32))).map (·.drop 48) =
    some ([0x09#8, 0#8, 0#8, 0#8, 0#8, 0#8, 0#8, 0#8] ++ [0#8, 0#8, 0#8, 0#8, 0#8, 0#8, 0#8, 0x0F#8]) := by
  decide
theorem test_tasm4_long : errAt (cmd 0x01010015#32 (box (tile4 ++ tile4) [0#8] 256#32)) = some (0x114#32, 32) := by
  decide
theorem test_cexp : okBytes (cmd 0x00000020#32 (box [0x34#8, 0x12#8, 0x00#8, 0xFC#8] [] 6#32)) =
    some [0xA5#8, 0x8C#8, 0x21#8, 0x00#8, 0x00#8, 0xFF#8] := by decide
theorem test_cexp_odd : errAt (cmd 0x00000020#32 (box [0#8, 0#8, 0#8] [] 256#32)) = some (0x103#32, 2) := by decide
theorem test_cpack : okBytes (cmd 0x00000021#32 (box [0x12#8, 0x34#8, 0x56#8] [] 2#32)) = some [0xC2#8, 0x28#8] := by
  decide
theorem test_cpack_limit : errAt (cmd 0x00000021#32 (box [0#8, 0#8, 0#8, 0#8, 0#8, 0#8] [] 3#32)) = some (0x10F#32, 3) := by
  decide

/-- The samples of `A9 12 ...`: 1024, 4000, 6665 first; of `C9 88 88 ...`: four times the lower clamp, then -31744. -/
theorem test_brrdec_filter2 :
    (okBytes (cmd 0x00000030#32 (box [0xA9#8, 0x12#8, 0#8, 0#8, 0#8, 0#8, 0#8, 0#8, 0#8] [] 32#32))).map (·.take 6) =
      some (bytesLe16 1024#16 ++ bytesLe16 4000#16 ++ bytesLe16 6665#16) := by decide
theorem test_brrdec_clamp :
    (okBytes (cmd 0x00000030#32 (box [0xC9#8, 0x88#8, 0x88#8, 0#8, 0#8, 0#8, 0#8, 0#8, 0#8] [] 32#32))).map (·.take 10) =
      some [0x00#8, 0x80#8, 0x00#8, 0x80#8, 0x00#8, 0x80#8, 0x00#8, 0x80#8, 0x00#8, 0x84#8] := by decide
/-- Headers 02 and 03: the last flagged block wins. -/
theorem test_brrdec_loop :
    loopOf (cmd 0x00000030#32 (box ([0x02#8] ++ row0 ++ [0x03#8] ++ row0) [] 64#32)) = some 0x80000010#32 := by
  decide
theorem test_brrdec_no_end :
    errAt (cmd 0x00000030#32 (box [0#8, 0x11#8, 0x11#8, 0x11#8, 0x11#8, 0x11#8, 0x11#8, 0x11#8, 0x11#8] [] 256#32)) =
      some (0x111#32, 9) := by decide
theorem test_lzdec : okBytes (cmd 0x00000040#32 (box [0x20#8, 0x41#8, 0x42#8, 0x10#8, 0x02#8] [] 256#32)) =
    some [0x41#8, 0x42#8, 0x41#8, 0x42#8, 0x41#8, 0x42#8] := by decide
theorem test_lzdec_length_first :
    errAt (cmd 0x00000040#32 { box [0x80#8, 0#8, 0#8] [] 256#32 with lzCfg := 0x00000004#32 }) = some (0x112#32, 1) := by
  decide
theorem test_ipsapply : okBytes (cmd 0x00000050#32 (box [0#8, 0#8, 0#8, 0#8]
    (patchMagic ++ [0#8, 0#8, 0#8, 0#8, 3#8, 1#8, 1#8, 1#8, 0#8, 0#8, 1#8, 0#8, 2#8, 2#8, 2#8] ++ eofMagic) 256#32)) =
    some [1#8, 2#8, 2#8, 0#8] := by decide
theorem test_ipsapply_run_of_zero : okBytes (cmd 0x00000050#32 (box [1#8, 2#8]
    (patchMagic ++ [0#8, 0#8, 5#8, 0#8, 0#8, 0#8, 0#8, 0x77#8] ++ eofMagic) 256#32)) =
    some [1#8, 2#8, 0#8, 0#8, 0#8] := by decide
theorem test_upsapply : okBytes (cmd 0x00000060#32 (box [1#8, 2#8, 3#8, 4#8]
    (upsMagic ++ [0x84#8, 0x82#8, 0x81#8, 0x0B#8, 0x03#8, 0x04#8, 0x00#8, 0x8F#8, 0xB1#8, 0xD6#8, 0x07#8, 0x5B#8, 0xB8#8,
      0x79#8, 0x86#8, 0xA1#8, 0xA8#8, 0xF8#8, 0x7B#8]) 256#32)) = some [1#8, 9#8] := by decide +kernel
theorem test_upsapply_source_crc : errAt (cmd 0x00000060#32 (box [0xAA#8, 0xBA#8]
    (upsMagic ++ [0x82#8, 0x82#8, 0x81#8, 0x77#8, 0x00#8, 0xA0#8, 0x25#8, 0x54#8, 0x95#8, 0xFD#8, 0xC9#8, 0x35#8, 0x5B#8,
      0x0B#8, 0xE6#8, 0xE8#8, 0x64#8]) 256#32)) = some (0x105#32, 9) := by decide +kernel
/-- `crc32` of "123456789" with the source's constant and with the standard one (section 2.7). -/
theorem test_crc32 :
    crc32 0xEDB88820#32 [0x31#8, 0x32#8, 0x33#8, 0x34#8, 0x35#8, 0x36#8, 0x37#8, 0x38#8, 0x39#8] = 0x2A239DC3#32 ∧
    crc32 0xEDB88320#32 [0x31#8, 0x32#8, 0x33#8, 0x34#8, 0x35#8, 0x36#8, 0x37#8, 0x38#8, 0x39#8] = 0xCBF43926#32 := by
  decide +kernel
theorem test_illegal : errAt (cmd 0x00000120#32 (box [] [] 256#32)) = some (0x113#32, 0) := by decide

/-! ## Stream elements on a running engine -/

/-- What a step leaves as the working state. -/
def workOf : Result → Option Work
  | .next t => some t.work
  | _ => none

/-- A block whose engine runs. -/
def running (w : Work) : State := { box [1#8, 2#8] tileA 256#32 with work := w }

theorem test_tile2 : workOf (exec (.tile2 tileA) (running (.tdec (.start .two true false)))) =
    some (.tdec { TileWork.start .two true false with c := 16, out := tileAH }) := by decide
theorem test_tile4 : workOf (exec (.tile4 tile4) (running (.tdec (.start .four false false)))) =
    some (.tdec { TileWork.start .four false false with
      c := 32
      out := [0x0F#8, 0#8, 0#8, 0#8, 0#8, 0#8, 0#8, 0#8] ++ [0#8, 0#8, 0#8, 0#8, 0#8, 0#8, 0#8, 0x09#8] ++
        row0 ++ row0 ++ row0 ++ row0 ++ row0 ++ row0 }) := by decide
theorem test_utile : workOf (exec (.utile (List.replicate 64 2#8)) (running (.tenc (.start .two false false)))) =
    some (.tenc { TileWork.start .two false false with c := 64, out := List.flatten (List.replicate 8 [0#8, 0xFF#8]) }) := by
  decide
theorem test_flip : workOf (exec (.flip false true) (running (.tasm (.start .two 2#8 1#8)))) =
    some (.tasm { AsmWork.start .two 2#8 1#8 with flips := [(false, true)] }) := by decide
theorem test_image :
    okBytes (exec (.image tileAV)
      (running (.tasm { AsmWork.start .two 1#8 1#8 with flips := [(false, true)], tiles := [tileAV] }))) = some tileAV := by
  decide
theorem test_color15 : workOf (exec (.color15 true 31#5 0#5 0#5) (running (.cexp .start))) =
    some (.cexp { c := 2, out := [0#8, 0#8, 255#8] }) := by decide
theorem test_rgb24 : workOf (exec (.rgb24 8#8 16#8 24#8) (running (.cpack .start))) =
    some (.cpack { c := 3, out := [0x41#8, 0x0C#8] }) := by decide
/-- Shift 13: nibbles 7, 8, 0, F give 2047, -2048, 2047, -2048 (section 2.4). -/
theorem test_brrblk :
    (okBytes (exec (.brrblk 13#4 0#2 false true
        [7#4, 8#4, 0#4, 15#4, 0#4, 0#4, 0#4, 0#4, 0#4, 0#4, 0#4, 0#4, 0#4, 0#4, 0#4, 0#4])
      (running (.brr .start)))).map (·.take 8) =
      some [0xFF#8, 0x07#8, 0x00#8, 0xF8#8, 0xFF#8, 0x07#8, 0x00#8, 0xF8#8] := by decide
theorem test_pcm16 : workOf (exec (.pcm16 0x8000#16) (running (.brr { BrrWork.start with p1 := 5#16 }))) =
    some (.brr { BrrWork.start with out := [0x00#8, 0x80#8], p1 := 0x8000#16, p2 := 5#16 }) := by decide
theorem test_lzctrl : workOf (exec (.lzctrl 0x20#8) (running (.lz .start))) =
    some (.lz { LzWork.start with c := 1, ctrl := 0x20#8, bitsLeft := 8 }) := by decide
theorem test_lzlit : workOf (exec (.lzlit 0x41#8) (running (.lz { LzWork.start with c := 1, ctrl := 0x20#8, bitsLeft := 8 }))) =
    some (.lz { c := 2, ctrl := 0x40#8, bitsLeft := 7, out := [0x41#8] }) := by decide
/-- `MATCH 18, 1` of section 2.5: the last byte 18 times more. -/
theorem test_lzmatch :
    workOf (exec (.lzmatch 0xF0#8 0x01#8) (running (.lz { c := 2, ctrl := 0x80#8, bitsLeft := 7, out := [0x41#8] }))) =
      some (.lz { c := 4, ctrl := 0x00#8, bitsLeft := 6, out := List.replicate 19 0x41#8 }) := by decide
theorem test_lzend :
    okBytes (exec (.lzend 0xFF#8) { running (.lz { LzWork.start with out := [0x41#8] }) with lzCfg := 0x00FF0384#32 }) =
      some [0x41#8] := by decide
theorem test_ipsmagic : workOf (exec .ipsmagic (running (.ips .start))) =
    some (.ips { phase := .records, c := 5, out := [1#8, 2#8] }) := by decide
theorem test_ipsrec : workOf (exec (.ipsrec 4#24 [9#8, 8#8]) (running (.ips { phase := .records, c := 5, out := [1#8, 2#8] }))) =
    some (.ips { phase := .records, c := 12, out := [1#8, 2#8, 0#8, 0#8, 9#8, 8#8] }) := by decide
theorem test_ipsrle :
    workOf (exec (.ipsrle 1#24 3#16 0xAA#8) (running (.ips { phase := .records, c := 5, out := [0#8, 0#8, 0#8, 0#8, 0#8] }))) =
      some (.ips { phase := .records, c := 13, out := [0#8, 0xAA#8, 0xAA#8, 0xAA#8, 0#8] }) := by decide
theorem test_ipseof : okBytes (exec .ipseof (running (.ips { phase := .records, c := 5, out := [1#8] }))) = some [1#8] := by
  decide
theorem test_upsmagic : workOf (exec .upsmagic (running (.ups .start))) =
    some (.ups { UpsWork.start with phase := .sourceSize, c := 4 }) := by decide
theorem test_vlv :
    workOf (exec (.vlv [4#7]) (running (.ups { UpsWork.start with phase := .targetSize 2, c := 5 }))) =
      some (.ups { UpsWork.start with phase := .runs, c := 6, out := [1#8, 2#8, 0#8, 0#8] }) := by decide
/-- The second run of "two runs" (section 2.8). -/
theorem test_upsrun :
    workOf (exec (.upsrun [2#7] [6#8, 7#8])
      (running (.ups { UpsWork.start with phase := .runs, c := 3, cur := 3, out := [0#8, 5#8, 0#8, 0#8, 0#8, 0#8, 0#8, 0#8] }))) =
      some (.ups { UpsWork.start with
        phase := .runs, c := 7, cur := 8, out := [0#8, 5#8, 0#8, 0#8, 0#8, 6#8, 7#8, 0#8] }) := by decide
/-- The trailer of scenario 6 after its run. -/
theorem test_upstrailer :
    okBytes (exec (.upstrailer 0x955425A0#32 0x5B35C9FD#32 0x64E8E60B#32)
      { box [0xAA#8, 0xBB#8] (upsMagic ++ [0x82#8, 0x82#8, 0x81#8, 0x77#8, 0x00#8] ++ List.replicate 12 0#8) 256#32 with
        work := .ups { UpsWork.start with phase := .runs, c := 9, cur := 3, out := [0xAA#8, 0xCC#8] } }) =
      some [0xAA#8, 0xCC#8] := by decide +kernel

/-! ## Host accesses, faults, and the placing of instructions -/

/-- An access falls at its offset from the base of its window (R22, R69): `LZ_TARGET` at 0x20 from `REG_BASE`. -/
theorem test_busAddress :
    let c : Config := { Config.default with regBase := 0x4000, srcBase := 0x8000, auxBase := 0xA000, dstBase := 0xC000 }
    HostAccess.busAddress c (.regWrite 0x20 4 0#32) = some 0x4020 ∧ HostAccess.busAddress c (.bufWrite .src 5 0#8) = some 0x8005 ∧
    HostAccess.busAddress c (.bufRead .aux 0) = some 0xA000 ∧ HostAccess.busAddress c (.bufRead .dst 7) = some 0xC007 := by
  decide

/-- A byte the host has not written faults (R68, U1); one that no rule reads does not (U15). -/
theorem test_unwritten_byte :
    (match cmd 0x00000020#32 { box [0#8] [] 256#32 with srcLen := 2#32 } with
      | .fault f => some f
      | _ => none) = some (.unwrittenByte .src 1) ∧
    okBytes (cmd 0x00000030#32 { box ([0x01#8] ++ row0) [] 32#32 with srcLen := 12#32 }) =
      some (List.replicate 32 0#8) := by decide

/-- Offsets 0x28 and above and narrow accesses read 0 (R32); a buffer read returns the byte written (R63). -/
theorem test_host_reads :
    (match step { State.reset with host := [.regRead 0x1C 4] } with | .next t => some t.reply | _ => none) =
      some (.word 0x00000304#32) ∧
    (match step { State.reset with host := [.regRead 0x1C 1] } with | .next t => some t.reply | _ => none) =
      some (.word 0#32) ∧
    (match step { box [7#8, 9#8] [] 0#32 with host := [.bufRead .src 1] } with | .next t => some t.reply | _ => none) =
      some (.byte 9#8) := by decide

/-- No host access faults (D38): a write at the capacity changes nothing, a read there answers. -/
theorem test_host_beyond_capacity :
    (match step (box [7#8] [] 0#32 |> fun s => { s with host := [.bufWrite .src 256 9#8] }) with
      | .next t => decide (t = box [7#8] [] 0#32)
      | _ => false) = true ∧
    (match step { box [7#8] [] 0#32 with host := [.bufRead .src 256] } with | .next t => some t.freeIdx | _ => none) =
      some 1 := ⟨by decide, rfl⟩

/-- A placed command word, flip byte and literal are what the next step runs (log entry 3). -/
theorem test_fetch_word :
    decodeTableWord 32 0x00000110 = some (.tdec2 true false) ∧
    okBytes (step (State.reset.withFetchWord 32 0x00000110)) = some [] ∧
    decodeTableWord 8 2 = some (.flip false true) ∧
    workOf (step (State.reset.withFetchWord 8 2)) =
      some (.tasm { AsmWork.start .two 1#8 1#8 with flips := [(false, true)] }) ∧
    decodeTableWord 8 0x41 = some (.lzlit 0x41#8) ∧
    workOf (step (State.reset.withFetchWord 8 0x41)) =
      some (.lz { LzWork.start with c := 1, ctrl := 0#8, bitsLeft := 7, out := [0x41#8] }) ∧
    decodeTableWord 16 0x7C00 = some (.color15 false 31#5 0#5 0#5) ∧
    workOf (step (State.reset.withFetchWord 16 0x7C00)) = some (.cexp { c := 2, out := [0#8, 0#8, 255#8] }) := by
  decide

/-! ## Witnesses: for every statement with hypotheses, concrete states and operands that meet them

Each is named after its statement. A statement with several clauses has one conjunct for each. -/

/-- The block with one host access waiting. -/
def waiting (a : HostAccess) : State := { box [1#8, 2#8] tileA 256#32 with host := [a] }

theorem witness_DecodeOfEncode : Instr.wellFormed (.upsrun [127#7] [255#8]) = true := by decide

theorem witness_EncodeOfDecode : decode (.stream .vlv [0x16#8, 0x81#8]) = .ok (.vlv [22#7, 1#7]) := by decide

theorem witness_LegalWords :
    legalWord 0xFFFF0015#32 = true ∧ legalWord 0x00FF0015#32 = false ∧ legalWord 0x00000410#32 = false := by decide

theorem witness_CmdWrite :
    ((waiting (.regWrite 0 4 0x20#32)).work = .idle ∧ (waiting (.regWrite 0 4 0x20#32)).host = [.regWrite 0 4 0x20#32]) ∧
    (∃ t, step (waiting (.regWrite 0 4 0x20#32)) = .next t) ∧ legalWord 0x00000000#32 = false ∧
    (waiting (.regRead 0 4)).host = [.regRead 0 4] := ⟨by decide, ⟨_, rfl⟩, by decide, rfl⟩

theorem witness_RunningEngine :
    engineFetch (running (.cexp .start)) = .ok (.element (.color15 false 0#5 16#5 1#5)) ∧
    engineFetch (running (.cexp { c := 2, out := [9#8] })) = .ok (.done [9#8]) ∧
    engineFetch (running (.brr { BrrWork.start with c := 2 })) = .error (.raise .noEnd 2) ∧
    engineFetch { running (.cexp .start) with src := [] } = .error (.fault (.unwrittenByte .src 0)) := by
  refine ⟨by decide, by decide, by decide, by decide⟩

theorem witness_Fetched :
    (running (.cexp .start)).WorkInv ∧ (running (.cexp .start)).work ≠ .idle ∧
    engineFetch (running (.cexp .start)) = .ok (.element (.color15 false 0#5 16#5 1#5)) :=
  ⟨⟨by decide, by decide, by decide, by decide, by decide, by decide⟩, by decide, by decide⟩

theorem witness_Reset :
    (∃ t, (waiting .reset).work = .idle ∧ (waiting .reset).host = [.reset] ∧ step (waiting .reset) = .next t) ∧
    (State.reset.work = .idle ∧ State.reset.host = []) ∧
    (∃ t, (∀ w, HostAccess.bufWrite .src 255 7#8 ≠ .regWrite 0 4 w) ∧ HostAccess.bufWrite .src 255 7#8 ≠ .reset ∧
      step (waiting (.bufWrite .src 255 7#8)) = .next t) :=
  ⟨⟨_, rfl, rfl, rfl⟩, ⟨rfl, rfl⟩, ⟨_, by simp, by simp, rfl⟩⟩

theorem witness_AfterReset : (1#8 : Byte) ≠ 0#8 ∧ (255#8 : Byte) ≠ 0#8 := by decide

/-- The smallest and the largest legal capacities. -/
theorem witness_Config : (⟨1, 1, 1, 0#32, 0, 0, 0, 0⟩ : Config).wf ∧
    (⟨2 ^ 32 - 1, 2 ^ 32 - 1, 2 ^ 32 - 1, 0xEDB88320#32, 0, 0x40, 2 ^ 32, 2 ^ 33⟩ : Config).wf := by decide

/-- An idle state with a command waiting, and a state with a running engine, both satisfying the invariant. -/
theorem witness_Invariant :
    ((waiting (.regWrite 0 4 0x20#32)).Inv ∧ ∃ t, step (waiting (.regWrite 0 4 0x20#32)) = .next t) ∧
    ((running (.cexp .start)).Inv ∧ ∃ t, step (running (.cexp .start)) = .next t) := by
  refine ⟨⟨⟨⟨?_, ?_, ?_, ?_, ?_, ?_, ?_⟩, ⟨?_, ?_, ?_, ?_, ?_, ?_, ?_⟩, trivial⟩, _, rfl⟩,
    ⟨⟨⟨?_, ?_, ?_, ?_, ?_, ?_, ?_⟩, ⟨?_, ?_, ?_, ?_, ?_, ?_, ?_⟩,
      ⟨by decide, by decide, by decide, by decide, by decide, by decide⟩⟩, _, rfl⟩⟩ <;> decide

theorem witness_Element : Instr.isCommand (.color15 false 1#5 2#5 3#5) = false ∧
    (∃ t, exec (.color15 false 1#5 2#5 3#5) (running (.cexp .start)) = .next t) ∧
    (∃ t, exec .ipseof (running (.ips { IpsWork.start with phase := .records })) = .next t) ∧
    (∃ t, exec (.lzend 0#8) { running (.lz .start) with lzCfg := 0x00000384#32 } = .next t) ∧
    (∃ t, exec (.lzmatch 0#8 0#8) (running (.lz { LzWork.start with ctrl := 0x80#8, bitsLeft := 1 })) = .next t) :=
  ⟨rfl, ⟨_, rfl⟩, ⟨_, rfl⟩, ⟨_, rfl⟩, ⟨_, rfl⟩⟩

theorem witness_NoInstructionWrites : (∃ t, exec (.illegal 0#32) (running .idle) = .next t) ∧
    ∃ t, exec .cexp (running .idle) = .next t := ⟨⟨_, rfl⟩, ⟨_, rfl⟩⟩

theorem witness_Command : Instr.isCommand .cexp = true ∧ Instr.isCommand .brrdec = true ∧
    (∃ t, exec .cexp (running .idle) = .next t) ∧ (∃ t, exec .brrdec (running .idle) = .next t) :=
  ⟨rfl, rfl, ⟨_, rfl⟩, ⟨_, rfl⟩⟩

theorem witness_Loaded : (running .idle).Loaded ∧ (running .idle).srcLen = 2#32 ∧ (running .idle).auxLen = 16#32 := by
  refine ⟨⟨?_, ?_⟩, rfl, rfl⟩ <;> decide

/-- Two states that agree on the operands of `LZDEC`, the capacities and the polynomial, and on nothing else. -/
theorem witness_SameInputs :
    let s := running .idle
    let s' : State := { running .idle with
      aux := [], auxLen := 5#32, dst := [(3, 7#8)], brrLoop := 1#32, lzTarget := 9#32
      cfg := { s.cfg with regBase := 0x100, srcBase := 1, auxBase := 2, dstBase := 3 } }
    s'.cfg ≠ s.cfg ∧ s'.cfg.srcCap = s.cfg.srcCap ∧ s'.cfg.auxCap = s.cfg.auxCap ∧ s'.cfg.dstCap = s.cfg.dstCap ∧
    s'.cfg.crcPoly = s.cfg.crcPoly ∧ s'.srcLen = s.srcLen ∧ s'.outLimit = s.outLimit ∧ readsAux .lzdec = false ∧ s'.lzCfg = s.lzCfg ∧
    lzTerm s.lzCfg = 0 ∧ (∀ a, a < s.srcLen.toNat → s'.src.read a = s.src.read a) ∧ ∃ t, exec .lzdec s = .next t :=
  ⟨by decide, rfl, rfl, rfl, rfl, rfl, rfl, rfl, rfl, by decide, fun _ _ => rfl, _, rfl⟩

theorem witness_AtomicCommand :
    startWork .cexp = some (.cexp .start) ∧ startChecks .cexp (running .idle) = .ok () ∧
    startChecks .cexp { running .idle with srcLen := 1#32 } = .error (.raise .unexpectedEof 0) :=
  ⟨rfl, by decide, by decide⟩

theorem witness_HostRegisters :
    (waiting (.regWrite 0x24 4 5#32)).work = .idle ∧ 0x24 % 4 = 0 ∧ (0x24 : Nat) ≠ 0x00 ∧
    (waiting (.regWrite 0x0C 4 5#32)).host = [.regWrite 0x0C 4 5#32] ∧
    (waiting (.regRead 0x20 4)).host = [.regRead 0x20 4] := ⟨rfl, rfl, by decide, rfl, rfl⟩

theorem witness_ReservedAccess :
    (waiting (.regRead 0x28 4)).work = .idle ∧ (0x28 ≤ 0x28 ∨ 4 ≠ 4 ∨ 0x28 % 4 ≠ 0) ∧ (0x28 ≤ 0x00 ∨ 2 ≠ 4 ∨ 0x00 % 4 ≠ 0) ∧
    (0x28 ≤ 0x02 ∨ 4 ≠ 4 ∨ 0x02 % 4 ≠ 0) ∧ (waiting (.regWrite 0x00 2 0x20#32)).host = [.regWrite 0x00 2 0x20#32] :=
  ⟨rfl, by decide, by decide, by decide, rfl⟩

theorem witness_ReadOnly : (waiting (.regWrite 0x24 4 7#32)).work = .idle ∧ (0x24 : Nat) ∈ [0x04, 0x08, 0x18, 0x24] ∧
    (waiting (.regWrite 0x24 4 7#32)).host = [.regWrite 0x24 4 7#32] := ⟨rfl, by decide, rfl⟩

theorem witness_BufferAccess :
    255 < (waiting (.bufWrite .src 255 7#8)).cfg.srcCap ∧ 255 < (waiting (.bufWrite .aux 255 7#8)).cfg.auxCap ∧
    (waiting (.bufWrite .dst 0 7#8)).host = [.bufWrite .dst 0 7#8] ∧
    (0 < (waiting (.bufRead .src 0)).capacity .src ∧ ((waiting (.bufRead .src 0)).buffer .src).read 0 = some 1#8) ∧
    (255 < (waiting (.bufRead .dst 255)).capacity .dst ∧ ((waiting (.bufRead .dst 255)).buffer .dst).read 255 = none) ∧
    ((waiting (.bufWrite .src 256 7#8)).capacity .src ≤ 256 ∧ (waiting (.bufRead .aux 256)).capacity .aux ≤ 256) ∧
    HostAccess.command? .reset = none ∧ HostAccess.command? (.regWrite 0 2 7#32) = none := by
  refine ⟨by decide, by decide, rfl, ⟨by decide, by decide⟩, ⟨by decide, by decide⟩, ⟨by decide, by decide⟩, by decide,
    by decide⟩

theorem witness_IllegalWord :
    (waiting (.regWrite 0 4 0x00000120#32)).work = .idle ∧
    (waiting (.regWrite 0 4 0x00000120#32)).host = [.regWrite 0 4 0x00000120#32] ∧ legalWord 0x00000120#32 = false :=
  ⟨rfl, rfl, by decide⟩

theorem witness_Tiles : (∀ x y : Nat, x < 8 → y < 8 → ((fun _ _ => 3#8 : Matrix) x y).toNat < 2 ^ Depth.two.bits) ∧
    tileA.length = Depth.two.tileBytes ∧ tile4.length = Depth.four.tileBytes :=
  ⟨fun _ _ _ _ => (by decide : (3#8 : Byte).toNat < 2 ^ Depth.two.bits), by decide, by decide⟩

theorem witness_PackedTiles :
    (tileA.length = 16 ∧ tile4.length = 32) ∧
    (∃ a, (running (.tasm a)).work = .tasm a ∧ a.depth = .two ∧ a.flips.length = a.w * a.ht ∧
      a.flips[a.tiles.length]? = some (true, false)) ∧
    (∃ a, (running (.tasm a)).work = .tasm a ∧ a.depth = .four ∧ a.flips.length = a.w * a.ht ∧
      a.flips[a.tiles.length]? = some (false, true)) :=
  ⟨by decide, ⟨{ AsmWork.start .two 1#8 1#8 with flips := [(true, false)] }, by decide⟩,
    ⟨{ AsmWork.start .four 1#8 2#8 with flips := [(true, false), (false, true)], tiles := [tileAV] }, by decide⟩⟩

theorem witness_UnpackedTile :
    (List.replicate 64 3#8).length = 64 ∧ (∀ p ∈ List.replicate 64 (3#8 : Byte), p.toNat < 2 ^ Depth.two.bits) ∧
    (∃ h : 63 < (List.replicate 63 (3#8 : Byte) ++ [4#8]).length,
      2 ^ Depth.two.bits ≤ ((List.replicate 63 (3#8 : Byte) ++ [4#8])[63]).toNat ∧
      ∀ j (hj : j < 63), ((List.replicate 63 (3#8 : Byte) ++ [4#8])[j]'(Nat.lt_trans hj h)).toNat < 2 ^ Depth.two.bits) := by
  refine ⟨by decide, by decide, ⟨by decide, by decide, by decide⟩⟩

theorem witness_FlipAndImage :
    (AsmWork.start .two 255#8 255#8).flips.length < (AsmWork.start .two 255#8 255#8).w * (AsmWork.start .two 255#8 255#8).ht ∧
    (∃ a : AsmWork, a.flips.length = a.w * a.ht ∧ a.tiles.length = a.w * a.ht ∧ a.w = 1 ∧ a.ht = 1) :=
  ⟨by decide, { AsmWork.start .two 1#8 1#8 with flips := [(false, true)], tiles := [tileAV] }, by decide⟩

theorem witness_Assembled : [tileAV, tileAH].length = 2 * 1 ∧ (∀ t ∈ [tileAV, tileAH], t.length = 64) ∧ 1 < 2 ∧ 0 < 1 ∧ 7 < 8 := by
  decide

theorem witness_Tdec :
    (Holds (box tileA [] 64#32).src 0 [tileA].flatten ∧ (box tileA [] 64#32).srcLen.toNat = [tileA].flatten.length ∧
      (box tileA [] 64#32).srcLen.toNat ≤ 256 ∧ 64 * [tileA].length ≤ (box tileA [] 64#32).limit ∧ tileA.length = 16) ∧
    (Holds (box tile4 [] 64#32).src 0 [tile4].flatten ∧ (box tile4 [] 64#32).srcLen.toNat = [tile4].flatten.length ∧
      64 * [tile4].length ≤ (box tile4 [] 64#32).limit ∧ tile4.length = 32) :=
  ⟨⟨holds_ofBytes tileA, by decide, by decide, by decide, by decide⟩, ⟨holds_ofBytes tile4, by decide, by decide, by decide⟩⟩

theorem witness_Tenc :
    Holds (box tileAV [] 32#32).src 0 [tileAV].flatten ∧ (box tileAV [] 32#32).srcLen.toNat = [tileAV].flatten.length ∧
    tileAV.length = 64 ∧ 16 * [tileAV].length ≤ (box tileAV [] 32#32).limit ∧
    32 * [tileAV].length ≤ (box tileAV [] 32#32).limit ∧ (∀ p ∈ tileAV, p.toNat < 4) ∧ (∀ p ∈ tileAV, p.toNat < 16) :=
  ⟨holds_ofBytes tileAV, by decide, by decide, by decide, by decide, by decide, by decide⟩

theorem witness_Tasm :
    let s := box (tileA ++ tileA) [0x00#8, 0x03#8] 128#32
    Holds s.src 0 [tileA, tileA].flatten ∧ s.srcLen.toNat = [tileA, tileA].flatten.length ∧ s.srcLen.toNat ≤ s.cfg.srcCap ∧
    Holds s.aux 0 ([(false, false), (true, true)].flatMap fun f => streamBytes (.flip f.1 f.2)) ∧ s.auxLen.toNat = 2 ∧
    [tileA, tileA].length = (2#8 : Byte).toNat * (1#8 : Byte).toNat ∧ 64 * ((2#8 : Byte).toNat * (1#8 : Byte).toNat) ≤ s.limit :=
  ⟨holds_ofBytes _, by decide, by decide, holds_ofBytes [0x00#8, 0x03#8], by decide, by decide, by decide⟩

theorem witness_SheetChecks :
    (256 < ({ box [] [] 0#32 with srcLen := 257#32 } : State).srcLen.toNat) ∧
    ((box [1#8, 2#8, 3#8] [] 0#32).srcLen.toNat ≤ 256 ∧ (box [1#8, 2#8, 3#8] [] 0#32).srcLen.toNat % 2 ≠ 0) ∧
    ((box [1#8, 2#8] [] 2#32).srcLen.toNat % 2 = 0 ∧ (box [1#8, 2#8] [] 2#32).limit < 3 * ((box [1#8, 2#8] [] 2#32).srcLen.toNat / 2)) := by
  decide

theorem witness_EncodePixels :
    let good := List.replicate 63 (3#8 : Byte)
    let s := box (good ++ [4#8]) [] 16#32
    s.srcLen.toNat ≤ s.cfg.srcCap ∧ s.srcLen.toNat % 64 = 0 ∧ 16 * (s.srcLen.toNat / 64) ≤ s.limit ∧
    Holds s.src 0 (good ++ [4#8]) ∧ good.length < s.srcLen.toNat ∧ (∀ p ∈ good, p.toNat < 4) ∧ 4 ≤ (4#8 : Byte).toNat :=
  ⟨by decide, by decide, by decide, holds_ofBytes _, by decide, by decide, by decide⟩

/-- The error table of section 2.2 for `TASM2 2, 1`: 32 bytes of SRC, 2 of AUX, a limit of 128 wanted. -/
theorem witness_TasmChecks :
    let s (n m : Nat) (l : Word) := box (List.replicate n 0#8) (List.replicate m 0#8) l
    (s 0 0 0#32).cfg.auxCap < ({ s 0 0 0#32 with auxLen := 257#32 } : State).auxLen.toNat ∧ (s 16 3 128#32).srcLen.toNat < 16 * 2 ∧
    16 * 2 < (s 33 2 128#32).srcLen.toNat ∧
    ((s 32 1 128#32).srcLen.toNat = 16 * 2 ∧ (s 32 1 128#32).auxLen.toNat < 2 ∧ 2 < (s 32 3 128#32).auxLen.toNat) ∧
    ((s 32 2 127#32).auxLen.toNat = 2 ∧ (s 32 2 127#32).limit < 64 * 2 ∧ 64 * 2 ≤ (s 32 2 128#32).limit) ∧
    Holds (box [] [0x03#8, 0x04#8] 0#32).aux 0 (([(true, true)].flatMap fun f => streamBytes (.flip f.1 f.2)) ++ [0x04#8]) ∧
    (0x04#8 : Byte).extractLsb' 2 6 ≠ 0#6 :=
  ⟨by decide, by decide, by decide, by decide, by decide, holds_ofBytes [0x03#8, 0x04#8], by decide⟩

theorem witness_ColourCommands :
    let s := box [0x34#8, 0x12#8] [] 3#32
    let u := box [0x12#8, 0x34#8, 0x56#8] [] 2#32
    (Holds s.src 0 ([0x1234#16].flatMap fun w => [w.extractLsb' 0 8, w.extractLsb' 8 8]) ∧ s.srcLen.toNat = 2 * 1 ∧ 3 * 1 ≤ s.limit) ∧
    (Holds u.src 0 ([((0x12#8 : Byte), (0x34#8 : Byte), (0x56#8 : Byte))].flatMap fun c => [c.1, c.2.1, c.2.2]) ∧
      u.srcLen.toNat = 3 * 1 ∧ 2 * 1 ≤ u.limit) :=
  ⟨⟨holds_ofBytes [0x34#8, 0x12#8], by decide, by decide⟩, ⟨holds_ofBytes [0x12#8, 0x34#8, 0x56#8], by decide, by decide⟩⟩

theorem witness_ColourRoundTrip :
    (∃ t u : State, (0x1234#16).getLsbD 15 = false ∧ exec .cexp (box [0x34#8, 0x12#8] [] 3#32) = .next t ∧
      u.src = t.dst ∧ u.srcLen = t.outLen ∧ u.srcLen.toNat ≤ u.cfg.srcCap ∧ 2 * 1 ≤ u.limit) ∧
    (∃ t u : State, [0x12#8, 0x34#8, 0x56#8].length % 3 = 0 ∧ exec .cpack (box [0x12#8, 0x34#8, 0x56#8] [] 2#32) = .next t ∧
      u.src = t.dst ∧ u.srcLen = t.outLen ∧ u.srcLen.toNat ≤ u.cfg.srcCap ∧ 3 ≤ u.limit) :=
  ⟨⟨_, box [0xA5#8, 0x8C#8, 0x21#8] [] 2#32, rfl, rfl, by decide, by decide, by decide, by decide⟩,
    ⟨_, box [0xC2#8, 0x28#8] [] 3#32, rfl, rfl, by decide, by decide, by decide, by decide⟩⟩

theorem witness_ColourElements : (running (.cexp .start)).work = .cexp .start ∧ (running (.cpack .start)).work = .cpack .start :=
  ⟨rfl, rfl⟩

/-- A scaled nibble beyond shift 12, a filter term and the sample (section 2.4). -/
theorem witness_Sample : (-2048 : Int) = scale (8#4 : BitVec 4).toInt (15#4 : BitVec 4).toNat ∧
    (283 : Int) = term (2#2 : BitVec 2).toNat (100#16 : Sample).toInt (BitVec.ofInt 16 (-100)).toInt ∧
    (-32768 : Int) = (brrSample 12 2 8#4 0x8000#16 0#16).toInt := by decide

theorem witness_BrrBlock :
    (List.replicate 16 (8#4 : BitVec 4)).length = 16 ∧
    2 * (BrrWork.start.out.length / 2 + 16) ≤ ({ running (.brr .start) with outLimit := 32#32 } : State).limit ∧
    ({ running (.brr .start) with outLimit := 31#32 } : State).limit < 2 * (BrrWork.start.out.length / 2 + 16) := by decide

/-- A block that does not fit, at the cursor of a running decoder. -/
theorem witness_BrrBlockStep :
    let k : BrrBlock := { shift := 0#4, filter := 0#2, loop := true, nibbles := List.replicate 16 1#4 }
    let s : State := { box (k.bytes true) [] 31#32 with work := .brr .start }
    Holds s.src BrrWork.start.c (k.bytes true) ∧ BrrWork.start.c + 9 ≤ s.srcLen.toNat ∧
    s.limit < 2 * (BrrWork.start.out.length / 2 + 16) := ⟨holds_ofBytes _, by decide, by decide⟩

theorem witness_BrrStopsShort :
    ({ BrrWork.start with c := 2 }.c = (running (.brr { BrrWork.start with c := 2 })).srcLen.toNat) ∧
    ((box (0#8 :: row0 ++ row0) [] 0#32).srcLen.toNat - 9 < 9 ∧ 9 < (box (0#8 :: row0 ++ row0) [] 0#32).srcLen.toNat) ∧
    (box [] [] 0#32).srcLen = 0#32 ∧ (0 < (box row0 [] 0#32).srcLen.toNat ∧ (box row0 [] 0#32).srcLen.toNat < 9) := by decide

/-- A block with the loop flag, then the end block, then two bytes that are not read. -/
theorem witness_BrrStream :
    let k : BrrBlock := { shift := 12#4, filter := 3#2, loop := true, nibbles := List.replicate 16 8#4 }
    let bytes := [k].flatMap (·.bytes false) ++ k.bytes true
    let s := box (bytes ++ [1#8, 2#8]) [] 64#32
    Holds s.src 0 bytes ∧ s.srcLen.toNat = 9 * ([k].length + 1) + 2 ∧ s.srcLen.toNat ≤ s.cfg.srcCap ∧
    32 * ([k].length + 1) ≤ s.limit ∧ k.nibbles.length = 16 :=
  ⟨(holds_append.mp (holds_ofBytes _)).1, by decide, by decide, by decide, by decide⟩

theorem witness_LzCopy : 1 ≤ 1 ∧ 1 ≤ [7#8].length := by decide

theorem witness_MatchWord : 15 = ((0x0000033F#32).extractLsb' 0 4).toNat ∧ 1 ≤ 15 ∧ 1 = ((0x00000321#32).extractLsb' 0 4).toNat := by
  decide

theorem witness_LzTokens :
    (LzWork.start.bitsLeft = 0 ∧ lzTerm 0x00000304#32 ≠ 2) ∧
    (lzTerm 0x00FF0384#32 = 2 ∧ (0xFF#8 : Byte) = lzEndCtrl 0x00FF0384#32 ∧ (0xFE#8 : Byte) ≠ lzEndCtrl 0x00FF0384#32) ∧
    (∃ z : LzWork, z.bitsLeft ≠ 0 ∧ z.ctrl.getLsbD 7 = false ∧ z.out.length + 1 ≤ (running (.lz z)).limit) ∧
    (∃ z : LzWork, z.bitsLeft ≠ 0 ∧ z.ctrl.getLsbD 7 = false ∧
      ({ running (.lz z) with outLimit := 0#32 } : State).limit < z.out.length + 1 ∧ z.c < (running (.lz z)).srcLen.toNat ∧
      lzTerm (running (.lz z)).lzCfg ≠ 1) :=
  ⟨by decide, by decide, ⟨{ LzWork.start with bitsLeft := 1 }, by decide⟩, ⟨{ LzWork.start with bitsLeft := 8 }, by decide⟩⟩

/-- The match pairs of section 2.5: length 0, distance 0 and 2, 18 bytes into a limit of 18 and of 19, and a target of 3. -/
theorem witness_LzMatch :
    (lzLength 0x00000004#32 0#8 0#8 = 0) ∧ (lzLength 0x00000304#32 0#8 0#8 ≠ 0 ∧ lzDist 0x00000304#32 0#8 0#8 = 0) ∧
    ([0x41#8].length < lzDist 0x00000304#32 0#8 2#8) ∧
    (lzDist 0x00000304#32 0xF0#8 1#8 ≠ 0 ∧ lzDist 0x00000304#32 0xF0#8 1#8 ≤ [0x41#8].length ∧
      18 < [0x41#8].length + lzLength 0x00000304#32 0xF0#8 1#8 ∧ [0x41#8].length + lzLength 0x00000304#32 0xF0#8 1#8 ≤ 19) ∧
    (lzTerm 0x00000344#32 = 1 ∧ 3 < [0x41#8].length + lzLength 0x00000344#32 0#8 1#8) := by decide

theorem witness_LzEnds :
    (lzTerm 0x00000344#32 = 1 ∧ lzTerm 0x00000304#32 = 0 ∧ lzTerm 0x00FF0384#32 = 2) ∧
    ({ LzWork.start with c := 2 }.c = (running .idle).srcLen.toNat ∧ { LzWork.start with c := 1 }.c + 1 = (running .idle).srcLen.toNat) ∧
    (LzWork.start.bitsLeft = 0 ∧ LzWork.start.c < (running .idle).srcLen.toNat ∧
      Holds (box [0xFF#8] [] 0#32).src 0 [lzEndCtrl 0x00FF0384#32]) :=
  ⟨by decide, by decide, by decide, by decide, holds_ofBytes [0xFF#8]⟩

/-- Lengths one above a capacity: for a command that reads SRC only and for one that reads AUX too. -/
theorem witness_Capacities :
    Instr.isCommand .brrdec = true ∧ (∀ w, Instr.brrdec ≠ .illegal w) ∧ readsAux .upsapply = true ∧
    (box [] [] 0#32).cfg.srcCap < ({ box [] [] 0#32 with srcLen := 257#32 } : State).srcLen.toNat ∧
    (box [] [] 0#32).cfg.auxCap < ({ box [] [] 0#32 with auxLen := 257#32 } : State).auxLen.toNat :=
  ⟨rfl, by simp, rfl, by decide, by decide⟩

theorem witness_LzGrammar :
    (0x01000304#32).extractLsb' 24 8 ≠ 0#8 ∧ (0x00000300#32).extractLsb' 0 4 = 0#4 ∧ (0x000003C4#32).extractLsb' 6 2 = 3#2 ∧
    ((0x00FFFFBF#32).extractLsb' 24 8 = 0#8 ∧ (0x00FFFFBF#32).extractLsb' 0 4 ≠ 0#4 ∧ (0x00FFFFBF#32).extractLsb' 6 2 ≠ 3#2) := by
  decide

/-- The group `CTRL 20, LIT 41, LIT 42, MATCH 4, 2` of section 2.5. -/
def group : LzGroup := { ctrl := 0x20#8, toks := [.lit 0x41#8, .lit 0x42#8, .copy 0x10#8 0x02#8] }

/-- A group of eight literals. -/
def fullGroup : LzGroup := { ctrl := 0x00#8, toks := List.replicate 8 (.lit 0x41#8) }

theorem witness_LzStream_inputLength :
    let s := box group.bytes [] 6#32
    lzLegal s.lzCfg = true ∧ group.Selects ∧ legalTokens s.lzCfg [] group.toks ∧
    (group.toks.foldl (fun o t => t.run s.lzCfg o) []).length ≤ s.limit ∧ Holds s.src 0 group.bytes ∧
    lzTerm s.lzCfg = 0 ∧ s.srcLen.toNat = group.bytes.length :=
  ⟨by decide, ⟨by decide, by decide⟩, ⟨trivial, trivial, ⟨by decide, by decide, by decide⟩, trivial⟩, by decide,
    holds_ofBytes _, by decide, by decide⟩

theorem witness_LzStream_outputLength :
    let s : State := { box (group.bytes ++ [0x99#8]) [] 6#32 with lzCfg := 0x00000344#32, lzTarget := 6#32 }
    lzLegal s.lzCfg = true ∧ group.Selects ∧ legalTokens s.lzCfg [] group.toks ∧ Holds s.src 0 group.bytes ∧
    lzTerm s.lzCfg = 1 ∧ s.srcLen.toNat = group.bytes.length + 1 ∧
    (group.toks.foldl (fun o t => t.run s.lzCfg o) []).length = s.lzTarget.toNat :=
  ⟨by decide, ⟨by decide, by decide⟩, ⟨trivial, trivial, ⟨by decide, by decide, by decide⟩, trivial⟩,
    (holds_append.mp (holds_ofBytes _)).1, by decide, by decide, by decide⟩

theorem witness_LzStream_marker :
    let s : State := { box (fullGroup.bytes ++ [0xFF#8, 0x99#8]) [] 8#32 with lzCfg := 0x00FF0384#32 }
    lzLegal s.lzCfg = true ∧ fullGroup.Selects ∧ legalTokens s.lzCfg [] fullGroup.toks ∧ Holds s.src 0 fullGroup.bytes ∧
    lzTerm s.lzCfg = 2 ∧ fullGroup.toks.length = 8 ∧ fullGroup.ctrl ≠ lzEndCtrl s.lzCfg ∧
    Holds s.src fullGroup.bytes.length [lzEndCtrl s.lzCfg] ∧ s.srcLen.toNat = fullGroup.bytes.length + 1 + 1 :=
  ⟨by decide, ⟨by decide, by decide⟩, ⟨trivial, trivial, trivial, trivial, trivial, trivial, trivial, trivial, trivial⟩,
    (holds_append.mp (holds_ofBytes _)).1, by decide, by decide, by decide,
    (by unfold Holds; decide), by decide⟩

theorem witness_IpsElements :
    (IpsWork.start.phase = .magic ∧ Holds (running (.ips .start)).src 0 [1#8, 2#8] ∧
      [1#8, 2#8].length ≤ ({ running (.ips .start) with outLimit := 2#32 } : State).limit) ∧
    ({ running (.ips .start) with outLimit := 1#32 } : State).limit < (running (.ips .start)).srcLen.toNat ∧
    (Instr.wellFormed (.ipsrle 4#24 0#16 7#8) = true ∧ recordEnd (.ipsrle 4#24 0#16 7#8) = some 4 ∧
      Instr.wellFormed (.ipsrec 4#24 [9#8, 8#8]) = true ∧ recordEnd (.ipsrec 4#24 [9#8, 8#8]) = some 6) :=
  ⟨⟨rfl, holds_ofBytes _, by decide⟩, by decide, by decide⟩

/-- A source and records of both kinds that do not fit, where a step reads them. -/
theorem witness_IpsElementsStep :
    let s := box [1#8, 2#8] (patchMagic ++ [0#8]) 1#32
    let r := box [] (streamBytes (.ipsrec 4#24 [9#8, 8#8])) 5#32
    let z := box [] (streamBytes (.ipsrle 4#24 0#16 7#8)) 3#32
    (s.limit < s.srcLen.toNat ∧ Holds s.aux 0 patchMagic ∧ 5 ≤ s.auxLen.toNat) ∧
    (r.limit < 6 ∧ Holds r.aux 0 (streamBytes (.ipsrec 4#24 [9#8, 8#8])) ∧
      0 + (streamBytes (.ipsrec 4#24 [9#8, 8#8])).length ≤ r.auxLen.toNat) ∧
    (z.limit < 4 ∧ Holds z.aux 0 (streamBytes (.ipsrle 4#24 0#16 7#8)) ∧
      0 + (streamBytes (.ipsrle 4#24 0#16 7#8)).length ≤ z.auxLen.toNat) :=
  ⟨⟨by decide, (holds_append.mp (holds_ofBytes _)).1, by decide⟩, ⟨by decide, holds_ofBytes _, by decide⟩,
    ⟨by decide, holds_ofBytes _, by decide⟩⟩

/-- A record of each kind, and two bytes after `"EOF"`. -/
theorem witness_IpsPatch :
    let recs : List Instr := [.ipsrec 4#24 [9#8, 8#8], .ipsrle 1#24 3#16 0xAA#8]
    let patch := patchMagic ++ recs.flatMap streamBytes ++ eofMagic
    let s := box [1#8, 2#8] (patch ++ [0xFF#8, 0xFF#8]) 6#32
    (∀ i ∈ recs, i.wellFormed = true ∧ ∃ e, recordEnd i = some e ∧ e ≤ s.limit) ∧ Holds s.src 0 [1#8, 2#8] ∧
    s.srcLen.toNat = 2 ∧ 2 ≤ s.limit ∧ Holds s.aux 0 patch ∧ s.auxLen.toNat = patch.length + 2 ∧
    s.auxLen.toNat ≤ s.cfg.auxCap := by
  refine ⟨?_, holds_ofBytes _, by decide, by decide, (holds_append.mp (holds_ofBytes _)).1, by decide, by decide⟩
  intro i hi
  rcases List.mem_cons.mp hi with rfl | hi
  · exact ⟨by decide, 6, by decide, by decide⟩
  · rw [List.mem_singleton.mp hi]
    exact ⟨by decide, 4, by decide, by decide⟩

theorem witness_IpsFraming :
    (box [] [0x50#8, 0x41#8, 0x54#8, 0x43#8] 0#32).auxLen.toNat < 5 ∧
    ([0x50#8, 0x41#8, 0x54#8, 0x43#8, 0x68#8].length = 5 ∧ [0x50#8, 0x41#8, 0x54#8, 0x43#8, 0x68#8] ≠ patchMagic ∧
      Holds (box [] [0x50#8, 0x41#8, 0x54#8, 0x43#8, 0x68#8] 0#32).aux 0 [0x50#8, 0x41#8, 0x54#8, 0x43#8, 0x68#8]) ∧
    ((box [] (patchMagic ++ [0#8, 0#8]) 0#32).auxLen.toNat - 5 < 3) ∧
    (3 ≤ (box [] (patchMagic ++ [0#8, 0#8, 1#8, 0#8]) 0#32).auxLen.toNat - 5 ∧
      (box [] (patchMagic ++ [0#8, 0#8, 1#8, 0#8]) 0#32).auxLen.toNat - 5 < 5 ∧ [0#8, 0#8, 1#8] ≠ eofMagic) ∧
    (5 ≤ (box [] (patchMagic ++ [0#8, 0#8, 1#8, 0#8, 0#8, 0#8, 3#8]) 0#32).auxLen.toNat - 5 ∧
      (box [] (patchMagic ++ [0#8, 0#8, 1#8, 0#8, 0#8, 0#8, 3#8]) 0#32).auxLen.toNat - 5 < 8) ∧
    (5 ≤ (box [] (patchMagic ++ [0#8, 0#8, 1#8, 0#8, 1#8]) 0#32).auxLen.toNat - 5 ∧
      (box [] (patchMagic ++ [0#8, 0#8, 1#8, 0#8, 1#8]) 0#32).auxLen.toNat - 5 < 5 + beNat [0#8, 1#8]) :=
  ⟨by decide, ⟨by decide, by decide, holds_ofBytes _⟩, by decide, by decide, by decide, by decide⟩

theorem witness_Vlv : ([0#7] : List (BitVec 7)) ≠ [] := by decide

theorem witness_UpsElements :
    (UpsWork.start.phase = .magic ∧ 16 ≤ (running (.ups .start)).auxLen.toNat) ∧
    ((box [] (upsMagic ++ List.replicate 11 0#8) 0#32).auxLen.toNat < 16) ∧
    ((3 : Nat) ≠ (running .idle).srcLen.toNat ∧ (2 : Nat) = (running .idle).srcLen.toNat) ∧
    ((running .idle).limit < vlvValue [1#7, 2#7] ∧ vlvValue [0#7, 2#7] ≤ (running .idle).limit) ∧
    (Holds (running .idle).src 0 [1#8, 2#8] ∧ [1#8, 2#8].length = 2) ∧
    ((∀ x ∈ [255#8], x ≠ 0#8) ∧ 3 < (running .idle).auxLen.toNat - 12) :=
  ⟨by decide, by decide, by decide, by decide, ⟨holds_ofBytes _, rfl⟩, by decide⟩

/-- Patches of 3 and of 15 bytes, another magic, one of 16 bytes, a VLV and a run cut by the trailer. -/
theorem witness_UpsFraming :
    (box [] [0x55#8, 0x50#8, 0x53#8] 0#32).auxLen.toNat < 4 ∧
    ([0x55#8, 0x50#8, 0x53#8, 0x32#8].length = 4 ∧ [0x55#8, 0x50#8, 0x53#8, 0x32#8] ≠ upsMagic ∧
      Holds (box [] [0x55#8, 0x50#8, 0x53#8, 0x32#8] 0#32).aux 0 [0x55#8, 0x50#8, 0x53#8, 0x32#8]) ∧
    (Holds (box [] (upsMagic ++ List.replicate 11 0#8) 0#32).aux 0 upsMagic ∧
      (box [] (upsMagic ++ List.replicate 11 0#8) 0#32).auxLen.toNat = 15) ∧
    4 + ([] : List Byte).length = (box [] (upsMagic ++ List.replicate 12 0#8) 0#32).auxLen.toNat - 12 ∧
    (Holds (box [] ([0x01#8, 0x02#8] ++ List.replicate 14 0#8) 0#32).aux 0 [0x01#8, 0x02#8] ∧
      ∀ b ∈ [0x01#8, 0x02#8], b.getLsbD 7 = false) ∧
    ([0x81#8, 0x05#8] = streamBytes (.vlv [1#7]) ++ [0x05#8] ∧ ∀ x ∈ [0x05#8], x ≠ 0#8) :=
  ⟨by decide, ⟨by decide, by decide, holds_ofBytes _⟩, ⟨(holds_append.mp (holds_ofBytes _)).1, by decide⟩, by decide,
    ⟨(holds_append.mp (holds_ofBytes _)).1, by decide⟩, by decide⟩

/-- Scenario 6: source `AA BB`, target `AA CC`. -/
theorem witness_UpsPatch :
    let body := upsMagic ++ streamBytes (.vlv [2#7]) ++ streamBytes (.vlv [2#7]) ++ [(⟨[1#7], [0x77#8]⟩ : Run)].flatMap Run.bytes
    let trailer := streamBytes (.upstrailer 0x955425A0#32 0x5B35C9FD#32 0x64E8E60B#32)
    let s := box [0xAA#8, 0xBB#8] (body ++ trailer) 2#32
    vlvValue [2#7] = [0xAA#8, 0xBB#8].length ∧ Holds s.src 0 [0xAA#8, 0xBB#8] ∧ s.srcLen.toNat = 2 ∧ vlvValue [2#7] ≤ s.limit ∧
    Holds s.aux 0 (body ++ trailer) ∧ s.auxLen.toNat = body.length + 12 ∧ s.auxLen.toNat ≤ s.cfg.auxCap ∧
    runsOutput [⟨[1#7], [0x77#8]⟩] 0 [0xAA#8, 0xBB#8] = [0xAA#8, 0xCC#8] ∧
    crc32 s.cfg.crcPoly [0xAA#8, 0xBB#8] = 0x955425A0#32 ∧ crc32 s.cfg.crcPoly [0xAA#8, 0xCC#8] = 0x5B35C9FD#32 ∧
    crc32 s.cfg.crcPoly body = 0x64E8E60B#32 :=
  ⟨by decide, holds_ofBytes _, by decide, by decide, holds_ofBytes _, by decide, by decide, by decide, by decide +kernel,
    by decide +kernel, by decide +kernel⟩

theorem witness_UpsTrailer :
    let body := upsMagic ++ [0x82#8, 0x82#8]
    let s := { box [0xAA#8, 0xBB#8] (body ++ List.replicate 12 0#8) 2#32 with
      work := .ups { UpsWork.start with phase := .runs, c := 6, out := [0xAA#8, 0xBB#8] } }
    6 = s.auxLen.toNat - 12 ∧ 16 ≤ s.auxLen.toNat ∧ crcInit = 0xFFFFFFFF#32 ∧ Holds s.src 0 [0xAA#8, 0xBB#8] ∧
    s.srcLen.toNat = 2 ∧ Holds s.aux 0 body ∧ body.length = s.auxLen.toNat - 12 :=
  ⟨by decide, by decide, rfl, holds_ofBytes _, by decide, (holds_append.mp (holds_ofBytes _)).1, by decide⟩

end Sys2Proof.Tests
end

section
/-! SUPPORT. What every command has in common: the working state and the checks it starts with, how the running engine advances
from one stream element to the next, and a bound on the elements it has still to read (R21, R35, R307). -/

namespace Sys2Proof.Machine

/-! ## A command word and its engine -/

/-- The commands share one meaning: their working state, their checks, their engine. -/
theorem exec_eq_runCommand {i : Instr} {w : Work} (h : startWork i = some w) (s : State) :
    exec i s = runCommand w (startChecks i) s := by
  cases i <;> cases h <;> rfl

/-- A command word is the illegal one, or it starts an engine. -/
theorem illegal_or_startWork_of_isCommand {i : Instr} (h : i.isCommand = true) :
    (∃ word, i = .illegal word) ∨ ∃ w, startWork i = some w := by
  cases i with
  | illegal word => exact .inl ⟨word, rfl⟩
  | tdec2 | tdec4 | tenc2 | tenc4 | tasm2 | tasm4 => exact .inr ⟨_, rfl⟩
  | cexp | cpack | brrdec | lzdec | ipsapply | upsapply => exact .inr ⟨_, rfl⟩
  | _ => cases h

theorem readsAux_brrdec : readsAux .brrdec = false := rfl

/-- The checks of an assembly command leave only inputs of exactly the lengths it needs (R140). -/
theorem lengths_of_tasmChecks {d : Depth} {n : Nat} {s : State} (h : tasmChecks d n s = .ok ()) :
    s.srcLen.toNat = d.tileBytes * n ∧ s.auxLen.toNat = n := by
  simp only [tasmChecks, bind_eq_ok, failIf_eq_ok] at h
  obtain ⟨-, -, -, hs, -, hs', -, ha, -, ha', -⟩ := h
  omega

theorem Depth.tileBytes_pos (d : Depth) : 0 < d.tileBytes := by
  cases d <;> decide

/-! ## What the decoder makes of two kinds of element -/

theorem decodeElement_brrblk_eq_ok {bytes : List Byte} {e : Instr} (h : decodeElement .brrblk bytes = .ok e) :
    ∃ shift filter loop fin nibbles, e = .brrblk shift filter loop fin nibbles := by
  cases bytes with
  | nil => cases h
  | cons hdr data =>
    simp only [decodeElement, decodeBrrBlock] at h
    split at h <;> cases h
    exact ⟨_, _, _, _, _, rfl⟩

theorem decodeElement_upstrailer_eq_ok {bytes : List Byte} {e : Instr} (h : decodeElement .upstrailer bytes = .ok e) :
    ∃ srcCrc tgtCrc patchCrc, e = .upstrailer srcCrc tgtCrc patchCrc := by
  simp only [decodeElement] at h
  split at h <;> cases h
  exact ⟨_, _, _, rfl⟩

/-- No stream holds a `PCM16` (R109): the BRR engine reads blocks. -/
theorem brrFetch_ne_pcm16 {b : BrrWork} {s : State} {e : Instr} (h : brrFetch b s = .ok (.element e)) (x : Sample) :
    e ≠ .pcm16 x := by
  simp only [brrFetch, bind_eq_ok, fetchAs_eq_ok] at h
  obtain ⟨-, -, -, -, hdr, -, -, -, data, -, e', he', h⟩ := h
  cases h
  obtain ⟨_, _, _, _, _, rfl⟩ := decodeElement_brrblk_eq_ok he'
  nofun

/-! ## How an engine advances -/

/-- How many flip bytes and tiles an assembly engine has still to read. -/
def AsmWork.missing (a : AsmWork) : Nat := (a.w * a.ht - a.flips.length) + (a.w * a.ht - a.tiles.length)

theorem AsmWork.missing_of_flip {a : AsmWork} (h : a.flips.length < a.w * a.ht) (f : Bool × Bool) :
    ({ a with flips := a.flips ++ [f] } : AsmWork).missing < a.missing := by
  simp only [AsmWork.missing, List.length_append, List.length_singleton]
  omega

theorem AsmWork.missing_of_tile {a : AsmWork} (h : a.tiles.length < a.w * a.ht) (t : List Byte) :
    ({ a with tiles := a.tiles ++ [t] } : AsmWork).missing < a.missing := by
  simp only [AsmWork.missing, List.length_append, List.length_singleton]
  omega

/-- A bound on the stream elements that the running engine has still to read. At the magic of a patch all of AUX counts, wherever
the cursor is, and one more. -/
def State.remaining (s : State) : Nat :=
  match s.work with
  | .idle => 0
  | .tdec t | .tenc t => s.srcLen.toNat - t.c
  | .tasm a => a.missing + 1
  | .cexp k | .cpack k => s.srcLen.toNat - k.c
  | .brr b => s.srcLen.toNat - b.c
  | .lz z => s.srcLen.toNat - z.c
  | .ips p => if p.phase = .magic then s.auxLen.toNat + 1 else s.auxLen.toNat - p.c
  | .ups u => if u.phase = .magic then s.auxLen.toNat + 1 else s.auxLen.toNat - u.c

/-- What a stream element does to the working state when the command goes on: the engine stays the same and moves forward. -/
inductive Advances (s : State) : Work → Prop where
  | tdec {t t' : TileWork} (hw : s.work = .tdec t) (h : t.c < t'.c) : Advances s (.tdec t')
  | tenc {t t' : TileWork} (hw : s.work = .tenc t) (h : t.c < t'.c) : Advances s (.tenc t')
  | tasm {a a' : AsmWork} (hw : s.work = .tasm a) (hd : a'.depth = a.depth) (hn : a'.w * a'.ht = a.w * a.ht)
      (h : a'.missing < a.missing) : Advances s (.tasm a')
  | cexp {k k' : ColorWork} (hw : s.work = .cexp k) (h : k.c < k'.c) : Advances s (.cexp k')
  | cpack {k k' : ColorWork} (hw : s.work = .cpack k) (h : k.c < k'.c) : Advances s (.cpack k')
  | brr {b b' : BrrWork} (hw : s.work = .brr b) (h : b.c < b'.c) : Advances s (.brr b')
  | lz {z z' : LzWork} (hw : s.work = .lz z) (h : z.c < z'.c) : Advances s (.lz z')
  | ipsMagic {p p' : IpsWork} (hw : s.work = .ips p) (hp : p.phase = .magic) (hp' : p'.phase ≠ .magic) : Advances s (.ips p')
  | ips {p p' : IpsWork} (hw : s.work = .ips p) (hp : p.phase ≠ .magic) (hp' : p'.phase ≠ .magic) (h : p.c < p'.c) :
      Advances s (.ips p')
  | upsMagic {u u' : UpsWork} (hw : s.work = .ups u) (hp : u.phase = .magic) (hp' : u'.phase ≠ .magic)
      (h : 16 ≤ s.auxLen.toNat) : Advances s (.ups u')
  | ups {u u' : UpsWork} (hw : s.work = .ups u) (hp : u.phase ≠ .magic) (hp' : u'.phase ≠ .magic) (h : u.c < u'.c) :
      Advances s (.ups u')

theorem Advances.ne_idle {s : State} {w : Work} (h : Advances s w) : w ≠ .idle := by
  rintro rfl
  cases h

/-- An engine that has something to read and advances has less to read. -/
theorem Advances.remaining_lt {s : State} {w : Work} (h : Advances s w) (hr : 0 < s.remaining) :
    (s.setWork w).remaining < s.remaining := by
  simp only [State.remaining, State.setWork_work, State.setWork_srcLen, State.setWork_auxLen] at hr ⊢
  cases h with
  | tdec hw | tenc hw | cexp hw | cpack hw | brr hw | lz hw | tasm hw => simp only [hw] at hr ⊢; omega
  | ipsMagic hw hp hp' | upsMagic hw hp hp' => simp only [hw, hp, hp', if_true, if_false]; omega
  | ips hw hp hp' | ups hw hp hp' => simp only [hw, hp, hp', if_false] at hr ⊢; omega

theorem lzInputEnd_ne_element (z : LzWork) (s : State) (e : Instr) : lzInputEnd z s ≠ .ok (.element e) := by
  unfold lzInputEnd
  split <;> nofun

theorem readVlv_ok_pos {s : State} {a n : Nat} {v : List Byte} (h : readVlv s a n = .ok v) : 0 < n := by
  cases n with
  | zero => cases h
  | succ n => exact n.succ_pos

/-- An engine that finds an element at its cursor has something to read, but for the trailer of a UPS patch, after which the
command ends. -/
theorem remaining_pos_of_fetch {s : State} {e : Instr} (h : engineFetch s = .ok (.element e))
    (ht : ∀ srcCrc tgtCrc patchCrc, e ≠ .upstrailer srcCrc tgtCrc patchCrc) : 0 < s.remaining := by
  unfold engineFetch at h
  unfold State.remaining
  cases hw : s.work with
  | idle => simp [hw] at h
  | tdec | tenc | cexp | cpack =>
    simp only [hw, tdecFetch, tencFetch, cexpFetch, cpackFetch] at h ⊢
    split at h
    · cases h
    · omega
  | tasm a => exact Nat.succ_pos _
  | brr b =>
    simp only [hw, brrFetch, bind_eq_ok, failIf_eq_ok] at h ⊢
    obtain ⟨-, hc, -⟩ := h
    omega
  | lz z =>
    simp only [hw, lzFetch] at h ⊢
    split at h
    · cases h
    · by_contra hc
      have hc : s.srcLen.toNat ≤ z.c := by omega
      simp only [hc, if_true, lzInputEnd_ne_element, ite_self] at h
  | ips p =>
    simp only [hw, ipsFetch] at h ⊢
    split
    · exact Nat.succ_pos _
    · split at h
      · contradiction
      · simp only [bind_eq_ok, failIf_eq_ok] at h
        obtain ⟨-, hc, -⟩ := h
        omega
  | ups u =>
    simp only [hw, upsFetch] at h ⊢
    split
    · exact Nat.succ_pos _
    · suffices hc : u.c < s.bodyEnd by unfold State.bodyEnd at hc; omega
      split at h
      · contradiction
      · obtain ⟨v, hv, -⟩ := bind_eq_ok.1 h
        exact Nat.lt_of_sub_pos (readVlv_ok_pos hv)
      · obtain ⟨v, hv, -⟩ := bind_eq_ok.1 h
        exact Nat.lt_of_sub_pos (readVlv_ok_pos hv)
      · split at h
        · assumption
        · simp only [bind_eq_ok, fetchAs_eq_ok] at h
          obtain ⟨bytes, -, e', he', h⟩ := h
          cases h
          obtain ⟨_, _, _, rfl⟩ := decodeElement_upstrailer_eq_ok he'
          exact absurd rfl (ht _ _ _)

end Sys2Proof.Machine
end

section
/-! SUPPORT. Noninterference (R14): states with the same inputs of a command find the same at the cursor of its engine, give a stream
element the same meaning, and end with the same result. -/

namespace Sys2Proof.Machine

/-! ## The relation and the invariant -/

/-- Two states with the same engine at the same point and the same inputs of the command `i` (R14): the operand registers that `i`
reads, the bytes below the lengths, the capacities and the CRC polynomial. -/
structure SameInputs (i : Instr) (s s' : State) : Prop where
  work : s'.work = s.work
  srcCap : s'.cfg.srcCap = s.cfg.srcCap
  auxCap : s'.cfg.auxCap = s.cfg.auxCap
  dstCap : s'.cfg.dstCap = s.cfg.dstCap
  crcPoly : s'.cfg.crcPoly = s.cfg.crcPoly
  srcLen : s'.srcLen = s.srcLen
  outLimit : s'.outLimit = s.outLimit
  auxLen : readsAux i = true → s'.auxLen = s.auxLen
  lz : i = .lzdec → s'.lzCfg = s.lzCfg ∧ (lzTerm s.lzCfg = 1 → s'.lzTarget = s.lzTarget)
  src : ∀ a, a < s.srcLen.toNat → s'.src.read a = s.src.read a
  aux : readsAux i = true → ∀ a, a < s.auxLen.toNat → s'.aux.read a = s.aux.read a

/-- The running engine is one that the command `i` starts, as far as its inputs go, and what has been found about their lengths
still holds. -/
def State.Runs (i : Instr) (s : State) : Prop :=
  match s.work with
  | .idle => False
  | .tdec _ | .tenc _ | .cexp _ | .cpack _ => i ≠ .brrdec
  | .tasm a => readsAux i = true ∧ s.srcLen.toNat = a.depth.tileBytes * (a.w * a.ht) ∧ s.auxLen.toNat = a.w * a.ht
  | .brr _ => i = .brrdec
  | .lz _ => i = .lzdec
  | .ips _ => readsAux i = true
  | .ups u => readsAux i = true ∧ (u.phase ≠ .magic → 16 ≤ s.auxLen.toNat)

section
variable {i : Instr} {s s' : State}

theorem State.Runs.of_tasm (hr : s.Runs i) {a : AsmWork} (hw : s.work = .tasm a) :
    readsAux i = true ∧ s.srcLen.toNat = a.depth.tileBytes * (a.w * a.ht) ∧ s.auxLen.toNat = a.w * a.ht := by
  rwa [State.Runs, hw] at hr

theorem State.Runs.of_lz (hr : s.Runs i) {z : LzWork} (hw : s.work = .lz z) : i = .lzdec := by
  rwa [State.Runs, hw] at hr

theorem State.Runs.of_ips (hr : s.Runs i) {p : IpsWork} (hw : s.work = .ips p) : readsAux i = true := by
  rwa [State.Runs, hw] at hr

theorem State.Runs.of_ups (hr : s.Runs i) {u : UpsWork} (hw : s.work = .ups u) :
    readsAux i = true ∧ (u.phase ≠ .magic → 16 ≤ s.auxLen.toNat) := by
  rwa [State.Runs, hw] at hr

/-- `BRRDEC` runs the BRR engine only. -/
theorem State.Runs.brr (hr : s.Runs i) (hi : i = .brrdec) : ∃ b, s.work = .brr b := by
  subst hi
  unfold State.Runs at hr
  cases hw : s.work with
  | brr b => exact ⟨b, rfl⟩
  | _ => simp [hw, readsAux_brrdec] at hr

/-- An engine that advances is still the one the command started. -/
theorem Advances.runs {w : Work} (h : Advances s w) (hr : s.Runs i) : (s.setWork w).Runs i := by
  cases h with
  | tasm hw hd hn => simpa [State.Runs, hd, hn] using hr.of_tasm hw
  | ups hw hp =>
    obtain ⟨haux, hlen⟩ := hr.of_ups hw
    exact ⟨haux, fun _ => hlen hp⟩
  | upsMagic hw _ _ hlen => exact ⟨(hr.of_ups hw).1, fun _ => hlen⟩
  | tdec hw | tenc hw | cexp hw | cpack hw | brr hw | lz hw | ipsMagic hw | ips hw => simpa [State.Runs, hw] using hr

/-- A command whose checks have passed starts its engine, with lengths as the checks found them. -/
theorem runs_of_startChecks {w : Work} (hw : startWork i = some w) (hc : startChecks i (s.setWork w) = .ok ()) :
    (s.setWork w).Runs i := by
  cases i with
  | tdec2 | tdec4 | tenc2 | tenc4 | cexp | cpack => cases hw; nofun
  | tasm2 | tasm4 => cases hw; exact ⟨rfl, lengths_of_tasmChecks hc⟩
  | upsapply => cases hw; exact ⟨rfl, fun h => absurd rfl h⟩
  | brrdec | lzdec | ipsapply => cases hw; rfl
  | _ => cases hw

/-- A command whose checks have passed has fewer elements to read than the bound of its loop (R307). -/
theorem remaining_lt_fuel {w : Work} (hw : startWork i = some w) (hc : startChecks i (s.setWork w) = .ok ()) :
    (s.setWork w).remaining < s.fuel := by
  cases i with
  | tdec2 | tdec4 | tenc2 | tenc4 | cexp | cpack | brrdec | lzdec =>
    cases hw
    show s.srcLen.toNat - 0 < s.srcLen.toNat + s.auxLen.toNat + 2
    omega
  | tasm2 w ht | tasm4 w ht =>
    cases hw
    obtain ⟨hs, ha⟩ := lengths_of_tasmChecks hc
    have hle : w.toNat * ht.toNat ≤ s.srcLen.toNat :=
      (Nat.le_mul_of_pos_left _ (Depth.tileBytes_pos _)).trans hs.ge
    rw [State.setWork_auxLen] at ha
    show (w.toNat * ht.toNat - 0) + (w.toNat * ht.toNat - 0) + 1 < s.srcLen.toNat + s.auxLen.toNat + 2
    omega
  | ipsapply | upsapply =>
    cases hw
    show s.auxLen.toNat + 1 < s.srcLen.toNat + s.auxLen.toNat + 2
    omega
  | _ => cases hw

/-! ## Registers and reads -/

namespace SameInputs

theorem refl (i : Instr) (s : State) : SameInputs i s s where
  work := rfl
  srcCap := rfl
  auxCap := rfl
  dstCap := rfl
  crcPoly := rfl
  srcLen := rfl
  outLimit := rfl
  auxLen _ := rfl
  lz _ := ⟨rfl, fun _ => rfl⟩
  src _ _ := rfl
  aux _ _ _ := rfl

theorem setWork (h : SameInputs i s s') (w : Work) : SameInputs i (s.setWork w) (s'.setWork w) :=
  { h with work := rfl }

theorem limit (h : SameInputs i s s') : s'.limit = s.limit := by
  simp only [State.limit, h.outLimit, h.dstCap]

theorem bodyEnd (h : SameInputs i s s') (hr : readsAux i = true) : s'.bodyEnd = s.bodyEnd := by
  simp only [State.bodyEnd, h.auxLen hr]

/-- `LZ_TARGET` matters only where `TERM` is 1. -/
theorem lzTarget_iff (h : SameInputs .lzdec s s') (P : Nat → Prop) :
    lzTerm s.lzCfg = 1 ∧ P s'.lzTarget.toNat ↔ lzTerm s.lzCfg = 1 ∧ P s.lzTarget.toNat :=
  and_congr_right fun ht => by rw [(h.lz rfl).2 ht]

theorem readByte_src (h : SameInputs i s s') {a : Nat} (ha : a < s.srcLen.toNat) :
    s'.readByte .src a = s.readByte .src a := by
  simp only [State.readByte, State.buffer, h.src a ha]

theorem readByte_aux (h : SameInputs i s s') (hr : readsAux i = true) {a : Nat} (ha : a < s.auxLen.toNat) :
    s'.readByte .aux a = s.readByte .aux a := by
  simp only [State.readByte, State.buffer, h.aux hr a ha]

end SameInputs

/-- States that agree on the single reads below the end of a range agree on a read of the range. -/
theorem readBytes_congr {b : Buffer} {a n : Nat} (h : ∀ x, x < a + n → s'.readByte b x = s.readByte b x) :
    s'.readBytes b a n = s.readBytes b a n := by
  induction n generalizing a with
  | zero => rfl
  | succ n ih => simp only [State.readBytes, h a (by omega), ih (a := a + 1) fun x hx => h x (by omega)]

/-- After a check, what follows matters only where the check has passed. -/
theorem failIf_bind_congr {α : Type} {bad : Prop} [Decidable bad] {e : Err} {pos : Nat} {f g : Unit → Except Stop α}
    (h : ¬bad → f () = g ()) : (failIf bad e pos >>= f) = (failIf bad e pos >>= g) := by
  by_cases hb : bad
  · rw [failIf_pos hb]
    rfl
  · rw [failIf_neg hb]
    exact h hb

namespace SameInputs

theorem readBytes_src (h : SameInputs i s s') {a n : Nat} (ha : a + n ≤ s.srcLen.toNat) :
    s'.readBytes .src a n = s.readBytes .src a n :=
  readBytes_congr fun _ hx => h.readByte_src (by omega)

theorem readBytes_aux (h : SameInputs i s s') (hr : readsAux i = true) {a n : Nat} (ha : a + n ≤ s.auxLen.toNat) :
    s'.readBytes .aux a n = s.readBytes .aux a n :=
  readBytes_congr fun _ hx => h.readByte_aux hr (by omega)

/-! ## The checks before the first element -/

theorem scanPixels_eq (h : SameInputs i s s') (d : Depth) {a n : Nat} (ha : a + n ≤ s.srcLen.toNat) :
    scanPixels d s' a n = scanPixels d s a n := by
  induction n generalizing a with
  | zero => rfl
  | succ n ih => simp only [scanPixels, h.readByte_src (show a < _ by omega), ih (show a + 1 + n ≤ _ by omega)]

theorem tdecChecks_eq (h : SameInputs i s s') (d : Depth) : tdecChecks d s' = tdecChecks d s := by
  simp only [tdecChecks, h.srcCap, h.srcLen, h.limit]

theorem tencChecks_eq (h : SameInputs i s s') (d : Depth) : tencChecks d s' = tencChecks d s := by
  simp only [tencChecks, h.srcCap, h.srcLen, h.limit, h.scanPixels_eq d (Nat.zero_add _).le]

theorem tasmChecks_eq (h : SameInputs i s s') (hr : readsAux i = true) (d : Depth) (n : Nat) :
    tasmChecks d n s' = tasmChecks d n s := by
  simp only [tasmChecks, h.srcCap, h.srcLen, h.limit, h.auxCap, h.auxLen hr]

theorem cexpChecks_eq (h : SameInputs i s s') : cexpChecks s' = cexpChecks s := by
  simp only [cexpChecks, h.srcCap, h.srcLen, h.limit]

theorem cpackChecks_eq (h : SameInputs i s s') : cpackChecks s' = cpackChecks s := by
  simp only [cpackChecks, h.srcCap, h.srcLen, h.limit]

theorem brrChecks_eq (h : SameInputs i s s') : brrChecks s' = brrChecks s := by
  simp only [brrChecks, h.srcCap, h.srcLen]

theorem lzChecks_eq (h : SameInputs .lzdec s s') : lzChecks s' = lzChecks s := by
  simp only [lzChecks, h.srcCap, h.srcLen, (h.lz rfl).1]

theorem patchChecks_eq (h : SameInputs i s s') (hr : readsAux i = true) : patchChecks s' = patchChecks s := by
  simp only [patchChecks, h.srcCap, h.srcLen, h.auxCap, h.auxLen hr]

/-- The checks of a command depend on its inputs only. -/
theorem startChecks_eq (h : SameInputs i s s') : startChecks i s' = startChecks i s := by
  cases i with
  | tdec2 | tdec4 => exact h.tdecChecks_eq _
  | tenc2 | tenc4 => exact h.tencChecks_eq _
  | tasm2 | tasm4 => exact h.tasmChecks_eq rfl _ _
  | cexp => exact h.cexpChecks_eq
  | cpack => exact h.cpackChecks_eq
  | brrdec => exact h.brrChecks_eq
  | lzdec => exact h.lzChecks_eq
  | ipsapply | upsapply => exact h.patchChecks_eq rfl
  | _ => rfl

/-! ## What an engine finds at its cursor -/

theorem tdecFetch_eq (h : SameInputs i s s') (t : TileWork) : tdecFetch t s' = tdecFetch t s := by
  simp only [tdecFetch, h.srcLen]
  split
  · rfl
  · exact failIf_bind_congr fun _ => by rw [h.readBytes_src (by omega)]

theorem tencFetch_eq (h : SameInputs i s s') (t : TileWork) : tencFetch t s' = tencFetch t s := by
  simp only [tencFetch, h.srcLen]
  split
  · rfl
  · exact failIf_bind_congr fun _ => by rw [h.readBytes_src (by omega)]

theorem cexpFetch_eq (h : SameInputs i s s') (k : ColorWork) : cexpFetch k s' = cexpFetch k s := by
  simp only [cexpFetch, h.srcLen]
  split
  · rfl
  · exact failIf_bind_congr fun _ => by rw [h.readBytes_src (by omega)]

theorem cpackFetch_eq (h : SameInputs i s s') (k : ColorWork) : cpackFetch k s' = cpackFetch k s := by
  simp only [cpackFetch, h.srcLen]
  split
  · rfl
  · exact failIf_bind_congr fun _ => by rw [h.readBytes_src (by omega)]

theorem tasmFetch_eq (h : SameInputs i s s') {a : AsmWork} (hr : readsAux i = true)
    (hs : s.srcLen.toNat = a.depth.tileBytes * (a.w * a.ht)) (ha : s.auxLen.toNat = a.w * a.ht) :
    tasmFetch a s' = tasmFetch a s := by
  unfold tasmFetch
  split
  · rw [h.readByte_aux hr (by omega)]
  · split
    case isTrue ht =>
      have hle : a.depth.tileBytes * a.tiles.length + a.depth.tileBytes ≤ s.srcLen.toNat :=
        hs ▸ Nat.mul_le_mul_left a.depth.tileBytes (Nat.succ_le_of_lt ht)
      rw [h.readBytes_src hle]
    case isFalse => rfl

theorem brrFetch_eq (h : SameInputs i s s') (b : BrrWork) : brrFetch b s' = brrFetch b s := by
  simp only [brrFetch, h.srcLen, h.limit]
  refine failIf_bind_congr fun _ => failIf_bind_congr fun _ => ?_
  rw [h.readByte_src (by omega), h.readBytes_src (by omega)]

theorem lzInputEnd_eq (h : SameInputs .lzdec s s') (z : LzWork) : lzInputEnd z s' = lzInputEnd z s := by
  simp only [lzInputEnd, (h.lz rfl).1]

theorem lzFetch_eq (h : SameInputs .lzdec s s') (z : LzWork) : lzFetch z s' = lzFetch z s := by
  simp only [lzFetch, h.srcLen, h.limit, (h.lz rfl).1, h.lzInputEnd_eq]
  refine if_congr (h.lzTarget_iff (z.out.length = ·)) rfl ?_
  by_cases hc : s.srcLen.toNat ≤ z.c
  · simp only [hc, if_true]
  · simp only [hc, if_false, h.readByte_src (Nat.not_le.1 hc)]
    refine if_congr Iff.rfl rfl (if_congr Iff.rfl rfl ?_)
    exact failIf_bind_congr fun _ => by rw [h.readBytes_src (by omega)]

theorem ipsFetchRecord_eq (h : SameInputs i s s') (hr : readsAux i = true) (c : Nat) (offsetBytes : List Byte) :
    ipsFetchRecord c offsetBytes s' = ipsFetchRecord c offsetBytes s := by
  simp only [ipsFetchRecord, h.auxLen hr, h.limit]
  refine failIf_bind_congr fun _ => ?_
  rw [h.readBytes_aux hr (by omega)]
  refine bind_congr fun sizeBytes => ?_
  split
  · exact failIf_bind_congr fun _ => by rw [h.readBytes_aux hr (by omega)]
  · exact failIf_bind_congr fun _ => by rw [h.readBytes_aux hr (by omega)]

theorem ipsFetch_eq (h : SameInputs i s s') (hr : readsAux i = true) (p : IpsWork) : ipsFetch p s' = ipsFetch p s := by
  simp only [ipsFetch, h.auxLen hr, h.ipsFetchRecord_eq hr]
  split
  · exact failIf_bind_congr fun _ => by rw [h.readBytes_aux hr (by omega)]
  · exact failIf_bind_congr fun _ => by rw [h.readBytes_aux hr (by omega)]

theorem readVlv_eq (h : SameInputs i s s') (hr : readsAux i = true) {a n : Nat} (ha : n = 0 ∨ a + n ≤ s.auxLen.toNat) :
    readVlv s' a n = readVlv s a n := by
  induction n generalizing a with
  | zero => rfl
  | succ n ih => simp only [readVlv, h.readByte_aux hr (show a < _ by omega), ih (show _ ∨ a + 1 + n ≤ _ by omega)]

theorem readXors_eq (h : SameInputs i s s') (hr : readsAux i = true) {a n : Nat} (ha : n = 0 ∨ a + n ≤ s.auxLen.toNat) :
    readXors s' a n = readXors s a n := by
  induction n generalizing a with
  | zero => rfl
  | succ n ih => simp only [readXors, h.readByte_aux hr (show a < _ by omega), ih (show _ ∨ a + 1 + n ≤ _ by omega)]

theorem upsFetch_eq (h : SameInputs i s s') (hr : readsAux i = true) {u : UpsWork}
    (hu : u.phase ≠ .magic → 16 ≤ s.auxLen.toNat) : upsFetch u s' = upsFetch u s := by
  have hbody (a : Nat) : s.bodyEnd - a = 0 ∨ a + (s.bodyEnd - a) ≤ s.auxLen.toNat := by
    unfold State.bodyEnd
    omega
  simp only [upsFetch, h.auxLen hr, h.bodyEnd hr, h.readVlv_eq hr (hbody _), h.readXors_eq hr (hbody _)]
  split
  · exact failIf_bind_congr fun _ => by rw [h.readBytes_aux hr (by omega)]
  · rfl
  · rfl
  · rename_i hp
    have htrailer : s.bodyEnd + 12 ≤ s.auxLen.toNat := by
      have := hu (by simp [hp])
      unfold State.bodyEnd
      omega
    rw [h.readBytes_aux hr htrailer]

/-- What an engine finds at its cursor depends on the inputs of its command only. -/
theorem engineFetch_eq (h : SameInputs i s s') (hr : s.Runs i) : engineFetch s' = engineFetch s := by
  unfold engineFetch
  rw [h.work]
  cases hw : s.work with
  | idle => rfl
  | tdec t => exact h.tdecFetch_eq t
  | tenc t => exact h.tencFetch_eq t
  | tasm a =>
    obtain ⟨haux, hs, ha⟩ := hr.of_tasm hw
    exact h.tasmFetch_eq haux hs ha
  | cexp k => exact h.cexpFetch_eq k
  | cpack k => exact h.cpackFetch_eq k
  | brr b => exact h.brrFetch_eq b
  | lz z =>
    obtain rfl := hr.of_lz hw
    exact h.lzFetch_eq z
  | ips p => exact h.ipsFetch_eq (hr.of_ips hw) p
  | ups u =>
    obtain ⟨haux, hlen⟩ := hr.of_ups hw
    exact h.upsFetch_eq haux hlen

end SameInputs

/-! ## What a stream element means -/

/-- The ways in which a stream element can act alike on two states: both engines move forward to the same working state, both
commands end with the same output (`BRRBLK` has changed the loop record before that) or at the same stop, or both refuse. -/
inductive SameOutcome (s s' : State) : Result → Result → Prop where
  | go (w : Work) (h : Advances s w) : SameOutcome s s' (.next (s.setWork w)) (.next (s'.setWork w))
  | finish (out : List Byte) : SameOutcome s s' (.next (s.commit out)) (.next (s'.commit out))
  | finishBrr (b : BrrWork) :
      SameOutcome s s' (.next ((s.setWork (.brr b)).commit b.out)) (.next ((s'.setWork (.brr b)).commit b.out))
  | stop (st : Stop) : SameOutcome s s' (s.stop st) (s'.stop st)
  | refused (r : Refusal) : SameOutcome s s' (.refused r) (.refused r)

theorem SameOutcome.continueWith {r : Except Stop Work} (h : ∀ w, r = .ok w → Advances s w) :
    SameOutcome s s' (s.continueWith r) (s'.continueWith r) := by
  cases r with
  | ok w => exact .go w (h w rfl)
  | error st => exact .stop st

/-- The start of the runs leaves the engine as it was but for the phase, the output cursor and the output. -/
theorem upsStart_eq_ok {sourceSize target : Nat} {u : UpsWork} {w : Work} (h : upsStart sourceSize target u s = .ok w) :
    ∃ out, w = .ups { u with phase := .runs, cur := 0, out := out } := by
  simp only [upsStart, bind_eq_ok] at h
  obtain ⟨-, -, -, -, bytes, -, h⟩ := h
  cases h
  exact ⟨_, rfl⟩

namespace SameInputs

theorem packedTile_same (h : SameInputs i s s') (d : Depth) (planes : List Byte) :
    SameOutcome s s' (packedTile d planes s) (packedTile d planes s') := by
  unfold packedTile
  rw [h.work]
  cases hw : s.work with
  | tdec t =>
    simp only
    split
    · exact .go _ (.tdec hw (Nat.lt_add_of_pos_right d.tileBytes_pos))
    · exact .refused _
  | tasm a =>
    simp only
    split
    case isTrue hc =>
      obtain ⟨-, -, -, ht⟩ := hc
      exact .go _ (.tasm hw rfl rfl (AsmWork.missing_of_tile ht _))
    case isFalse => exact .refused _
  | _ => exact .refused _

theorem execUtile_same (h : SameInputs i s s') (pixels : List Byte) :
    SameOutcome s s' (execUtile pixels s) (execUtile pixels s') := by
  unfold execUtile
  rw [h.work]
  cases hw : s.work with
  | tenc t =>
    simp only
    split
    · cases firstOutOfRange t.depth pixels 0 with
      | some k => exact .stop _
      | none => exact .go _ (.tenc hw (Nat.lt_add_of_pos_right (by decide)))
    · exact .refused _
  | _ => exact .refused _

theorem execImage_same (h : SameInputs i s s') (pixels : List Byte) :
    SameOutcome s s' (execImage pixels s) (execImage pixels s') := by
  unfold execImage
  rw [h.work]
  cases hw : s.work with
  | tasm a =>
    simp only
    split
    · exact .finish _
    · exact .refused _
  | _ => exact .refused _

theorem execFlip_same (h : SameInputs i s s') (fh fv : Bool) :
    SameOutcome s s' (execFlip fh fv s) (execFlip fh fv s') := by
  unfold execFlip
  rw [h.work]
  cases hw : s.work with
  | tasm a =>
    simp only
    split
    case isTrue hf => exact .go _ (.tasm hw rfl rfl (AsmWork.missing_of_flip hf _))
    case isFalse => exact .refused _
  | _ => exact .refused _

theorem execColor15_same (h : SameInputs i s s') (x : Bool) (b g r : BitVec 5) :
    SameOutcome s s' (execColor15 x b g r s) (execColor15 x b g r s') := by
  unfold execColor15
  rw [h.work]
  cases hw : s.work with
  | cexp k => exact .go _ (.cexp hw (Nat.lt_add_of_pos_right (by decide)))
  | _ => exact .refused _

theorem execRgb24_same (h : SameInputs i s s') (r g b : Byte) :
    SameOutcome s s' (execRgb24 r g b s) (execRgb24 r g b s') := by
  unfold execRgb24
  rw [h.work]
  cases hw : s.work with
  | cpack k => exact .go _ (.cpack hw (Nat.lt_add_of_pos_right (by decide)))
  | _ => exact .refused _

theorem execBrrblk_same (h : SameInputs i s s') (shift : BitVec 4) (filter : BitVec 2) (loop fin : Bool)
    (nibbles : List (BitVec 4)) :
    SameOutcome s s' (execBrrblk shift filter loop fin nibbles s) (execBrrblk shift filter loop fin nibbles s') := by
  unfold execBrrblk
  rw [h.work, h.limit]
  cases hw : s.work with
  | brr b =>
    simp only
    split
    · split
      · exact .stop _
      · cases fin with
        | true => exact .finishBrr _
        | false => exact .go _ (.brr hw (Nat.lt_add_of_pos_right (k := 9) (by decide)))
    · exact .refused _
  | _ => exact .refused _

/-- Outside the BRR engine a sample has no meaning. -/
theorem execPcm16_same (h : SameInputs i s s') (hb : ∀ b, s.work ≠ .brr b) (sample : Sample) :
    SameOutcome s s' (execPcm16 sample s) (execPcm16 sample s') := by
  unfold execPcm16
  rw [h.work]
  cases hw : s.work with
  | brr b => exact absurd hw (hb b)
  | _ => exact .refused _

theorem execLzctrl_same (h : SameInputs i s s') (hr : s.Runs i) (ctrl : Byte) :
    SameOutcome s s' (execLzctrl ctrl s) (execLzctrl ctrl s') := by
  unfold execLzctrl
  rw [h.work]
  cases hw : s.work with
  | lz z =>
    simp only [(h.lz (hr.of_lz hw)).1]
    split
    · exact .go _ (.lz hw (Nat.lt_succ_self _))
    · exact .refused _
  | _ => exact .refused _

theorem execLzend_same (h : SameInputs i s s') (hr : s.Runs i) (marker : Byte) :
    SameOutcome s s' (execLzend marker s) (execLzend marker s') := by
  unfold execLzend
  rw [h.work]
  cases hw : s.work with
  | lz z =>
    simp only [(h.lz (hr.of_lz hw)).1]
    split
    · exact .finish _
    · exact .refused _
  | _ => exact .refused _

theorem execLzlit_same (h : SameInputs i s s') (data : Byte) :
    SameOutcome s s' (execLzlit data s) (execLzlit data s') := by
  unfold execLzlit
  rw [h.work, h.limit]
  cases hw : s.work with
  | lz z =>
    simp only
    split
    · split
      · exact .stop _
      · exact .go _ (.lz hw (Nat.lt_succ_self _))
    · exact .refused _
  | _ => exact .refused _

theorem lzMatchChecks_eq (h : SameInputs .lzdec s s') (length dist : Nat) (z : LzWork) :
    lzMatchChecks length dist z s' = lzMatchChecks length dist z s := by
  simp only [lzMatchChecks, h.limit, (h.lz rfl).1, h.lzTarget_iff (· < z.out.length + length)]

theorem execLzmatch_same (h : SameInputs i s s') (hr : s.Runs i) (b0 b1 : Byte) :
    SameOutcome s s' (execLzmatch b0 b1 s) (execLzmatch b0 b1 s') := by
  unfold execLzmatch
  rw [h.work]
  cases hw : s.work with
  | lz z =>
    obtain rfl := hr.of_lz hw
    simp only [(h.lz rfl).1, h.lzMatchChecks_eq]
    split
    · cases lzMatchChecks (lzLength s.lzCfg b0 b1) (lzDist s.lzCfg b0 b1) z s with
      | error st => exact .stop _
      | ok _ => exact .go _ (.lz hw (Nat.lt_add_of_pos_right (by decide)))
    · exact .refused _
  | _ => exact .refused _

theorem execIpsmagic_same (h : SameInputs i s s') : SameOutcome s s' (execIpsmagic s) (execIpsmagic s') := by
  unfold execIpsmagic
  rw [h.work, h.limit, h.srcLen, h.readBytes_src (Nat.zero_add _).le]
  cases hw : s.work with
  | ips p =>
    simp only
    split
    case isTrue hp =>
      split
      · exact .stop _
      · cases s.readBytes .src 0 s.srcLen.toNat with
        | error st => exact .stop _
        | ok bytes => exact .go _ (.ipsMagic hw hp nofun)
    case isFalse => exact .refused _
  | _ => exact .refused _

theorem ipsRecord_same (h : SameInputs i s s') (offset : Nat) (data : List Byte) {len : Nat} (hl : 0 < len) :
    SameOutcome s s' (ipsRecord offset data len s) (ipsRecord offset data len s') := by
  unfold ipsRecord
  rw [h.work, h.limit]
  cases hw : s.work with
  | ips p =>
    simp only
    split
    case isTrue hp =>
      have hne : p.phase ≠ .magic := by simp [hp]
      split
      · exact .stop _
      · exact .go _ (.ips hw hne hne (Nat.lt_add_of_pos_right hl))
    case isFalse => exact .refused _
  | _ => exact .refused _

theorem execIpsrec_same (h : SameInputs i s s') (offset : BitVec 24) (data : List Byte) :
    SameOutcome s s' (execIpsrec offset data s) (execIpsrec offset data s') := by
  unfold execIpsrec
  split
  · exact h.ipsRecord_same _ _ (by omega)
  · exact .refused _

theorem execIpsrle_same (h : SameInputs i s s') (offset : BitVec 24) (runSize : BitVec 16) (value : Byte) :
    SameOutcome s s' (execIpsrle offset runSize value s) (execIpsrle offset runSize value s') := by
  unfold execIpsrle
  split
  · exact h.ipsRecord_same _ _ (by decide)
  · exact .refused _

theorem execIpseof_same (h : SameInputs i s s') : SameOutcome s s' (execIpseof s) (execIpseof s') := by
  unfold execIpseof
  rw [h.work]
  cases hw : s.work with
  | ips p =>
    simp only
    split
    · exact .finish _
    · exact .refused _
  | _ => exact .refused _

theorem execUpsmagic_same (h : SameInputs i s s') (hr : s.Runs i) :
    SameOutcome s s' (execUpsmagic s) (execUpsmagic s') := by
  unfold execUpsmagic
  rw [h.work]
  cases hw : s.work with
  | ups u =>
    simp only [h.auxLen (hr.of_ups hw).1]
    split
    case isTrue hp =>
      split
      case isTrue => exact .stop _
      case isFalse hlen => exact .go _ (.upsMagic hw hp nofun (Nat.not_lt.1 hlen))
    case isFalse => exact .refused _
  | _ => exact .refused _

theorem upsStart_eq (h : SameInputs i s s') (sourceSize target : Nat) (u : UpsWork) :
    upsStart sourceSize target u s' = upsStart sourceSize target u s := by
  simp only [upsStart, h.srcLen, h.limit, h.readBytes_src (show 0 + min s.srcLen.toNat target ≤ _ by omega)]

theorem execVlv_same (h : SameInputs i s s') (digits : List (BitVec 7)) :
    SameOutcome s s' (execVlv digits s) (execVlv digits s') := by
  unfold execVlv
  rw [h.work]
  cases hw : s.work with
  | ups u =>
    simp only [h.upsStart_eq]
    split
    case isTrue hd =>
      have hc : u.c < u.c + digits.length := Nat.lt_add_of_pos_right (Nat.pos_of_ne_zero hd)
      cases hp : u.phase with
      | magic | runs => exact .refused _
      | sourceSize => exact .go _ (.ups hw (by simp [hp]) nofun hc)
      | targetSize sourceSize =>
        refine .continueWith fun w hs => ?_
        obtain ⟨out, rfl⟩ := upsStart_eq_ok hs
        exact .ups hw (by simp [hp]) nofun hc
    case isFalse => exact .refused _
  | _ => exact .refused _

theorem execUpsrun_same (h : SameInputs i s s') (hr : s.Runs i) (rel : List (BitVec 7)) (xors : List Byte) :
    SameOutcome s s' (execUpsrun rel xors s) (execUpsrun rel xors s') := by
  unfold execUpsrun
  rw [h.work]
  cases hw : s.work with
  | ups u =>
    simp only [h.bodyEnd (hr.of_ups hw).1]
    split
    case isTrue hc =>
      obtain ⟨hp, -, -⟩ := hc
      have hne : u.phase ≠ .magic := by simp [hp]
      exact .go _ (.ups hw hne hne (by simp only; omega))
    case isFalse => exact .refused _
  | _ => exact .refused _

theorem upsVerify_eq (h : SameInputs i s s') (hr : readsAux i = true) (srcCrc tgtCrc patchCrc : Word) (u : UpsWork) :
    upsVerify srcCrc tgtCrc patchCrc u s' = upsVerify srcCrc tgtCrc patchCrc u s := by
  have hbody : 0 + s.bodyEnd ≤ s.auxLen.toNat := by
    unfold State.bodyEnd
    omega
  simp only [upsVerify, h.srcLen, h.crcPoly, h.bodyEnd hr, h.readBytes_src (Nat.zero_add _).le, h.readBytes_aux hr hbody]

theorem execUpstrailer_same (h : SameInputs i s s') (hr : s.Runs i) (srcCrc tgtCrc patchCrc : Word) :
    SameOutcome s s' (execUpstrailer srcCrc tgtCrc patchCrc s) (execUpstrailer srcCrc tgtCrc patchCrc s') := by
  unfold execUpstrailer
  rw [h.work]
  cases hw : s.work with
  | ups u =>
    have haux := (hr.of_ups hw).1
    simp only [h.upsVerify_eq haux, h.bodyEnd haux]
    split
    · cases upsVerify srcCrc tgtCrc patchCrc u s with
      | error st => exact .stop _
      | ok _ => exact .finish _
    · exact .refused _
  | _ => exact .refused _

/-- The meaning of a stream element depends on the inputs of the command only. -/
theorem execElement_same (h : SameInputs i s s') (hr : s.Runs i) {e : Instr} (he : ∀ b, s.work = .brr b → ∀ x, e ≠ .pcm16 x) :
    SameOutcome s s' (execElement e s) (execElement e s') := by
  cases e with
  | tile2 planes => exact h.packedTile_same .two planes
  | tile4 planes => exact h.packedTile_same .four planes
  | utile pixels => exact h.execUtile_same pixels
  | image pixels => exact h.execImage_same pixels
  | flip fh fv => exact h.execFlip_same fh fv
  | color15 x b g r => exact h.execColor15_same x b g r
  | rgb24 r g b => exact h.execRgb24_same r g b
  | brrblk shift filter loop fin nibbles => exact h.execBrrblk_same shift filter loop fin nibbles
  | pcm16 sample => exact h.execPcm16_same (fun b hb => he b hb sample rfl) sample
  | lzctrl ctrl => exact h.execLzctrl_same hr ctrl
  | lzlit data => exact h.execLzlit_same data
  | lzmatch b0 b1 => exact h.execLzmatch_same hr b0 b1
  | lzend marker => exact h.execLzend_same hr marker
  | ipsmagic => exact h.execIpsmagic_same
  | ipsrec offset data => exact h.execIpsrec_same offset data
  | ipsrle offset runSize value => exact h.execIpsrle_same offset runSize value
  | ipseof => exact h.execIpseof_same
  | upsmagic => exact h.execUpsmagic_same hr
  | vlv digits => exact h.execVlv_same digits
  | upsrun rel xors => exact h.execUpsrun_same hr rel xors
  | upstrailer srcCrc tgtCrc patchCrc => exact h.execUpstrailer_same hr srcCrc tgtCrc patchCrc
  | _ => exact .refused _

/-- One step of the engine depends on the inputs of the command only. -/
theorem engineStep_same (h : SameInputs i s s') (hr : s.Runs i) : SameOutcome s s' (engineStep s) (engineStep s') := by
  unfold engineStep
  rw [h.engineFetch_eq hr]
  cases hf : engineFetch s with
  | error st => exact .stop st
  | ok f =>
    cases f with
    | done out => exact .finish out
    | element e =>
      refine h.execElement_same hr fun b hb => ?_
      rw [engineFetch, hb] at hf
      exact brrFetch_ne_pcm16 hf

end SameInputs

/-! ## The result of a command -/

/-- Two idle states with the same result of the command `i` (R14): the result registers and DST, and `BRR_LOOP` after `BRRDEC`. -/
structure SameResult (i : Instr) (t t' : State) : Prop where
  idle : t.work = .idle
  idle' : t'.work = .idle
  status : t'.status = t.status
  errPos : t'.errPos = t.errPos
  outLen : t'.outLen = t.outLen
  dst : t'.dst = t.dst
  brrLoop : i = .brrdec → t'.brrLoop = t.brrLoop

theorem SameInputs.sameResult_raise (h : SameInputs i s s') (hb : i = .brrdec → ∃ b, s.work = .brr b) (e : Err) (pos : Nat) :
    SameResult i (s.raise e pos) (s'.raise e pos) where
  idle := rfl
  idle' := rfl
  status := rfl
  errPos := rfl
  outLen := rfl
  dst := rfl
  brrLoop hi := by
    obtain ⟨b, hw⟩ := hb hi
    simp only [State.raise_brrLoop, State.loopAfterError, h.work, hw]

theorem SameInputs.sameResult_commit (h : SameInputs i s s') (hb : i = .brrdec → ∃ b, s.work = .brr b) (out : List Byte) :
    SameResult i (s.commit out) (s'.commit out) where
  idle := rfl
  idle' := rfl
  status := rfl
  errPos := rfl
  outLen := rfl
  dst := rfl
  brrLoop hi := by
    obtain ⟨b, hw⟩ := hb hi
    simp only [State.commit_brrLoop, State.loopAfterSuccess, h.work, hw]

/-- Where one of two like outcomes is a next state, so is the other: both engines go on alike, or both commands end with the same
result. -/
theorem SameOutcome.of_next {t : State} {r' : Result} (o : SameOutcome s s' (.next t) r') (h : SameInputs i s s')
    (hr : s.Runs i) :
    (∃ w, Advances s w ∧ t = s.setWork w ∧ r' = .next (s'.setWork w)) ∨ ∃ t', r' = .next t' ∧ SameResult i t t' := by
  generalize hn : (Host.Outcome.next t : Result) = r at o
  cases o with
  | go w hw => cases hn; exact .inl ⟨w, hw, rfl, rfl⟩
  | finish out => cases hn; exact .inr ⟨_, rfl, h.sameResult_commit hr.brr out⟩
  | finishBrr b => cases hn; exact .inr ⟨_, rfl, (h.setWork (.brr b)).sameResult_commit (fun _ => ⟨b, rfl⟩) b.out⟩
  | stop st =>
    obtain ⟨e, pos, rfl, rfl⟩ := stop_eq_next.1 hn.symm
    exact .inr ⟨_, rfl, h.sameResult_raise hr.brr e pos⟩
  | refused r => cases hn

/-- The run of an engine depends on the inputs of its command only. -/
theorem SameInputs.runEngine_same (h : SameInputs i s s') (hr : s.Runs i) {n : Nat} {t : State} (ht : runEngine n s = .next t) :
    ∃ t', runEngine n s' = .next t' ∧ SameResult i t t' := by
  induction n generalizing s s' with
  | zero => cases ht
  | succ n ih =>
    obtain ⟨u, hu, hend⟩ := runEngine_succ_eq_next.1 ht
    rcases (hu ▸ h.engineStep_same hr).of_next h hr with ⟨w, ha, rfl, hw⟩ | ⟨t', ht', hres⟩
    · rcases hend with ⟨hidle, -⟩ | ⟨-, hrun⟩
      · exact absurd hidle ha.ne_idle
      · obtain ⟨t', hrun', hres⟩ := ih (h.setWork w) (ha.runs hr) hrun
        exact ⟨t', (runEngine_of_step hw ha.ne_idle).trans hrun', hres⟩
    · rcases hend with ⟨-, rfl⟩ | ⟨hne, -⟩
      · exact ⟨t', runEngine_of_end ht' hres.idle', hres⟩
      · exact absurd hres.idle hne

/-! ## The bound of the loop does not matter

A command that does not read AUX has `AUX_LEN` in the bound of its loop all the same. -/

/-- The trailer of a UPS patch ends its command. -/
theorem idle_of_execUpstrailer {srcCrc tgtCrc patchCrc : Word} {u : State}
    (h : execUpstrailer srcCrc tgtCrc patchCrc s = .next u) : u.work = .idle := by
  unfold execUpstrailer at h
  split at h
  · split at h
    · split at h
      · obtain ⟨e, pos, -, rfl⟩ := stop_eq_next.1 h
        rfl
      · cases h
        rfl
    · cases h
  · cases h

theorem remaining_pos_of_step {u : State} (h : engineStep s = .next u) (hu : u.work ≠ .idle) : 0 < s.remaining := by
  unfold engineStep at h
  split at h
  · obtain ⟨e, pos, -, rfl⟩ := stop_eq_next.1 h
    exact absurd rfl hu
  · cases h
    exact absurd rfl hu
  · rename_i e hf
    refine remaining_pos_of_fetch hf fun srcCrc tgtCrc patchCrc he => ?_
    subst he
    exact hu (idle_of_execUpstrailer h)

/-- A step that leaves the command running moves its engine forward. -/
theorem advances_of_step {u : State} (hr : s.Runs i) (h : engineStep s = .next u) (hu : u.work ≠ .idle) :
    ∃ w, Advances s w ∧ u = s.setWork w := by
  rcases (h ▸ (SameInputs.refl i s).engineStep_same hr).of_next (.refl i s) hr with ⟨w, ha, rfl, -⟩ | ⟨t', -, hres⟩
  · exact ⟨w, ha, rfl⟩
  · exact absurd hres.idle hu

/-- A run that ends ends under every bound above the number of elements that are left. -/
theorem runEngine_eq_next_of_remaining_lt {n m : Nat} {t : State} (hr : s.Runs i) (h : runEngine n s = .next t)
    (hm : s.remaining < m) : runEngine m s = .next t := by
  induction n generalizing s m with
  | zero => cases h
  | succ n ih =>
    obtain ⟨m, rfl⟩ := Nat.exists_eq_succ_of_ne_zero (Nat.ne_zero_of_lt hm)
    obtain ⟨u, hu, ⟨hidle, rfl⟩ | ⟨hne, hrun⟩⟩ := runEngine_succ_eq_next.1 h
    · exact runEngine_of_end hu hidle
    · obtain ⟨w, ha, rfl⟩ := advances_of_step hr hu hne
      have hlt := ha.remaining_lt (remaining_pos_of_step hu hne)
      exact (runEngine_of_step hu hne).trans (ih (ha.runs hr) hrun (by omega))

/-- The result of a command that starts an engine depends on its inputs only. -/
theorem SameInputs.exec_same {w : Work} (hw : startWork i = some w) (h : SameInputs i (s.setWork w) (s'.setWork w)) {t : State}
    (ht : exec i s = .next t) : ∃ t', exec i s' = .next t' ∧ SameResult i t t' := by
  rw [exec_eq_runCommand hw] at ht ⊢
  rcases runCommand_eq_next.1 ht with ⟨e, pos, hc, rfl⟩ | ⟨hc, hrun⟩
  · have hbrr (hi : i = .brrdec) : ∃ b, (s.setWork w).work = .brr b := by
      subst hi
      cases hw
      exact ⟨_, rfl⟩
    exact ⟨_, runCommand_eq_next.2 (.inl ⟨e, pos, h.startChecks_eq.trans hc, rfl⟩), h.sameResult_raise hbrr e pos⟩
  · have hc' := h.startChecks_eq.trans hc
    obtain ⟨t', hrun', hres⟩ := h.runEngine_same (runs_of_startChecks hw hc) hrun
    have hfuel := runEngine_eq_next_of_remaining_lt (runs_of_startChecks hw hc') hrun' (remaining_lt_fuel hw hc')
    exact ⟨t', runCommand_eq_next.2 (.inr ⟨hc', hfuel⟩), hres⟩

end

/-- Settles O17: by simulation of the engine's run, under the invariant that every read stays below the stated lengths; the bound of
the loop, which `AUX_LEN` enters, is shown not to matter. -/
theorem commandResultDependsOnItsInputsOnly : Obligations.CommandResultDependsOnItsInputsOnly := by
  unfold Obligations.CommandResultDependsOnItsInputsOnly
  intro i s s' t hi hsc hac hdc hcrc hsl hol hal hlz hsrc haux ht
  rcases illegal_or_startWork_of_isCommand hi with ⟨word, rfl⟩ | ⟨w, hw⟩
  · cases ht
    exact ⟨_, rfl, rfl, rfl, rfl, rfl, nofun⟩
  · have h : SameInputs i (s.setWork w) (s'.setWork w) := ⟨rfl, hsc, hac, hdc, hcrc, hsl, hol, hal, hlz, hsrc, haux⟩
    obtain ⟨t', ht', hres⟩ := h.exec_same hw ht
    exact ⟨t', ht', hres.status, hres.errPos, hres.outLen, hres.dst, hres.brrLoop⟩

end Sys2Proof.Machine
end

section
/-! SUPPORT. What a step of an idle block is, by the kind of the access the host has waiting (R23, R32, R33): a command is executed, a
register read only replies, a write that no register takes does nothing. -/

namespace Sys2Proof.Machine

variable {s : State} {rest : List HostAccess}

theorem nextAction_of_idle (hs : s.work = .idle) : nextAction s = hostNext s := by
  simp only [nextAction, hs]

/-- A write to `CMD` stores the word and executes the command it stands for (R23). -/
theorem step_of_command {a : HostAccess} {w : Word} (hs : s.work = .idle) (hh : s.host = a :: rest) (ha : a.command? = some w) :
    step s = exec (decodeCommand w) { s with host := rest, cmd := w } := by
  simp only [step, nextAction_of_idle hs, hostNext, hh, ha]
  rfl

/-- Any other access has its effect on the state without it. -/
theorem step_of_access {a : HostAccess} (hs : s.work = .idle) (hh : s.host = a :: rest) (ha : a.command? = none) :
    step s = .next ((s.takeAccess rest).hostAccess a) := by
  simp only [step, nextAction_of_idle hs, hostNext, hh, ha]

/-! ## Register accesses -/

theorem regAccessOk_iff {offset width : Nat} : regAccessOk offset width = true ↔ width = 4 ∧ offset % 4 = 0 := by
  simp [regAccessOk]

theorem readReg_of_reserved (s : State) {offset : Nat} (h : 0x28 ≤ offset) : s.readReg offset = 0#32 := by
  unfold State.readReg
  repeat rw [if_neg (by omega)]

/-- A reserved read returns 0 (R32). -/
theorem hostRegRead_of_reserved (s : State) {offset width : Nat} (h : 0x28 ≤ offset ∨ width ≠ 4 ∨ offset % 4 ≠ 0) :
    s.hostRegRead offset width = 0#32 := by
  unfold State.hostRegRead
  split
  case isTrue hok =>
    obtain ⟨hwidth, halign⟩ := regAccessOk_iff.1 hok
    exact readReg_of_reserved s (by omega)
  case isFalse => rfl

/-- A register read changes the reply only (R33). -/
theorem step_of_regRead {offset width : Nat} (hs : s.work = .idle) (hh : s.host = .regRead offset width :: rest) :
    step s = .next { s with host := rest, reply := .word (s.hostRegRead offset width) } :=
  step_of_access hs hh rfl

/-- The offsets of the registers that the host can write (R22). -/
def writableOffsets : List Nat := [0x00, 0x0C, 0x10, 0x14, 0x1C, 0x20]

theorem writeReg_of_not_writable (s : State) {offset : Nat} (h : offset ∉ writableOffsets) (v : Word) :
    s.writeReg offset v = s := by
  simp only [writableOffsets, List.mem_cons, List.not_mem_nil, not_or] at h
  simp only [State.writeReg, h, if_false]

/-- A register write that is no word access of a writable register does nothing (R32, R33). -/
theorem step_of_ignored_regWrite {offset width : Nat} {v : Word} (hs : s.work = .idle)
    (hh : s.host = .regWrite offset width v :: rest) (h : regAccessOk offset width = true → offset ∉ writableOffsets) :
    step s = .next { s with host := rest } := by
  by_cases hok : regAccessOk offset width = true
  · have hne : offset ≠ 0 := fun h0 => h hok (h0 ▸ by decide)
    rw [step_of_access hs hh (by simp [HostAccess.command?, hne]), State.hostAccess, if_pos hok,
      writeReg_of_not_writable _ (h hok)]
    rfl
  · rw [step_of_access hs hh (by simp [HostAccess.command?, hok]), State.hostAccess, if_neg hok]
    rfl

/-- Settles O20: a reserved or read-only write is one that no register takes, and a read changes the reply only. -/
theorem reservedAndReadOnlyAccessesDoNothing : Obligations.ReservedAndReadOnlyAccessesDoNothing := by
  unfold Obligations.ReservedAndReadOnlyAccessesDoNothing
  intro s offset width v rest hs
  refine ⟨fun hres => ⟨fun hh => ?_, fun hh => ?_⟩, fun hro hh => ?_, fun hh => ⟨_, step_of_regRead hs hh⟩⟩
  · rw [step_of_regRead hs hh, hostRegRead_of_reserved s hres]
  · refine step_of_ignored_regWrite hs hh fun hok hmem => ?_
    obtain ⟨hwidth, halign⟩ := regAccessOk_iff.1 hok
    have hlt : ∀ o ∈ writableOffsets, o < 0x28 := by decide
    have := hlt offset hmem
    omega
  · have hdisj : ∀ o ∈ [0x04, 0x08, 0x18, 0x24], o ∉ writableOffsets := by decide
    exact step_of_ignored_regWrite hs hh fun _ => hdisj offset hro

end Sys2Proof.Machine
end

section
/-! SUPPORT. The frame of a command: it ends in an idle block and writes the results only (R23, R65, R255, R256). -/

namespace Sys2Proof.Machine

/-! ## Command words -/

theorem isCommand_decodeCommand (w : Word) : (decodeCommand w).isCommand = true := by
  unfold decodeCommand
  repeat' split
  all_goals rfl

theorem decodeCommand_of_not_legal {w : Word} (h : legalWord w = false) : decodeCommand w = .illegal w :=
  Except.ok.inj (Laws.RoundTrip.illegal w (by simp [Instr.wellFormed, h]))

theorem exec_illegal (w : Word) (s : State) : exec (.illegal w) s = .next (s.failed 19#8 0) := rfl

/-! ## What a command may write -/

/-- `t` is `s` but for what a command may write: the result registers, `BRR_LOOP`, DST and the working state. -/
def OnlyResultsDiffer (s t : State) : Prop :=
  t = { s with
    status := t.status, errPos := t.errPos, outLen := t.outLen, brrLoop := t.brrLoop, dst := t.dst, work := t.work }

variable {i : Instr} {s s' t u : State}

theorem OnlyResultsDiffer.trans (h : OnlyResultsDiffer s t) (h' : OnlyResultsDiffer t u) : OnlyResultsDiffer s u :=
  Eq.trans h' (by rw [h])

theorem OnlyResultsDiffer.cmd_eq (h : OnlyResultsDiffer s t) : t.cmd = s.cmd := by
  rw [h]

theorem onlyResultsDiffer_setWork (s : State) (w : Work) : OnlyResultsDiffer s (s.setWork w) := rfl

theorem onlyResultsDiffer_commit (s : State) (out : List Byte) : OnlyResultsDiffer s (s.commit out) := rfl

theorem onlyResultsDiffer_raise (s : State) (e : Err) (pos : Nat) : OnlyResultsDiffer s (s.raise e pos) := rfl

/-- The ways in which a stream element can act write the results only. -/
theorem SameOutcome.onlyResultsDiffer {r' : Result} (o : SameOutcome s s' (.next t) r') : OnlyResultsDiffer s t := by
  generalize hn : (Host.Outcome.next t : Result) = r at o
  cases o with
  | go w => cases hn; exact onlyResultsDiffer_setWork s w
  | finish out => cases hn; exact onlyResultsDiffer_commit s out
  | finishBrr b => cases hn; exact (onlyResultsDiffer_setWork s (.brr b)).trans (onlyResultsDiffer_commit _ b.out)
  | stop st =>
    obtain ⟨e, pos, -, rfl⟩ := stop_eq_next.1 hn.symm
    exact onlyResultsDiffer_raise s e pos
  | refused r => cases hn

theorem onlyResultsDiffer_of_engineStep (hr : s.Runs i) (h : engineStep s = .next t) : OnlyResultsDiffer s t :=
  (h ▸ (SameInputs.refl i s).engineStep_same hr).onlyResultsDiffer

theorem onlyResultsDiffer_of_runEngine {n : Nat} (hr : s.Runs i) (h : runEngine n s = .next t) : OnlyResultsDiffer s t := by
  induction n generalizing s with
  | zero => cases h
  | succ n ih =>
    obtain ⟨u, hu, ⟨-, rfl⟩ | ⟨hne, hrun⟩⟩ := runEngine_succ_eq_next.1 h
    · exact onlyResultsDiffer_of_engineStep hr hu
    · obtain ⟨w, ha, rfl⟩ := advances_of_step hr hu hne
      exact (onlyResultsDiffer_setWork s w).trans (ih (ha.runs hr) hrun)

/-- A command that ends leaves an idle block in which only the results have changed. -/
theorem idle_and_onlyResultsDiffer_of_exec (hi : i.isCommand = true) (h : exec i s = .next t) :
    t.work = .idle ∧ OnlyResultsDiffer s t := by
  rcases illegal_or_startWork_of_isCommand hi with ⟨word, rfl⟩ | ⟨w, hw⟩
  · cases h
    exact ⟨rfl, rfl⟩
  · rw [exec_eq_runCommand hw] at h
    have hstart := onlyResultsDiffer_setWork s w
    rcases runCommand_eq_next.1 h with ⟨e, pos, -, rfl⟩ | ⟨hc, hrun⟩
    · exact ⟨rfl, hstart.trans (onlyResultsDiffer_raise _ e pos)⟩
    · exact ⟨runEngine_idle hrun, hstart.trans (onlyResultsDiffer_of_runEngine (runs_of_startChecks hw hc) hrun)⟩

/-- Settles O5: the step is the command on the state that has the word in `CMD`, and by its frame a command leaves `CMD` alone. -/
theorem cmdWriteStoresTheWordAndRunsItsCommand : Obligations.CmdWriteStoresTheWordAndRunsItsCommand := by
  unfold Obligations.CmdWriteStoresTheWordAndRunsItsCommand
  intro s rest hs
  refine ⟨fun w hh => ?_, fun hh => step_of_regRead hs hh⟩
  have hstep := step_of_command hs hh (w := w) rfl
  refine ⟨hstep, fun t ht => ?_, fun hw => ?_⟩
  · obtain ⟨hidle, hframe⟩ := idle_and_onlyResultsDiffer_of_exec (isCommand_decodeCommand w) (hstep.symm.trans ht)
    exact ⟨hidle, hframe.cmd_eq⟩
  · rw [hstep, decodeCommand_of_not_legal hw, exec_illegal]

end Sys2Proof.Machine
end

section
/-! SUPPORT. The fields of a command word against the match and mask table (R92, R93). -/

namespace Sys2Proof

/-! ## The fields of a word -/

/-- The opcode, the reserved bits, the flip bits and the size half make up a word. -/
theorem eq_iff_fields (w v : Word) :
    w = v ↔ w.extractLsb' 0 8 = v.extractLsb' 0 8 ∧ w.extractLsb' 10 6 = v.extractLsb' 10 6 ∧
      w.extractLsb' 8 2 = v.extractLsb' 8 2 ∧ w.extractLsb' 16 16 = v.extractLsb' 16 16 := by
  refine ⟨fun h => h ▸ ⟨rfl, rfl, rfl, rfl⟩, fun ⟨hopc, hres, hflip, hsize⟩ => ?_⟩
  simp only [Laws.extract_eq, BitVec.extractLsb'_toNat, Nat.shiftRight_eq_div_pow] at hopc hres hflip hsize
  refine BitVec.eq_of_toNat_eq ?_
  omega

/-! ## The table, field by field -/

/-- The opcode of a row of the table. -/
def CommandRow.opcode (r : CommandRow) : Byte := r.pattern.extractLsb' 0 8

/-- The opcodes that use the flip bits 9:8 (R92). -/
def flipOpcodes : List Byte := [0x10#8, 0x11#8, 0x12#8, 0x13#8]

/-- The opcodes that use the size half, bits 31:16 (R92). -/
def sizeOpcodes : List Byte := [0x14#8, 0x15#8]

/-- A row leaves free the fields that its opcode uses, and wants 0 in the others. -/
structure CommandRow.MasksUnusedFields (r : CommandRow) : Prop where
  opcode_mask : r.mask.extractLsb' 0 8 = BitVec.allOnes 8
  flip_mask : r.mask.extractLsb' 8 2 = if r.opcode ∈ flipOpcodes then 0#2 else BitVec.allOnes 2
  reserved_mask : r.mask.extractLsb' 10 6 = BitVec.allOnes 6
  size_mask : r.mask.extractLsb' 16 16 = if r.opcode ∈ sizeOpcodes then 0#16 else BitVec.allOnes 16
  flip_zero : r.pattern.extractLsb' 8 2 = 0#2
  reserved_zero : r.pattern.extractLsb' 10 6 = 0#6
  size_zero : r.pattern.extractLsb' 16 16 = 0#16
  needsSize_eq : r.needsSize = decide (r.opcode ∈ sizeOpcodes)

theorem CommandRow.masksUnusedFields_of_mem {r : CommandRow} (h : r ∈ commandRows) : r.MasksUnusedFields := by
  simp only [commandRows, List.mem_cons, List.not_mem_nil, or_false] at h
  rcases h with rfl | rfl | rfl | rfl | rfl | rfl | rfl | rfl | rfl | rfl | rfl | rfl <;>
    constructor <;> decide

/-- What R93 says of a word beside its opcode being one of the twelve: reserved and unused fields are 0, sizes are not. -/
def FieldsLegal (w : Word) : Prop :=
  w.extractLsb' 10 6 = 0#6 ∧
  (w.extractLsb' 0 8 ∉ flipOpcodes → w.extractLsb' 8 2 = 0#2) ∧
  (w.extractLsb' 0 8 ∉ sizeOpcodes → w.extractLsb' 16 16 = 0#16) ∧
  (w.extractLsb' 0 8 ∈ sizeOpcodes → w.extractLsb' 16 8 ≠ 0#8 ∧ w.extractLsb' 24 8 ≠ 0#8)

/-- A field is 0 under its mask when it is 0 or left free. -/
theorem and_ite_allOnes_eq_zero {n : Nat} (p : Prop) [Decidable p] (x : BitVec n) :
    (x &&& if p then 0#n else BitVec.allOnes n) = 0#n ↔ (¬p → x = 0#n) := by
  split_ifs with hp <;> simp [hp]

/-- A row matches the words of its opcode whose fields are legal. -/
theorem CommandRow.matches_iff {r : CommandRow} (hr : r ∈ commandRows) (w : Word) :
    r.matches w = true ↔ w.extractLsb' 0 8 = r.opcode ∧ FieldsLegal w := by
  have m := CommandRow.masksUnusedFields_of_mem hr
  have hmask : w &&& r.mask = r.pattern ↔ w.extractLsb' 0 8 = r.opcode ∧ w.extractLsb' 10 6 = 0#6 ∧
      (r.opcode ∉ flipOpcodes → w.extractLsb' 8 2 = 0#2) ∧ (r.opcode ∉ sizeOpcodes → w.extractLsb' 16 16 = 0#16) := by
    rw [eq_iff_fields, ← CommandRow.opcode]
    simp only [BitVec.extractLsb'_and, m.opcode_mask, m.reserved_mask, m.flip_mask, m.size_mask, m.reserved_zero,
      m.flip_zero, m.size_zero, BitVec.and_allOnes, and_ite_allOnes_eq_zero]
  have hsize : (!r.needsSize || (w.extractLsb' 16 8 != 0#8 && w.extractLsb' 24 8 != 0#8)) = true ↔
      (r.opcode ∈ sizeOpcodes → w.extractLsb' 16 8 ≠ 0#8 ∧ w.extractLsb' 24 8 ≠ 0#8) := by
    simp [m.needsSize_eq, imp_iff_not_or]
  rw [CommandRow.matches, Bool.and_eq_true, beq_iff_eq, hmask, hsize]
  simp only [and_assoc, FieldsLegal]
  exact and_congr_right fun hopc => by rw [hopc]

/-- The twelve opcodes of R92, one for each row. -/
theorem map_opcode_commandRows : commandRows.map CommandRow.opcode =
    [0x10#8, 0x11#8, 0x12#8, 0x13#8, 0x14#8, 0x15#8, 0x20#8, 0x21#8, 0x30#8, 0x40#8, 0x50#8, 0x60#8] := by
  decide

/-- A word is legal when its opcode is in the table and its fields are legal. -/
theorem legalWord_iff (w : Word) :
    legalWord w = true ↔ w.extractLsb' 0 8 ∈ commandRows.map CommandRow.opcode ∧ FieldsLegal w := by
  rw [legalWord, List.any_eq_true, List.mem_map]
  constructor
  · rintro ⟨r, hr, hw⟩
    obtain ⟨hopc, hfields⟩ := (CommandRow.matches_iff hr w).1 hw
    exact ⟨⟨r, hr, hopc.symm⟩, hfields⟩
  · rintro ⟨⟨r, hr, hopc⟩, hfields⟩
    exact ⟨r, hr, (CommandRow.matches_iff hr w).2 ⟨hopc.symm, hfields⟩⟩

/-- No two rows have the same opcode, so no two match a word. -/
theorem CommandRow.eq_of_matches {r r' : CommandRow} {w : Word} (hr : r ∈ commandRows) (hr' : r' ∈ commandRows)
    (h : r.matches w = true) (h' : r'.matches w = true) : r = r' := by
  have hnodup : (commandRows.map CommandRow.opcode).Nodup := by
    rw [map_opcode_commandRows]
    decide
  obtain ⟨hopc, -⟩ := (CommandRow.matches_iff hr w).1 h
  obtain ⟨hopc', -⟩ := (CommandRow.matches_iff hr' w).1 h'
  exact List.inj_on_of_nodup_map hnodup hr hr' (hopc.symm.trans hopc')

end Sys2Proof
end

section
/-! SUPPORT. Illegal words: the decoder answers `illegal` on them only (R93), and they raise `IllegalCommand(0)` (R95). -/

namespace Sys2Proof.Machine

/-- The decoder answers `illegal` on the words that no row matches, and with that word. -/
theorem decodeCommand_eq_illegal_iff {w v : Word} : decodeCommand w = .illegal v ↔ v = w ∧ legalWord w = false := by
  constructor
  · intro h
    simp only [decodeCommand, ite_eq_iff, reduceCtorEq, and_false, false_or, Instr.illegal.injEq, ne_eq,
      not_and, not_not] at h
    obtain ⟨h1, h2, h3, h4, h5, h6, h7, h8, h9, h10, h11, h12, rfl⟩ := h
    have hfull : w &&& 0xFFFFFFFF#32 = w := BitVec.and_allOnes
    refine ⟨rfl, ?_⟩
    simpa [legalWord, commandRows, CommandRow.matches, hfull] using
      ⟨h1, h2, h3, h4, h5, h6, h7, h8, h9, h10, h11, h12⟩
  · rintro ⟨rfl, hw⟩
    exact decodeCommand_of_not_legal hw

/-- Settles O3: the rows of the table leave free exactly the fields that their opcodes use, and no opcode has two rows. -/
theorem commandWordIsLegalExactlyAsTheTableSays : Obligations.CommandWordIsLegalExactlyAsTheTableSays := by
  unfold Obligations.CommandWordIsLegalExactlyAsTheTableSays
  intro w
  refine ⟨?_, fun r hr r' hr' => CommandRow.eq_of_matches hr hr', ?_, fun v h => ?_⟩
  · rw [legalWord_iff, map_opcode_commandRows]
    rfl
  · simp [decodeCommand_eq_illegal_iff]
  · exact (decodeCommand_eq_illegal_iff.1 h).1

/-- Settles O22: the command that the write executes is the illegal one, whose meaning is the error. -/
theorem illegalWordRaisesIllegalCommand : Obligations.IllegalWordRaisesIllegalCommand := by
  unfold Obligations.IllegalWordRaisesIllegalCommand
  refine ⟨by decide, fun s w => exec_illegal w s, fun s w rest hs hh hw => ?_⟩
  rw [step_of_command hs hh rfl, decodeCommand_of_not_legal hw, exec_illegal]

end Sys2Proof.Machine
end

section
/-! SUPPORT. The LZ match word as a 16-bit word, and its two fields (R111). -/

namespace Sys2Proof.Machine

/-! ## The two ends of a word -/

/-- The low `n` bits of a word. -/
theorem toNat_extract_low {m : Nat} (w : BitVec m) (n : Nat) : (w.extractLsb' 0 n).toNat = w.toNat % 2 ^ n := by
  rw [BitVec.extractLsb'_toNat, Nat.shiftRight_zero]

/-- The bits of a word from bit `a` up. -/
theorem toNat_extract_high {m a n : Nat} (w : BitVec m) (h : a + n = m) :
    (w.extractLsb' a n).toNat = w.toNat / 2 ^ a := by
  subst h
  rw [BitVec.extractLsb'_toNat, Nat.shiftRight_eq_div_pow]
  exact Nat.mod_eq_of_lt (Nat.div_lt_of_lt_mul (Nat.pow_add .. ▸ w.isLt))

/-! ## The match word -/

/-- The match word is the two bytes in the order that `PAIR_LE` says. -/
theorem lzWord_eq_toNat (cfg : Word) (b0 b1 : Byte) :
    lzWord cfg b0 b1 = (if lzPairLe cfg then b1 ++ b0 else b0 ++ b1 : BitVec 16).toNat := by
  unfold lzWord
  split_ifs
  · exact (Laws.toNat_append_add b1 b0).symm
  · exact (Laws.toNat_append_add b0 b1).symm

theorem lzLenBits_le (cfg : Word) : lzLenBits cfg ≤ 16 := (cfg.extractLsb' 0 4).isLt.le

variable {cfg : Word} {b0 b1 : Byte} {w : BitVec 16}

/-- The distance is the field of the match word that `LEN_BITS` and `LEN_LOW` leave. -/
theorem lzDist_eq_field (hw : lzWord cfg b0 b1 = w.toNat) :
    lzDist cfg b0 b1 = (if lzLenLow cfg then w.extractLsb' (lzLenBits cfg) (16 - lzLenBits cfg)
      else w.extractLsb' 0 (16 - lzLenBits cfg)).toNat := by
  have := lzLenBits_le cfg
  rw [lzDist, hw]
  split_ifs
  · rw [toNat_extract_high w (by omega)]
  · rw [toNat_extract_low]

/-- The length field is the `LEN_BITS` bits at the end of the match word that `LEN_LOW` says. -/
theorem lzLenField_eq_field (hw : lzWord cfg b0 b1 = w.toNat) :
    lzLenField cfg b0 b1 = (if lzLenLow cfg then w.extractLsb' 0 (lzLenBits cfg)
      else w.extractLsb' (16 - lzLenBits cfg) (lzLenBits cfg)).toNat := by
  have := lzLenBits_le cfg
  rw [lzLenField, hw]
  split_ifs
  · rw [toNat_extract_low]
  · rw [toNat_extract_high w (by omega)]

/-! ## The reset grammar (R29) -/

theorem lzLength_reset (b0 b1 : Byte) : lzLength 0x00000304#32 b0 b1 = b0.toNat / 16 + 3 := by
  change (b0.toNat * 256 + b1.toNat) / 4096 + 3 = _
  have := b1.isLt
  omega

theorem lzDist_reset (b0 b1 : Byte) : lzDist 0x00000304#32 b0 b1 = b0.toNat % 16 * 256 + b1.toNat := by
  change (b0.toNat * 256 + b1.toNat) % 4096 = _
  have := b1.isLt
  omega

/-- Settles O44: the model's quotients and remainders of the match word are its bit fields. -/
theorem matchWordSplitsAsTheGrammarSays : Obligations.MatchWordSplitsAsTheGrammarSays := by
  unfold Obligations.MatchWordSplitsAsTheGrammarSays
  refine ⟨fun cfg b0 b1 w bits hbits _ hw => ?_, fun b0 b1 => ?_⟩
  · subst hbits
    have hword : lzWord cfg b0 b1 = w.toNat := hw ▸ lzWord_eq_toNat cfg b0 b1
    exact ⟨lzDist_eq_field hword, congrArg (· + lzLenBias cfg) (lzLenField_eq_field hword)⟩
  · have := b0.isLt; have := b1.isLt
    rw [lzLength_reset, lzDist_reset]
    refine ⟨rfl, rfl, ?_, ?_, ?_⟩ <;> omega

end Sys2Proof.Machine
end

section
/-! SUPPORT. The tile planar codec bit by bit: the flips (R131 to R133), which plane and row a byte of a packed tile holds
(R101), and the bits of unpacked pixels and of packed bytes, from which `unpack` and `pack` are inverse (R130, R136, R139). -/

namespace Sys2Proof.Machine

/-! ## The flips (R131, R132) -/

theorem hflip_apply (m : Matrix) (x y : Nat) : hflip m x y = m (7 - x) y := rfl

theorem vflip_apply (m : Matrix) (x y : Nat) : vflip m x y = m x (7 - y) := rfl

theorem flip_none (m : Matrix) : flip m false false = m := rfl

theorem flip_h (m : Matrix) : flip m true false = hflip m := rfl

theorem flip_v (m : Matrix) : flip m false true = vflip m := rfl

theorem flip_both (m : Matrix) : flip m true true = hflip (vflip m) := rfl

theorem hflip_vflip_comm (m : Matrix) : hflip (vflip m) = vflip (hflip m) := rfl

theorem hflip_hflip (m : Matrix) {x : Nat} (y : Nat) (hx : x < 8) : hflip (hflip m) x y = m x y := by
  rw [hflip_apply, hflip_apply, Nat.sub_sub_self (by omega)]

theorem vflip_vflip (m : Matrix) (x : Nat) {y : Nat} (hy : y < 8) : vflip (vflip m) x y = m x y := by
  rw [vflip_apply, vflip_apply, Nat.sub_sub_self (by omega)]

/-- Settles O23: each flip mirrors one coordinate of the 8 by 8 matrix, so it undoes itself and leaves the other alone. -/
theorem flipsAreInvolutionsAndCommute : Obligations.FlipsAreInvolutionsAndCommute := by
  unfold Obligations.FlipsAreInvolutionsAndCommute
  intro m x y hx hy
  exact ⟨hflip_apply m x y, vflip_apply m x y, hflip_hflip m y hx, vflip_vflip m x hy,
    congrFun₂ (hflip_vflip_comm m) x y, congrFun₂ (flip_none m) x y, congrFun₂ (flip_h m) x y,
    congrFun₂ (flip_v m) x y, congrFun₂ (flip_both m) x y⟩

/-! ## The byte of a plane and a row (R101) -/

theorem Depth.bits_le (d : Depth) : d.bits ≤ 4 := by cases d <;> decide

theorem planeOff_lt {d : Depth} {p y : Nat} (hp : p < d.bits) (hy : y < 8) : planeOff p y < d.tileBytes := by
  unfold planeOff
  cases d
  case two =>
    change p < 2 at hp
    change _ < 16
    rw [if_neg (by omega)]
    omega
  case four =>
    change p < 4 at hp
    change _ < 32
    split_ifs <;> omega

theorem planeAt_planeOff {p y : Nat} (hp : p < 4) (hy : y < 8) : planeAt (planeOff p y) = (p, y) := by
  unfold planeAt planeOff
  by_cases h2 : 2 ≤ p
  · rw [if_pos h2, if_neg (by omega), Prod.mk.injEq]
    omega
  · rw [if_neg h2, if_pos (by omega), Prod.mk.injEq]
    omega

theorem planeOff_planeAt (off : Nat) : planeOff (planeAt off).1 (planeAt off).2 = off := by
  unfold planeAt planeOff
  split_ifs <;> omega

theorem planeAt_lt {d : Depth} {off : Nat} (h : off < d.tileBytes) :
    (planeAt off).1 < d.bits ∧ (planeAt off).2 < 8 := by
  unfold planeAt
  cases d
  case two =>
    change off < 16 at h
    rw [if_pos h]
    change _ < 2 ∧ _
    omega
  case four =>
    change off < 32 at h
    change _ < 4 ∧ _
    split_ifs <;> omega

/-! ## A number given by its bits -/

/-- A sum of distinct powers of two, each taken or left out, is the number with those bits. -/
theorem sum_bits_eq_ofBits (f : Nat → Bool) (n : Nat) :
    ((List.range n).map fun i => (f i).toNat * 2 ^ i).sum = Nat.ofBits fun i : Fin n => f i := by
  induction n generalizing f with
  | zero => rfl
  | succ n ih =>
    have hdouble (i : Nat) : (f (i + 1)).toNat * 2 ^ (i + 1) = 2 * ((f (i + 1)).toNat * 2 ^ i) := by ring
    rw [List.range_succ_eq_map, List.map_cons, List.sum_cons, List.map_map, Nat.ofBits_succ, Nat.add_comm]
    simp only [Function.comp_def, Nat.succ_eq_add_one, hdouble, List.sum_map_mul_left, ih fun i => f (i + 1)]
    simp

/-! ## The bits of unpacked pixels (R130) -/

theorem unpack_lt (tb : List Byte) (d : Depth) (x y : Nat) : (unpack tb d x y).toNat < 2 ^ d.bits :=
  (Nat.mod_le _ _).trans_lt (sum_bits_eq_ofBits _ d.bits ▸ Nat.ofBits_lt_two_pow _)

theorem getLsbD_unpack (tb : List Byte) {d : Depth} (x y : Nat) {p : Nat} (hp : p < d.bits) :
    (unpack tb d x y).getLsbD p = (tb.getD (planeOff p y) 0#8).getLsbD (7 - x) := by
  have := d.bits_le
  rw [unpack, BitVec.getLsbD_ofNat, sum_bits_eq_ofBits, Nat.testBit_ofBits_lt _ p hp, decide_eq_true (by omega : p < 8),
    Bool.true_and]

/-- Settles O25: the sum over the planes is a number given by its bits. -/
theorem unpackedPixelBitsAreThePlaneBits : Obligations.UnpackedPixelBitsAreThePlaneBits := by
  unfold Obligations.UnpackedPixelBitsAreThePlaneBits
  intro d tb x y hlen _ hy
  refine ⟨unpack_lt tb d x y, fun p hp => ?_⟩
  have hoff : planeOff p y < tb.length := hlen ▸ planeOff_lt hp hy
  refine ⟨hoff, ?_⟩
  rw [getLsbD_unpack tb x y hp, List.getD_eq_getElem tb _ hoff]
  rfl

/-! ## The bits of packed bytes (R136) -/

/-- The summands of a packed byte, in the order of their weight. -/
theorem packByte_eq (m : Matrix) (p y : Nat) :
    packByte m p y = BitVec.ofNat 8 ((List.range 8).map fun k => ((m (7 - k) y).getLsbD p).toNat * 2 ^ k).sum := by
  have hreverse : (List.range 8).reverse = (List.range 8).map (7 - ·) := by decide
  rw [packByte, ← List.sum_reverse, ← List.map_reverse, hreverse, List.map_map]
  rfl

theorem getLsbD_packByte (m : Matrix) (p y : Nat) {k : Nat} (hk : k < 8) :
    (packByte m p y).getLsbD k = (m (7 - k) y).getLsbD p := by
  rw [packByte_eq, BitVec.getLsbD_ofNat, sum_bits_eq_ofBits, Nat.testBit_ofBits_lt _ k hk, decide_eq_true hk,
    Bool.true_and]

theorem length_pack (m : Matrix) (d : Depth) : (pack m d).length = d.tileBytes := by
  rw [pack, List.length_map, List.length_range]

theorem getD_pack_planeOff (m : Matrix) {d : Depth} {p y : Nat} (hp : p < d.bits) (hy : y < 8) :
    (pack m d).getD (planeOff p y) 0#8 = packByte m p y := by
  have hoff := planeOff_lt hp hy
  rw [List.getD_eq_getElem _ _ (length_pack m d ▸ hoff)]
  simp only [pack, List.getElem_map, List.getElem_range, planeAt_planeOff (hp.trans_le d.bits_le) hy]

/-! ## Unpack and pack are inverse (R139) -/

theorem unpack_pack {m : Matrix} {d : Depth} {x y : Nat} (hm : (m x y).toNat < 2 ^ d.bits) (hx : x < 8) (hy : y < 8) :
    unpack (pack m d) d x y = m x y := by
  apply BitVec.eq_of_getLsbD_eq
  intro p _
  by_cases hp : p < d.bits
  · rw [getLsbD_unpack _ x y hp, getD_pack_planeOff m hp hy, getLsbD_packByte m p y (by omega),
      Nat.sub_sub_self (by omega)]
  · have above {v : Byte} (hv : v.toNat < 2 ^ d.bits) : v.getLsbD p = false :=
      Nat.testBit_lt_two_pow (hv.trans_le (Nat.pow_le_pow_right (by decide) (Nat.le_of_not_lt hp)))
    rw [above (unpack_lt _ d x y), above hm]

theorem packByte_unpack (tb : List Byte) {d : Depth} {p : Nat} (y : Nat) (hp : p < d.bits) :
    packByte (unpack tb d) p y = tb.getD (planeOff p y) 0#8 := by
  apply BitVec.eq_of_getLsbD_eq
  intro k hk
  rw [getLsbD_packByte _ p y hk, getLsbD_unpack tb _ y hp, Nat.sub_sub_self (by omega)]

theorem pack_unpack {tb : List Byte} {d : Depth} (hlen : tb.length = d.tileBytes) : pack (unpack tb d) d = tb := by
  apply List.ext_getElem ((length_pack _ d).trans hlen.symm)
  intro off _ hoff
  obtain ⟨hp, -⟩ := planeAt_lt (hlen ▸ hoff)
  simp only [pack, List.getElem_map, List.getElem_range]
  rw [packByte_unpack tb _ hp, planeOff_planeAt, List.getD_eq_getElem tb _ hoff]

/-- Settles O24: the two sides of each equation have the same bits. -/
theorem unpackAndPackAreInverse : Obligations.UnpackAndPackAreInverse := by
  unfold Obligations.UnpackAndPackAreInverse
  exact fun d => ⟨fun m hm => ⟨length_pack m d, fun x y hx hy => unpack_pack (hm x y hx hy) hx hy⟩,
    fun _ hlen => pack_unpack hlen⟩

end Sys2Proof.Machine
end

section
/-! SUPPORT. The channel functions of the colour converter on numbers (R150). -/

namespace Sys2Proof.Machine

/-- The five bits and the three repeated ones do not overlap, so their disjunction is their sum. -/
theorem toNat_widen (c5 : BitVec 5) : (widen c5).toNat = c5.toNat * 8 + c5.toNat / 4 := by
  have hc5 : c5.toNat < 32 := c5.isLt
  have hrepeated : c5.toNat / 4 < 2 ^ 3 := by omega
  have hshifted : (c5.setWidth 8 <<< 3).toNat = 2 ^ 3 * c5.toNat := by
    rw [BitVec.toNat_shiftLeft, BitVec.toNat_setWidth, Nat.shiftLeft_eq]
    omega
  have htop : (c5.setWidth 8 >>> 2).toNat = c5.toNat / 4 := by
    rw [BitVec.toNat_ushiftRight, BitVec.toNat_setWidth, Nat.shiftRight_eq_div_pow]
    omega
  rw [widen, BitVec.toNat_or, hshifted, htop, ← Nat.two_pow_add_eq_or_of_lt hrepeated, Nat.mul_comm]

theorem toNat_narrow (c8 : Byte) : (narrow c8).toNat = c8.toNat / 8 := by
  rw [narrow, BitVec.toNat_setWidth, BitVec.toNat_ushiftRight, Nat.shiftRight_eq_div_pow]
  have hc8 : c8.toNat < 256 := c8.isLt
  omega

/-- The repeated bits stand in the three bits that `narrow` drops. -/
theorem narrow_widen (c5 : BitVec 5) : narrow (widen c5) = c5 := by
  apply BitVec.eq_of_toNat_eq
  rw [toNat_narrow, toNat_widen]
  have hc5 : c5.toNat < 32 := c5.isLt
  omega

/-- Settles O34: on numbers `widen` is a sum and `narrow` a quotient, which gives back the upper part of the sum. -/
theorem widenAndNarrowChannels : Obligations.WidenAndNarrowChannels := by
  unfold Obligations.WidenAndNarrowChannels
  exact ⟨fun c5 => ⟨toNat_widen c5, narrow_widen c5⟩, toNat_narrow, by decide⟩

end Sys2Proof.Machine
end

section
/-! SUPPORT. The arithmetic of a BRR sample on integers: shifts as floor divisions, the filter terms, the clamp (R164, R165, R168). -/

namespace Sys2Proof.Machine

/-- The arithmetic shift rounds toward minus infinity (R10, R165). -/
theorem asr_eq_fdiv (x : Int) (n : Nat) : asr x n = x.fdiv (2 ^ n) :=
  (Int.fdiv_eq_ediv_of_nonneg x (by positivity)).symm

theorem clamp16_eq_max_min (v : Int) : clamp16 v = max (-32768) (min 32767 v) := by
  unfold clamp16
  split_ifs <;> omega

/-- A clamped value fits in 16 bits, so the sample is that value (R168). -/
theorem toInt_brrSample (shift filter : Nat) (nibble : BitVec 4) (p1 p2 : Sample) :
    (brrSample shift filter nibble p1 p2).toInt =
      max (-32768) (min 32767 (scale nibble.toInt shift + term filter p1.toInt p2.toInt)) := by
  rw [brrSample, clamp16_eq_max_min, BitVec.toInt_ofInt]
  exact Int.bmod_eq_of_le (by omega) (by omega)

/-- The filter term with its shifts as floor divisions (R165). -/
theorem term_eq_fdiv (filter : BitVec 2) (p1 p2 : Int) :
    term filter.toNat p1 p2 =
      if filter = 0#2 then 0
      else if filter = 1#2 then (p1 * 15).fdiv 16
      else if filter = 2#2 then (p1 * 61).fdiv 32 + (p2 * -15).fdiv 16
      else (p1 * 115).fdiv 64 + (p2 * -13).fdiv 16 := by
  have hcases : filter = 0#2 ∨ filter = 1#2 ∨ filter = 2#2 ∨ filter = 3#2 := by
    revert filter
    decide
  rcases hcases with rfl | rfl | rfl | rfl <;> simp [term, asr_eq_fdiv]

/-- Settles O39: the sum is clamped into the range of a sample, so narrowing it to 16 bits loses nothing. -/
theorem sampleIsTheClampedSum : Obligations.SampleIsTheClampedSum := by
  unfold Obligations.SampleIsTheClampedSum
  rintro shift filter nibble b v f x rfl rfl rfl
  exact ⟨rfl, term_eq_fdiv filter _ _, toInt_brrSample _ _ nibble b.p1 b.p2, rfl, rfl⟩

end Sys2Proof.Machine
end

section
/-! SUPPORT. A BRR stream that stops short: what the decoder finds where the next block is needed, and how the command ends there
(R161, R170). -/

namespace Sys2Proof.Machine

variable {s : State} {b : BrrWork} {e : Err} {pos : Nat}

/-! ## What is left at the cursor -/

theorem brrFetch_of_nothing_left (h : s.srcLen.toNat ≤ b.c) : brrFetch b s = .error (.raise .noEnd b.c) :=
  bind_eq_error.2 (.inl (failIf_pos h))

theorem brrFetch_of_partial_block (h : b.c < s.srcLen.toNat) (h9 : s.srcLen.toNat - b.c < 9) :
    brrFetch b s = .error (.raise .endBeforeBlocks b.c) :=
  bind_eq_error.2 (.inr ⟨(), failIf_neg h.not_ge, bind_eq_error.2 (.inl (failIf_pos h9))⟩)

/-! ## How the command ends -/

/-- A running engine that cannot fetch stops there. -/
theorem step_of_fetch_error {st : Stop} (hw : s.work ≠ .idle) (hf : engineFetch s = .error st) : step s = s.stop st := by
  have hnext : nextAction s = .stop st := by
    unfold nextAction
    split
    · contradiction
    · rw [engineNext, hf]
  rw [step, hnext]

theorem engineStep_of_fetch_error {st : Stop} (hf : engineFetch s = .error st) : engineStep s = s.stop st := by
  rw [engineStep, hf]

theorem engineFetch_of_brr (hw : s.work = .brr b) : engineFetch s = brrFetch b s := by
  rw [engineFetch, hw]

/-- An error of `BRRDEC` leaves `BRR_LOOP` 0 (R31). -/
theorem raise_of_brr (hw : s.work = .brr b) (e : Err) (pos : Nat) :
    s.raise e pos = (s.failed e.code pos).withLoop 0#32 := by
  rw [State.raise_eq_withLoop, State.loopAfterError, hw]

theorem step_of_brrFetch_raise (hw : s.work = .brr b) (hf : brrFetch b s = .error (.raise e pos)) :
    step s = .next ((s.failed e.code pos).withLoop 0#32) := by
  rw [step_of_fetch_error (by simp [hw]) ((engineFetch_of_brr hw).trans hf), State.stop, raise_of_brr hw]

/-- `BRRDEC` whose first fetch is an error ends with it. -/
theorem exec_brrdec_of_brrFetch_raise (hcap : s.srcLen.toNat ≤ s.cfg.srcCap)
    (hf : brrFetch .start (s.setWork (.brr .start)) = .error (.raise e pos)) :
    exec .brrdec s = .next ((s.failed e.code pos).withLoop 0#32) := by
  have hstep : engineStep (s.setWork (.brr .start)) = .next ((s.failed e.code pos).withLoop 0#32) := by
    rw [engineStep_of_fetch_error ((engineFetch_of_brr rfl).trans hf), State.stop, raise_of_brr rfl]
    rfl
  exact runCommand_eq_next.2 (.inr ⟨failIf_neg hcap.not_gt, runEngine_of_end hstep rfl⟩)

/-- Settles O41: the fetch fails at the cursor, and a new command has its cursor at 0. -/
theorem brrStreamThatStopsShort : Obligations.BrrStreamThatStopsShort := by
  unfold Obligations.BrrStreamThatStopsShort
  refine ⟨fun s b hw => ⟨fun hc => ?_, fun hc h9 => ?_⟩, fun s hlen => ?_, fun s hpos h9 hcap => ?_⟩
  · rw [← hc]
    exact step_of_brrFetch_raise (e := .noEnd) hw (brrFetch_of_nothing_left hc.ge)
  · exact step_of_brrFetch_raise (e := .endBeforeBlocks) hw (brrFetch_of_partial_block hc h9)
  · have hzero : s.srcLen.toNat = 0 := by rw [hlen, BitVec.toNat_zero]
    have hcap : s.srcLen.toNat ≤ s.cfg.srcCap := hzero.trans_le (Nat.zero_le _)
    exact exec_brrdec_of_brrFetch_raise (e := .noEnd) hcap (brrFetch_of_nothing_left hzero.le)
  · exact exec_brrdec_of_brrFetch_raise (e := .endBeforeBlocks) hcap (brrFetch_of_partial_block hpos h9)

end Sys2Proof.Machine
end

section
/-! SUPPORT. The copy of an LZ match: what it leaves of the output and each byte that it appends (R187). -/

namespace Sys2Proof.Machine

variable {dist length : Nat} {out : List Byte}

theorem length_lzCopy (dist length : Nat) (out : List Byte) : (lzCopy dist length out).length = out.length + length := by
  induction length generalizing out with
  | zero => rfl
  | succ n ih =>
    rw [lzCopy, ih, List.length_append, List.length_singleton]
    omega

/-- The copy only appends. -/
theorem take_lzCopy (dist length : Nat) (out : List Byte) : (lzCopy dist length out).take out.length = out := by
  induction length generalizing out with
  | zero => exact List.take_length
  | succ n ih =>
    have htake := congrArg (List.take out.length) (ih (out ++ [out.getD (out.length - dist) 0#8]))
    rwa [List.take_take, List.length_append, Nat.min_eq_left (Nat.le_add_right _ _), List.take_left] at htake

/-- A byte of the output is still there after the copy. -/
theorem getElem?_lzCopy_of_lt (dist length : Nat) {k : Nat} (hk : k < out.length) :
    (lzCopy dist length out)[k]? = out[k]? := by
  rw [← List.getElem?_take_of_lt hk, take_lzCopy]

/-- Each appended byte is the one `dist` places before it, in the output as it then stands. -/
theorem getElem?_lzCopy_eq_back (hd : 1 ≤ dist) (hle : dist ≤ out.length) {i : Nat} (hi : i < length) :
    (lzCopy dist length out)[out.length + i]? = (lzCopy dist length out)[out.length + i - dist]? := by
  induction length generalizing out i with
  | zero => omega
  | succ n ih =>
    rw [lzCopy]
    have hlen (b : Byte) : (out ++ [b]).length = out.length + 1 := List.length_append
    cases i with
    | zero =>
      rw [Nat.add_zero, getElem?_lzCopy_of_lt _ _ (by rw [hlen]; omega), getElem?_lzCopy_of_lt _ _ (by rw [hlen]; omega),
        List.getElem?_concat_length, List.getElem?_append_left (by omega), List.getD_eq_getElem _ _ (by omega),
        List.getElem?_eq_getElem]
    | succ i =>
      have hback := ih (out := out ++ [out.getD (out.length - dist) 0#8]) (i := i) (by rw [hlen]; omega) (by omega)
      rwa [hlen, Nat.add_right_comm, Nat.add_assoc] at hback

/-- The appended bytes repeat the last `dist` bytes of the output cyclically. -/
theorem getElem?_lzCopy_eq_cyclic (hd : 1 ≤ dist) (hle : dist ≤ out.length) {i : Nat} (hi : i < length) :
    (lzCopy dist length out)[out.length + i]? = out[out.length - dist + i % dist]? := by
  induction i using Nat.strong_induction_on with
  | _ i ih =>
    rw [getElem?_lzCopy_eq_back hd hle hi]
    by_cases hid : i < dist
    · rw [Nat.mod_eq_of_lt hid, getElem?_lzCopy_of_lt _ _ (by omega), Nat.sub_add_comm hle]
    · rw [Nat.add_sub_assoc (by omega), ih (i - dist) (by omega) (by omega), Nat.mod_eq_sub_mod (Nat.le_of_not_lt hid)]

/-- Settles O43: by induction on the length each byte is the one `dist` places back, so by induction on its place each byte repeats
one of the last `dist`. -/
theorem lzCopyRepeatsTheLastBytes : Obligations.LzCopyRepeatsTheLastBytes := by
  unfold Obligations.LzCopyRepeatsTheLastBytes
  exact fun dist length out hd hle => ⟨length_lzCopy dist length out, take_lzCopy dist length out,
    fun _ hi => ⟨getElem?_lzCopy_eq_back hd hle hi, getElem?_lzCopy_eq_cyclic hd hle hi⟩⟩

end Sys2Proof.Machine
end

section
/-! SUPPORT. How an LZ stream ends: what the decompressor finds at its cursor where the output is complete, where the input has
run out and at the marker, and how the step then ends the command (R188, R190). -/

namespace Sys2Proof.Machine

variable {s : State} {z : LzWork}

/-! ## A step of a running engine -/

theorem nextAction_of_running (hw : s.work ≠ .idle) : nextAction s = engineNext s := by
  unfold nextAction
  split
  · contradiction
  · rfl

/-- A running engine that has reached its end commits its output. -/
theorem step_of_fetch_done {out : List Byte} (hw : s.work ≠ .idle) (hf : engineFetch s = .ok (.done out)) :
    step s = .next (s.commit out) := by
  rw [step, nextAction_of_running hw, engineNext, hf]

/-- A running engine that finds an element gives it its meaning. -/
theorem step_of_fetch_element {i : Instr} (hw : s.work ≠ .idle) (hf : engineFetch s = .ok (.element i)) :
    step s = exec i s := by
  rw [step, nextAction_of_running hw, engineNext, hf]

/-! ## The ends of `LZDEC` -/

theorem commit_of_lz (hw : s.work = .lz z) (out : List Byte) : s.commit out = s.succeeded out :=
  s.commit_eq_succeeded out (by rw [State.loopAfterSuccess, hw])

theorem raise_of_lz (hw : s.work = .lz z) (e : Err) (pos : Nat) : s.raise e pos = s.failed e.code pos :=
  s.raise_eq_failed e pos (by rw [State.loopAfterError, hw])

theorem engineFetch_of_lz (hw : s.work = .lz z) : engineFetch s = lzFetch z s := by
  rw [engineFetch, hw]

theorem step_of_lzFetch_done {out : List Byte} (hw : s.work = .lz z) (hf : lzFetch z s = .ok (.done out)) :
    step s = .next (s.succeeded out) := by
  rw [step_of_fetch_done (by simp [hw]) ((engineFetch_of_lz hw).trans hf), commit_of_lz hw]

theorem step_of_lzFetch_raise {e : Err} {pos : Nat} (hw : s.work = .lz z) (hf : lzFetch z s = .error (.raise e pos)) :
    step s = .next (s.failed e.code pos) := by
  rw [step_of_fetch_error (by simp [hw]) ((engineFetch_of_lz hw).trans hf), State.stop, raise_of_lz hw]

/-! ## What is found at the cursor -/

theorem lzFetch_of_target_reached (ht : lzTerm s.lzCfg = 1) (hout : z.out.length = s.lzTarget.toNat) :
    lzFetch z s = .ok (.done z.out) :=
  if_pos ⟨ht, hout⟩

/-- Where the input has run out it does not matter what is needed. -/
theorem lzFetch_of_nothing_left (hgo : lzTerm s.lzCfg = 1 → z.out.length ≠ s.lzTarget.toNat)
    (hc : s.srcLen.toNat ≤ z.c) : lzFetch z s = lzInputEnd z s := by
  simp only [lzFetch, if_neg (not_and.2 hgo), if_pos hc, ite_self]

/-- A match pair of which only the first byte is there. -/
theorem lzFetch_of_half_match (hgo : lzTerm s.lzCfg = 1 → z.out.length ≠ s.lzTarget.toNat)
    (hc : z.c + 1 = s.srcLen.toNat) (hbits : z.bitsLeft ≠ 0) (hctrl : z.ctrl.getLsbD 7 = true) :
    lzFetch z s = .error (.raise .unexpectedEof z.c) := by
  rw [lzFetch, if_neg (not_and.2 hgo), if_neg hbits, if_neg (by simp [hctrl]), if_neg (by omega), failIf_pos (by omega)]
  rfl

/-- The marker where a control byte is needed. -/
theorem lzFetch_of_marker (ht : lzTerm s.lzCfg = 2) (hbits : z.bitsLeft = 0) (hc : z.c < s.srcLen.toNat)
    (hm : Holds s.src z.c [lzEndCtrl s.lzCfg]) : lzFetch z s = .ok (.element (.lzend (lzEndCtrl s.lzCfg))) := by
  have hread : s.readByte .src z.c = .ok (lzEndCtrl s.lzCfg) := readByte_eq_ok.2 (hm 0 Nat.one_pos)
  rw [lzFetch, if_neg (by simp [ht]), if_pos hbits, if_neg hc.not_ge]
  exact bind_eq_ok.2 ⟨_, hread, if_pos ⟨ht, rfl⟩⟩

/-! ## The marker and a match past the target -/

theorem exec_lzend_of_marker (hw : s.work = .lz z) (hbits : z.bitsLeft = 0) (ht : lzTerm s.lzCfg = 2) :
    exec (.lzend (lzEndCtrl s.lzCfg)) s = .next (s.succeeded z.out) := by
  rw [← commit_of_lz hw, exec, execLzend, hw]
  exact if_pos ⟨hbits, ht, rfl⟩

/-- A legal match that would pass the target of a `TERM = 1` stream does not fit, whether or not it passes the limit too. -/
theorem lzMatchChecks_of_past_target {length dist : Nat} (ht : lzTerm s.lzCfg = 1) (hl : length ≠ 0) (hd : dist ≠ 0)
    (hle : dist ≤ z.out.length) (hpast : s.lzTarget.toNat < z.out.length + length) :
    lzMatchChecks length dist z s = .error (.raise .outputLimitExceeded z.c) := by
  rw [lzMatchChecks, failIf_neg hl, failIf_neg (by omega)]
  by_cases hlim : s.limit < z.out.length + length
  · rw [failIf_pos hlim]
    rfl
  · rw [failIf_neg hlim, failIf_pos ⟨ht, hpast⟩]
    rfl

/-- A match whose checks fail ends the command. -/
theorem exec_lzmatch_of_checks_raise {b0 b1 : Byte} {e : Err} {pos : Nat} (hw : s.work = .lz z) (hbits : z.bitsLeft ≠ 0)
    (hctrl : z.ctrl.getLsbD 7 = true)
    (hc : lzMatchChecks (lzLength s.lzCfg b0 b1) (lzDist s.lzCfg b0 b1) z s = .error (.raise e pos)) :
    exec (.lzmatch b0 b1) s = .next (s.failed e.code pos) := by
  rw [← raise_of_lz hw, exec, execLzmatch, hw]
  refine (if_pos ⟨hbits, hctrl⟩).trans ?_
  rw [hc]
  rfl

/-- Settles O48: each clause is what the fetch finds at the cursor, or the failing check of the match. -/
theorem lzStreamEnds : Obligations.LzStreamEnds := by
  unfold Obligations.LzStreamEnds
  intro s z hw
  refine ⟨fun ht hout => ?_, fun hgo => ⟨fun hc ht => ?_, fun hc ht => ?_, fun hc hbits hctrl => ?_⟩,
    fun ht hbits hc hm => ?_, fun b0 b1 ht hbits hctrl hl hd hle hpast => ?_⟩
  · exact step_of_lzFetch_done hw (lzFetch_of_target_reached ht hout)
  · exact step_of_lzFetch_done hw ((lzFetch_of_nothing_left hgo hc.ge).trans (if_pos ht))
  · rw [← hc]
    exact step_of_lzFetch_raise (e := .unexpectedEof) hw ((lzFetch_of_nothing_left hgo hc.ge).trans (if_neg ht))
  · rw [← hc, Nat.add_sub_cancel]
    exact step_of_lzFetch_raise (e := .unexpectedEof) hw (lzFetch_of_half_match hgo hc hbits hctrl)
  · rw [step_of_fetch_element (by simp [hw]) ((engineFetch_of_lz hw).trans (lzFetch_of_marker ht hbits hc hm))]
    exact exec_lzend_of_marker hw hbits ht
  · exact exec_lzmatch_of_checks_raise (e := .outputLimitExceeded) hw hbits hctrl
      (lzMatchChecks_of_past_target ht hl hd hle hpast)

end Sys2Proof.Machine
end

section
/-! SUPPORT. `IllegalOperand` (R270): the checks that raise it before an engine starts, and the flip list of an assembly command,
which its engine reads byte by byte up to one that is no flip byte (R104, R140, R181). -/

namespace Sys2Proof.Machine

variable {s : State} {i : Instr} {work : Work}

/-! ## A command whose checks fail -/

/-- Only `BRRDEC` touches `BRR_LOOP` (R31). -/
theorem loopAfterError_of_startWork (hw : startWork i = some work) (s : State) :
    (s.setWork work).loopAfterError = if i = .brrdec then 0#32 else s.brrLoop := by
  cases i <;> cases hw <;> rfl

theorem exec_of_startChecks_raise {e : Err} {pos : Nat} (hw : startWork i = some work)
    (hc : startChecks i (s.setWork work) = .error (.raise e pos)) :
    exec i s = .next ((s.failed e.code pos).withLoop (if i = .brrdec then 0#32 else s.brrLoop)) := by
  rw [exec_eq_runCommand hw, runCommand, hc]
  simp only [State.stop, State.raise_eq_withLoop, loopAfterError_of_startWork hw]
  rfl

/-! ## Lengths above a capacity -/

/-- Every command checks its lengths before anything else (R258). -/
theorem startChecks_of_over_capacity (hw : startWork i = some work)
    (h : s.cfg.srcCap < s.srcLen.toNat ∨ (readsAux i = true ∧ s.cfg.auxCap < s.auxLen.toNat)) :
    startChecks i s = .error (.raise .illegalOperand 0) := by
  have hboth : s.cfg.srcCap < s.srcLen.toNat ∨ s.cfg.auxCap < s.auxLen.toNat := h.imp_right And.right
  have hsrc (hr : readsAux i = false) : s.cfg.srcCap < s.srcLen.toNat := h.resolve_right (by simp [hr])
  cases i with
  | tdec2 | tdec4 | tenc2 | tenc4 | cexp | cpack | lzdec =>
    exact bind_eq_error.2 (.inl (failIf_pos (hsrc rfl)))
  | brrdec => exact failIf_pos (hsrc rfl)
  | tasm2 | tasm4 => exact bind_eq_error.2 (.inl (failIf_pos hboth))
  | ipsapply | upsapply => exact failIf_pos hboth
  | _ => cases hw

/-! ## The LZ grammar (R181) -/

theorem lzLegal_iff (cfg : Word) :
    lzLegal cfg = true ↔ cfg.extractLsb' 24 8 = 0#8 ∧ cfg.extractLsb' 0 4 ≠ 0#4 ∧ cfg.extractLsb' 6 2 ≠ 3#2 := by
  simp [lzLegal, lzLenBits, lzTerm, ← BitVec.toNat_inj, and_assoc]

theorem lzChecks_of_illegal_grammar (h : lzLegal s.lzCfg = false) : lzChecks s = .error (.raise .illegalOperand 0) := by
  rw [lzChecks, failIf_pos h]
  by_cases hcap : s.cfg.srcCap < s.srcLen.toNat
  · rw [failIf_pos hcap]
    rfl
  · rw [failIf_neg hcap]
    rfl

theorem lzChecks_of_legal_grammar (h : lzLegal s.lzCfg = true) (hcap : s.srcLen.toNat ≤ s.cfg.srcCap) :
    lzChecks s = .ok () := by
  rw [lzChecks, failIf_neg hcap.not_gt, failIf_neg (by simp [h])]
  rfl

/-! ## The checks of an assembly command (R140) -/

section
variable {d : Depth} {n : Nat} (hsrc : s.srcLen.toNat ≤ s.cfg.srcCap) (haux : s.auxLen.toNat ≤ s.cfg.auxCap)
include hsrc haux

theorem tasmChecks_of_long_sheet (h : d.tileBytes * n < s.srcLen.toNat) :
    tasmChecks d n s = .error (.raise .illegalOperand (d.tileBytes * n)) := by
  rw [tasmChecks, failIf_neg (by omega), failIf_neg (by omega), failIf_pos h]
  rfl

theorem tasmChecks_of_long_flip_list (hs : s.srcLen.toNat = d.tileBytes * n) (h : n < s.auxLen.toNat) :
    tasmChecks d n s = .error (.raise .illegalOperand n) := by
  rw [tasmChecks, failIf_neg (by omega), failIf_neg hs.not_lt, failIf_neg hs.not_gt, failIf_neg (by omega), failIf_pos h]
  rfl

theorem tasmChecks_of_lengths (hs : s.srcLen.toNat = d.tileBytes * n) (ha : s.auxLen.toNat = n) (hlim : 64 * n ≤ s.limit) :
    tasmChecks d n s = .ok () := by
  rw [tasmChecks, failIf_neg (by omega), failIf_neg hs.not_lt, failIf_neg hs.not_gt, failIf_neg ha.not_lt,
    failIf_neg ha.not_gt, failIf_neg (by omega)]
  rfl

end

/-! ## The flip list -/

variable {a : AsmWork}

theorem engineFetch_of_tasm (hw : s.work = .tasm a) : engineFetch s = tasmFetch a s := by
  rw [engineFetch, hw]

/-- While flip bytes are missing, the engine reads the next one. -/
theorem tasmFetch_of_flip_missing {b : Byte} (hn : a.flips.length < a.w * a.ht) (hb : Holds s.aux a.flips.length [b]) :
    tasmFetch a s = fetchAs .flip [b] .illegalOperand a.flips.length := by
  have hread : s.readByte .aux a.flips.length = .ok b := readByte_eq_ok.2 (hb 0 Nat.one_pos)
  rw [tasmFetch, if_pos hn, hread]
  rfl

theorem decodeElement_flip_of_reserved {b : Byte} (h : b.extractLsb' 2 6 ≠ 0#6) :
    decodeElement .flip [b] = .error .reservedFlipBits :=
  if_neg h

/-- The engine takes the flags of a flip byte. -/
theorem engineStep_of_flip {f : Bool × Bool} (hw : s.work = .tasm a) (hn : a.flips.length < a.w * a.ht)
    (hf : Holds s.aux a.flips.length (streamBytes (.flip f.1 f.2))) :
    engineStep s = .next (s.setWork (.tasm { a with flips := a.flips ++ [f] })) := by
  have hdecode : decodeElement .flip (streamBytes (.flip f.1 f.2)) = .ok (.flip f.1 f.2) := Laws.RoundTrip.flip f.1 f.2 rfl
  have hfetch : engineFetch s = .ok (.element (.flip f.1 f.2)) :=
    (engineFetch_of_tasm hw).trans ((tasmFetch_of_flip_missing hn hf).trans (fetchAs_eq_ok.2 ⟨_, hdecode, rfl⟩))
  simp only [engineStep, hfetch, execElement, execFlip, hw]
  exact if_pos hn

/-- The engine stops at a byte with a reserved bit set. -/
theorem engineStep_of_bad_flip {b : Byte} (hw : s.work = .tasm a) (hn : a.flips.length < a.w * a.ht)
    (hb : Holds s.aux a.flips.length [b]) (h : b.extractLsb' 2 6 ≠ 0#6) :
    engineStep s = .next (s.raise .illegalOperand a.flips.length) :=
  engineStep_of_fetch_error ((engineFetch_of_tasm hw).trans ((tasmFetch_of_flip_missing hn hb).trans
    (fetchAs_eq_error.2 ⟨⟨_, decodeElement_flip_of_reserved h⟩, rfl⟩)))

/-- The engine reads any number of flip bytes that are still missing. -/
theorem runEngine_flips (flips : List (Bool × Bool)) (m : Nat) (hw : s.work = .tasm a)
    (hn : a.flips.length + flips.length ≤ a.w * a.ht)
    (hf : Holds s.aux a.flips.length (flips.flatMap fun f => streamBytes (.flip f.1 f.2))) :
    runEngine (flips.length + m) s = runEngine m (s.setWork (.tasm { a with flips := a.flips ++ flips })) := by
  induction flips generalizing s a with
  | nil => rw [List.append_nil, ← hw, List.length_nil, Nat.zero_add]; rfl
  | cons f fs ih =>
    rw [List.length_cons] at hn
    rw [List.flatMap_cons, holds_append] at hf
    obtain ⟨hhead, htail⟩ := hf
    have hstep := engineStep_of_flip hw (by omega) hhead
    rw [List.length_cons, Nat.add_right_comm, runEngine_of_step hstep nofun]
    refine (ih rfl ?_ ?_).trans ?_
    · simp only [List.length_append, List.length_singleton]
      omega
    · show Holds s.aux (a.flips ++ [f]).length _
      rwa [List.length_append]
    · simp

theorem length_flatMap_flipBytes (flips : List (Bool × Bool)) :
    (flips.flatMap fun f => streamBytes (.flip f.1 f.2)).length = flips.length := by
  induction flips with
  | nil => rfl
  | cons f fs ih => rw [List.flatMap_cons, List.length_append, ih, List.length_cons, Nat.add_comm]; rfl

/-- A new assembly engine stops at the first byte of its flip list with a reserved bit set. -/
theorem runEngine_of_bad_flip {d : Depth} {w ht : Byte} {good : List (Bool × Bool)} {bad : Byte} (m : Nat)
    (hn : good.length < w.toNat * ht.toNat)
    (hf : Holds s.aux 0 ((good.flatMap fun f => streamBytes (.flip f.1 f.2)) ++ [bad]))
    (hbad : bad.extractLsb' 2 6 ≠ 0#6) :
    runEngine (good.length + (m + 1)) (s.setWork (.tasm (.start d w ht))) = .next (s.failed 20#8 good.length) := by
  rw [holds_append, length_flatMap_flipBytes, Nat.zero_add] at hf
  obtain ⟨hgood, hlast⟩ := hf
  have hlen : (AsmWork.start d w ht).flips.length + good.length ≤ w.toNat * ht.toNat := (Nat.zero_add _).trans_le hn.le
  rw [runEngine_flips (s := s.setWork _) good (m + 1) rfl hlen hgood]
  exact runEngine_of_end (engineStep_of_bad_flip (a := { AsmWork.start d w ht with flips := good }) rfl hn hlast hbad) rfl

/-! ## The statement -/

/-- The two assembly commands are one command at two depths. -/
theorem tasm_parts {w ht : Byte} {size : Nat} (h : (i = .tasm2 w ht ∧ size = 16) ∨ (i = .tasm4 w ht ∧ size = 32)) :
    ∃ d : Depth, size = d.tileBytes ∧ i ≠ .brrdec ∧ startWork i = some (.tasm (.start d w ht)) ∧
      startChecks i = tasmChecks d (w.toNat * ht.toNat) := by
  rcases h with ⟨rfl, rfl⟩ | ⟨rfl, rfl⟩
  · exact ⟨.two, rfl, nofun, rfl, rfl⟩
  · exact ⟨.four, rfl, nofun, rfl, rfl⟩

/-- Settles O47: the checks before the engine starts raise it, but for a bad flip byte, which the engine comes to. -/
theorem illegalOperandIsRaisedAsTheTableSays : Obligations.IllegalOperandIsRaisedAsTheTableSays := by
  unfold Obligations.IllegalOperandIsRaisedAsTheTableSays
  refine ⟨fun s i hi hill hcap => ?_, fun s => ⟨fun hbad => ?_, fun hres hbits hterm hcap => ?_⟩, ?_⟩
  · obtain ⟨word, rfl⟩ | ⟨work, hw⟩ := illegal_or_startWork_of_isCommand hi
    · exact absurd rfl (hill word)
    · exact exec_of_startChecks_raise (e := .illegalOperand) hw (startChecks_of_over_capacity hw hcap)
  · have hlegal : lzLegal s.lzCfg = false := by
      rw [← Bool.not_eq_true, lzLegal_iff]
      tauto
    exact exec_of_startChecks_raise (i := .lzdec) (e := .illegalOperand) rfl (lzChecks_of_illegal_grammar hlegal)
  · exact lzChecks_of_legal_grammar ((lzLegal_iff _).2 ⟨hres, hbits, hterm⟩) hcap
  · rintro s w ht i size n hi rfl hsrc haux
    obtain ⟨d, rfl, hne, hw, hchecks⟩ := tasm_parts hi
    have hraise {pos : Nat} (hc : tasmChecks d (w.toNat * ht.toNat) (s.setWork (.tasm (.start d w ht))) =
        .error (.raise .illegalOperand pos)) : exec i s = .next (s.failed 20#8 pos) := by
      rw [exec_of_startChecks_raise hw ((congrFun hchecks _).trans hc), if_neg hne]
      rfl
    refine ⟨fun hlong => ?_, fun hs hlong => ?_, fun good bad hs ha hlim hf hgood hbad => ?_⟩
    · exact hraise (tasmChecks_of_long_sheet hsrc haux hlong)
    · exact hraise (tasmChecks_of_long_flip_list hsrc haux hs hlong)
    · have hok : startChecks i (s.setWork (.tasm (.start d w ht))) = .ok () :=
        (congrFun hchecks _).trans (tasmChecks_of_lengths hsrc haux hs ha hlim)
      obtain ⟨m, hm⟩ : ∃ m, s.fuel = good.length + (m + 1) :=
        Nat.exists_eq_add_of_lt (show good.length < s.fuel by unfold State.fuel; omega)
      rw [exec_eq_runCommand hw]
      exact runCommand_eq_next.2 (.inr ⟨hok, hm ▸ runEngine_of_bad_flip m hgood hf hbad⟩)

end Sys2Proof.Machine
end

section
/-! SUPPORT. An IPS patch that is cut short or has another magic: what the engine finds at the magic and at a record boundary, and
how the command ends there (R207). -/

namespace Sys2Proof.Machine

variable {s : State} {p : IpsWork} {e : Err} {pos : Nat}

/-! ## At the magic -/

theorem ipsFetch_of_short_magic (hp : p.phase = .magic) (h : s.auxLen.toNat < 5) :
    ipsFetch p s = .error (.raise .badMagic 0) := by
  rw [ipsFetch, hp]
  exact bind_eq_error.2 (.inl (failIf_pos h))

theorem decodeElement_ipsmagic_of_ne {m : List Byte} (h : m ≠ patchMagic) :
    decodeElement .ipsmagic m = .error .wrongMagic :=
  if_neg h

theorem ipsFetch_of_wrong_magic {m : List Byte} (hp : p.phase = .magic) (h : 5 ≤ s.auxLen.toNat) (hlen : m.length = 5)
    (hm : Holds s.aux 0 m) (hne : m ≠ patchMagic) : ipsFetch p s = .error (.raise .badMagic 0) := by
  have hread : s.readBytes .aux 0 5 = .ok m := hlen ▸ readBytes_of_holds hm
  have hfetch : fetchAs .ipsmagic m .badMagic 0 = .error (.raise .badMagic 0) :=
    fetchAs_eq_error.2 ⟨⟨_, decodeElement_ipsmagic_of_ne hne⟩, rfl⟩
  rw [ipsFetch, hp]
  exact bind_eq_error.2 (.inr ⟨(), failIf_neg h.not_gt, bind_eq_error.2 (.inr ⟨m, hread, hfetch⟩)⟩)

/-! ## At a record boundary -/

/-- Only a size field of two zero bytes marks an RLE record (R205). -/
theorem beNat_pair_eq_zero_iff {z : List Byte} (hz : z.length = 2) : beNat z = 0 ↔ z = [0#8, 0#8] := by
  obtain ⟨a, b, rfl⟩ := List.length_eq_two.1 hz
  simp [beNat, ← BitVec.toNat_inj]

theorem ipsFetch_of_cut_offset (hp : p.phase = .records) (h : s.auxLen.toNat - p.c < 3) :
    ipsFetch p s = .error (.raise .truncatedRecord p.c) := by
  rw [ipsFetch, hp]
  exact bind_eq_error.2 (.inl (failIf_pos h))

/-- Three bytes that are not the terminator begin a record. -/
theorem ipsFetch_of_offset {o : List Byte} (hp : p.phase = .records) (h : 3 ≤ s.auxLen.toNat - p.c) (ho : o.length = 3)
    (hold : Holds s.aux p.c o) (hne : o ≠ eofMagic) : ipsFetch p s = ipsFetchRecord p.c o s := by
  have hread : s.readBytes .aux p.c 3 = .ok o := ho ▸ readBytes_of_holds hold
  simp only [ipsFetch, hp, failIf_neg h.not_gt, hread]
  exact if_neg hne

section
variable {c : Nat} {o z : List Byte}

theorem ipsFetchRecord_of_cut_size (h : s.auxLen.toNat - c < 5) :
    ipsFetchRecord c o s = .error (.raise .truncatedRecord c) :=
  bind_eq_error.2 (.inl (failIf_pos h))

variable (h : 5 ≤ s.auxLen.toNat - c) (hz : z.length = 2) (hold : Holds s.aux (c + 3) z)
include h hz hold

theorem ipsFetchRecord_of_cut_rle (hzero : z = [0#8, 0#8]) (h8 : s.auxLen.toNat - c < 8) :
    ipsFetchRecord c o s = .error (.raise .truncatedRecord c) := by
  have hread : s.readBytes .aux (c + 3) 2 = .ok z := hz ▸ readBytes_of_holds hold
  have hrle : ¬beNat z ≠ 0 := not_not.2 ((beNat_pair_eq_zero_iff hz).2 hzero)
  rw [ipsFetchRecord, failIf_neg h.not_gt, hread, failIf_pos h8]
  exact if_neg hrle

theorem ipsFetchRecord_of_cut_data (hne : z ≠ [0#8, 0#8]) (hdata : s.auxLen.toNat - c < 5 + beNat z) :
    ipsFetchRecord c o s = .error (.raise .truncatedRecord c) := by
  have hread : s.readBytes .aux (c + 3) 2 = .ok z := hz ▸ readBytes_of_holds hold
  have hnormal : beNat z ≠ 0 := mt (beNat_pair_eq_zero_iff hz).1 hne
  simp only [ipsFetchRecord, failIf_neg h.not_gt, hread]
  exact (if_pos hnormal).trans (bind_eq_error.2 (.inl (failIf_pos hdata)))

end

/-! ## How the command ends -/

theorem engineFetch_of_ips (hw : s.work = .ips p) : engineFetch s = ipsFetch p s := by
  rw [engineFetch, hw]

theorem raise_of_ips (hw : s.work = .ips p) (e : Err) (pos : Nat) : s.raise e pos = s.failed e.code pos :=
  s.raise_eq_failed e pos (by rw [State.loopAfterError, hw])

theorem step_of_ipsFetch_raise (hw : s.work = .ips p) (hf : ipsFetch p s = .error (.raise e pos)) :
    step s = .next (s.failed e.code pos) := by
  rw [step_of_fetch_error (by simp [hw]) ((engineFetch_of_ips hw).trans hf), State.stop, raise_of_ips hw]

/-- `IPSAPPLY` whose first fetch is an error ends with it. -/
theorem exec_ipsapply_of_ipsFetch_raise (hsrc : s.srcLen.toNat ≤ s.cfg.srcCap) (haux : s.auxLen.toNat ≤ s.cfg.auxCap)
    (hf : ipsFetch .start (s.setWork (.ips .start)) = .error (.raise e pos)) :
    exec .ipsapply s = .next (s.failed e.code pos) := by
  have hstep : engineStep (s.setWork (.ips .start)) = .next (s.failed e.code pos) := by
    rw [engineStep_of_fetch_error ((engineFetch_of_ips rfl).trans hf), State.stop, raise_of_ips rfl]
    rfl
  have hchecks : patchChecks (s.setWork (.ips .start)) = .ok () := failIf_neg (not_or.2 ⟨hsrc.not_gt, haux.not_gt⟩)
  exact runCommand_eq_next.2 (.inr ⟨hchecks, runEngine_of_end hstep rfl⟩)

/-- Settles O53: a new command stands at the magic, a running one at the record whose bytes are missing. -/
theorem ipsFramingErrors : Obligations.IpsFramingErrors := by
  unfold Obligations.IpsFramingErrors
  refine ⟨fun s hsrc haux hmagic => ?_, fun s p o z hw hp ho hz =>
    ⟨fun h3 => ?_, fun h3 h5 hold hne => ?_, fun h5 hold hne => ?_⟩⟩
  · refine exec_ipsapply_of_ipsFetch_raise (e := .badMagic) hsrc haux ?_
    by_cases h : s.auxLen.toNat < 5
    · exact ipsFetch_of_short_magic rfl h
    · obtain ⟨m, hlen, hne, hm⟩ := hmagic.resolve_left h
      exact ipsFetch_of_wrong_magic rfl (not_lt.1 h) hlen hm hne
  · exact step_of_ipsFetch_raise (e := .truncatedRecord) hw (ipsFetch_of_cut_offset hp h3)
  · exact step_of_ipsFetch_raise (e := .truncatedRecord) hw
      ((ipsFetch_of_offset hp h3 ho hold hne).trans (ipsFetchRecord_of_cut_size h5))
  · obtain ⟨hoffset, hsize⟩ := holds_append.1 hold
    rw [ho] at hsize
    have hrecord : ipsFetch p s = ipsFetchRecord p.c o s := ipsFetch_of_offset hp (by omega) ho hoffset hne
    refine ⟨fun hzero h8 => ?_, fun hnz hdata => ?_⟩
    · exact step_of_ipsFetch_raise (e := .truncatedRecord) hw
        (hrecord.trans (ipsFetchRecord_of_cut_rle h5 hz hsize hzero h8))
    · exact step_of_ipsFetch_raise (e := .truncatedRecord) hw
        (hrecord.trans (ipsFetchRecord_of_cut_data h5 hz hsize hnz hdata))

end Sys2Proof.Machine
end

section
/-! SUPPORT. The trailer of a UPS patch: the three CRC checks in their order, and how each ends the command (R226, R235, R238). -/

namespace Sys2Proof.Machine

variable {s : State} {u : UpsWork} {srcCrc tgtCrc patchCrc : Word} {e : Err} {pos : Nat}

theorem raise_of_ups (hw : s.work = .ups u) (e : Err) (pos : Nat) : s.raise e pos = s.failed e.code pos :=
  s.raise_eq_failed e pos (by rw [State.loopAfterError, hw])

theorem commit_of_ups (hw : s.work = .ups u) (out : List Byte) : s.commit out = s.succeeded out :=
  s.commit_eq_succeeded out (by rw [State.loopAfterSuccess, hw])

/-- On inputs that the host has written, and with accumulators at their initial value, the checks compare the CRC-32 of the source,
of the output and of the body with the fields. -/
theorem upsVerify_of_holds {source body : List Byte} (hs : Holds s.src 0 source) (hsl : source.length = s.srcLen.toNat)
    (hb : Holds s.aux 0 body) (hbl : body.length = s.bodyEnd)
    (hsa : u.srcAcc = crcInit) (hta : u.tgtAcc = crcInit) (hpa : u.patchAcc = crcInit) :
    upsVerify srcCrc tgtCrc patchCrc u s = (do
      failIf (crc32 s.cfg.crcPoly source ≠ srcCrc) .sourceCrcMismatch s.bodyEnd
      failIf (crc32 s.cfg.crcPoly u.out ≠ tgtCrc) .targetCrcMismatch (s.bodyEnd + 4)
      failIf (crc32 s.cfg.crcPoly body ≠ patchCrc) .checksumMismatch (s.bodyEnd + 8)) := by
  have hreadSrc : s.readBytes .src 0 s.srcLen.toNat = .ok source := hsl ▸ readBytes_of_holds hs
  have hreadAux : s.readBytes .aux 0 s.bodyEnd = .ok body := hbl ▸ readBytes_of_holds hb
  rw [upsVerify, hreadSrc, hreadAux, hsa, hta, hpa]
  rfl

section
variable (hw : s.work = .ups u) (hp : u.phase = .runs) (hc : s.bodyEnd ≤ u.c)
include hw hp hc

/-- A check that fails commits nothing. -/
theorem exec_upstrailer_of_mismatch (hv : upsVerify srcCrc tgtCrc patchCrc u s = .error (.raise e pos)) :
    exec (.upstrailer srcCrc tgtCrc patchCrc) s = .next (s.failed e.code pos) := by
  simp only [exec, execUpstrailer, hw, if_pos (And.intro hp hc), hv, State.stop, raise_of_ups hw]

theorem exec_upstrailer_of_match (hv : upsVerify srcCrc tgtCrc patchCrc u s = .ok ()) :
    exec (.upstrailer srcCrc tgtCrc patchCrc) s = .next (s.succeeded u.out) := by
  simp only [exec, execUpstrailer, hw, if_pos (And.intro hp hc), hv, commit_of_ups hw]

end

/-- Settles O60: the checks are the three comparisons in trailer order, and the first that fails ends the command. -/
theorem upsTrailerChecksItsCrcsInOrder : Obligations.UpsTrailerChecksItsCrcsInOrder := by
  unfold Obligations.UpsTrailerChecksItsCrcsInOrder
  intro s u source body srcCrc tgtCrc patchCrc hw hp hc hlen hsa hta hpa hs hsl hb hbl
  have hverify := upsVerify_of_holds (srcCrc := srcCrc) (tgtCrc := tgtCrc) (patchCrc := patchCrc) hs hsl hb hbl hsa hta hpa
  have hend : s.bodyEnd ≤ u.c := hc.ge
  have htgtPos : s.auxLen.toNat - 8 = s.bodyEnd + 4 := by unfold State.bodyEnd; omega
  have hpatchPos : s.auxLen.toNat - 4 = s.bodyEnd + 8 := by unfold State.bodyEnd; omega
  rw [htgtPos, hpatchPos]
  split
  case isTrue hsrc =>
    rw [failIf_pos hsrc] at hverify
    exact exec_upstrailer_of_mismatch hw hp hend hverify
  case isFalse hsrc =>
    rw [failIf_neg hsrc] at hverify
    split
    case isTrue htgt =>
      rw [failIf_pos htgt] at hverify
      exact exec_upstrailer_of_mismatch hw hp hend hverify
    case isFalse htgt =>
      rw [failIf_neg htgt] at hverify
      split
      case isTrue hpatch =>
        rw [failIf_pos hpatch] at hverify
        exact exec_upstrailer_of_mismatch hw hp hend hverify
      case isFalse hpatch =>
        rw [failIf_neg hpatch] at hverify
        exact exec_upstrailer_of_match hw hp hend hverify

end Sys2Proof.Machine
end

section
/-! SUPPORT. A UPS patch that is cut short or has another magic: what the engine finds at the magic, at a size and at a run, and how
the command ends there (R223, R229, R234). -/

namespace Sys2Proof.Machine

variable {s : State} {u : UpsWork} {e : Err} {pos : Nat}

/-! ## At the magic -/

theorem upsFetch_of_short_magic (hp : u.phase = .magic) (h : s.auxLen.toNat < 4) :
    upsFetch u s = .error (.raise .badMagic 0) := by
  rw [upsFetch, hp]
  exact bind_eq_error.2 (.inl (failIf_pos h))

/-- The engine decodes the four bytes at the head of the patch. -/
theorem upsFetch_of_four_bytes {m : List Byte} (hp : u.phase = .magic) (h : 4 ≤ s.auxLen.toNat) (hlen : m.length = 4)
    (hm : Holds s.aux 0 m) : upsFetch u s = fetchAs .upsmagic m .badMagic 0 := by
  have hread : s.readBytes .aux 0 4 = .ok m := hlen ▸ readBytes_of_holds hm
  rw [upsFetch, hp]
  simp only [failIf_neg h.not_gt, hread]
  rfl

theorem fetchAs_upsmagic_of_ne {m : List Byte} (h : m ≠ upsMagic) :
    fetchAs .upsmagic m e pos = .error (.raise e pos) :=
  fetchAs_eq_error.2 ⟨⟨.wrongMagic, if_neg h⟩, rfl⟩

theorem exec_upsmagic_of_short_patch (hw : s.work = .ups u) (hp : u.phase = .magic) (h : s.auxLen.toNat < 16) :
    exec .upsmagic s = .next (s.failed 3#8 s.auxLen.toNat) := by
  simp only [exec, execUpsmagic, hw, if_pos hp, if_pos h, State.stop, raise_of_ups hw, Err.code]

/-! ## A VLV or a run cut short -/

theorem holds_cons {m : Memory} {a : Nat} {b : Byte} {bs : List Byte} :
    Holds m a (b :: bs) ↔ m.read a = some b ∧ Holds m (a + 1) bs := by
  rw [← List.singleton_append, holds_append]
  exact and_congr_left' ⟨fun h => h 0 Nat.one_pos, fun h k hk => by obtain rfl := Nat.lt_one_iff.1 hk; exact h⟩

/-- A VLV ends with the first byte that has bit 7 set (R221). -/
theorem readVlv_succ_of_last {a : Nat} {b : Byte} (h : s.aux.read a = some b) (hb : b.getLsbD 7 = true) (n : Nat) :
    readVlv s a (n + 1) = .ok [b] := by
  have hbyte : s.readByte .aux a = .ok b := readByte_eq_ok.2 h
  rw [readVlv, hbyte]
  exact if_pos hb

theorem readVlv_succ_of_inner {a : Nat} {b : Byte} (h : s.aux.read a = some b) (hb : b.getLsbD 7 = false) (n : Nat) :
    readVlv s a (n + 1) = (readVlv s (a + 1) n).map (b :: ·) := by
  have hbyte : s.readByte .aux a = .ok b := readByte_eq_ok.2 h
  rw [readVlv, hbyte]
  refine (if_neg (ne_true_of_eq_false hb)).trans ?_
  cases readVlv s (a + 1) n <;> rfl

theorem readXors_succ_of_ne_zero {a : Nat} {b : Byte} (h : s.aux.read a = some b) (hb : b ≠ 0#8) (n : Nat) :
    readXors s a (n + 1) = (readXors s (a + 1) n).map (b :: ·) := by
  have hbyte : s.readByte .aux a = .ok b := readByte_eq_ok.2 h
  rw [readXors, hbyte]
  refine (if_neg hb).trans ?_
  cases readXors s (a + 1) n <;> rfl

/-- Without a byte with bit 7 set the read of a VLV reaches the end of its bytes (R223). -/
theorem readVlv_of_no_last_byte {a : Nat} {bs : List Byte} (h : Holds s.aux a bs) (hb : ∀ b ∈ bs, b.getLsbD 7 = false) :
    readVlv s a bs.length = .error (.raise .unexpectedEof (a + bs.length)) := by
  induction bs generalizing a with
  | nil => rfl
  | cons b bs ih =>
    obtain ⟨hread, hrest⟩ := holds_cons.1 h
    obtain ⟨hb0, hbs⟩ := List.forall_mem_cons.1 hb
    rw [List.length_cons, readVlv_succ_of_inner hread hb0, ih hrest hbs, Nat.add_right_comm]
    rfl

/-- Without a `00` the read of XOR bytes reaches the end of its bytes (R234). -/
theorem readXors_of_no_zero {a : Nat} {bs : List Byte} (h : Holds s.aux a bs) (hb : ∀ b ∈ bs, b ≠ 0#8) :
    readXors s a bs.length = .error (.raise .unexpectedEof (a + bs.length)) := by
  induction bs generalizing a with
  | nil => rfl
  | cons b bs ih =>
    obtain ⟨hread, hrest⟩ := holds_cons.1 h
    obtain ⟨hb0, hbs⟩ := List.forall_mem_cons.1 hb
    rw [List.length_cons, readXors_succ_of_ne_zero hread hb0, ih hrest hbs, Nat.add_right_comm]
    rfl

/-- A VLV that is there is read, whatever follows it. -/
theorem readVlv_of_encodeVlv {a : Nat} {ds : List (BitVec 7)} (hds : ds ≠ []) (h : Holds s.aux a (encodeVlv ds)) (n : Nat) :
    readVlv s a ((encodeVlv ds).length + n) = .ok (encodeVlv ds) := by
  induction ds generalizing a with
  | nil => contradiction
  | cons d ds ih =>
    cases ds with
    | nil =>
      rw [encodeVlv, List.length_singleton, Nat.add_comm]
      exact readVlv_succ_of_last (holds_cons.1 h).1 (Laws.last_digit d).1 n
    | cons d' ds =>
      obtain ⟨hread, hrest⟩ := holds_cons.1 h
      rw [encodeVlv, List.length_cons, Nat.add_right_comm, readVlv_succ_of_inner hread (Laws.inner_digit d).1,
        ih (List.cons_ne_nil d' ds) hrest]
      rfl

/-! ## At a size and at a run -/

section
variable {rest : List Byte} (hend : u.c + rest.length = s.bodyEnd) (hrest : Holds s.aux u.c rest)
include hend hrest

/-- A size, or the relative offset of a run, that has no last byte in the body (R223). -/
theorem upsFetch_of_vlv_cut (hb : ∀ b ∈ rest, b.getLsbD 7 = false)
    (hp : u.phase = .sourceSize ∨ (∃ n, u.phase = .targetSize n) ∨ (u.phase = .runs ∧ rest ≠ [])) :
    upsFetch u s = .error (.raise .unexpectedEof s.bodyEnd) := by
  have hread : readVlv s u.c (s.bodyEnd - u.c) = .error (.raise .unexpectedEof s.bodyEnd) := by
    rw [← hend, Nat.add_sub_cancel_left]
    exact readVlv_of_no_last_byte hrest hb
  obtain hp | ⟨n, hp⟩ | ⟨hp, hne⟩ := hp
  · rw [upsFetch, hp, hread]
    rfl
  · rw [upsFetch, hp, hread]
    rfl
  · have hlt : u.c < s.bodyEnd := hend ▸ Nat.lt_add_of_pos_right (List.length_pos_of_ne_nil hne)
    rw [upsFetch, hp, hread]
    exact if_pos hlt

/-- A run whose relative offset is there and whose XOR bytes have no closing `00` in the body (R234). -/
theorem upsFetch_of_run_cut {rel : List (BitVec 7)} {xors : List Byte} (hrel : rel ≠ [])
    (hbytes : rest = streamBytes (.vlv rel) ++ xors) (hx : ∀ x ∈ xors, x ≠ 0#8) (hp : u.phase = .runs) :
    upsFetch u s = .error (.raise .unexpectedEof s.bodyEnd) := by
  obtain rfl : rest = encodeVlv rel ++ xors := hbytes
  obtain ⟨hvlv, hxors⟩ := holds_append.1 hrest
  rw [List.length_append] at hend
  have hreadVlv : readVlv s u.c (s.bodyEnd - u.c) = .ok (encodeVlv rel) := by
    rw [← hend, Nat.add_sub_cancel_left]
    exact readVlv_of_encodeVlv hrel hvlv xors.length
  have hreadXors : readXors s (u.c + (encodeVlv rel).length) (s.bodyEnd - (u.c + (encodeVlv rel).length)) =
      .error (.raise .unexpectedEof s.bodyEnd) := by
    rw [← hend, ← Nat.add_assoc, Nat.add_sub_cancel_left]
    exact readXors_of_no_zero hxors hx
  rw [upsFetch, hp]
  refine (if_pos (Nat.lt_of_sub_pos (readVlv_ok_pos hreadVlv))).trans ?_
  exact bind_eq_error.2 (.inr ⟨_, hreadVlv, bind_eq_error.2 (.inl hreadXors)⟩)

end

/-! ## How the command ends -/

theorem engineFetch_of_ups (hw : s.work = .ups u) : engineFetch s = upsFetch u s := by
  rw [engineFetch, hw]

theorem step_of_upsFetch_raise (hw : s.work = .ups u) (hf : upsFetch u s = .error (.raise e pos)) :
    step s = .next (s.failed e.code pos) := by
  rw [step_of_fetch_error (by simp [hw]) ((engineFetch_of_ups hw).trans hf), State.stop, raise_of_ups hw]

/-- `UPSAPPLY` whose first engine step ends the command ends there. -/
theorem exec_upsapply_of_end {t : State} (hsrc : s.srcLen.toNat ≤ s.cfg.srcCap) (haux : s.auxLen.toNat ≤ s.cfg.auxCap)
    (hstep : engineStep (s.setWork (.ups .start)) = .next t) (ht : t.work = .idle) : exec .upsapply s = .next t := by
  have hchecks : patchChecks (s.setWork (.ups .start)) = .ok () := failIf_neg (not_or.2 ⟨hsrc.not_gt, haux.not_gt⟩)
  exact runCommand_eq_next.2 (.inr ⟨hchecks, runEngine_of_end hstep ht⟩)

/-- At a magic that is missing or another one the engine stops. -/
theorem engineStep_of_bad_upsmagic (hw : s.work = .ups u) (hp : u.phase = .magic)
    (h : s.auxLen.toNat < 4 ∨ ∃ m, m.length = 4 ∧ m ≠ upsMagic ∧ Holds s.aux 0 m) :
    engineStep s = .next (s.failed 1#8 0) := by
  have hfetch : upsFetch u s = .error (.raise .badMagic 0) := by
    by_cases hshort : s.auxLen.toNat < 4
    · exact upsFetch_of_short_magic hp hshort
    · obtain ⟨m, hlen, hne, hm⟩ := h.resolve_left hshort
      exact (upsFetch_of_four_bytes hp (not_lt.1 hshort) hlen hm).trans (fetchAs_upsmagic_of_ne hne)
  rw [engineStep_of_fetch_error ((engineFetch_of_ups hw).trans hfetch), State.stop, raise_of_ups hw, Err.code]

/-- With the magic there the engine takes it, and ends the command where the trailer cannot be there. -/
theorem engineStep_of_short_patch (hw : s.work = .ups u) (hp : u.phase = .magic) (h4 : 4 ≤ s.auxLen.toNat)
    (hm : Holds s.aux 0 upsMagic) (h16 : s.auxLen.toNat < 16) :
    engineStep s = .next (s.failed 3#8 s.auxLen.toNat) := by
  have hfetch : engineFetch s = .ok (.element .upsmagic) :=
    (engineFetch_of_ups hw).trans (upsFetch_of_four_bytes hp h4 rfl hm)
  rw [engineStep, hfetch]
  exact exec_upsmagic_of_short_patch hw hp h16

/-- Settles O57: a new command stands at the magic, a running one at the size or the run that the trailer cuts. -/
theorem upsFramingErrors : Obligations.UpsFramingErrors := by
  unfold Obligations.UpsFramingErrors
  refine ⟨fun s hsrc haux => ⟨fun hmagic => ?_, fun h4 hm h16 => ?_⟩, fun s u rest hw _ hend hrest =>
    ⟨fun hb hp => ?_, fun rel xors hrel hbytes hx hp => ?_⟩⟩
  · exact exec_upsapply_of_end hsrc haux (engineStep_of_bad_upsmagic rfl rfl hmagic) rfl
  · exact exec_upsapply_of_end hsrc haux (engineStep_of_short_patch rfl rfl h4 hm h16) rfl
  · exact step_of_upsFetch_raise hw (upsFetch_of_vlv_cut hend hrest hb hp)
  · exact step_of_upsFetch_raise hw (upsFetch_of_run_cut hend hrest hrel hbytes hx hp)

end Sys2Proof.Machine
end

section
/-! SUPPORT. A command on an empty source: the checks that pass, the check of an assembly command that does not, and an engine
that finds its stream at its end (R134, R137, R140, R152, R153, R188). Straight after reset every command runs on one (R294). -/

namespace Sys2Proof.Machine

variable {s : State} {i : Instr} {work : Work}

/-! ## A command whose stream is at its end -/

/-- `BRRDEC` is left out: its success writes `BRR_LOOP` (R31), and its stream ends only with a block. -/
theorem exec_of_stream_at_end {out : List Byte} (hw : startWork i = some work) (hbrr : ∀ b, work ≠ .brr b)
    (hc : startChecks i (s.setWork work) = .ok ()) (hf : engineFetch (s.setWork work) = .ok (.done out)) :
    exec i s = .next (s.succeeded out) := by
  have hloop : (s.setWork work).loopAfterSuccess = (s.setWork work).brrLoop := by
    cases work with
    | brr b => exact absurd rfl (hbrr b)
    | _ => rfl
  have hstep : engineStep (s.setWork work) = .next (s.succeeded out) := by
    rw [engineStep, hf]
    exact congrArg _ (State.commit_eq_succeeded _ out hloop)
  rw [exec_eq_runCommand hw]
  exact runCommand_eq_next.2 (.inr ⟨hc, runEngine_of_end hstep rfl⟩)

theorem tdecFetch_of_nothing_left {t : TileWork} (h : s.srcLen.toNat ≤ t.c) : tdecFetch t s = .ok (.done t.out) :=
  if_pos h

theorem tencFetch_of_nothing_left {t : TileWork} (h : s.srcLen.toNat ≤ t.c) : tencFetch t s = .ok (.done t.out) :=
  if_pos h

theorem cexpFetch_of_nothing_left {k : ColorWork} (h : s.srcLen.toNat ≤ k.c) : cexpFetch k s = .ok (.done k.out) :=
  if_pos h

theorem cpackFetch_of_nothing_left {k : ColorWork} (h : s.srcLen.toNat ≤ k.c) : cpackFetch k s = .ok (.done k.out) :=
  if_pos h

/-- In a grammar with `TERM = 0` the input ends the stream (R188). -/
theorem lzFetch_of_input_end {z : LzWork} (ht : lzTerm s.lzCfg = 0) (h : s.srcLen.toNat ≤ z.c) :
    lzFetch z s = .ok (.done z.out) := by
  rw [lzFetch_of_nothing_left (by simp [ht]) h, lzInputEnd, if_pos ht]

/-! ## The checks on an empty source -/

section
variable (hlen : s.srcLen.toNat = 0)
include hlen

theorem tdecChecks_of_empty_source (d : Depth) : tdecChecks d s = .ok () := by
  rw [tdecChecks, hlen, failIf_neg (by simp), failIf_neg (by simp), failIf_neg (by simp)]
  rfl

theorem tencChecks_of_empty_source (d : Depth) : tencChecks d s = .ok () := by
  rw [tencChecks, hlen, failIf_neg (by simp), failIf_neg (by simp), failIf_neg (by simp)]
  rfl

theorem cexpChecks_of_empty_source : cexpChecks s = .ok () := by
  rw [cexpChecks, hlen, failIf_neg (by simp), failIf_neg (by simp), failIf_neg (by simp)]
  rfl

theorem cpackChecks_of_empty_source : cpackChecks s = .ok () := by
  rw [cpackChecks, hlen, failIf_neg (by simp), failIf_neg (by simp), failIf_neg (by simp)]
  rfl

end

/-- A sheet shorter than the assembly needs ends inside it. -/
theorem tasmChecks_of_short_sheet {d : Depth} {n : Nat} (hsrc : s.srcLen.toNat ≤ s.cfg.srcCap)
    (haux : s.auxLen.toNat ≤ s.cfg.auxCap) (h : s.srcLen.toNat < d.tileBytes * n) :
    tasmChecks d n s = .error (.raise .unexpectedEof s.srcLen.toNat) := by
  rw [tasmChecks, failIf_neg (by omega), failIf_pos h]
  rfl

/-! ## The grammar of reset (R29) -/

theorem lzTerm_reset : lzTerm 0x00000304#32 = 0 := by decide

theorem lzLegal_reset : lzLegal 0x00000304#32 = true := by decide

/-! ## Straight after reset -/

/-- An assembly of at least one tile misses the whole of its sheet straight after reset. -/
theorem tasmChecks_resetWith (cfg : Config) (d : Depth) {w ht : Byte} (hw : w ≠ 0#8) (hht : ht ≠ 0#8) (work : Work) :
    tasmChecks d (w.toNat * ht.toNat) ((State.resetWith cfg).setWork work) = .error (.raise .unexpectedEof 0) := by
  have hcount : 0 < w.toNat * ht.toNat := Nat.mul_pos (by bv_omega) (by bv_omega)
  exact tasmChecks_of_short_sheet (Nat.zero_le _) (Nat.zero_le _) (Nat.mul_pos d.tileBytes_pos hcount)

/-- Settles O9: an empty stream is a whole one for the tile decoders and encoders, the colour commands and `LZDEC`, and the other
commands miss their first block, magic or tile. -/
theorem commandsStraightAfterReset : Obligations.CommandsStraightAfterReset := by
  unfold Obligations.CommandsStraightAfterReset
  rintro cfg s rfl
  refine ⟨fun h v => ⟨?_, ?_, ?_, ?_⟩, ?_, ?_, ?_, ?_, ?_, ?_, fun w ht hw hht => ⟨?_, ?_⟩⟩
  · exact exec_of_stream_at_end rfl nofun (tdecChecks_of_empty_source rfl .two) (tdecFetch_of_nothing_left le_rfl)
  · exact exec_of_stream_at_end rfl nofun (tdecChecks_of_empty_source rfl .four) (tdecFetch_of_nothing_left le_rfl)
  · exact exec_of_stream_at_end rfl nofun (tencChecks_of_empty_source rfl .two) (tencFetch_of_nothing_left le_rfl)
  · exact exec_of_stream_at_end rfl nofun (tencChecks_of_empty_source rfl .four) (tencFetch_of_nothing_left le_rfl)
  · exact exec_of_stream_at_end rfl nofun (cexpChecks_of_empty_source rfl) (cexpFetch_of_nothing_left le_rfl)
  · exact exec_of_stream_at_end rfl nofun (cpackChecks_of_empty_source rfl) (cpackFetch_of_nothing_left le_rfl)
  · exact exec_of_stream_at_end rfl nofun (lzChecks_of_legal_grammar lzLegal_reset (Nat.zero_le _))
      (lzFetch_of_input_end lzTerm_reset le_rfl)
  · exact exec_brrdec_of_brrFetch_raise (e := .noEnd) (Nat.zero_le _) (brrFetch_of_nothing_left le_rfl)
  · exact exec_ipsapply_of_ipsFetch_raise (e := .badMagic) (Nat.zero_le _) (Nat.zero_le _)
      (ipsFetch_of_short_magic rfl (Nat.succ_pos 4))
  · exact exec_upsapply_of_end (Nat.zero_le _) (Nat.zero_le _) (engineStep_of_bad_upsmagic rfl rfl (.inl (Nat.succ_pos 3))) rfl
  · exact exec_of_startChecks_raise (i := .tasm2 w ht) rfl (tasmChecks_resetWith cfg .two hw hht _)
  · exact exec_of_startChecks_raise (i := .tasm4 w ht) rfl (tasmChecks_resetWith cfg .four hw hht _)

end Sys2Proof.Machine
end

section
/-! SUPPORT. The encoder is the decoder's inverse on both sides: each field of a code is cut out by the decoder and put back in its
place by the encoder, for command words (R91 to R95) and for the bytes of every stream element (R100 to R118). -/

namespace Sys2Proof

/-! ## Words cut into fields and put together again -/

theorem ofBool_getLsbD {n : Nat} (x : BitVec n) (i : Nat) : BitVec.ofBool (x.getLsbD i) = x.extractLsb' i 1 := by
  refine BitVec.eq_of_toNat_eq ?_
  rw [BitVec.toNat_ofBool, BitVec.getLsbD, Nat.toNat_testBit, BitVec.extractLsb'_toNat, Nat.shiftRight_eq_div_pow]

theorem toNat_getLsbD {n : Nat} (x : BitVec n) (i : Nat) : (x.getLsbD i).toNat = x.toNat / 2 ^ i % 2 := by
  rw [BitVec.getLsbD, Nat.toNat_testBit]

theorem bytesLe16_le16 (b0 b1 : Byte) : bytesLe16 (le16 b0 b1) = [b0, b1] :=
  congrArg₂ (fun x y => [x, y]) BitVec.extractLsb'_append_eq_right BitVec.extractLsb'_append_eq_left

theorem bytesBe16_be16 (b0 b1 : Byte) : bytesBe16 (be16 b0 b1) = [b0, b1] :=
  congrArg List.reverse (bytesLe16_le16 b1 b0)

theorem toNat_be24 (b0 b1 b2 : Byte) : (be24 b0 b1 b2).toNat = b0.toNat * 65536 + b1.toNat * 256 + b2.toNat := by
  unfold be24
  erw [Laws.toNat_append_add, Laws.toNat_append_add]
  omega

theorem bytesBe24_be24 (b0 b1 b2 : Byte) : bytesBe24 (be24 b0 b1 b2) = [b0, b1, b2] := by
  have := b0.isLt; have := b1.isLt; have := b2.isLt
  simp only [bytesBe24, List.cons.injEq, and_true, Laws.extract_eq, toNat_be24]
  omega

theorem toNat_le32 (b0 b1 b2 b3 : Byte) :
    (le32 b0 b1 b2 b3).toNat = b3.toNat * 2 ^ 24 + b2.toNat * 2 ^ 16 + b1.toNat * 2 ^ 8 + b0.toNat := by
  unfold le32
  erw [Laws.toNat_append_add, Laws.toNat_append_add, Laws.toNat_append_add]
  omega

theorem bytesLe32_le32 (b0 b1 b2 b3 : Byte) : bytesLe32 (le32 b0 b1 b2 b3) = [b0, b1, b2, b3] := by
  have := b0.isLt; have := b1.isLt; have := b2.isLt; have := b3.isLt
  simp only [bytesLe32, List.cons.injEq, and_true, Laws.extract_eq, toNat_le32]
  omega

theorem colorWord_fields (w : BitVec 16) :
    colorWord (w.getLsbD 15) (w.extractLsb' 10 5) (w.extractLsb' 5 5) (w.extractLsb' 0 5) = w := by
  have := w.isLt
  refine BitVec.eq_of_toNat_eq ?_
  simp only [Laws.colorWord_toNat, toNat_getLsbD, BitVec.extractLsb'_toNat, Nat.shiftRight_eq_div_pow]
  omega

theorem header_fields (b : Byte) :
    b.extractLsb' 4 4 ++ b.extractLsb' 2 2 ++ BitVec.ofBool (b.getLsbD 1) ++ BitVec.ofBool (b.getLsbD 0) = b := by
  have := b.isLt
  refine BitVec.eq_of_toNat_eq ?_
  rw [Laws.header_toNat]
  simp only [toNat_getLsbD, BitVec.extractLsb'_toNat, Nat.shiftRight_eq_div_pow]
  omega

/-- A flip byte without reserved bits is its two flags (R104). -/
theorem flip_fields {b : Byte} (h : b.extractLsb' 2 6 = 0#6) :
    0#6 ++ BitVec.ofBool (b.getLsbD 1) ++ BitVec.ofBool (b.getLsbD 0) = b := by
  have hb := b.isLt
  have hres : b.toNat / 4 % 64 = 0 := (Laws.extract_eq b 2 6 0#6).1 h
  refine BitVec.eq_of_toNat_eq ?_
  erw [Laws.toNat_append_add, Laws.toNat_append_add]
  simp only [BitVec.toNat_ofBool, toNat_getLsbD, BitVec.toNat_zero]
  omega

theorem encodeNibbles_flatMap_nibblesOf (data : List Byte) : encodeNibbles (data.flatMap nibblesOf) = data := by
  induction data with
  | nil => rfl
  | cons b bs ih =>
    have hb : b.extractLsb' 4 4 ++ b.extractLsb' 0 4 = b :=
      (BitVec.extractLsb'_append_extractLsb'_eq_extractLsb' rfl).trans BitVec.extractLsb'_eq_self
    rw [List.flatMap_cons]
    show (b.extractLsb' 4 4 ++ b.extractLsb' 0 4) :: encodeNibbles (bs.flatMap nibblesOf) = _
    rw [ih, hb]

theorem length_flatMap_nibblesOf (data : List Byte) : (data.flatMap nibblesOf).length = 2 * data.length := by
  induction data with
  | nil => rfl
  | cons b bs ih =>
    rw [List.flatMap_cons, List.length_append, ih, List.length_cons]
    show 2 + _ = _
    omega

/-! ## Digits and XOR bytes -/

/-- What is taken off the head of the bytes is a VLV, and the rest is what stands after it. -/
theorem encodeVlv_append_of_takeVlv {bytes : List Byte} {ds : List (BitVec 7)} {rest : List Byte}
    (h : takeVlv bytes = .ok (ds, rest)) : encodeVlv ds ++ rest = bytes ∧ ds ≠ [] := by
  induction bytes generalizing ds with
  | nil => cases h
  | cons b bs ih =>
    have hdigit (x : Bool) (hx : b.getLsbD 7 = x) : BitVec.ofBool x ++ b.extractLsb' 0 7 = b := by
      rw [← hx, ofBool_getLsbD]
      exact (BitVec.extractLsb'_append_extractLsb'_eq_extractLsb' rfl).trans BitVec.extractLsb'_eq_self
    rw [takeVlv] at h
    split at h
    case isTrue hlast =>
      cases h
      exact ⟨congrArg (· :: rest) (hdigit true hlast), List.cons_ne_nil _ _⟩
    case isFalse hinner =>
      split at h
      case h_1 ds' rest' htail =>
        cases h
        obtain ⟨happend, hne⟩ := ih htail
        obtain ⟨d, ds, rfl⟩ := List.exists_cons_of_ne_nil hne
        refine ⟨?_, List.cons_ne_nil _ _⟩
        rw [encodeVlv, List.cons_append, happend]
        exact congrArg (· :: bs) (hdigit false (Bool.eq_false_of_not_eq_true hinner))
      case h_2 => cases h

theorem append_of_takeXors {bytes xs rest : List Byte} (h : takeXors bytes = .ok (xs, rest)) :
    xs ++ 0#8 :: rest = bytes ∧ xs.all (· != 0#8) = true := by
  induction bytes generalizing xs with
  | nil => cases h
  | cons b bs ih =>
    rw [takeXors] at h
    split at h
    case isTrue hzero =>
      cases h
      exact ⟨congrArg (· :: rest) hzero.symm, rfl⟩
    case isFalse hne =>
      split at h
      case h_1 xs' rest' htail =>
        cases h
        obtain ⟨happend, hall⟩ := ih htail
        exact ⟨congrArg (b :: ·) happend, by simp [hne, hall]⟩
      case h_2 => cases h

/-! ## Command words -/

theorem encodeFlips_toNat (opc : Byte) (h v : Bool) :
    (encodeFlips opc h v).toNat = v.toNat * 512 + h.toNat * 256 + opc.toNat := by
  unfold encodeFlips
  erw [Laws.toNat_append_add, Laws.toNat_append_add, Laws.toNat_append_add]
  simp only [BitVec.toNat_ofBool, BitVec.toNat_zero]
  omega

theorem encodeFlips_of_match {w : Word} {opc : Byte} (h : w &&& 0xFFFFFCFF#32 = BitVec.ofNat 32 opc.toNat) :
    encodeFlips opc (w.getLsbD 8) (w.getLsbD 9) = w := by
  have := w.isLt; have := opc.isLt
  have hlow : w.extractLsb' 0 8 &&& BitVec.allOnes 8 = (BitVec.ofNat 32 opc.toNat).extractLsb' 0 8 := by
    rw [← h, BitVec.extractLsb'_and]
    rfl
  have hhigh : w.extractLsb' 10 22 &&& BitVec.allOnes 22 = (BitVec.ofNat 32 opc.toNat).extractLsb' 10 22 := by
    rw [← h, BitVec.extractLsb'_and]
    rfl
  rw [BitVec.and_allOnes, Laws.extract_eq, BitVec.extractLsb'_toNat, BitVec.toNat_ofNat, Nat.shiftRight_eq_div_pow] at hlow hhigh
  refine BitVec.eq_of_toNat_eq ?_
  rw [encodeFlips_toNat]
  simp only [toNat_getLsbD]
  omega

theorem encodeSize_of_match {w : Word} {opc : Byte} (h : w &&& 0x0000FFFF#32 = BitVec.ofNat 32 opc.toNat) :
    encodeSize opc (w.extractLsb' 16 8) (w.extractLsb' 24 8) = w := by
  have := w.isLt; have := opc.isLt
  have hlow : w.toNat % 65536 = opc.toNat := (Laws.low16_eq w opc.toNat (by omega)).1 h
  refine BitVec.eq_of_toNat_eq ?_
  rw [Laws.encodeSize_toNat]
  simp only [BitVec.extractLsb'_toNat, Nat.shiftRight_eq_div_pow]
  omega

/-- The instruction is well formed and `w` is its command word. -/
def CodedBy (w : Word) (i : Instr) : Prop := encode i = .command w ∧ i.wellFormed = true

theorem codedBy_ite {w : Word} {c : Prop} [Decidable c] {i j : Instr} (hi : c → CodedBy w i) (hj : ¬c → CodedBy w j) :
    CodedBy w (if c then i else j) :=
  iteInduction hi hj

/-- A word is the code of the command it decodes to. -/
theorem codedBy_decodeCommand (w : Word) : CodedBy w (decodeCommand w) := by
  have hflips {opc : Byte} (h : w &&& 0xFFFFFCFF#32 = BitVec.ofNat 32 opc.toNat) := congrArg Code.command (encodeFlips_of_match h)
  have hsize {opc : Byte} (h : w &&& 0x0000FFFF#32 = BitVec.ofNat 32 opc.toNat) := congrArg Code.command (encodeSize_of_match h)
  unfold decodeCommand
  refine codedBy_ite (fun h => ⟨hflips (opc := 0x10#8) h, rfl⟩) fun h1 => ?_
  refine codedBy_ite (fun h => ⟨hflips (opc := 0x11#8) h, rfl⟩) fun h2 => ?_
  refine codedBy_ite (fun h => ⟨hflips (opc := 0x12#8) h, rfl⟩) fun h3 => ?_
  refine codedBy_ite (fun h => ⟨hflips (opc := 0x13#8) h, rfl⟩) fun h4 => ?_
  refine codedBy_ite (fun h => ⟨hsize (opc := 0x14#8) h.1, by simpa [Instr.wellFormed] using h.2⟩) fun h5 => ?_
  refine codedBy_ite (fun h => ⟨hsize (opc := 0x15#8) h.1, by simpa [Instr.wellFormed] using h.2⟩) fun h6 => ?_
  refine codedBy_ite (fun h => ⟨congrArg Code.command h.symm, rfl⟩) fun h7 => ?_
  refine codedBy_ite (fun h => ⟨congrArg Code.command h.symm, rfl⟩) fun h8 => ?_
  refine codedBy_ite (fun h => ⟨congrArg Code.command h.symm, rfl⟩) fun h9 => ?_
  refine codedBy_ite (fun h => ⟨congrArg Code.command h.symm, rfl⟩) fun h10 => ?_
  refine codedBy_ite (fun h => ⟨congrArg Code.command h.symm, rfl⟩) fun h11 => ?_
  refine codedBy_ite (fun h => ⟨congrArg Code.command h.symm, rfl⟩) fun h12 => ?_
  have hill : decodeCommand w = .illegal w := by
    rw [decodeCommand, if_neg h1, if_neg h2, if_neg h3, if_neg h4, if_neg h5, if_neg h6, if_neg h7, if_neg h8, if_neg h9,
      if_neg h10, if_neg h11, if_neg h12]
  exact ⟨rfl, by rw [Instr.wellFormed, (Machine.decodeCommand_eq_illegal_iff.1 hill).2]; rfl⟩

/-! ## Stream elements -/

theorem encode_of_decodeMagic {kind : Element} {text bytes : List Byte} {i j : Instr} (h : decodeMagic text bytes i = .ok j)
    (henc : encode i = .stream kind text) (hwf : i.wellFormed = true) : encode j = .stream kind bytes ∧ j.wellFormed = true := by
  unfold decodeMagic at h
  split at h
  case isTrue ht =>
    cases h
    exact ⟨ht ▸ henc, hwf⟩
  case isFalse => cases h

theorem encode_of_decodeBrrBlock {hdr : Byte} {data : List Byte} {i : Instr} (h : decodeBrrBlock hdr data = .ok i) :
    encode i = .stream .brrblk (hdr :: data) ∧ i.wellFormed = true := by
  unfold decodeBrrBlock at h
  split at h
  case isTrue hlen =>
    cases h
    refine ⟨?_, by rw [Instr.wellFormed, length_flatMap_nibblesOf, hlen]; rfl⟩
    rw [encode, encodeNibbles_flatMap_nibblesOf]
    exact congrArg (fun b => Code.stream .brrblk (b :: data)) (header_fields hdr)
  case isFalse => cases h

theorem encode_of_decodeIpsRecord {o0 o1 o2 s0 s1 : Byte} {data : List Byte} {i : Instr}
    (h : decodeIpsRecord (be24 o0 o1 o2) (be16 s0 s1) data = .ok i) :
    encode i = .stream .ipsrec (o0 :: o1 :: o2 :: s0 :: s1 :: data) ∧ i.wellFormed = true := by
  unfold decodeIpsRecord at h
  split_ifs at h with heof hzero hlen
  cases h
  have hpos : (be16 s0 s1).toNat ≠ 0 := fun h0 => hzero (BitVec.eq_of_toNat_eq h0)
  refine ⟨?_, by simp [Instr.wellFormed, heof, hlen, hpos, (be16 s0 s1).isLt]⟩
  rw [encode, hlen, BitVec.ofNat_toNat, BitVec.setWidth_eq, bytesBe24_be24, bytesBe16_be16]
  rfl

theorem encode_of_decodeIpsRle {o0 o1 o2 s0 s1 n0 n1 v : Byte} {i : Instr}
    (h : decodeIpsRle (be24 o0 o1 o2) (be16 s0 s1) (be16 n0 n1) v = .ok i) :
    encode i = .stream .ipsrle [o0, o1, o2, s0, s1, n0, n1, v] ∧ i.wellFormed = true := by
  unfold decodeIpsRle at h
  split_ifs at h with heof hsize
  cases h
  refine ⟨?_, by simp [Instr.wellFormed, heof]⟩
  rw [encode, ← not_not.1 hsize, bytesBe24_be24, bytesBe16_be16, bytesBe16_be16]
  rfl

theorem encode_of_decodeVlv {bytes : List Byte} {i : Instr} (h : decodeVlv bytes = .ok i) :
    encode i = .stream .vlv bytes ∧ i.wellFormed = true := by
  unfold decodeVlv at h
  split at h
  case h_1 ds htake =>
    cases h
    obtain ⟨happend, hne⟩ := encodeVlv_append_of_takeVlv htake
    rw [List.append_nil] at happend
    exact ⟨congrArg _ happend, by simp [Instr.wellFormed, hne]⟩
  all_goals cases h

theorem encode_of_decodeUpsRun {bytes : List Byte} {i : Instr} (h : decodeUpsRun bytes = .ok i) :
    encode i = .stream .upsrun bytes ∧ i.wellFormed = true := by
  unfold decodeUpsRun at h
  split at h
  case h_1 => cases h
  case h_2 ds rest htake =>
    split at h
    case h_1 xs hxors =>
      cases h
      obtain ⟨hrel, hne⟩ := encodeVlv_append_of_takeVlv htake
      obtain ⟨hbytes, hall⟩ := append_of_takeXors hxors
      refine ⟨?_, by simp [Instr.wellFormed, hne, hall]⟩
      rw [encode, List.append_assoc, hbytes, hrel]
    all_goals cases h

/-- The bytes of an element are its code, all of them. -/
theorem encode_of_decodeElement {kind : Element} {bytes : List Byte} {i : Instr} (h : decodeElement kind bytes = .ok i) :
    encode i = .stream kind bytes ∧ i.wellFormed = true := by
  cases kind with
  | tile2 | tile4 | utile | image =>
    simp only [decodeElement] at h
    split at h
    case isTrue hlen =>
      cases h
      exact ⟨rfl, by simp [Instr.wellFormed, hlen]⟩
    case isFalse => cases h
  | flip =>
    simp only [decodeElement] at h
    split at h
    case h_1 b =>
      split at h
      case isTrue hres =>
        cases h
        exact ⟨congrArg (fun b => Code.stream .flip [b]) (flip_fields hres), rfl⟩
      case isFalse => cases h
    case h_2 => cases h
  | color15 =>
    simp only [decodeElement] at h
    split at h
    case h_1 b0 b1 =>
      cases h
      exact ⟨by rw [encode, colorWord_fields, bytesLe16_le16], rfl⟩
    case h_2 => cases h
  | pcm16 =>
    simp only [decodeElement] at h
    split at h
    case h_1 b0 b1 =>
      cases h
      exact ⟨by rw [encode, bytesLe16_le16], rfl⟩
    case h_2 => cases h
  | rgb24 | lzctrl | lzlit | lzmatch | lzend =>
    simp only [decodeElement] at h
    split at h
    case h_1 =>
      cases h
      exact ⟨rfl, rfl⟩
    case h_2 => cases h
  | brrblk =>
    simp only [decodeElement] at h
    split at h
    case h_1 => exact encode_of_decodeBrrBlock h
    case h_2 => cases h
  | ipsmagic | ipseof | upsmagic => exact encode_of_decodeMagic h rfl rfl
  | ipsrec =>
    simp only [decodeElement] at h
    split at h
    case h_1 => exact encode_of_decodeIpsRecord h
    case h_2 => cases h
  | ipsrle =>
    simp only [decodeElement] at h
    split at h
    case h_1 => exact encode_of_decodeIpsRle h
    case h_2 => cases h
  | vlv => exact encode_of_decodeVlv h
  | upsrun => exact encode_of_decodeUpsRun h
  | upstrailer =>
    simp only [decodeElement] at h
    split at h
    case h_1 =>
      cases h
      exact ⟨by rw [encode, bytesLe32_le32, bytesLe32_le32, bytesLe32_le32]; rfl, rfl⟩
    case h_2 => cases h

/-! ## The statements -/

/-- Settles O1: each instruction by its own round trip. -/
theorem decodeOfEncodeIsTheInstruction : Obligations.DecodeOfEncodeIsTheInstruction := by
  unfold Obligations.DecodeOfEncodeIsTheInstruction
  intro i
  cases i with
  | tdec2 h v => exact Laws.RoundTrip.tdec2 h v
  | tdec4 h v => exact Laws.RoundTrip.tdec4 h v
  | tenc2 h v => exact Laws.RoundTrip.tenc2 h v
  | tenc4 h v => exact Laws.RoundTrip.tenc4 h v
  | tasm2 w ht => exact Laws.RoundTrip.tasm2 w ht
  | tasm4 w ht => exact Laws.RoundTrip.tasm4 w ht
  | cexp => exact Laws.RoundTrip.cexp
  | cpack => exact Laws.RoundTrip.cpack
  | brrdec => exact Laws.RoundTrip.brrdec
  | lzdec => exact Laws.RoundTrip.lzdec
  | ipsapply => exact Laws.RoundTrip.ipsapply
  | upsapply => exact Laws.RoundTrip.upsapply
  | illegal word => exact Laws.RoundTrip.illegal word
  | tile2 planes => exact Laws.RoundTrip.tile2 planes
  | tile4 planes => exact Laws.RoundTrip.tile4 planes
  | utile pixels => exact Laws.RoundTrip.utile pixels
  | image pixels => exact Laws.RoundTrip.image pixels
  | flip fh fv => exact Laws.RoundTrip.flip fh fv
  | color15 x b g r => exact Laws.RoundTrip.color15 x b g r
  | rgb24 r g b => exact Laws.RoundTrip.rgb24 r g b
  | brrblk shift filter loop fin nibbles => exact Laws.RoundTrip.brrblk shift filter loop fin nibbles
  | pcm16 sample => exact Laws.RoundTrip.pcm16 sample
  | lzctrl ctrl => exact Laws.RoundTrip.lzctrl ctrl
  | lzlit data => exact Laws.RoundTrip.lzlit data
  | lzmatch b0 b1 => exact Laws.RoundTrip.lzmatch b0 b1
  | lzend marker => exact Laws.RoundTrip.lzend marker
  | ipsmagic => exact Laws.RoundTrip.ipsmagic
  | ipsrec offset data => exact Laws.RoundTrip.ipsrec offset data
  | ipsrle offset runSize value => exact Laws.RoundTrip.ipsrle offset runSize value
  | ipseof => exact Laws.RoundTrip.ipseof
  | upsmagic => exact Laws.RoundTrip.upsmagic
  | vlv digits => exact Laws.RoundTrip.vlv digits
  | upsrun rel xors => exact Laws.RoundTrip.upsrun rel xors
  | upstrailer srcCrc tgtCrc patchCrc => exact Laws.RoundTrip.upstrailer srcCrc tgtCrc patchCrc

/-- Settles O2: a command word field by field, a stream element by the decoder of its kind. -/
theorem encodeOfDecodeIsTheCode : Obligations.EncodeOfDecodeIsTheCode := by
  unfold Obligations.EncodeOfDecodeIsTheCode
  intro c i h
  cases c with
  | command w =>
    cases h
    exact codedBy_decodeCommand w
  | stream kind bytes => exact encode_of_decodeElement h

/-- Settles O4: each code is decoded. -/
theorem writtenOutCodesDecodeToTheirInstructions : Obligations.WrittenOutCodesDecodeToTheirInstructions := by
  unfold Obligations.WrittenOutCodesDecodeToTheirInstructions
  decide

/-! ## The value of a VLV (R221, R222) -/

namespace Machine

theorem vlvValue_eq_sum (ds : List (BitVec 7)) :
    vlvValue ds = ((List.range ds.length).map fun k => (ds.getD k 0#7).toNat * 2 ^ (7 * k)).sum := by
  induction ds with
  | nil => rfl
  | cons d ds ih =>
    have hshift (k : Nat) : (ds.getD k 0#7).toNat * 2 ^ (7 * (k + 1)) = 128 * ((ds.getD k 0#7).toNat * 2 ^ (7 * k)) := by ring
    rw [vlvValue, ih, List.length_cons, List.range_succ_eq_map, List.map_cons, List.sum_cons, List.map_map]
    simp only [Function.comp_def, Nat.succ_eq_add_one, List.getD_cons_succ, hshift, List.sum_map_mul_left]
    simp

theorem vlvValue_append_zero (ds : List (BitVec 7)) : vlvValue (ds ++ [0#7]) = vlvValue ds := by
  induction ds with
  | nil => rfl
  | cons d ds ih => rw [List.cons_append, vlvValue, ih, vlvValue]

/-- Settles O54: the digits are those of the sum, and the decoder of a VLV gives them back. -/
theorem vlvIsBaseOneTwentyEight : Obligations.VlvIsBaseOneTwentyEight := by
  unfold Obligations.VlvIsBaseOneTwentyEight
  intro ds hne
  refine ⟨vlvValue_eq_sum ds, vlvValue_append_zero ds, ?_, Laws.takeVlv_encodeVlv ds hne⟩
  rintro d rfl
  rfl

end Machine

end Sys2Proof
end

section
/-! SUPPORT. What each stream element does where its engine stands at it, one lemma per way it can go (R100 to R118), and the step
of a running engine that reads it. -/

namespace Sys2Proof.Machine

variable {s : State}

/-! ## Elements and steps -/

theorem ok_bind {α β : Type} (a : α) (f : α → Except Stop β) : ((Except.ok a : Except Stop α) >>= f) = f a := rfl

theorem error_bind {α β : Type} (st : Stop) (f : α → Except Stop β) :
    ((Except.error st : Except Stop α) >>= f) = .error st := rfl

theorem exec_eq_execElement {i : Instr} (h : i.isCommand = false) (s : State) : exec i s = execElement i s := by
  cases i <;> cases h <;> rfl

/-- The bytes of a well-formed element are fetched as that element. -/
theorem fetchAs_of_encode {i : Instr} {kind : Element} {bytes : List Byte} (hcode : encode i = .stream kind bytes)
    (hwf : i.wellFormed = true) (e : Err) (pos : Nat) : fetchAs kind bytes e pos = .ok (.element i) := by
  have hdecode : decode (encode i) = .ok i := decodeOfEncodeIsTheInstruction i hwf
  rw [hcode] at hdecode
  exact fetchAs_eq_ok.2 ⟨i, hdecode, rfl⟩

/-- Settles O6: by what the engine finds at its cursor. -/
theorem stepOfARunningEngineRunsTheElementItReads : Obligations.StepOfARunningEngineRunsTheElementItReads := by
  unfold Obligations.StepOfARunningEngineRunsTheElementItReads
  intro s hw
  refine ⟨fun i hf => step_of_fetch_element hw hf, fun out hf => step_of_fetch_done hw hf, fun e pos hf => ?_, fun f hf => ?_⟩
  · exact step_of_fetch_error hw hf
  · exact step_of_fetch_error hw hf

/-! ## Tiles -/

theorem packedTile_of_tdec {d : Depth} {t : TileWork} {planes : List Byte} (hw : s.work = .tdec t) (hd : t.depth = d)
    (hlen : planes.length = d.tileBytes) :
    packedTile d planes s = .next (s.setWork (.tdec { t with
      c := t.c + d.tileBytes, out := t.out ++ tileBytes (flip (unpack planes d) t.h t.v) })) :=
  packedTile_eq_next.2 (.inl ⟨t, hw, hd, hlen, rfl⟩)

theorem packedTile_of_tasm {d : Depth} {a : AsmWork} {f : Bool × Bool} {planes : List Byte} (hw : s.work = .tasm a)
    (hd : a.depth = d) (hlen : planes.length = d.tileBytes) (hn : a.flips.length = a.w * a.ht)
    (hf : a.flips[a.tiles.length]? = some f) :
    packedTile d planes s = .next (s.setWork (.tasm { a with
      tiles := a.tiles ++ [tileBytes (flip (unpack planes d) f.1 f.2)] })) := by
  obtain ⟨hlt, -⟩ := List.getElem?_eq_some_iff.1 hf
  refine packedTile_eq_next.2 (.inr ⟨a, hw, hd, hlen, hn.ge, hn ▸ hlt, ?_⟩)
  rw [List.getD_eq_getElem?_getD, hf]
  rfl

/-- Settles O26: the two depths are one element. -/
theorem packedTileElementsComplete : Obligations.PackedTileElementsComplete := by
  unfold Obligations.PackedTileElementsComplete
  exact fun s planes => ⟨fun t hw hd hlen => packedTile_of_tdec (d := .two) hw hd hlen,
    fun t hw hd hlen => packedTile_of_tdec (d := .four) hw hd hlen,
    fun a fh fv hw hd hlen hn hf => packedTile_of_tasm (d := .two) (f := (fh, fv)) hw hd hlen hn hf,
    fun a fh fv hw hd hlen hn hf => packedTile_of_tasm (d := .four) (f := (fh, fv)) hw hd hlen hn hf⟩

theorem firstOutOfRange_eq_none {d : Depth} {pixels : List Byte} (h : ∀ p ∈ pixels, p.toNat < 2 ^ d.bits) (k : Nat) :
    firstOutOfRange d pixels k = none := by
  induction pixels generalizing k with
  | nil => rfl
  | cons p ps ih =>
    obtain ⟨hp, hps⟩ := List.forall_mem_cons.1 h
    rw [firstOutOfRange, if_neg hp.not_ge, ih hps]

theorem firstOutOfRange_append {d : Depth} {good rest : List Byte} {bad : Byte} (hgood : ∀ p ∈ good, p.toNat < 2 ^ d.bits)
    (hbad : 2 ^ d.bits ≤ bad.toNat) (k : Nat) : firstOutOfRange d (good ++ bad :: rest) k = some (k + good.length) := by
  induction good generalizing k with
  | nil => exact if_pos hbad
  | cons p ps ih =>
    obtain ⟨hp, hps⟩ := List.forall_mem_cons.1 hgood
    rw [List.cons_append, firstOutOfRange, if_neg hp.not_ge, ih hps, List.length_cons]
    congr 1
    omega

section
variable {t : TileWork} {pixels : List Byte} (hw : s.work = .tenc t) (hlen : pixels.length = 64)
include hw hlen

theorem execUtile_of_in_range (h : ∀ p ∈ pixels, p.toNat < 2 ^ t.depth.bits) :
    execUtile pixels s = .next (s.setWork (.tenc { t with
      c := t.c + 64, out := t.out ++ pack (flip (tileMatrix pixels) t.h t.v) t.depth })) := by
  simp only [execUtile, hw, if_pos hlen, firstOutOfRange_eq_none h]

theorem execUtile_of_out_of_range {k : Nat} (h : firstOutOfRange t.depth pixels 0 = some k) :
    execUtile pixels s = .next (s.failed 11#8 (t.c + k)) := by
  simp only [execUtile, hw, if_pos hlen, h, State.stop]
  rw [s.raise_eq_failed _ _ (by rw [State.loopAfterError, hw]), Err.code]

end

section
variable {a : AsmWork} (hw : s.work = .tasm a)
include hw

theorem execFlip_of_missing (hn : a.flips.length < a.w * a.ht) (f : Bool × Bool) :
    execFlip f.1 f.2 s = .next (s.setWork (.tasm { a with flips := a.flips ++ [f] })) := by
  simp only [execFlip, hw, if_pos hn]

theorem execImage_of_all_placed (hn : a.flips.length = a.w * a.ht) (ht : a.tiles.length = a.w * a.ht) :
    execImage (assemble a.w a.ht a.tiles) s = .next (s.succeeded (assemble a.w a.ht a.tiles)) := by
  rw [← s.commit_eq_succeeded _ (by rw [State.loopAfterSuccess, hw])]
  simp only [execImage, hw, hn.ge, ht.ge, and_self, if_true]

end

/-- Settles O27: the range check scans the pixels in order, so the pixels before the one it finds are in range. -/
theorem utileFlipAndImageElementsComplete : Obligations.UtileFlipAndImageElementsComplete := by
  unfold Obligations.UtileFlipAndImageElementsComplete
  refine ⟨fun s t pixels hw hlen => ⟨fun h => execUtile_of_in_range hw hlen h, fun k hk hbad hgood => ?_⟩,
    fun s a hw => ⟨fun fh fv hn => execFlip_of_missing hw hn (fh, fv), fun hn ht => execImage_of_all_placed hw hn ht⟩⟩
  have hsplit : pixels = pixels.take k ++ pixels[k] :: pixels.drop (k + 1) := by simp
  have hfirst : firstOutOfRange t.depth pixels 0 = some k := by
    rw [hsplit, firstOutOfRange_append (fun p hp => ?_) hbad, List.length_take_of_le hk.le, Nat.zero_add]
    obtain ⟨j, hj, rfl⟩ := List.mem_iff_getElem.1 hp
    rw [List.getElem_take]
    exact hgood j (by simp at hj; omega)
  exact execUtile_of_out_of_range hw hlen hfirst

/-! ## Colours -/

theorem execColor15_of_cexp {k : ColorWork} (hw : s.work = .cexp k) (x : Bool) (b g r : BitVec 5) :
    execColor15 x b g r s = .next (s.setWork (.cexp { c := k.c + 2, out := k.out ++ [widen r, widen g, widen b] })) := by
  simp only [execColor15, hw]

theorem execRgb24_of_cpack {k : ColorWork} (hw : s.work = .cpack k) (r g b : Byte) :
    execRgb24 r g b s = .next (s.setWork (.cpack
      { c := k.c + 3, out := k.out ++ bytesLe16 (colorWord false (narrow b) (narrow g) (narrow r)) })) := by
  simp only [execRgb24, hw]

theorem fields_colorWord (x : Bool) (b g r : BitVec 5) :
    (colorWord x b g r).extractLsb' 0 5 = r ∧ (colorWord x b g r).extractLsb' 5 5 = g ∧
      (colorWord x b g r).extractLsb' 10 5 = b ∧ (colorWord x b g r).getLsbD 15 = x := by
  have hround := Laws.RoundTrip.color15 x b g r rfl
  simp only [encode, decode, decodeElement, bytesLe16, Laws.le16_bytes, Except.ok.injEq, Instr.color15.injEq] at hround
  obtain ⟨hx, hb, hg, hr⟩ := hround
  exact ⟨hr, hg, hb, hx⟩

/-- Settles O35: the fields of the packed word are the narrowed channels. -/
theorem colourElementsComplete : Obligations.ColourElementsComplete := by
  unfold Obligations.ColourElementsComplete
  refine fun s k => ⟨fun hw x b g r => execColor15_of_cexp hw x b g r, fun hw r g b => ?_⟩
  obtain ⟨hr, hg, hb, hx⟩ := fields_colorWord false (narrow b) (narrow g) (narrow r)
  exact ⟨_, hr, hg, hb, hx, execRgb24_of_cpack hw r g b⟩

/-! ## BRR blocks and samples -/

section
variable {b : BrrWork}

/-- The nibbles of a block in turn give the block's samples, the last two of which are the history (R161, R168). -/
theorem decode_eq_sampleList (shift filter : Nat) (b : BrrWork) (nibbles : List (BitVec 4)) :
    BrrWork.decode shift filter b nibbles =
      { b with
        out := b.out ++ (sampleList shift filter b.p1 b.p2 nibbles).flatMap bytesLe16
        p1 := (b.p1 :: sampleList shift filter b.p1 b.p2 nibbles).getLastD 0#16
        p2 := (b.p2 :: b.p1 :: sampleList shift filter b.p1 b.p2 nibbles).dropLast.getLastD 0#16 } := by
  induction nibbles generalizing b with
  | nil => simp [BrrWork.decode, sampleList]
  | cons nib nibs ih =>
    rw [BrrWork.decode, ih]
    simp [BrrWork.emit, sampleList]

theorem block_eq_run (b : BrrWork) (k : BrrBlock) :
    b.block k.shift.toNat k.filter.toNat k.loop k.nibbles = BrrBlock.run b k := by
  simp only [BrrWork.block, decode_eq_sampleList, BrrBlock.run, BrrWork.samples, Bool.or_comm]

theorem length_sampleList (shift filter : Nat) (p1 p2 : Sample) (nibbles : List (BitVec 4)) :
    (sampleList shift filter p1 p2 nibbles).length = nibbles.length := by
  induction nibbles generalizing p1 p2 with
  | nil => rfl
  | cons nib nibs ih => rw [sampleList, List.length_cons, ih, List.length_cons]

theorem length_flatMap_bytesLe16 (samples : List (BitVec 16)) : (samples.flatMap bytesLe16).length = 2 * samples.length := by
  induction samples with
  | nil => rfl
  | cons x xs ih =>
    rw [List.flatMap_cons, List.length_append, ih, List.length_cons]
    show 2 + _ = _
    omega

theorem length_run (b : BrrWork) (k : BrrBlock) : (BrrBlock.run b k).out.length = b.out.length + 2 * k.nibbles.length := by
  simp only [BrrBlock.run, List.length_append, length_flatMap_bytesLe16, length_sampleList]

section
variable {k : BrrBlock} (hw : s.work = .brr b) (hlen : k.nibbles.length = 16)
include hw hlen

theorem execBrrblk_of_fits (hfit : 2 * (b.out.length / 2 + 16) ≤ s.limit) (fin : Bool) :
    execBrrblk k.shift k.filter k.loop fin k.nibbles s =
      if fin then .next ((s.setWork (.brr (BrrBlock.run b k))).commit (BrrBlock.run b k).out)
      else .next (s.setWork (.brr (BrrBlock.run b k))) := by
  simp only [execBrrblk, hw, if_pos hlen, block_eq_run]
  exact if_neg hfit.not_gt

theorem execBrrblk_of_too_long (hlim : s.limit < 2 * (b.out.length / 2 + 16)) (fin : Bool) :
    execBrrblk k.shift k.filter k.loop fin k.nibbles s = .next ((s.failed 15#8 b.c).withLoop 0#32) := by
  simp only [execBrrblk, hw, if_pos hlen]
  exact (if_pos hlim).trans (congrArg _ (raise_of_brr hw .outputLimitExceeded b.c))

omit hw in
/-- The 9 bytes of a block. -/
theorem length_bytes_brrBlock (fin : Bool) : (k.bytes fin).length = 9 := by
  have hdata : (encodeNibbles k.nibbles).length = 8 := (Laws.encodeNibbles_spec 8 k.nibbles hlen).1
  exact congrArg (· + 1) hdata

omit hw in
/-- Where all the bytes of a block are there, the header is read before the limit is checked and the rest after it. -/
theorem brrFetch_of_block {fin : Bool} (hold : Holds s.src b.c (k.bytes fin)) (hc : b.c + 9 ≤ s.srcLen.toNat) :
    brrFetch b s =
      if s.limit < 2 * (b.out.length / 2 + 16) then .error (.raise .outputLimitExceeded b.c)
      else .ok (.element (.brrblk k.shift k.filter k.loop fin k.nibbles)) := by
  obtain ⟨hhdr, hdata⟩ := holds_cons.1 hold
  have hreadHdr := readByte_eq_ok.2 (show (s.buffer .src).read b.c = _ from hhdr)
  have hread8 : (encodeNibbles k.nibbles).length = 8 := (Laws.encodeNibbles_spec 8 k.nibbles hlen).1
  have hreadData : s.readBytes .src (b.c + 1) 8 = .ok (encodeNibbles k.nibbles) := hread8 ▸ readBytes_of_holds hdata
  rw [brrFetch, failIf_neg (by omega), failIf_neg (by omega), hreadHdr, hreadData]
  by_cases hlim : s.limit < 2 * (b.samples + 16)
  · rw [failIf_pos hlim]
    exact (if_pos hlim).symm
  · rw [failIf_neg hlim]
    exact (fetchAs_of_encode rfl (by rw [Instr.wellFormed, hlen]; rfl) _ _).trans (if_neg hlim).symm

end

theorem execPcm16_of_brr (hw : s.work = .brr b) (x : Sample) : execPcm16 x s = .next (s.setWork (.brr (b.emit x))) := by
  simp only [execPcm16, hw]

/-- Settles O40: the block decoder is the fold over its samples, and the limit is checked at the header. -/
theorem brrElementsComplete : Obligations.BrrElementsComplete := by
  unfold Obligations.BrrElementsComplete
  intro s b k hw hlen
  refine ⟨fun hfit => ⟨execBrrblk_of_fits hw hlen hfit false, execBrrblk_of_fits hw hlen hfit true⟩, fun hlim fin =>
    ⟨execBrrblk_of_too_long hw hlen hlim fin, fun hold hc => ?_⟩, fun x => execPcm16_of_brr hw x⟩
  exact step_of_brrFetch_raise (e := .outputLimitExceeded) hw ((brrFetch_of_block hlen hold hc).trans (if_pos hlim))

end

/-! ## LZ tokens -/

section
variable {z : LzWork} (hw : s.work = .lz z)
include hw

theorem execLzctrl_of_control (hbits : z.bitsLeft = 0) {x : Byte} (hx : lzTerm s.lzCfg ≠ 2 ∨ x ≠ lzEndCtrl s.lzCfg) :
    execLzctrl x s = .next (s.setWork (.lz { z with c := z.c + 1, ctrl := x, bitsLeft := 8 })) := by
  simp only [execLzctrl, hw]
  exact if_pos ⟨hbits, not_and_or.2 hx⟩

section
variable (hbits : z.bitsLeft ≠ 0) (hctrl : z.ctrl.getLsbD 7 = false)
include hbits hctrl

theorem execLzlit_of_fits (hfit : z.out.length + 1 ≤ s.limit) (x : Byte) :
    execLzlit x s = .next (s.setWork (.lz { z.useBit with c := z.c + 1, out := z.out ++ [x] })) := by
  simp only [execLzlit, hw, if_pos (And.intro hbits hctrl)]
  exact if_neg hfit.not_gt

theorem execLzlit_of_too_long (hlim : s.limit < z.out.length + 1) (x : Byte) :
    execLzlit x s = .next (s.failed 15#8 z.c) := by
  simp only [execLzlit, hw, if_pos (And.intro hbits hctrl)]
  exact (if_pos hlim).trans (congrArg _ (raise_of_lz hw .outputLimitExceeded z.c))

omit hw in
/-- The limit is checked before a literal is read. -/
theorem lzFetch_of_literal_too_long (hgo : lzTerm s.lzCfg = 1 → z.out.length ≠ s.lzTarget.toNat) (hc : z.c < s.srcLen.toNat)
    (hlim : s.limit < z.out.length + 1) : lzFetch z s = .error (.raise .outputLimitExceeded z.c) := by
  rw [lzFetch, if_neg (not_and.2 hgo), if_neg hbits, if_pos hctrl, if_neg hc.not_ge, failIf_pos hlim]
  rfl

end

theorem execLzmatch_of_checks (hbits : z.bitsLeft ≠ 0) (hctrl : z.ctrl.getLsbD 7 = true) {b0 b1 : Byte}
    (hc : lzMatchChecks (lzLength s.lzCfg b0 b1) (lzDist s.lzCfg b0 b1) z s = .ok ()) :
    execLzmatch b0 b1 s = .next (s.setWork (.lz { z.useBit with
      c := z.c + 2, out := lzCopy (lzDist s.lzCfg b0 b1) (lzLength s.lzCfg b0 b1) z.out })) := by
  simp only [execLzmatch, hw, if_pos (And.intro hbits hctrl), hc]

end

/-- Settles O45: each element by its meaning, and a literal that does not fit by the check before it is read too. -/
theorem lzControlLiteralAndEndComplete : Obligations.LzControlLiteralAndEndComplete := by
  unfold Obligations.LzControlLiteralAndEndComplete
  intro s z x hw
  refine ⟨fun hbits hx => execLzctrl_of_control hw hbits hx, fun hbits ht hx => ?_,
    fun hbits hctrl hfit => execLzlit_of_fits hw hbits hctrl hfit x, fun hbits hctrl hlim =>
      ⟨execLzlit_of_too_long hw hbits hctrl hlim x, fun hc hgo => ?_⟩⟩
  · rw [hx]
    exact exec_lzend_of_marker hw hbits ht
  · exact step_of_lzFetch_raise (e := .outputLimitExceeded) hw (lzFetch_of_literal_too_long hbits hctrl hgo hc hlim)

/-- The checks of a match in their order (R186, R188, R189). -/
theorem lzMatchChecks_eq_ite (length dist : Nat) (z : LzWork) (s : State) :
    lzMatchChecks length dist z s =
      if length = 0 then .error (.raise .lengthZero z.c)
      else if dist = 0 ∨ z.out.length < dist then .error (.raise .distanceOutOfBounds z.c)
      else if s.limit < z.out.length + length ∨ (lzTerm s.lzCfg = 1 ∧ s.lzTarget.toNat < z.out.length + length) then
        .error (.raise .outputLimitExceeded z.c)
      else .ok () := by
  rw [lzMatchChecks]
  split_ifs with hl hd hlim
  · rw [failIf_pos hl]
    rfl
  · rw [failIf_neg hl, failIf_pos hd]
    rfl
  · rw [failIf_neg hl, failIf_neg hd]
    by_cases hlimit : s.limit < z.out.length + length
    · rw [failIf_pos hlimit]
      rfl
    · rw [failIf_neg hlimit, failIf_pos (hlim.resolve_left hlimit)]
      rfl
  · obtain ⟨hlimit, htarget⟩ := not_or.1 hlim
    rw [failIf_neg hl, failIf_neg hd, failIf_neg hlimit, failIf_neg htarget]
    rfl

/-- Settles O46: the checks in their order, then the copy. -/
theorem lzMatchCompletes : Obligations.LzMatchCompletes := by
  unfold Obligations.LzMatchCompletes
  rintro s z b0 b1 length dist hw hbits hctrl rfl rfl
  have hchecks := lzMatchChecks_eq_ite (lzLength s.lzCfg b0 b1) (lzDist s.lzCfg b0 b1) z s
  have hraise {e : Err} (hc : lzMatchChecks (lzLength s.lzCfg b0 b1) (lzDist s.lzCfg b0 b1) z s = .error (.raise e z.c)) :
      exec (.lzmatch b0 b1) s = .next (s.failed e.code z.c) := exec_lzmatch_of_checks_raise hw hbits hctrl hc
  refine ⟨fun hl => ?_, fun hl hd => ?_, fun hl hd hle hlim => ?_, fun hl hd hle hlim ht => ?_⟩
  · rw [if_pos hl] at hchecks
    exact hraise hchecks
  · rw [if_neg hl, if_pos hd] at hchecks
    exact hraise hchecks
  · rw [if_neg hl, if_neg (by omega), if_pos hlim] at hchecks
    exact hraise hchecks
  · rw [if_neg hl, if_neg (by omega), if_neg (by omega)] at hchecks
    exact execLzmatch_of_checks hw hbits hctrl hchecks

/-! ## IPS records -/

section
variable {p : IpsWork}

theorem streamBytes_ipsrec (offset : BitVec 24) (data : List Byte) :
    streamBytes (.ipsrec offset data) = bytesBe24 offset ++ bytesBe16 (BitVec.ofNat 16 data.length) ++ data := rfl

theorem length_streamBytes_ipsrec (offset : BitVec 24) (data : List Byte) :
    (streamBytes (.ipsrec offset data)).length = 5 + data.length := by
  rw [streamBytes_ipsrec, List.length_append]
  rfl

theorem beNat_bytesBe24 (x : BitVec 24) : beNat (bytesBe24 x) = x.toNat := by
  have := x.isLt
  simp only [beNat, bytesBe24, List.foldl_cons, List.foldl_nil, BitVec.extractLsb'_toNat, Nat.shiftRight_eq_div_pow]
  omega

theorem beNat_bytesBe16 (x : BitVec 16) : beNat (bytesBe16 x) = x.toNat := by
  have := x.isLt
  simp only [beNat, bytesBe16, List.foldl_cons, List.foldl_nil, BitVec.extractLsb'_toNat, Nat.shiftRight_eq_div_pow]
  omega

/-- The offset bytes of a record are not the terminator (R114). -/
theorem bytesBe24_ne_eofMagic {offset : BitVec 24} (h : offset ≠ eofOffset) : bytesBe24 offset ≠ eofMagic := by
  intro heq
  simp only [bytesBe24, eofMagic, List.cons.injEq, and_true] at heq
  obtain ⟨h0, h1, h2⟩ := heq
  exact h (by rw [← Laws.be24_bytes offset, h0, h1, h2]; rfl)

/-- An offset, a size field and what follows them stand at a record boundary. -/
theorem ipsFetch_of_fields {offset : BitVec 24} {size : BitVec 16} {rest : List Byte} (hp : p.phase = .records)
    (hne : offset ≠ eofOffset) (hold : Holds s.aux p.c (bytesBe24 offset ++ bytesBe16 size ++ rest))
    (hlen : p.c + (5 + rest.length) ≤ s.auxLen.toNat) :
    ipsFetch p s =
        ipsFetchRecord p.c (bytesBe24 offset) s ∧
      s.readBytes .aux (p.c + 3) 2 = .ok (bytesBe16 size) ∧ s.readBytes .aux (p.c + 5) rest.length = .ok rest := by
  obtain ⟨hhead, hrest⟩ := holds_append.1 hold
  obtain ⟨hoffset, hsize⟩ := holds_append.1 hhead
  exact ⟨ipsFetch_of_offset hp (by omega) rfl hoffset (bytesBe24_ne_eofMagic hne), readBytes_of_holds (b := .aux) hsize,
    readBytes_of_holds (b := .aux) hrest⟩

/-- A normal record: its limit is checked before its data bytes are read (R209). -/
theorem ipsFetch_of_ipsrec {offset : BitVec 24} {data : List Byte} (hp : p.phase = .records)
    (hwf : (Instr.ipsrec offset data).wellFormed = true) (hold : Holds s.aux p.c (streamBytes (.ipsrec offset data)))
    (hlen : p.c + (streamBytes (.ipsrec offset data)).length ≤ s.auxLen.toNat) :
    ipsFetch p s = if s.limit < offset.toNat + data.length then .error (.raise .outputLimitExceeded p.c)
      else .ok (.element (.ipsrec offset data)) := by
  have hfields := hwf
  simp only [Instr.wellFormed, Bool.and_eq_true, bne_iff_ne, decide_eq_true_eq] at hfields
  obtain ⟨⟨hne, hpos⟩, hsize⟩ := hfields
  rw [length_streamBytes_ipsrec] at hlen
  obtain ⟨hfetch, hreadSize, hreadData⟩ := ipsFetch_of_fields hp hne hold hlen
  have hbe : beNat (bytesBe16 (BitVec.ofNat 16 data.length)) = data.length := by
    rw [beNat_bytesBe16, BitVec.toNat_ofNat, Nat.mod_eq_of_lt hsize]
  rw [hfetch, ipsFetchRecord, failIf_neg (by omega), hreadSize]
  simp only [ok_bind, hbe, ne_eq, if_pos hpos, beNat_bytesBe24, hreadData]
  rw [failIf_neg (by omega), ok_bind]
  by_cases hlim : s.limit < offset.toNat + data.length
  · rw [failIf_pos hlim, if_pos hlim, error_bind]
  · rw [failIf_neg hlim, if_neg hlim, ok_bind]
    exact fetchAs_of_encode (streamBytes_ipsrec offset data ▸ rfl) hwf _ _

theorem ipsFetch_of_ipsrle {offset : BitVec 24} {runSize : BitVec 16} {value : Byte} (hp : p.phase = .records)
    (hwf : (Instr.ipsrle offset runSize value).wellFormed = true)
    (hold : Holds s.aux p.c (streamBytes (.ipsrle offset runSize value))) (hlen : p.c + 8 ≤ s.auxLen.toNat) :
    ipsFetch p s = .ok (.element (.ipsrle offset runSize value)) := by
  have hne : offset ≠ eofOffset := by simpa [Instr.wellFormed] using hwf
  obtain ⟨hfetch, hreadSize, hreadRest⟩ := ipsFetch_of_fields (rest := bytesBe16 runSize ++ [value]) hp hne hold hlen
  have hrest3 : s.readBytes .aux (p.c + 5) 3 = .ok (bytesBe16 runSize ++ [value]) := hreadRest
  rw [hfetch, ipsFetchRecord, failIf_neg (by omega), hreadSize]
  have hzero : beNat (bytesBe16 0#16) = 0 := beNat_bytesBe16 0#16
  simp only [ok_bind, hzero, ne_eq, not_true_eq_false, if_false]
  rw [failIf_neg (by omega), ok_bind, hrest3, ok_bind]
  exact fetchAs_of_encode rfl hwf _ _

/-- Where all the bytes of a record are there the engine reads it, or finds that a normal record does not fit. -/
theorem ipsFetch_of_record {i : Instr} {e : Nat} (hp : p.phase = .records) (hwf : i.wellFormed = true)
    (he : recordEnd i = some e) (hold : Holds s.aux p.c (streamBytes i)) (hlen : p.c + (streamBytes i).length ≤ s.auxLen.toNat) :
    ipsFetch p s = .ok (.element i) ∨
      (s.limit < e ∧ ipsFetch p s = .error (.raise .outputLimitExceeded p.c)) := by
  cases i with
  | ipsrec offset data =>
    cases he
    have hfetch := ipsFetch_of_ipsrec hp hwf hold hlen
    split at hfetch
    · exact .inr ⟨‹_›, hfetch⟩
    · exact .inl hfetch
  | ipsrle offset runSize value => exact .inl (ipsFetch_of_ipsrle hp hwf hold hlen)
  | _ => cases he

theorem ipsFetch_of_magic (hp : p.phase = .magic) (hlen : 5 ≤ s.auxLen.toNat) (hold : Holds s.aux 0 patchMagic) :
    ipsFetch p s = .ok (.element .ipsmagic) := by
  have hread : s.readBytes .aux 0 5 = .ok patchMagic := readBytes_of_holds (b := .aux) hold
  rw [ipsFetch, hp]
  simp only [failIf_neg hlen.not_gt, hread, ok_bind]
  exact fetchAs_of_encode rfl rfl _ _

/-- The two kinds of record are one operation: data written at an offset. -/
theorem exec_of_record {i : Instr} {e : Nat} (hwf : i.wellFormed = true) (he : recordEnd i = some e) (s : State) :
    ∃ offset data, exec i s = ipsRecord offset data (streamBytes i).length s ∧ offset + data.length = e ∧
      ∀ out, recordOutput out i = applyRecord out offset data := by
  cases i with
  | ipsrec offset data =>
    cases he
    rw [length_streamBytes_ipsrec]
    exact ⟨_, _, if_pos hwf, rfl, fun _ => rfl⟩
  | ipsrle offset runSize value =>
    cases he
    exact ⟨_, _, if_pos hwf, by rw [List.length_replicate], fun _ => rfl⟩
  | _ => cases he

section
variable (hw : s.work = .ips p)
include hw

theorem execIpsmagic_of_fits {source : List Byte} (hp : p.phase = .magic) (hold : Holds s.src 0 source)
    (hlen : s.srcLen.toNat = source.length) (hfit : source.length ≤ s.limit) :
    execIpsmagic s = .next (s.setWork (.ips { phase := .records, c := 5, out := source })) := by
  have hread : s.readBytes .src 0 s.srcLen.toNat = .ok source := hlen ▸ readBytes_of_holds (b := .src) hold
  simp only [execIpsmagic, hw, if_pos hp, hread]
  exact if_neg (hlen ▸ hfit.not_gt)

theorem execIpsmagic_of_too_long (hp : p.phase = .magic) (hlim : s.limit < s.srcLen.toNat) :
    execIpsmagic s = .next (s.failed 15#8 0) := by
  simp only [execIpsmagic, hw, if_pos hp, if_pos hlim, State.stop, raise_of_ips hw, Err.code]

section
variable {i : Instr} {e : Nat} (hp : p.phase = .records) (hwf : i.wellFormed = true) (he : recordEnd i = some e)
include hp hwf he

theorem exec_record_of_fits (hfit : e ≤ s.limit) :
    exec i s = .next (s.setWork (.ips { p with c := p.c + (streamBytes i).length, out := recordOutput p.out i })) := by
  obtain ⟨offset, data, hexec, rfl, hout⟩ := exec_of_record hwf he s
  rw [hexec, hout]
  exact ipsRecord_eq_next.2 ⟨p, hw, hp, .inr ⟨hfit, rfl⟩⟩

theorem exec_record_of_too_long (hlim : s.limit < e) : exec i s = .next (s.failed 15#8 p.c) := by
  obtain ⟨offset, data, hexec, rfl, -⟩ := exec_of_record hwf he s
  rw [hexec]
  exact ipsRecord_eq_next.2 ⟨p, hw, hp, .inl ⟨hlim, (raise_of_ips hw .outputLimitExceeded p.c).symm⟩⟩

end

theorem execIpseof_of_records (hp : p.phase = .records) : execIpseof s = .next (s.succeeded p.out) := by
  simp only [execIpseof, hw, if_pos hp, s.commit_eq_succeeded _ (by rw [State.loopAfterSuccess, hw])]

end

/-- Settles O50: each element by its meaning; a step comes to one that does not fit at the fetch or at the meaning. -/
theorem ipsElementsComplete : Obligations.IpsElementsComplete := by
  unfold Obligations.IpsElementsComplete
  intro s p hw
  have hrun : s.work ≠ .idle := by simp [hw]
  refine ⟨fun source hp hold hlen hfit => execIpsmagic_of_fits hw hp hold hlen hfit, fun hp hlim =>
    ⟨execIpsmagic_of_too_long hw hp hlim, fun hold hlen => ?_⟩, fun i e hp hwf he => ⟨fun hfit => exec_record_of_fits hw hp hwf he hfit,
    fun hlim => ⟨exec_record_of_too_long hw hp hwf he hlim, fun hold hlen => ?_⟩⟩, fun hp => execIpseof_of_records hw hp⟩
  · rw [step_of_fetch_element hrun ((engineFetch_of_ips hw).trans (ipsFetch_of_magic hp hlen hold))]
    exact execIpsmagic_of_too_long hw hp hlim
  · obtain hfetch | ⟨-, hfetch⟩ := ipsFetch_of_record hp hwf he hold hlen
    · rw [step_of_fetch_element hrun ((engineFetch_of_ips hw).trans hfetch)]
      exact exec_record_of_too_long hw hp hwf he hlim
    · exact step_of_ipsFetch_raise (e := .outputLimitExceeded) hw hfetch

end

/-! ## UPS elements -/

section
variable {u : UpsWork} (hw : s.work = .ups u)
include hw

theorem execUpsmagic_of_long_patch (hp : u.phase = .magic) (h : 16 ≤ s.auxLen.toNat) :
    execUpsmagic s = .next (s.setWork (.ups { u with phase := .sourceSize, c := 4 })) := by
  simp only [execUpsmagic, hw, if_pos hp, if_neg h.not_gt]

theorem execVlv_of_sourceSize {ds : List (BitVec 7)} (hds : ds ≠ []) (hp : u.phase = .sourceSize) :
    execVlv ds s = .next (s.setWork (.ups { u with phase := .targetSize (vlvValue ds), c := u.c + ds.length })) := by
  simp only [execVlv, hw, if_pos (mt List.length_eq_zero_iff.1 hds), hp]

theorem execVlv_of_targetSize {ds : List (BitVec 7)} {n : Nat} (hds : ds ≠ []) (hp : u.phase = .targetSize n) :
    execVlv ds s = s.continueWith (upsStart n (vlvValue ds) { u with c := u.c + ds.length } s) := by
  simp only [execVlv, hw, if_pos (mt List.length_eq_zero_iff.1 hds), hp]

theorem execUpsrun_of_runs {rel : List (BitVec 7)} {xors : List Byte} (hrel : rel ≠ []) (hx : ∀ x ∈ xors, x ≠ 0#8)
    (hp : u.phase = .runs) (hc : u.c < s.bodyEnd) :
    execUpsrun rel xors s = .next (s.setWork (.ups { u with
      c := u.c + rel.length + xors.length + 1
      cur := u.cur + vlvValue rel + xors.length + 1
      out := xorRun xors (u.cur + vlvValue rel) u.out })) := by
  have hwf : (Instr.upsrun rel xors).wellFormed = true := by simpa [Instr.wellFormed, hrel] using hx
  simp only [execUpsrun, hw]
  exact if_pos ⟨hp, hc, hwf⟩

end

theorem holds_take {m : Memory} {a : Nat} {bs : List Byte} (h : Holds m a bs) (n : Nat) : Holds m a (bs.take n) := by
  rw [← List.take_append_drop n bs, holds_append] at h
  exact h.1

/-- The initial output of a patch whose sizes are right (R230, R231). -/
theorem upsStart_of_sizes {source : List Byte} {target : Nat} (hold : Holds s.src 0 source) (hlen : source.length = s.srcLen.toNat)
    (hfit : target ≤ s.limit) (u : UpsWork) :
    upsStart source.length target u s = .ok (.ups { u with
      phase := .runs, cur := 0, out := source.take target ++ List.replicate (target - source.length) 0#8 }) := by
  have hread : s.readBytes .src 0 (min s.srcLen.toNat target) = .ok (source.take target) := by
    have hmin : (source.take target).length = min s.srcLen.toNat target := by rw [List.length_take, hlen, Nat.min_comm]
    exact hmin ▸ readBytes_of_holds (b := .src) (holds_take hold target)
  have hinit : initialOutput (source.take target) target =
      source.take target ++ List.replicate (target - source.length) 0#8 := by
    rw [initialOutput, List.take_take, Nat.min_self, List.length_take]
    congr 2
    omega
  rw [upsStart, failIf_neg (not_not.2 hlen), failIf_neg hfit.not_gt, hread]
  simp only [ok_bind, hinit]

/-- Settles O56: each element by its meaning, the target size by its checks in order. -/
theorem upsElementsComplete : Obligations.UpsElementsComplete := by
  unfold Obligations.UpsElementsComplete
  intro s u hw
  refine ⟨fun hp hlen => execUpsmagic_of_long_patch hw hp hlen, fun hp hlen => exec_upsmagic_of_short_patch hw hp hlen,
    fun ds hds hp => execVlv_of_sourceSize hw hds hp, fun ds n hds hp => ?_, fun rel xors hrel hx hp hc =>
    execUpsrun_of_runs hw hrel hx hp hc⟩
  have hexec : exec (.vlv ds) s = s.continueWith (upsStart n (vlvValue ds) { u with c := u.c + ds.length } s) :=
    execVlv_of_targetSize hw hds hp
  rw [hexec]
  refine ⟨fun hne => ?_, fun heq hlim => ?_, fun source heq hfit hold hlen => ?_⟩
  · rw [upsStart, failIf_pos hne]
    exact congrArg _ (raise_of_ups hw .sourceSizeMismatch 4)
  · rw [upsStart, failIf_neg (not_not.2 heq), failIf_pos hlim]
    exact congrArg _ (raise_of_ups hw .outputLimitExceeded 4)
  · subst hlen
    rw [upsStart_of_sizes hold heq hfit]
    rfl

end Sys2Proof.Machine
end

section
/-! SUPPORT. The pure functions of the engines: where a tile stands in an assembled image (R105, R140), what a record and a run leave of
the output (R204, R205, R232, R233), the CRC bit by bit (R225), and a BRR sample in 32-bit words (R164, R165, R168). -/

namespace Sys2Proof.Machine

/-! ## The assembled image -/

theorem length_assemble (w ht : Nat) (tiles : List (List Byte)) : (assemble w ht tiles).length = 64 * (w * ht) := by
  rw [assemble, List.length_map, List.length_range]

/-- Row `8*ty + y` and column `8*tx + x` of an image `8*w` wide. -/
theorem image_div_mod {w tx ty x y : Nat} (htx : tx < w) (hx : x < 8) :
    ((8 * ty + y) * (8 * w) + (8 * tx + x)) / (8 * w) = 8 * ty + y ∧
      ((8 * ty + y) * (8 * w) + (8 * tx + x)) % (8 * w) = 8 * tx + x :=
  (Nat.div_mod_unique (by omega)).2 ⟨by ring, by omega⟩

/-- Settles O28: the row and the column of a pixel give its tile and its place in the tile. -/
theorem assembledImagePlacesEveryTile : Obligations.AssembledImagePlacesEveryTile := by
  unfold Obligations.AssembledImagePlacesEveryTile
  intro w ht tiles hlen h64
  refine ⟨length_assemble w ht tiles, fun tx ty x y htx hty hx hy => ?_⟩
  have hindex : ty * w + tx < tiles.length := by
    have hrow : (ty + 1) * w ≤ ht * w := Nat.mul_le_mul_right w hty
    rw [hlen, Nat.mul_comm w ht]
    rw [Nat.succ_mul] at hrow
    omega
  have hpixel : 8 * y + x < (tiles[ty * w + tx]).length := by
    rw [h64 _ (List.getElem_mem _)]
    omega
  have hpos : (8 * ty + y) * (8 * w) + (8 * tx + x) < 64 * (w * ht) := by
    have hrows : (8 * ty + y + 1) * (8 * w) ≤ 8 * ht * (8 * w) := Nat.mul_le_mul_right _ (by omega)
    rw [Nat.succ_mul] at hrows
    have harea : 8 * ht * (8 * w) = 64 * (w * ht) := by ring
    omega
  obtain ⟨hdiv, hmod⟩ := image_div_mod (ty := ty) (y := y) htx hx
  have hrowTile : (8 * ty + y) / 8 = ty ∧ (8 * ty + y) % 8 = y := by omega
  have hcolTile : (8 * tx + x) / 8 = tx ∧ (8 * tx + x) % 8 = x := by omega
  refine ⟨hindex, hpixel, ?_⟩
  rw [assemble, List.getElem?_map, List.getElem?_range hpos, Option.map_some, hdiv, hmod, hrowTile.1, hrowTile.2, hcolTile.1,
    hcolTile.2, List.getD_eq_getElem _ _ hindex, List.getD_eq_getElem _ _ hpixel]

/-! ## Records -/

theorem length_extendTo (out : List Byte) (e : Nat) : (extendTo out e).length = max out.length e := by
  rw [extendTo, List.length_append, List.length_replicate]
  omega

theorem getElem?_extendTo (out : List Byte) {e a : Nat} (h : a < max out.length e) :
    (extendTo out e)[a]? = if a < out.length then out[a]? else some 0#8 := by
  rw [extendTo, List.getElem?_append]
  split
  · rfl
  · rw [List.getElem?_replicate, if_pos (by omega)]

theorem length_overwrite {out : List Byte} {offset : Nat} {data : List Byte} (h : offset + data.length ≤ out.length) :
    (overwrite out offset data).length = out.length := by
  simp only [overwrite, List.length_append, List.length_take, List.length_drop]
  omega

theorem getElem?_overwrite {out : List Byte} {offset : Nat} {data : List Byte} (h : offset + data.length ≤ out.length) (a : Nat) :
    (overwrite out offset data)[a]? = if offset ≤ a ∧ a < offset + data.length then data[a - offset]? else out[a]? := by
  have htake : (out.take offset).length = offset := List.length_take_of_le (by omega)
  rw [overwrite, List.getElem?_append, List.length_append, htake]
  by_cases hbefore : a < offset
  · rw [if_pos (by omega), List.getElem?_append_left (by omega), List.getElem?_take_of_lt hbefore, if_neg (by omega)]
  · by_cases hdata : a < offset + data.length
    · rw [if_pos hdata, List.getElem?_append_right (by omega), htake, if_pos (by omega)]
    · rw [if_neg hdata, if_neg (by omega), List.getElem?_drop]
      congr 1
      omega

theorem length_applyRecord (out : List Byte) (offset : Nat) (data : List Byte) :
    (applyRecord out offset data).length = max out.length (offset + data.length) := by
  have hfit : offset + data.length ≤ (extendTo out (offset + data.length)).length := by
    rw [length_extendTo]
    omega
  rw [applyRecord, length_overwrite hfit, length_extendTo]

/-- Settles O51: the output is extended with zeros, then the data overwrites its place. -/
theorem recordWritesItsBytesAndGrowsWithZeros : Obligations.RecordWritesItsBytesAndGrowsWithZeros := by
  unfold Obligations.RecordWritesItsBytesAndGrowsWithZeros
  intro out data offset
  refine ⟨length_applyRecord out offset data, fun a ha => ?_⟩
  rw [length_applyRecord] at ha
  have hfit : offset + data.length ≤ (extendTo out (offset + data.length)).length := by
    rw [length_extendTo]
    omega
  rw [applyRecord, getElem?_overwrite hfit, getElem?_extendTo out ha]

/-! ## Runs -/

theorem length_xorRun (xors : List Byte) (cur : Nat) (out : List Byte) : (xorRun xors cur out).length = out.length := by
  induction xors generalizing cur out with
  | nil => rfl
  | cons x xs ih =>
    rw [xorRun, ih]
    split
    · exact List.length_set
    · rfl

theorem getElem?_xorRun (xors : List Byte) (cur : Nat) (out : List Byte) {a : Nat} (h : a < out.length) :
    (xorRun xors cur out)[a]? =
      some (if cur ≤ a ∧ a < cur + xors.length then out[a] ^^^ xors.getD (a - cur) 0#8 else out[a]) := by
  induction xors generalizing cur out with
  | nil => rw [xorRun, if_neg (by simp), List.getElem?_eq_getElem h]
  | cons x xs ih =>
    rw [xorRun]
    by_cases hcur : cur < out.length
    · rw [if_pos hcur, ih _ _ (by rwa [List.length_set]), List.getElem_set, List.length_cons]
      by_cases ha : cur = a
      · subst ha
        rw [if_neg (by omega), if_pos rfl, if_pos (by omega), List.getD_eq_getElem _ _ hcur, Nat.sub_self]
        rfl
      · rw [if_neg ha]
        by_cases hin : cur + 1 ≤ a ∧ a < cur + 1 + xs.length
        · rw [if_pos hin, if_pos (by omega), show a - cur = a - (cur + 1) + 1 by omega, List.getD_cons_succ]
        · rw [if_neg hin, if_neg (by omega)]
    · rw [if_neg hcur, ih _ _ h, if_neg (by omega), if_neg (by omega)]

/-- Settles O58: the bytes of a run in turn, each changing one place. -/
theorem runXorsTheBytesAtItsCursor : Obligations.RunXorsTheBytesAtItsCursor := by
  unfold Obligations.RunXorsTheBytesAtItsCursor
  exact fun xors out cur => ⟨length_xorRun xors cur out, fun _ ha => getElem?_xorRun xors cur out ha⟩

/-! ## CRC-32 (R225) -/

/-- One message bit: together with bit 0 of the accumulator it decides whether the polynomial is applied. -/
def crcBit (poly : Word) (a : Word) (bit : Bool) : Word := if a.getLsbD 0 != bit then (a >>> 1) ^^^ poly else a >>> 1

/-- A shift of an accumulator into which message bits have been added takes the lowest of them. -/
theorem crcShift_xor (poly a x : Word) : crcShift poly (a ^^^ x) = crcBit poly a (x.getLsbD 0) ^^^ (x >>> 1) := by
  rw [crcShift, crcBit, BitVec.getLsbD_xor, BitVec.ushiftRight_xor_distrib]
  by_cases h : (a.getLsbD 0 ^^ x.getLsbD 0) = true
  · rw [if_pos h, if_pos h, BitVec.xor_assoc, BitVec.xor_comm (x >>> 1), ← BitVec.xor_assoc]
  · rw [if_neg h, if_neg h]

theorem crcShifts_xor (poly : Word) (n : Nat) (a x : Word) :
    crcShifts poly n (a ^^^ x) = ((List.range n).map fun k => x.getLsbD k).foldl (crcBit poly) a ^^^ (x >>> n) := by
  induction n generalizing a x with
  | zero => simp [crcShifts]
  | succ n ih =>
    have hbit (k : Nat) : (x >>> 1).getLsbD k = x.getLsbD (k + 1) := by rw [BitVec.getLsbD_ushiftRight, Nat.add_comm]
    rw [crcShifts, crcShift_xor, ih, List.range_succ_eq_map, List.map_cons, List.foldl_cons, List.map_map,
      ← BitVec.shiftRight_add, Nat.add_comm 1 n]
    simp only [Function.comp_def, hbit]

theorem crcByte_eq_foldl (poly acc : Word) (b : Byte) :
    crcByte poly acc b = ((List.range 8).map fun k => b.getLsbD k).foldl (crcBit poly) acc := by
  have hzero : b.setWidth 32 >>> 8 = 0#32 := by
    refine BitVec.eq_of_toNat_eq ?_
    have := b.isLt
    rw [BitVec.toNat_ushiftRight, BitVec.toNat_setWidth, Nat.shiftRight_eq_div_pow]
    simp
    omega
  have hbits : ((List.range 8).map fun k => (b.setWidth 32).getLsbD k) = (List.range 8).map fun k => b.getLsbD k := by
    refine List.map_congr_left fun k hk => ?_
    rw [BitVec.getLsbD_setWidth, decide_eq_true (by have := List.mem_range.1 hk; omega), Bool.true_and]
  rw [crcByte, crcShifts_xor, hzero, hbits, BitVec.xor_zero]

theorem crcFeed_eq_foldl (poly acc : Word) (bytes : List Byte) :
    crcFeed poly acc bytes = (bytes.flatMap fun b => (List.range 8).map fun k => b.getLsbD k).foldl (crcBit poly) acc := by
  induction bytes generalizing acc with
  | nil => rfl
  | cons b bs ih =>
    rw [List.flatMap_cons, List.foldl_append, ← crcByte_eq_foldl, ← ih]
    rfl

/-- Settles O55: eight shifts of the accumulator take the eight bits of the byte that was added to it. -/
theorem crcIsTheReflectedBitwiseCrc : Obligations.CrcIsTheReflectedBitwiseCrc := by
  unfold Obligations.CrcIsTheReflectedBitwiseCrc
  exact fun poly acc bytes => ⟨crcFeed_eq_foldl poly acc bytes, rfl, BitVec.xor_self⟩

/-! ## BRR samples in 32-bit words -/

/-- The scaled nibble as a word (R164). -/
def scaleWord (shift nibble : BitVec 4) : Word :=
  if shift.toNat ≤ 12 then nibble.signExtend 32 <<< shift.toNat
  else if (nibble.signExtend 32).slt 0#32 then BitVec.ofInt 32 (-2048) else BitVec.ofInt 32 2047

/-- A product shifted right, as a word (R165). -/
def shiftedProduct (p : Sample) (k : Int) (n : Nat) : Word := (p.signExtend 32 * BitVec.ofInt 32 k).sshiftRight n

/-- The filter term as a word (R165). -/
def termWord (filter : BitVec 2) (p1 p2 : Sample) : Word :=
  if filter = 0#2 then 0#32
  else if filter = 1#2 then shiftedProduct p1 15 4
  else if filter = 2#2 then shiftedProduct p1 61 5 + shiftedProduct p2 (-15) 4
  else shiftedProduct p1 115 6 + shiftedProduct p2 (-13) 4

theorem sample32_eq (shift : BitVec 4) (filter : BitVec 2) (nibble : BitVec 4) (p1 p2 : Sample) :
    sample32 shift filter nibble p1 p2 = clamp16Word (scaleWord shift nibble + termWord filter p1 p2) := rfl

/-- A word that stands for an integer inside 32 bits. -/
theorem toInt_ofInt_of_bounds {v : Int} (h : -2147483648 ≤ v ∧ v ≤ 2147483647) : (BitVec.ofInt 32 v).toInt = v := by
  rw [BitVec.toInt_ofInt]
  exact Int.bmod_eq_of_le (by omega) (by omega)

theorem toInt_add_of_bounds {x y : Word} (h : -2147483648 ≤ x.toInt + y.toInt ∧ x.toInt + y.toInt ≤ 2147483647) :
    (x + y).toInt = x.toInt + y.toInt := by
  rw [BitVec.toInt_add]
  exact Int.bmod_eq_of_le (by omega) (by omega)

theorem sample_bounds (p : Sample) : -32768 ≤ p.toInt ∧ p.toInt ≤ 32767 := by
  have hle := p.le_toInt
  have hlt := p.toInt_lt
  omega

theorem toInt_shiftedProduct (p : Sample) {k : Int} (hk : -128 ≤ k ∧ k ≤ 127) (n : Nat) :
    (shiftedProduct p k n).toInt = asr (p.toInt * k) n := by
  have hp := sample_bounds p
  have hprod : -4194304 ≤ p.toInt * k ∧ p.toInt * k ≤ 4194304 := by constructor <;> nlinarith
  rw [shiftedProduct, BitVec.toInt_sshiftRight, BitVec.toInt_mul, BitVec.toInt_signExtend_of_le (by decide),
    toInt_ofInt_of_bounds (by omega), Int.bmod_eq_of_le (by omega) (by omega), Int.shiftRight_eq_div_pow]
  rfl

/-- A nibble times a power of two up to `2^12` (R164). -/
theorem nibble_mul_pow_bounds (nibble : BitVec 4) {n : Nat} (hn : n ≤ 12) :
    -32768 ≤ nibble.toInt * 2 ^ n ∧ nibble.toInt * 2 ^ n ≤ 32768 := by
  have hlo : -8 ≤ nibble.toInt := nibble.le_toInt
  have hhi : nibble.toInt < 8 := nibble.toInt_lt
  have hone : 1 ≤ (2 : Int) ^ n := one_le_pow₀ (by decide)
  have hmax : (2 : Int) ^ n ≤ 2 ^ 12 := pow_le_pow_right₀ (by decide) hn
  constructor <;> nlinarith

theorem scale_bounds (shift nibble : BitVec 4) :
    -32768 ≤ scale nibble.toInt shift.toNat ∧ scale nibble.toInt shift.toNat ≤ 32768 := by
  unfold scale
  split
  · exact nibble_mul_pow_bounds nibble ‹_›
  · split <;> decide

theorem toInt_scaleWord (shift nibble : BitVec 4) : (scaleWord shift nibble).toInt = scale nibble.toInt shift.toNat := by
  have hext : (nibble.signExtend 32).toInt = nibble.toInt := BitVec.toInt_signExtend_of_le (by decide)
  rw [scaleWord, scale]
  split
  case isTrue h12 =>
    have hprod := nibble_mul_pow_bounds nibble h12
    rw [BitVec.toInt_shiftLeft, Nat.shiftLeft_eq, Nat.cast_mul, ← Int.bmod_mul_bmod, ← BitVec.toInt_eq_toNat_bmod, hext,
      Nat.cast_pow]
    exact Int.bmod_eq_of_le (by push_cast; omega) (by push_cast; omega)
  case isFalse =>
    have hneg : (nibble.signExtend 32).slt 0#32 = true ↔ nibble.toInt < 0 := by
      rw [BitVec.slt_iff_toInt_lt, hext]
      rfl
    by_cases hn : nibble.toInt < 0
    · rw [if_pos (hneg.2 hn), if_pos hn]
      rfl
    · rw [if_neg (mt hneg.1 hn), if_neg hn]
      rfl

/-- The filter term is the one on integers: no product and no sum leaves 32 bits. -/
theorem toInt_termWord (filter : BitVec 2) (p1 p2 : Sample) :
    (termWord filter p1 p2).toInt = term filter.toNat p1.toInt p2.toInt ∧
      -200000 ≤ term filter.toNat p1.toInt p2.toInt ∧ term filter.toNat p1.toInt p2.toInt ≤ 200000 := by
  have hp1 := sample_bounds p1
  have hp2 := sample_bounds p2
  have hcases : filter = 0#2 ∨ filter = 1#2 ∨ filter = 2#2 ∨ filter = 3#2 := by
    revert filter
    decide
  rcases hcases with rfl | rfl | rfl | rfl
  · exact ⟨rfl, (by decide : (-200000 : Int) ≤ 0), (by decide : (0 : Int) ≤ 200000)⟩
  · have h1 := toInt_shiftedProduct p1 (k := 15) (by decide) 4
    refine ⟨h1, ?_⟩
    change _ ≤ asr (p1.toInt * 15) 4 ∧ asr (p1.toInt * 15) 4 ≤ _
    unfold asr
    omega
  · have h1 := toInt_shiftedProduct p1 (k := 61) (by decide) 5
    have h2 := toInt_shiftedProduct p2 (k := -15) (by decide) 4
    have hsum : (termWord 2#2 p1 p2).toInt = _ := toInt_add_of_bounds (by rw [h1, h2]; simp only [asr]; omega)
    rw [hsum, h1, h2]
    refine ⟨rfl, ?_⟩
    change _ ≤ asr (p1.toInt * 61) 5 + asr (p2.toInt * -15) 4 ∧ asr (p1.toInt * 61) 5 + asr (p2.toInt * -15) 4 ≤ _
    unfold asr
    omega
  · have h1 := toInt_shiftedProduct p1 (k := 115) (by decide) 6
    have h2 := toInt_shiftedProduct p2 (k := -13) (by decide) 4
    have hsum : (termWord 3#2 p1 p2).toInt = _ := toInt_add_of_bounds (by rw [h1, h2]; simp only [asr]; omega)
    rw [hsum, h1, h2]
    refine ⟨rfl, ?_⟩
    change _ ≤ asr (p1.toInt * 115) 6 + asr (p2.toInt * -13) 4 ∧ asr (p1.toInt * 115) 6 + asr (p2.toInt * -13) 4 ≤ _
    unfold asr
    omega

theorem setWidth16_eq_ofInt (w : Word) : w.setWidth 16 = BitVec.ofInt 16 w.toInt := by
  refine BitVec.eq_of_toNat_eq ?_
  have := w.isLt
  rw [BitVec.toNat_setWidth, BitVec.toNat_ofInt, BitVec.toInt_eq_toNat_cond]
  split <;> omega

theorem clamp16Word_eq (w : Word) : clamp16Word w = BitVec.ofInt 16 (clamp16 w.toInt) := by
  have hlo : w.slt (BitVec.ofInt 32 (-32768)) = true ↔ w.toInt < -32768 := BitVec.slt_iff_toInt_lt
  have hhi : (BitVec.ofInt 32 32767).slt w = true ↔ 32767 < w.toInt := BitVec.slt_iff_toInt_lt
  simp only [clamp16Word, clamp16, hlo, hhi, setWidth16_eq_ofInt, apply_ite (BitVec.ofInt 16)]

/-- Settles O38: each operation on words is the one on integers, since its result is inside 32 bits. -/
theorem sampleIsTheThirtyTwoBitArithmetic : Obligations.SampleIsTheThirtyTwoBitArithmetic := by
  unfold Obligations.SampleIsTheThirtyTwoBitArithmetic
  intro shift filter nibble p1 p2
  have hscale := scale_bounds shift nibble
  obtain ⟨hterm, hlo, hhi⟩ := toInt_termWord filter p1 p2
  have hsum := toInt_add_of_bounds (x := scaleWord shift nibble) (y := termWord filter p1 p2)
    (by rw [toInt_scaleWord, hterm]; omega)
  rw [sample32_eq, clamp16Word_eq, hsum, toInt_scaleWord, hterm, brrSample]

end Sys2Proof.Machine
end

section
/-! SUPPORT. Accesses of the host to an idle block: the reset, the writable registers, the buffers (R22, R32, R37, R63, R67, R290), and
the invariant right after reset. -/

namespace Sys2Proof.Machine

variable {s : State} {rest : List HostAccess}

/-! ## Reset -/

theorem step_of_reset (hs : s.work = .idle) (hh : s.host = .reset :: rest) :
    step s = .next { State.resetWith s.cfg with host := rest, freeIdx := s.freeIdx } :=
  step_of_access hs hh rfl

/-- Only a word write of `CMD` is a command. -/
theorem command?_eq_none {a : HostAccess} (h : ∀ w, a ≠ .regWrite 0x00 4 w) : a.command? = none := by
  cases a with
  | regWrite offset width v =>
    refine if_neg fun hok => ?_
    rw [Bool.and_eq_true, regAccessOk_iff, beq_iff_eq] at hok
    obtain ⟨⟨rfl, -⟩, rfl⟩ := hok
    exact h v rfl
  | _ => rfl

/-- Settles O8: the reset access leaves the reset state but for the model's own fields, and any other access but a command leaves the
results. -/
theorem resetPutsEveryRegisterAtItsResetValue : Obligations.ResetPutsEveryRegisterAtItsResetValue := by
  unfold Obligations.ResetPutsEveryRegisterAtItsResetValue
  refine ⟨fun s t ht => ?_, fun s rest hs hh => ⟨_, step_of_reset hs hh, rfl, rfl⟩, fun s hs hh => ?_,
    fun s t a rest hs hh hcmd hreset ht => ?_⟩
  · have hfields : ∃ cfg host freeIdx, t = { State.resetWith cfg with host := host, freeIdx := freeIdx } := by
      obtain rfl | ⟨hs, ⟨rest, hh⟩, ht⟩ := ht
      · exact ⟨Config.default, [], 0, rfl⟩
      · rw [step_of_reset hs hh] at ht
        cases ht
        exact ⟨_, _, _, rfl⟩
    obtain ⟨cfg, host, freeIdx, rfl⟩ := hfields
    refine ⟨rfl, rfl, rfl, rfl, rfl, rfl, rfl, rfl, rfl, rfl, fun b a => ?_, rfl⟩
    cases b <;> rfl
  · rw [step, nextAction_of_idle hs, hostNext, hh]
  · rw [step_of_access hs hh (command?_eq_none hcmd)] at ht
    cases ht
    obtain ⟨hstatus, hpos, hlen, hloop, hdst, hwork, -⟩ := (s.takeAccess rest).hostAccess_frame a hreset
    exact ⟨hwork.trans hs, hstatus, hpos, hlen, hdst, hloop⟩

theorem inv_resetWith {cfg : Config} (h : cfg.wf) : (State.resetWith cfg).Inv where
  reg :=
    { reserved := (by decide : (0x00000000#32).extractLsb' 9 23 = 0#23)
      code := (by decide : (0x00000000#32).extractLsb' 0 8 ∈ producedCodes)
      notDone := fun _ => ⟨(by decide : (0x00000000#32).extractLsb' 0 8 = 0#8), rfl, rfl⟩
      posZero := fun _ => rfl
      noOutput := fun _ => rfl
      loopZero := fun _ => (by decide : ((0x00000000#32).extractLsb' 0 31).toNat = 0)
      loopBlock := (by decide : ((0x00000000#32).extractLsb' 0 31).toNat % 16 = 0) }
  mem :=
    { cfg := h
      srcWf := rfl
      auxWf := rfl
      srcCap := nofun
      auxCap := nofun
      dstCells := rfl
      outCap := Nat.zero_le _ }
  work := trivial

/-- Settles O10: every clause by the reset values. -/
theorem invariantHoldsAtReset : Obligations.InvariantHoldsAtReset := by
  unfold Obligations.InvariantHoldsAtReset
  exact ⟨inv_resetWith (by decide), fun cfg h => inv_resetWith h⟩

/-! ## Registers -/

/-- The offsets of the read-write registers other than `CMD` (R22). -/
def operandOffsets : List Nat := [0x0C, 0x10, 0x14, 0x1C, 0x20]

theorem readReg_writeReg {offset : Nat} (h : offset ∈ operandOffsets) (s : State) (v : Word) (o : Nat) :
    (s.writeReg offset v).readReg o = if o = offset then v else s.readReg o := by
  simp only [operandOffsets, List.mem_cons, List.not_mem_nil, or_false] at h
  obtain rfl | rfl | rfl | rfl | rfl := h
  all_goals
    split
    case isTrue ho =>
      subst ho
      rfl
    case isFalse ho =>
      simp only [State.writeReg_srcLen_only, State.writeReg_auxLen_only, State.writeReg_outLimit_only,
        State.writeReg_lzCfg_only, State.writeReg_lzTarget_only, State.readReg, ho, if_false]

theorem writeReg_frame (s : State) (offset : Nat) (v : Word) :
    (s.writeReg offset v).src = s.src ∧ (s.writeReg offset v).aux = s.aux ∧ (s.writeReg offset v).dst = s.dst ∧
      (s.writeReg offset v).work = s.work ∧ (s.writeReg offset v).host = s.host ∧ (s.writeReg offset v).cfg = s.cfg ∧
      (s.writeReg offset v).reply = s.reply ∧ (s.writeReg offset v).freeIdx = s.freeIdx := by
  unfold State.writeReg
  repeat' split
  all_goals exact ⟨rfl, rfl, rfl, rfl, rfl, rfl, rfl, rfl⟩

/-- Settles O19: a write of an operand register sets it, any other write but of `CMD` does nothing, a read only replies. -/
theorem hostWritesOfRegistersReadBack : Obligations.HostWritesOfRegistersReadBack := by
  unfold Obligations.HostWritesOfRegistersReadBack
  intro s offset v rest hs halign
  have hok : regAccessOk offset 4 = true := regAccessOk_iff.2 ⟨rfl, halign⟩
  refine ⟨fun hne hh => ?_, fun hh => ?_⟩
  · by_cases hmem : offset ∈ operandOffsets
    · have hcmd : HostAccess.command? (.regWrite offset 4 v) = none := by simp [HostAccess.command?, hne]
      obtain ⟨hsrc, haux, hdst, hwork, hhost, hcfg, hreply, hfree⟩ := writeReg_frame (s.takeAccess rest) offset v
      refine ⟨_, (step_of_access hs hh hcmd).trans (congrArg _ (if_pos hok)), fun o => ?_, hsrc, haux, hdst, hwork.trans hs, hhost,
        hcfg, hreply, hfree⟩
      rw [readReg_writeReg hmem]
      exact if_congr ⟨fun ho => ⟨ho, ho ▸ hmem⟩, And.left⟩ rfl rfl
    · have hignored : offset ∉ writableOffsets := fun h => (List.mem_cons.1 h).elim hne hmem
      refine ⟨_, step_of_ignored_regWrite hs hh fun _ => hignored, fun o => ?_, rfl, rfl, rfl, hs, rfl, rfl, rfl, rfl⟩
      exact (if_neg fun ⟨ho, ho'⟩ => hmem (ho ▸ ho')).symm
  · rw [step_of_regRead hs hh, State.hostRegRead, if_pos hok]

/-! ## Buffers -/

theorem isSome_read_iff {m : Memory} {a : Nat} : (m.read a).isSome = true ↔ a ∈ m.map Prod.fst := by
  induction m with
  | nil => simp
  | cons c m ih =>
    obtain ⟨k, x⟩ := c
    rw [Memory.read, List.map_cons, List.mem_cons, ← ih]
    split
    case isTrue hk => simp [hk]
    case isFalse hk => simp [Ne.symm hk]

/-- Settles O21: a buffer access by what it does to the buffer, and DST by the invariant. -/
theorem hostAccessesToBuffers : Obligations.HostAccessesToBuffers := by
  unfold Obligations.HostAccessesToBuffers
  intro s a v rest hs
  have hwrite (b : Buffer) (hh : s.host = .bufWrite b a v :: rest) :
      step s = .next ((s.takeAccess rest).hostBufWrite b a v) := step_of_access hs hh rfl
  refine ⟨fun hcap hh => ?_, fun hcap hh => ?_, fun b hb hh => ?_, fun b hh => ?_, fun h hh hcmd => ?_, fun hinv => ?_⟩
  · exact ⟨_, (hwrite .src hh).trans (congrArg _ (if_pos hcap)), fun x => s.src.read_write a x v⟩
  · exact ⟨_, (hwrite .aux hh).trans (congrArg _ (if_pos hcap)), fun x => s.aux.read_write a x v⟩
  · rw [hwrite b hh]
    obtain ⟨rfl, hcap, -⟩ | ⟨rfl, hcap, -⟩ | ⟨-, heq⟩ := (s.takeAccess rest).hostBufWrite_eq b a v
    · exact absurd hcap (hb.resolve_left nofun).not_gt
    · exact absurd hcap (hb.resolve_left nofun).not_gt
    · rw [heq]
      rfl
  · have hread : step s = .next ((s.takeAccess rest).hostBufRead b a) := step_of_access hs hh rfl
    have hbuffer : (s.takeAccess rest).buffer b = s.buffer b := by cases b <;> rfl
    have hcapacity : (s.takeAccess rest).capacity b = s.capacity b := by cases b <;> rfl
    obtain ⟨x, n, heq, hcase⟩ := (s.takeAccess rest).hostBufRead_eq b a
    rw [State.bufferByte_eq_some, State.bufferByte_eq_none, hbuffer, hcapacity] at hcase
    rw [hread, heq]
    refine ⟨fun y hlt hy => ?_, fun hnone => ?_⟩
    · obtain ⟨⟨-, hx⟩, rfl⟩ | ⟨hnone, -⟩ := hcase
      · obtain rfl : x = y := Option.some.inj (hx.symm.trans hy)
        rfl
      · simp [hy, hlt.not_ge] at hnone
    · obtain ⟨⟨hlt, hx⟩, -⟩ | ⟨-, rfl⟩ := hcase
      · simp [hx, hlt.not_ge] at hnone
      · exact ⟨x, rfl⟩
  · by_cases hreset : h = .reset
    · subst hreset
      exact ⟨_, step_of_reset hs hh, rfl, rfl⟩
    · obtain ⟨-, -, -, -, -, hwork, -, hhost⟩ := (s.takeAccess rest).hostAccess_frame h hreset
      exact ⟨_, step_of_access hs hh hcmd, hwork.trans hs, hhost⟩
  · rw [isSome_read_iff, hinv.mem.dstCells, List.mem_range]

end Sys2Proof.Machine
end

section
/-! SUPPORT. Runs of an engine through a whole stream: an engine moves from one working state to the next, and a command whose checks
pass ends where its engine can get (R65, R71). -/

namespace Sys2Proof.Machine

variable {s : State} {i : Instr} {w w' : Work}

/-- The engine goes on from one working state to another. -/
def EngineMoves (s : State) (w w' : Work) : Prop := engineStep (s.setWork w) = .next (s.setWork w') ∧ w' ≠ .idle

/-- The engine gets from one working state to another, in any number of moves. -/
abbrev Reaches (s : State) : Work → Work → Prop := Relation.ReflTransGen (EngineMoves s)

theorem runEngine_of_reaches {t : State} (h : Reaches s w w') (hend : engineStep (s.setWork w') = .next t) (ht : t.work = .idle) :
    ∃ n, runEngine n (s.setWork w) = .next t := by
  induction h using Relation.ReflTransGen.head_induction_on with
  | refl => exact ⟨1, runEngine_of_end hend ht⟩
  | head hmove _ ih =>
    obtain ⟨hstep, hne⟩ := hmove
    obtain ⟨n, hn⟩ := ih
    exact ⟨n + 1, (runEngine_of_step hstep hne).trans hn⟩

/-- A command whose checks pass ends where its engine ends; the bound of its loop is large enough (R307). -/
theorem exec_of_reaches {t : State} (hw : startWork i = some w) (hc : startChecks i (s.setWork w) = .ok ()) (h : Reaches s w w')
    (hend : engineStep (s.setWork w') = .next t) (ht : t.work = .idle) : exec i s = .next t := by
  obtain ⟨n, hn⟩ := runEngine_of_reaches h hend ht
  rw [exec_eq_runCommand hw]
  exact runCommand_eq_next.2 (.inr
    ⟨hc, runEngine_eq_next_of_remaining_lt (runs_of_startChecks hw hc) hn (remaining_lt_fuel hw hc)⟩)

theorem engineStep_of_fetch_element {e : Instr} (hf : engineFetch s = .ok (.element e)) : engineStep s = execElement e s := by
  rw [engineStep, hf]

theorem engineStep_of_fetch_done {out : List Byte} (hf : engineFetch s = .ok (.done out)) :
    engineStep s = .next (s.commit out) := by
  rw [engineStep, hf]

theorem loopAfterSuccess_of_not_brr (h : ∀ b, s.work ≠ .brr b) : s.loopAfterSuccess = s.brrLoop := by
  unfold State.loopAfterSuccess
  split
  · exact absurd ‹_› (h _)
  · rfl

/-- For an engine other than BRR the output is what the claims say. -/
theorem engineStep_succeeded {out : List Byte} (hf : engineFetch s = .ok (.done out)) (hb : ∀ b, s.work ≠ .brr b) :
    engineStep s = .next (s.succeeded out) := by
  rw [engineStep_of_fetch_done hf, s.commit_eq_succeeded out (loopAfterSuccess_of_not_brr hb)]

end Sys2Proof.Machine
end

section
/-! SUPPORT. The commands over a sheet of elements of one size: their checks in order (R258), and the run of their engines through any
number of elements (R134, R135, R137, R138, R151 to R154). -/

namespace Sys2Proof.Machine

variable {s : State} {i : Instr} {size k : Nat}

/-! ## The checks -/

/-- The three checks that the sheet and colour commands share: the capacity, whole elements of `size` bytes, an output of `k` bytes
for each. -/
def sheetChecks (size k : Nat) (s : State) : Except Stop Unit := do
  failIf (s.cfg.srcCap < s.srcLen.toNat) .illegalOperand 0
  failIf (s.srcLen.toNat % size ≠ 0) .unexpectedEof (s.srcLen.toNat - s.srcLen.toNat % size)
  failIf (s.limit < k * (s.srcLen.toNat / size)) .outputLimitExceeded (size * (s.limit / k))

theorem tdecChecks_eq_sheetChecks (d : Depth) (s : State) : tdecChecks d s = sheetChecks d.tileBytes 64 s := rfl

theorem tencChecks_eq_sheetChecks (d : Depth) (s : State) :
    tencChecks d s = sheetChecks 64 d.tileBytes s >>= fun _ => scanPixels d s 0 s.srcLen.toNat := by
  simp only [tencChecks, sheetChecks, bind_assoc]

theorem cexpChecks_eq_sheetChecks (s : State) : cexpChecks s = sheetChecks 2 3 s := by
  have hpos : s.srcLen.toNat % 2 ≠ 0 → s.srcLen.toNat - 1 = s.srcLen.toNat - s.srcLen.toNat % 2 := by omega
  unfold cexpChecks sheetChecks
  by_cases h : s.srcLen.toNat % 2 ≠ 0
  · rw [hpos h]
  · rw [failIf_neg h, failIf_neg h]

section
variable (hcap : s.srcLen.toNat ≤ s.cfg.srcCap)
include hcap

theorem sheetChecks_of_partial_element (h : s.srcLen.toNat % size ≠ 0) :
    sheetChecks size k s = .error (.raise .unexpectedEof (s.srcLen.toNat - s.srcLen.toNat % size)) := by
  rw [sheetChecks, failIf_neg hcap.not_gt, failIf_pos h]
  rfl

variable (hmod : s.srcLen.toNat % size = 0)
include hmod

theorem sheetChecks_of_too_long (h : s.limit < k * (s.srcLen.toNat / size)) :
    sheetChecks size k s = .error (.raise .outputLimitExceeded (size * (s.limit / k))) := by
  rw [sheetChecks, failIf_neg hcap.not_gt, failIf_neg (not_not.2 hmod), failIf_pos h]
  rfl

theorem sheetChecks_of_fits (h : k * (s.srcLen.toNat / size) ≤ s.limit) : sheetChecks size k s = .ok () := by
  rw [sheetChecks, failIf_neg hcap.not_gt, failIf_neg (not_not.2 hmod), failIf_neg h.not_gt]
  rfl

end

/-- The range check of an encode command over pixels that are in range (R137). -/
theorem scanPixels_of_in_range {d : Depth} {a : Nat} {pixels : List Byte} (hold : Holds s.src a pixels)
    (h : ∀ p ∈ pixels, p.toNat < 2 ^ d.bits) (n : Nat) :
    scanPixels d s a (pixels.length + n) = scanPixels d s (a + pixels.length) n := by
  induction pixels generalizing a with
  | nil => rw [List.length_nil, Nat.zero_add, Nat.add_zero]
  | cons p ps ih =>
    obtain ⟨hread, hrest⟩ := holds_cons.1 hold
    obtain ⟨hp, hps⟩ := List.forall_mem_cons.1 h
    have hbyte : s.readByte .src a = .ok p := readByte_eq_ok.2 hread
    rw [List.length_cons, Nat.add_right_comm, scanPixels, hbyte, ok_bind, failIf_neg hp.not_ge, ok_bind, ih hrest hps,
      Nat.add_right_comm a, Nat.add_assoc a]

/-- The first pixel out of range is found, whatever follows it (R137). -/
theorem scanPixels_of_out_of_range {d : Depth} {good : List Byte} {bad : Byte} {n : Nat} (hold : Holds s.src 0 (good ++ [bad]))
    (hlen : good.length < n) (hgood : ∀ p ∈ good, p.toNat < 2 ^ d.bits) (hbad : 2 ^ d.bits ≤ bad.toNat) :
    scanPixels d s 0 n = .error (.raise .indexOutOfRange good.length) := by
  obtain ⟨m, rfl⟩ := Nat.exists_eq_add_of_lt hlen
  obtain ⟨hholdGood, hholdBad⟩ := holds_append.1 hold
  rw [Nat.zero_add] at hholdBad
  have hbyte : s.readByte .src good.length = .ok bad := readByte_eq_ok.2 (hholdBad 0 Nat.one_pos)
  rw [Nat.add_assoc, scanPixels_of_in_range hholdGood hgood, Nat.zero_add, scanPixels, hbyte, ok_bind, failIf_pos hbad]
  rfl

/-- A command other than `BRRDEC` whose checks fail. -/
theorem exec_of_checks_raise {w : Work} {e : Err} {pos : Nat} (hne : i ≠ .brrdec) (hw : startWork i = some w)
    (hc : startChecks i (s.setWork w) = .error (.raise e pos)) : exec i s = .next (s.failed e.code pos) := by
  rw [exec_of_startChecks_raise hw hc, if_neg hne]
  rfl

/-- The six sheet and colour commands, with the input size and the output size of an element. -/
def SheetCommand (i : Instr) (size k : Nat) : Prop :=
  ((∃ h v, i = .tdec2 h v) ∧ size = 16 ∧ k = 64) ∨ ((∃ h v, i = .tdec4 h v) ∧ size = 32 ∧ k = 64) ∨
    ((∃ h v, i = .tenc2 h v) ∧ size = 64 ∧ k = 16) ∨ ((∃ h v, i = .tenc4 h v) ∧ size = 64 ∧ k = 32) ∨
    (i = .cexp ∧ size = 2 ∧ k = 3) ∨ (i = .cpack ∧ size = 3 ∧ k = 2)

/-- They begin with the shared checks. -/
theorem sheet_parts (h : SheetCommand i size k) (s : State) :
    i ≠ .brrdec ∧ ∃ w, startWork i = some w ∧
      ∀ st, sheetChecks size k s = .error st → startChecks i (s.setWork w) = .error st := by
  obtain ⟨⟨h, v, rfl⟩, rfl, rfl⟩ | ⟨⟨h, v, rfl⟩, rfl, rfl⟩ | ⟨⟨h, v, rfl⟩, rfl, rfl⟩ | ⟨⟨h, v, rfl⟩, rfl, rfl⟩ |
    ⟨rfl, rfl, rfl⟩ | ⟨rfl, rfl, rfl⟩ := h
  · exact ⟨nofun, _, rfl, fun st hst => hst⟩
  · exact ⟨nofun, _, rfl, fun st hst => hst⟩
  · exact ⟨nofun, _, rfl, fun st hst => (tencChecks_eq_sheetChecks .two _).trans (bind_eq_error.2 (.inl hst))⟩
  · exact ⟨nofun, _, rfl, fun st hst => (tencChecks_eq_sheetChecks .four _).trans (bind_eq_error.2 (.inl hst))⟩
  · exact ⟨nofun, _, rfl, fun st hst => (cexpChecks_eq_sheetChecks _).trans hst⟩
  · exact ⟨nofun, _, rfl, fun st hst => hst⟩

/-- The two encode commands are one command at two depths. -/
theorem tenc_parts {h v : Bool} {bound : Nat} (hi : SheetCommand i size k)
    (hi' : (i = .tenc2 h v ∧ bound = 4) ∨ (i = .tenc4 h v ∧ bound = 16)) :
    ∃ d : Depth, size = 64 ∧ k = d.tileBytes ∧ bound = 2 ^ d.bits ∧ startWork i = some (.tenc (.start d h v)) ∧
      startChecks i = tencChecks d := by
  obtain ⟨rfl, rfl⟩ | ⟨rfl, rfl⟩ := hi'
  · obtain ⟨rfl, rfl⟩ : size = 64 ∧ k = 16 := by simpa [SheetCommand] using hi
    exact ⟨.two, rfl, rfl, rfl, rfl, rfl⟩
  · obtain ⟨rfl, rfl⟩ : size = 64 ∧ k = 32 := by simpa [SheetCommand] using hi
    exact ⟨.four, rfl, rfl, rfl, rfl, rfl⟩

/-- Settles O32: the shared checks in their order, then the scan of an encode command. -/
theorem sheetCommandsReportTheFirstFailingCheck : Obligations.SheetCommandsReportTheFirstFailingCheck := by
  unfold Obligations.SheetCommandsReportTheFirstFailingCheck
  intro s i size k hi
  obtain ⟨hne, w, hw, hchecks⟩ := sheet_parts hi s
  refine ⟨fun hcap => ?_, fun hcap hmod => ?_, fun hcap hmod hlim => ?_, fun h v good bad bound hi' hcap hmod hfit hold hlen hgood
    hbad => ?_⟩
  · exact exec_of_checks_raise (e := .illegalOperand) hne hw (startChecks_of_over_capacity hw (.inl hcap))
  · exact exec_of_checks_raise (e := .unexpectedEof) hne hw (hchecks _ (sheetChecks_of_partial_element hcap hmod))
  · exact exec_of_checks_raise (e := .outputLimitExceeded) hne hw (hchecks _ (sheetChecks_of_too_long hcap hmod hlim))
  · obtain ⟨d, rfl, rfl, rfl, hw', hchecks'⟩ := tenc_parts hi hi'
    refine exec_of_checks_raise (e := .indexOutOfRange) hne hw' ?_
    rw [hchecks', tencChecks_eq_sheetChecks]
    exact bind_eq_error.2 (.inr ⟨(), sheetChecks_of_fits (s := s.setWork _) hcap hmod hfit,
      scanPixels_of_out_of_range (s := s.setWork _) hold hlen hgood hbad⟩)

/-! ## Any number of elements -/

section
variable {α : Type} {mk : Nat → List Byte → Work} {bytes product : α → List Byte} {xs : List α}
  (hmove : ∀ x ∈ xs, ∀ c out, Holds s.src c (bytes x) → c + (bytes x).length ≤ s.srcLen.toNat →
    EngineMoves s (mk c out) (mk (c + (bytes x).length) (out ++ product x)))

include hmove in
/-- An engine that moves over every element of a sheet, appending its product, gets through the sheet. -/
theorem reaches_of_sheet {c : Nat} {out : List Byte} (hold : Holds s.src c (xs.flatMap bytes))
    (hlen : c + (xs.flatMap bytes).length ≤ s.srcLen.toNat) :
    Reaches s (mk c out) (mk (c + (xs.flatMap bytes).length) (out ++ xs.flatMap product)) := by
  induction xs generalizing c out with
  | nil => simpa using Relation.ReflTransGen.refl
  | cons x xs ih =>
    rw [List.flatMap_cons] at hold
    simp only [List.flatMap_cons, List.length_append, ← Nat.add_assoc, ← List.append_assoc] at hlen ⊢
    obtain ⟨hhead, htail⟩ := holds_append.1 hold
    exact .head (hmove x List.mem_cons_self c out hhead (by omega))
      (ih (fun y hy => hmove y (List.mem_cons_of_mem x hy)) htail hlen)

include hmove in
/-- A command whose engine moves over every element of its sheet, and is done where the sheet ends. -/
theorem exec_of_sheet (hdone : ∀ c out, s.srcLen.toNat ≤ c → engineFetch (s.setWork (mk c out)) = .ok (.done out))
    (hbrr : ∀ c out b, mk c out ≠ .brr b) (hw : startWork i = some (mk 0 [])) (hc : startChecks i (s.setWork (mk 0 [])) = .ok ())
    (hold : Holds s.src 0 (xs.flatMap bytes)) (hlen : s.srcLen.toNat = (xs.flatMap bytes).length) :
    exec i s = .next (s.succeeded (xs.flatMap product)) := by
  have hreach := reaches_of_sheet hmove (c := 0) (out := []) hold (by omega)
  rw [Nat.zero_add, List.nil_append] at hreach
  exact exec_of_reaches hw hc hreach (engineStep_succeeded (hdone _ _ hlen.le) (hbrr _ _)) rfl

end

theorem length_flatMap_of_forall {α : Type} {bytes : α → List Byte} {n : Nat} {xs : List α} (h : ∀ x ∈ xs, (bytes x).length = n) :
    (xs.flatMap bytes).length = n * xs.length := by
  induction xs with
  | nil => rfl
  | cons x xs ih =>
    obtain ⟨hx, hxs⟩ := List.forall_mem_cons.1 h
    rw [List.flatMap_cons, List.length_append, hx, ih hxs, List.length_cons, Nat.mul_succ, Nat.add_comm]

theorem flatMap_id_eq_flatten {α : Type} (xss : List (List α)) : xss.flatMap (fun xs => xs) = xss.flatten := by
  rw [List.flatMap, List.map_id']

/-- The shared checks pass on whole elements whose output fits. -/
theorem sheetChecks_of_elements {n : Nat} (hsize : 0 < size) (hlen : s.srcLen.toNat = size * n)
    (hcap : s.srcLen.toNat ≤ s.cfg.srcCap) (hfit : k * n ≤ s.limit) : sheetChecks size k s = .ok () := by
  refine sheetChecks_of_fits hcap (by rw [hlen, Nat.mul_mod_right]) ?_
  rwa [hlen, Nat.mul_div_cancel_left n hsize]

/-! ## Tiles (R134, R135, R137, R138) -/

/-- The element that a packed tile of a depth is. -/
theorem fetchAs_tile {d : Depth} {tb : List Byte} (hlen : tb.length = d.tileBytes) (e : Err) (pos : Nat) :
    ∃ t, fetchAs d.tileKind tb e pos = .ok (.element t) ∧ ∀ s, execElement t s = packedTile d tb s := by
  cases d with
  | two => exact ⟨.tile2 tb, fetchAs_of_encode (i := .tile2 tb) rfl (beq_iff_eq.2 hlen) e pos, fun _ => rfl⟩
  | four => exact ⟨.tile4 tb, fetchAs_of_encode (i := .tile4 tb) rfl (beq_iff_eq.2 hlen) e pos, fun _ => rfl⟩

theorem engineMoves_of_packedTile {d : Depth} {h v : Bool} {tb : List Byte} (htb : tb.length = d.tileBytes) {c : Nat}
    {out : List Byte} (hold : Holds s.src c tb) (hc : c + tb.length ≤ s.srcLen.toNat) :
    EngineMoves s (.tdec ⟨d, h, v, c, out⟩)
      (.tdec ⟨d, h, v, c + tb.length, out ++ tileBytes (flip (unpack tb d) h v)⟩) := by
  have hpos := d.tileBytes_pos
  have hread : s.readBytes .src c d.tileBytes = .ok tb := htb ▸ readBytes_of_holds (b := .src) hold
  obtain ⟨e, hfetchAs, hexec⟩ := fetchAs_tile htb .unexpectedEof c
  have hfetch : engineFetch (s.setWork (.tdec ⟨d, h, v, c, out⟩)) = .ok (.element e) := by
    show tdecFetch ⟨d, h, v, c, out⟩ _ = _
    rw [tdecFetch, State.setWork_readBytes, State.setWork_srcLen, if_neg (by simp only; omega), failIf_neg (by simp only; omega),
      hread]
    exact hfetchAs
  refine ⟨?_, nofun⟩
  rw [engineStep_of_fetch_element hfetch, hexec, htb]
  exact packedTile_of_tdec (t := ⟨d, h, v, c, out⟩) rfl rfl htb

/-- A sheet of whole tiles is decoded, by either command. -/
theorem exec_tdec_of_tiles {d : Depth} {h v : Bool} {tiles : List (List Byte)} (hw : startWork i = some (.tdec ⟨d, h, v, 0, []⟩))
    (hchecks : startChecks i = tdecChecks d) (hold : Holds s.src 0 tiles.flatten) (hlen : s.srcLen.toNat = tiles.flatten.length)
    (hcap : s.srcLen.toNat ≤ s.cfg.srcCap) (hfit : 64 * tiles.length ≤ s.limit) (htiles : ∀ tb ∈ tiles, tb.length = d.tileBytes) :
    exec i s = .next (s.succeeded (tiles.flatMap fun tb => tileBytes (flip (unpack tb d) h v))) := by
  rw [← flatMap_id_eq_flatten] at hold hlen
  have hsize := hlen.trans (length_flatMap_of_forall htiles)
  refine exec_of_sheet (mk := fun c out => .tdec ⟨d, h, v, c, out⟩)
    (fun tb htb c out => engineMoves_of_packedTile (htiles tb htb)) (fun c out hc => tdecFetch_of_nothing_left hc) nofun hw ?_ hold hlen
  rw [hchecks, tdecChecks_eq_sheetChecks]
  exact sheetChecks_of_elements (s := s.setWork _) d.tileBytes_pos hsize hcap hfit

/-- Settles O29: the decoder moves over a tile at a time. -/
theorem tdecDecodesEveryTileOfTheSheet : Obligations.TdecDecodesEveryTileOfTheSheet := by
  unfold Obligations.TdecDecodesEveryTileOfTheSheet
  exact fun s h v tiles hold hlen hcap hfit => ⟨fun htiles => exec_tdec_of_tiles (d := .two) rfl rfl hold hlen hcap hfit htiles,
    fun htiles => exec_tdec_of_tiles (d := .four) rfl rfl hold hlen hcap hfit htiles⟩

theorem engineMoves_of_utile {d : Depth} {h v : Bool} {px : List Byte} (hpx : px.length = 64) (hin : ∀ p ∈ px, p.toNat < 2 ^ d.bits)
    {c : Nat} {out : List Byte} (hold : Holds s.src c px) (hc : c + px.length ≤ s.srcLen.toNat) :
    EngineMoves s (.tenc ⟨d, h, v, c, out⟩) (.tenc ⟨d, h, v, c + px.length, out ++ pack (flip (tileMatrix px) h v) d⟩) := by
  have hread : s.readBytes .src c 64 = .ok px := hpx ▸ readBytes_of_holds (b := .src) hold
  have hfetch : engineFetch (s.setWork (.tenc ⟨d, h, v, c, out⟩)) = .ok (.element (.utile px)) := by
    show tencFetch ⟨d, h, v, c, out⟩ _ = _
    rw [tencFetch, State.setWork_readBytes, State.setWork_srcLen, if_neg (by simp only; omega), failIf_neg (by simp only; omega),
      hread]
    exact fetchAs_of_encode (i := .utile px) rfl (beq_iff_eq.2 hpx) _ _
  refine ⟨?_, nofun⟩
  rw [engineStep_of_fetch_element hfetch, hpx]
  exact execUtile_of_in_range (s := s.setWork _) (t := ⟨d, h, v, c, out⟩) rfl hpx hin

/-- A sheet of unpacked tiles whose pixels are in range is packed, by either command. -/
theorem exec_tenc_of_tiles {d : Depth} {h v : Bool} {tiles : List (List Byte)} (hw : startWork i = some (.tenc ⟨d, h, v, 0, []⟩))
    (hchecks : startChecks i = tencChecks d) (hold : Holds s.src 0 tiles.flatten) (hlen : s.srcLen.toNat = tiles.flatten.length)
    (hcap : s.srcLen.toNat ≤ s.cfg.srcCap) (htiles : ∀ px ∈ tiles, px.length = 64) (hfit : d.tileBytes * tiles.length ≤ s.limit)
    (hin : ∀ px ∈ tiles, ∀ p ∈ px, p.toNat < 2 ^ d.bits) :
    exec i s = .next (s.succeeded (tiles.flatMap fun px => pack (flip (tileMatrix px) h v) d)) := by
  have hinFlat : ∀ p ∈ tiles.flatten, p.toNat < 2 ^ d.bits := fun p hp => by
    obtain ⟨px, hpx, hmem⟩ := List.mem_flatten.1 hp
    exact hin px hpx p hmem
  have hscan (w : Work) : scanPixels d (s.setWork w) 0 s.srcLen.toNat = .ok () := by
    rw [hlen, ← Nat.add_zero tiles.flatten.length, scanPixels_of_in_range (s := s.setWork w) hold hinFlat]
    rfl
  rw [← flatMap_id_eq_flatten] at hold hlen
  have hsize := hlen.trans (length_flatMap_of_forall htiles)
  refine exec_of_sheet (mk := fun c out => .tenc ⟨d, h, v, c, out⟩)
    (fun px hpx c out => engineMoves_of_utile (htiles px hpx) (hin px hpx)) (fun c out hc => tencFetch_of_nothing_left hc) nofun hw ?_
    hold hlen
  rw [hchecks, tencChecks_eq_sheetChecks]
  exact bind_eq_ok.2 ⟨(), sheetChecks_of_elements (s := s.setWork _) (by decide) hsize hcap hfit, hscan _⟩

/-- Settles O30: the encoder moves over a tile at a time, after the scan has found every pixel in range. -/
theorem tencPacksEveryTileOfTheSheet : Obligations.TencPacksEveryTileOfTheSheet := by
  unfold Obligations.TencPacksEveryTileOfTheSheet
  exact fun s h v tiles hold hlen hcap htiles =>
    ⟨fun hfit hin => exec_tenc_of_tiles (d := .two) rfl rfl hold hlen hcap htiles hfit hin,
      fun hfit hin => exec_tenc_of_tiles (d := .four) rfl rfl hold hlen hcap htiles hfit hin⟩

/-! ## Colours (R151 to R154) -/

/-- The two bytes of a packed colour are that colour. -/
theorem fetchAs_color15 (w : BitVec 16) (e : Err) (pos : Nat) :
    fetchAs .color15 (bytesLe16 w) e pos =
      .ok (.element (.color15 (w.getLsbD 15) (w.extractLsb' 10 5) (w.extractLsb' 5 5) (w.extractLsb' 0 5))) :=
  fetchAs_of_encode (by rw [encode, colorWord_fields]) rfl e pos

theorem engineMoves_of_color15 {w : BitVec 16} {c : Nat} {out : List Byte} (hold : Holds s.src c (bytesLe16 w))
    (hc : c + 2 ≤ s.srcLen.toNat) :
    EngineMoves s (.cexp ⟨c, out⟩)
      (.cexp ⟨c + 2, out ++ [widen (w.extractLsb' 0 5), widen (w.extractLsb' 5 5), widen (w.extractLsb' 10 5)]⟩) := by
  have hread : s.readBytes .src c 2 = .ok (bytesLe16 w) := readBytes_of_holds (b := .src) hold
  refine ⟨?_, nofun⟩
  rw [engineStep_of_fetch_element (e := .color15 (w.getLsbD 15) (w.extractLsb' 10 5) (w.extractLsb' 5 5) (w.extractLsb' 0 5))]
  · exact execColor15_of_cexp (s := s.setWork _) rfl (w.getLsbD 15) _ _ _
  · show cexpFetch ⟨c, out⟩ (s.setWork (.cexp ⟨c, out⟩)) = _
    rw [cexpFetch, State.setWork_readBytes, State.setWork_srcLen, if_neg (by simp only; omega), failIf_neg (by simp only; omega),
      hread]
    exact fetchAs_color15 w .unexpectedEof c

theorem engineMoves_of_rgb24 {r g b : Byte} {c : Nat} {out : List Byte} (hold : Holds s.src c [r, g, b])
    (hc : c + 3 ≤ s.srcLen.toNat) :
    EngineMoves s (.cpack ⟨c, out⟩) (.cpack ⟨c + 3, out ++ bytesLe16 (0#1 ++ narrow b ++ narrow g ++ narrow r)⟩) := by
  have hread : s.readBytes .src c 3 = .ok [r, g, b] := readBytes_of_holds (b := .src) hold
  refine ⟨?_, nofun⟩
  rw [engineStep_of_fetch_element (e := .rgb24 r g b)]
  · exact execRgb24_of_cpack (s := s.setWork _) rfl _ _ _
  · show cpackFetch ⟨c, out⟩ _ = _
    rw [cpackFetch, State.setWork_readBytes, State.setWork_srcLen, if_neg (by simp only; omega), failIf_neg (by simp only; omega),
      hread]
    rfl

theorem exec_cexp_of_words {ws : List (BitVec 16)} (hold : Holds s.src 0 (ws.flatMap bytesLe16))
    (hlen : s.srcLen.toNat = 2 * ws.length) (hcap : s.srcLen.toNat ≤ s.cfg.srcCap) (hfit : 3 * ws.length ≤ s.limit) :
    exec .cexp s = .next (s.succeeded
      (ws.flatMap fun w => [widen (w.extractLsb' 0 5), widen (w.extractLsb' 5 5), widen (w.extractLsb' 10 5)])) := by
  refine exec_of_sheet (mk := fun c out => .cexp ⟨c, out⟩) (fun w _ c out => engineMoves_of_color15)
    (fun c out hc => cexpFetch_of_nothing_left hc) nofun rfl ?_ hold (hlen.trans (length_flatMap_bytesLe16 ws).symm)
  exact (cexpChecks_eq_sheetChecks _).trans (sheetChecks_of_elements (s := s.setWork _) (by decide) hlen hcap hfit)

/-- The three bytes of an expanded colour (R107). -/
def rgbBytes (c : Byte × Byte × Byte) : List Byte := [c.1, c.2.1, c.2.2]

theorem length_flatMap_rgbBytes (cs : List (Byte × Byte × Byte)) : (cs.flatMap rgbBytes).length = 3 * cs.length :=
  length_flatMap_of_forall fun _ _ => rfl

theorem exec_cpack_of_colours {cs : List (Byte × Byte × Byte)} (hold : Holds s.src 0 (cs.flatMap rgbBytes))
    (hlen : s.srcLen.toNat = 3 * cs.length) (hcap : s.srcLen.toNat ≤ s.cfg.srcCap) (hfit : 2 * cs.length ≤ s.limit) :
    exec .cpack s = .next (s.succeeded
      (cs.flatMap fun c => bytesLe16 (0#1 ++ narrow c.2.2 ++ narrow c.2.1 ++ narrow c.1))) := by
  refine exec_of_sheet (mk := fun c out => .cpack ⟨c, out⟩) (fun x _ c out => engineMoves_of_rgb24)
    (fun c out hc => cpackFetch_of_nothing_left hc) nofun rfl ?_ hold (hlen.trans (length_flatMap_rgbBytes cs).symm)
  exact sheetChecks_of_elements (s := s.setWork _) (by decide) hlen hcap hfit

/-- Settles O36: the converters move over a colour at a time. -/
theorem colourCommandsConvertEveryColour : Obligations.ColourCommandsConvertEveryColour := by
  unfold Obligations.ColourCommandsConvertEveryColour
  exact ⟨fun s ws hold hlen hcap hfit => exec_cexp_of_words hold hlen hcap hfit,
    fun s cs hold hlen hcap hfit => exec_cpack_of_colours hold hlen hcap hfit⟩

/-! ## The round trips (R154) -/

/-- What a command that succeeded leaves is a source for the next one. -/
theorem source_of_succeeded {t u : State} {out : List Byte} (ht : t = s.succeeded out) (hout : out.length ≤ s.limit)
    (hsrc : u.src = t.dst) (hlen : u.srcLen = t.outLen) : Holds u.src 0 out ∧ u.srcLen.toNat = out.length := by
  subst ht
  have hlimit : s.limit ≤ s.outLimit.toNat := Nat.min_le_left _ _
  have hword := s.outLimit.isLt
  refine ⟨hsrc ▸ holds_ofBytes out, ?_⟩
  rw [hlen, State.succeeded_outLen, BitVec.toNat_ofNat]
  exact Nat.mod_eq_of_lt (by omega)

/-- The packed colour of an expanded one (R153). -/
def packedColour (c : Byte × Byte × Byte) : BitVec 16 := 0#1 ++ narrow c.2.2 ++ narrow c.2.1 ++ narrow c.1

/-- The expanded colour of a packed one (R152). -/
def expandedColour (w : BitVec 16) : Byte × Byte × Byte :=
  (widen (w.extractLsb' 0 5), widen (w.extractLsb' 5 5), widen (w.extractLsb' 10 5))

theorem packedColour_expandedColour {w : BitVec 16} (h : w.getLsbD 15 = false) :
    packedColour (expandedColour w) = w := by
  have hfields := colorWord_fields w
  rw [h] at hfields
  simp only [packedColour, expandedColour, narrow_widen]
  exact hfields

theorem rgbBytes_expandedColour_packedColour (c : Byte × Byte × Byte) :
    rgbBytes (expandedColour (packedColour c)) = (rgbBytes c).map fun c8 => widen (narrow c8) := by
  obtain ⟨hr, hg, hb, -⟩ := fields_colorWord false (narrow c.2.2) (narrow c.2.1) (narrow c.1)
  simp only [rgbBytes, expandedColour, List.map_cons, List.map_nil]
  exact congrArg₂ _ (congrArg widen hr) (congrArg₂ _ (congrArg widen hg) (congrArg₂ _ (congrArg widen hb) rfl))

/-- A number of bytes that is a multiple of 3 is a list of expanded colours. -/
theorem exists_colours (n : Nat) (cs : List Byte) (h : cs.length = 3 * n) :
    ∃ rgb : List (Byte × Byte × Byte), cs = rgb.flatMap rgbBytes ∧ rgb.length = n := by
  induction n generalizing cs with
  | zero => exact ⟨[], List.length_eq_zero_iff.1 h, rfl⟩
  | succ n ih =>
    match cs, h with
    | r :: g :: b :: cs, h =>
      obtain ⟨rgb, rfl, hlen⟩ := ih cs (by simp only [List.length_cons] at h; omega)
      exact ⟨(r, g, b) :: rgb, rfl, congrArg (· + 1) hlen⟩

/-- Settles O37: each command is the other's on the other's output, colour by colour. -/
theorem colourCommandsRoundTrip : Obligations.ColourCommandsRoundTrip := by
  unfold Obligations.ColourCommandsRoundTrip
  refine ⟨fun s t u ws hclear hold hlen hcap hfit ht hsrc hulen hucap hufit => ?_,
    fun s t u cs hmod hold hlen hcap hfit ht hsrc hulen hucap hufit => ?_, fun c8 => ⟨fun h => ⟨_, h⟩, ?_⟩⟩
  · have hout := Host.Outcome.next.inj (ht.symm.trans (exec_cexp_of_words hold hlen hcap hfit))
    have hlen3 : ((ws.map expandedColour).flatMap rgbBytes).length = 3 * ws.length := by
      rw [length_flatMap_rgbBytes, List.length_map]
    have hexpanded : t = s.succeeded ((ws.map expandedColour).flatMap rgbBytes) := by
      rw [hout, List.flatMap_map]
      rfl
    obtain ⟨huold, hulen⟩ := source_of_succeeded hexpanded (hlen3 ▸ hfit) hsrc hulen
    have hback : (ws.map expandedColour).flatMap (fun c => bytesLe16 (packedColour c)) = ws.flatMap bytesLe16 := by
      rw [List.flatMap_map]
      exact List.flatMap_congr fun w hw => by rw [packedColour_expandedColour (hclear w hw)]
    rw [← hback]
    exact exec_cpack_of_colours huold (hulen.trans (length_flatMap_rgbBytes _)) hucap (by rwa [List.length_map])
  · obtain ⟨rgb, rfl, hn⟩ := exists_colours (cs.length / 3) cs (by omega)
    rw [length_flatMap_rgbBytes] at hlen hfit hufit
    have hout := Host.Outcome.next.inj (ht.symm.trans (exec_cpack_of_colours hold hlen hcap (by omega)))
    have hpacked : t = s.succeeded ((rgb.map packedColour).flatMap bytesLe16) := by
      rw [hout, List.flatMap_map]
      rfl
    have hlen2 : ((rgb.map packedColour).flatMap bytesLe16).length = 2 * rgb.length := by
      rw [length_flatMap_bytesLe16, List.length_map]
    obtain ⟨huold, hulen⟩ := source_of_succeeded hpacked (by omega) hsrc hulen
    have hback : (rgb.map packedColour).flatMap (fun w => rgbBytes (expandedColour w)) =
        (rgb.flatMap rgbBytes).map fun c8 => widen (narrow c8) := by
      rw [List.flatMap_map, List.map_flatMap]
      exact List.flatMap_congr fun c _ => rgbBytes_expandedColour_packedColour c
    rw [← hback]
    exact exec_cexp_of_words huold (hulen.trans (length_flatMap_bytesLe16 _)) hucap (by rwa [List.length_map])
  · rintro ⟨c5, rfl⟩
    rw [narrow_widen]

end Sys2Proof.Machine
end

section
/-! SUPPORT. The assembly commands: their checks in order, and the run of the engine through the flip list, the tiles and the image
(R140, R141). -/

namespace Sys2Proof.Machine

variable {s : State} {i : Instr} {d : Depth}

/-! ## The checks -/

section
variable {n : Nat} (hsrc : s.srcLen.toNat ≤ s.cfg.srcCap) (haux : s.auxLen.toNat ≤ s.cfg.auxCap)
  (hs : s.srcLen.toNat = d.tileBytes * n)
include hsrc haux hs

theorem tasmChecks_of_short_flip_list (h : s.auxLen.toNat < n) :
    tasmChecks d n s = .error (.raise .unexpectedEof s.auxLen.toNat) := by
  rw [tasmChecks, failIf_neg (by omega), failIf_neg hs.not_lt, failIf_neg hs.not_gt, failIf_pos h]
  rfl

theorem tasmChecks_of_large_image (ha : s.auxLen.toNat = n) (h : s.limit < 64 * n) :
    tasmChecks d n s = .error (.raise .outputLimitExceeded 0) := by
  rw [tasmChecks, failIf_neg (by omega), failIf_neg hs.not_lt, failIf_neg hs.not_gt, failIf_neg ha.not_lt, failIf_neg ha.not_gt,
    failIf_pos h]
  rfl

end

/-- Settles O33: each check is the first that fails once those before it pass; the flip bytes are those of
`illegalOperandIsRaisedAsTheTableSays`. -/
theorem tasmReportsTheFirstFailingCheck : Obligations.TasmReportsTheFirstFailingCheck := by
  unfold Obligations.TasmReportsTheFirstFailingCheck
  rintro s w ht i size n hi rfl
  obtain ⟨-, -, hillegal⟩ := illegalOperandIsRaisedAsTheTableSays
  have hoperand := hillegal s w ht i size _ hi rfl
  obtain ⟨d, rfl, hne, hw, hchecks⟩ := tasm_parts hi
  have haux : readsAux i = true := by rcases hi with ⟨rfl, -⟩ | ⟨rfl, -⟩ <;> rfl
  have hraise {e : Err} {pos : Nat} (hc : tasmChecks d (w.toNat * ht.toNat) (s.setWork (.tasm (.start d w ht))) =
      .error (.raise e pos)) : exec i s = .next (s.failed e.code pos) :=
    exec_of_checks_raise hne hw ((congrFun hchecks _).trans hc)
  refine ⟨fun hcap => exec_of_checks_raise (e := .illegalOperand) hne hw
    (startChecks_of_over_capacity hw (hcap.imp_right (⟨haux, ·⟩))), fun hsrc haux => ?_⟩
  obtain ⟨hlong, hlongFlips, hbad⟩ := hoperand hsrc haux
  exact ⟨fun h => hraise (tasmChecks_of_short_sheet hsrc haux h), hlong, fun hs h => hraise (tasmChecks_of_short_flip_list hsrc haux hs h),
    hlongFlips, fun hs ha h => hraise (tasmChecks_of_large_image hsrc haux hs ha h), hbad⟩

/-! ## The run of the engine -/

/-- The tiles of a sheet, each unpacked and flipped as its own flip byte says. -/
def flippedTiles (d : Depth) (tiles : List (List Byte)) (flips : List (Bool × Bool)) : List (List Byte) :=
  List.zipWith (fun tb f => tileBytes (flip (unpack tb d) f.1 f.2)) tiles flips

theorem length_flippedTiles {tiles : List (List Byte)} {flips : List (Bool × Bool)} (h : tiles.length = flips.length) :
    (flippedTiles d tiles flips).length = flips.length := by
  rw [flippedTiles, List.length_zipWith, h, Nat.min_self]

/-- The engine gets through the flip bytes that are missing. -/
theorem reaches_of_flips {a : AsmWork} {flips : List (Bool × Bool)} (hn : a.flips.length + flips.length ≤ a.w * a.ht)
    (hold : Holds s.aux a.flips.length (flips.flatMap fun f => streamBytes (.flip f.1 f.2))) :
    Reaches s (.tasm a) (.tasm { a with flips := a.flips ++ flips }) := by
  induction flips generalizing a with
  | nil => rw [List.append_nil]
  | cons f fs ih =>
    rw [List.length_cons] at hn
    rw [List.flatMap_cons, holds_append] at hold
    obtain ⟨hhead, htail⟩ := hold
    have hrest := ih (a := { a with flips := a.flips ++ [f] }) (by simp only [List.length_append, List.length_singleton]; omega)
      (by rwa [List.length_append])
    rw [List.append_assoc] at hrest
    exact .head ⟨engineStep_of_flip (s := s.setWork _) rfl (by omega) hhead, nofun⟩ hrest

theorem engineMoves_of_placed_tile {a : AsmWork} {f : Bool × Bool} {tb : List Byte} (htb : tb.length = a.depth.tileBytes)
    (hn : a.flips.length = a.w * a.ht) (hf : a.flips[a.tiles.length]? = some f)
    (hold : Holds s.src (a.depth.tileBytes * a.tiles.length) tb) :
    EngineMoves s (.tasm a)
      (.tasm { a with tiles := a.tiles ++ [tileBytes (flip (unpack tb a.depth) f.1 f.2)] }) := by
  obtain ⟨hlt, -⟩ := List.getElem?_eq_some_iff.1 hf
  have hread : s.readBytes .src (a.depth.tileBytes * a.tiles.length) a.depth.tileBytes = .ok tb := by
    have hread := readBytes_of_holds (b := .src) hold
    rwa [htb] at hread
  obtain ⟨e, hfetchAs, hexec⟩ := fetchAs_tile htb .unexpectedEof (a.depth.tileBytes * a.tiles.length)
  have hfetch : engineFetch (s.setWork (.tasm a)) = .ok (.element e) := by
    show tasmFetch a (s.setWork (.tasm a)) = _
    rw [tasmFetch, if_neg hn.not_lt, if_pos (hn ▸ hlt), State.setWork_readBytes, hread]
    exact hfetchAs
  refine ⟨?_, nofun⟩
  rw [engineStep_of_fetch_element hfetch, hexec]
  exact packedTile_of_tasm (s := s.setWork _) rfl rfl htb hn hf

/-- The engine places the tiles that are left, the flips it has used standing before theirs. -/
theorem reaches_of_tiles {a : AsmWork} {used flips : List (Bool × Bool)} {tiles : List (List Byte)}
    (hn : a.flips.length = a.w * a.ht) (hflips : a.flips = used ++ flips) (hused : a.tiles.length = used.length)
    (hleft : tiles.length = flips.length) (htiles : ∀ tb ∈ tiles, tb.length = a.depth.tileBytes)
    (hold : Holds s.src (a.depth.tileBytes * a.tiles.length) tiles.flatten) :
    Reaches s (.tasm a) (.tasm { a with tiles := a.tiles ++ flippedTiles a.depth tiles flips }) := by
  induction tiles generalizing a used flips with
  | nil => rw [flippedTiles, List.zipWith_nil_left, List.append_nil]
  | cons tb tbs ih =>
    obtain ⟨f, fs, rfl⟩ := List.exists_cons_of_length_eq_add_one hleft.symm
    obtain ⟨htb, htbs⟩ := List.forall_mem_cons.1 htiles
    rw [List.flatten_cons, holds_append, htb] at hold
    obtain ⟨hhead, htail⟩ := hold
    have hf : a.flips[a.tiles.length]? = some f := by simp [hflips, hused]
    have hrest := ih (a := { a with tiles := a.tiles ++ [tileBytes (flip (unpack tb a.depth) f.1 f.2)] }) (used := used ++ [f])
      (flips := fs) hn (by rw [hflips, List.append_assoc]; rfl) (by simp [hused]) (Nat.succ.inj hleft) htbs
      (by rwa [List.length_append, List.length_singleton, Nat.mul_succ])
    rw [List.append_assoc] at hrest
    exact .head (engineMoves_of_placed_tile htb hn hf hhead) hrest

/-- Once all tiles are placed, the engine produces the image. -/
theorem tasmFetch_of_all_placed {a : AsmWork} (hn : a.flips.length = a.w * a.ht) (ht : a.tiles.length = a.w * a.ht) :
    tasmFetch a s = .ok (.element (.image (assemble a.w a.ht a.tiles))) := by
  rw [tasmFetch, if_neg hn.not_lt, if_neg ht.not_lt]

/-- A sheet is assembled, by either command. -/
theorem exec_tasm_of_tiles {w ht : Byte} {tiles : List (List Byte)} {flips : List (Bool × Bool)}
    (hw : startWork i = some (.tasm (.start d w ht))) (hchecks : startChecks i = tasmChecks d (w.toNat * ht.toNat))
    (hn : tiles.length = w.toNat * ht.toNat) (hf : flips.length = w.toNat * ht.toNat) (hsheet : Holds s.src 0 tiles.flatten)
    (hlen : s.srcLen.toNat = tiles.flatten.length) (hsrc : s.srcLen.toNat ≤ s.cfg.srcCap)
    (hlist : Holds s.aux 0 (flips.flatMap fun f => streamBytes (.flip f.1 f.2))) (hal : s.auxLen.toNat = flips.length)
    (haux : s.auxLen.toNat ≤ s.cfg.auxCap) (hfit : 64 * (w.toNat * ht.toNat) ≤ s.limit)
    (htiles : ∀ tb ∈ tiles, tb.length = d.tileBytes) :
    exec i s = .next (s.succeeded (assemble w.toNat ht.toNat (flippedTiles d tiles flips))) := by
  rw [← flatMap_id_eq_flatten, length_flatMap_of_forall htiles, hn] at hlen
  have hok : startChecks i (s.setWork (.tasm (.start d w ht))) = .ok () :=
    (congrFun hchecks _).trans (tasmChecks_of_lengths hsrc haux hlen (hal.trans hf) hfit)
  have hflips : Reaches s (.tasm (.start d w ht)) (.tasm { AsmWork.start d w ht with flips := flips }) :=
    reaches_of_flips (a := .start d w ht) ((Nat.zero_add _).trans_le hf.le) hlist
  have hplaced : Reaches s (.tasm { AsmWork.start d w ht with flips := flips })
      (.tasm { AsmWork.start d w ht with flips := flips, tiles := flippedTiles d tiles flips }) :=
    reaches_of_tiles (used := []) hf rfl rfl (hn.trans hf.symm) htiles hsheet
  have hall : (flippedTiles d tiles flips).length = w.toNat * ht.toNat := (length_flippedTiles (hn.trans hf.symm)).trans hf
  refine exec_of_reaches hw hok (hflips.trans hplaced) ?_ rfl
  rw [engineStep_of_fetch_element (e := .image (assemble w.toNat ht.toNat (flippedTiles d tiles flips)))]
  · exact execImage_of_all_placed (s := s.setWork _) rfl hf hall
  · exact tasmFetch_of_all_placed hf hall

/-- Settles O31: the engine reads the flip list, places the tiles one by one and produces the image. -/
theorem tasmAssemblesTheFlippedTiles : Obligations.TasmAssemblesTheFlippedTiles := by
  unfold Obligations.TasmAssemblesTheFlippedTiles
  intro s w ht tiles flips _ _ hn hf hsheet hlen hsrc hlist hal haux hfit
  exact ⟨exec_tasm_of_tiles (d := .two) rfl rfl hn hf hsheet hlen hsrc hlist hal haux hfit,
    exec_tasm_of_tiles (d := .four) rfl rfl hn hf hsheet hlen hsrc hlist hal haux hfit⟩

end Sys2Proof.Machine
end

section
/-! SUPPORT. The run of the BRR decoder through a stream of blocks (R161, R166, R167). -/

namespace Sys2Proof.Machine

variable {s : State} {b : BrrWork}

/-- A block whose samples fit is decoded; it ends the command if its `end` flag says so. -/
theorem engineStep_of_block {k : BrrBlock} {fin : Bool} (hk : k.nibbles.length = 16) (hold : Holds s.src b.c (k.bytes fin))
    (hc : b.c + 9 ≤ s.srcLen.toNat) (hfit : b.out.length + 32 ≤ s.limit) :
    engineStep (s.setWork (.brr b)) =
      if fin then .next ((s.setWork (.brr (BrrBlock.run b k))).commit (BrrBlock.run b k).out)
      else .next (s.setWork (.brr (BrrBlock.run b k))) := by
  have hroom : 2 * (b.out.length / 2 + 16) ≤ s.limit := by omega
  have hfetch : engineFetch (s.setWork (.brr b)) = .ok (.element (.brrblk k.shift k.filter k.loop fin k.nibbles)) :=
    (brrFetch_of_block (s := s.setWork _) hk hold hc).trans (if_neg hroom.not_gt)
  rw [engineStep_of_fetch_element hfetch]
  exact execBrrblk_of_fits (s := s.setWork _) rfl hk hroom fin

/-- Blocks without `end` are decoded one after the other. -/
theorem reaches_of_blocks {blocks : List BrrBlock} (hk : ∀ k ∈ blocks, k.nibbles.length = 16)
    (hold : Holds s.src b.c (blocks.flatMap (·.bytes false))) (hc : b.c + 9 * blocks.length ≤ s.srcLen.toNat)
    (hfit : b.out.length + 32 * blocks.length ≤ s.limit) :
    Reaches s (.brr b) (.brr (blocks.foldl BrrBlock.run b)) := by
  induction blocks generalizing b with
  | nil => rfl
  | cons k ks ih =>
    obtain ⟨hk, hks⟩ := List.forall_mem_cons.1 hk
    rw [List.length_cons] at hc hfit
    rw [List.flatMap_cons, holds_append, length_bytes_brrBlock hk] at hold
    obtain ⟨hhead, htail⟩ := hold
    have hlen := length_run b k
    exact .head ⟨engineStep_of_block hk hhead (by omega) (by omega), nofun⟩
      (ih hks htail (show b.c + 9 + 9 * ks.length ≤ _ by omega) (by omega))

theorem cursor_foldl_run (b : BrrWork) (blocks : List BrrBlock) : (blocks.foldl BrrBlock.run b).c = b.c + 9 * blocks.length := by
  induction blocks generalizing b with
  | nil => rfl
  | cons k ks ih =>
    have hc : (BrrBlock.run b k).c = b.c + 9 := rfl
    rw [List.foldl_cons, ih, List.length_cons, hc]
    omega

theorem length_foldl_run {blocks : List BrrBlock} (hk : ∀ k ∈ blocks, k.nibbles.length = 16) (b : BrrWork) :
    (blocks.foldl BrrBlock.run b).out.length = b.out.length + 32 * blocks.length := by
  induction blocks generalizing b with
  | nil => rfl
  | cons k ks ih =>
    obtain ⟨hk, hks⟩ := List.forall_mem_cons.1 hk
    rw [List.foldl_cons, ih hks, length_run, hk, List.length_cons]
    omega

/-- Settles O42: the blocks are decoded in turn and the last one ends the command. -/
theorem brrdecDecodesAStream : Obligations.BrrdecDecodesAStream := by
  unfold Obligations.BrrdecDecodesAStream
  rintro s blocks last b more hblocks hlast hold hlen hcap hfit rfl
  have hbytes : (blocks.flatMap (·.bytes false)).length = 9 * blocks.length :=
    length_flatMap_of_forall fun k hk => length_bytes_brrBlock (hblocks k hk) false
  rw [holds_append, hbytes, Nat.zero_add] at hold
  obtain ⟨hheads, htail⟩ := hold
  have hcursor := (cursor_foldl_run .start blocks).trans (Nat.zero_add _)
  have hout := (length_foldl_run hblocks .start).trans (Nat.zero_add _)
  have hreach : Reaches s (.brr .start) (.brr (blocks.foldl BrrBlock.run .start)) :=
    reaches_of_blocks hblocks hheads ((Nat.zero_add _).trans_le (by omega)) ((Nat.zero_add _).trans_le (by omega))
  have hend := engineStep_of_block (s := s) (b := blocks.foldl BrrBlock.run .start) (fin := true) hlast (by rwa [hcursor]) (by omega)
    (by omega)
  rw [List.foldl_concat]
  exact exec_of_reaches (i := .brrdec) rfl (failIf_neg hcap.not_gt) hreach hend rfl

end Sys2Proof.Machine
end

section
/-! SUPPORT. The run of the IPS engine through a patch (R201, R203, R206, R210). -/

namespace Sys2Proof.Machine

variable {s : State} {c : Nat} {out : List Byte}

theorem isCommand_of_recordEnd {i : Instr} {e : Nat} (h : recordEnd i = some e) : i.isCommand = false := by
  cases i with
  | ipsrec | ipsrle => rfl
  | _ => cases h

/-- The engine applies a record that fits. -/
theorem engineMoves_of_record {i : Instr} {e : Nat} (hwf : i.wellFormed = true) (he : recordEnd i = some e) (hfit : e ≤ s.limit)
    (hold : Holds s.aux c (streamBytes i)) (hc : c + (streamBytes i).length ≤ s.auxLen.toNat) :
    EngineMoves s (.ips ⟨.records, c, out⟩) (.ips ⟨.records, c + (streamBytes i).length, recordOutput out i⟩) := by
  have hfetch : engineFetch (s.setWork (.ips ⟨.records, c, out⟩)) = .ok (.element i) :=
    (ipsFetch_of_record (s := s.setWork (.ips ⟨.records, c, out⟩)) (p := ⟨.records, c, out⟩) rfl hwf he hold hc).resolve_right
      fun h => h.1.not_ge hfit
  refine ⟨?_, nofun⟩
  rw [engineStep_of_fetch_element hfetch, ← exec_eq_execElement (isCommand_of_recordEnd he)]
  exact exec_record_of_fits (s := s.setWork _) rfl rfl hwf he hfit

/-- The engine applies records in stream order. -/
theorem reaches_of_records {records : List Instr}
    (hrec : ∀ i ∈ records, i.wellFormed = true ∧ ∃ e, recordEnd i = some e ∧ e ≤ s.limit)
    (hold : Holds s.aux c (records.flatMap streamBytes)) (hc : c + (records.flatMap streamBytes).length ≤ s.auxLen.toNat) :
    Reaches s (.ips ⟨.records, c, out⟩)
      (.ips ⟨.records, c + (records.flatMap streamBytes).length, records.foldl recordOutput out⟩) := by
  induction records generalizing c out with
  | nil => rfl
  | cons i is ih =>
    obtain ⟨⟨hwf, e, he, hfit⟩, his⟩ := List.forall_mem_cons.1 hrec
    rw [List.flatMap_cons, holds_append] at hold
    obtain ⟨hhead, htail⟩ := hold
    simp only [List.flatMap_cons, List.length_append, ← Nat.add_assoc] at hc ⊢
    exact .head (engineMoves_of_record hwf he hfit hhead (by omega)) (ih his htail hc)

/-- The engine copies a source that fits the limit. -/
theorem engineMoves_of_ipsmagic {source : List Byte} (hsource : Holds s.src 0 source) (hlen : s.srcLen.toNat = source.length)
    (hfit : source.length ≤ s.limit) (hold : Holds s.aux 0 patchMagic) (haux : 5 ≤ s.auxLen.toNat) :
    EngineMoves s (.ips .start) (.ips ⟨.records, 5, source⟩) := by
  refine ⟨?_, nofun⟩
  rw [engineStep_of_fetch_element (s := s.setWork (.ips .start)) (e := .ipsmagic) (ipsFetch_of_magic (p := .start) rfl haux hold)]
  exact execIpsmagic_of_fits (s := s.setWork _) (p := .start) rfl rfl hsource hlen hfit

theorem ipsFetch_of_eof {p : IpsWork} (hp : p.phase = .records) (hlen : p.c + 3 ≤ s.auxLen.toNat) (hold : Holds s.aux p.c eofMagic) :
    ipsFetch p s = .ok (.element .ipseof) := by
  have hread : s.readBytes .aux p.c 3 = .ok eofMagic := readBytes_of_holds (b := .aux) hold
  have hleft : ¬ s.auxLen.toNat - p.c < 3 := by omega
  rw [ipsFetch, hp]
  simp only [failIf_neg hleft, hread, ok_bind, if_true]
  exact fetchAs_of_encode rfl rfl _ _

/-- The terminator ends the command. -/
theorem engineStep_of_ipseof (hold : Holds s.aux c eofMagic) (hc : c + 3 ≤ s.auxLen.toNat) :
    engineStep (s.setWork (.ips ⟨.records, c, out⟩)) = .next (s.succeeded out) := by
  rw [engineStep_of_fetch_element (s := s.setWork (.ips ⟨.records, c, out⟩)) (e := .ipseof)
    (ipsFetch_of_eof (p := ⟨.records, c, out⟩) rfl hc hold)]
  exact execIpseof_of_records (s := s.setWork _) (p := ⟨.records, c, out⟩) rfl rfl

/-- Settles O52: the engine copies the source, applies the records one by one and stops at the terminator. -/
theorem ipsapplyAppliesItsRecordsInOrder : Obligations.IpsapplyAppliesItsRecordsInOrder := by
  unfold Obligations.IpsapplyAppliesItsRecordsInOrder
  intro s source records more hrec hsource hsl hsrc hfit hold hal haux
  obtain ⟨hhead, heof⟩ := holds_append.1 hold
  obtain ⟨hmagic, hrecords⟩ := holds_append.1 hhead
  have hmagicLen : patchMagic.length = 5 := rfl
  have heofLen : eofMagic.length = 3 := rfl
  simp only [List.length_append, Nat.zero_add, hmagicLen, heofLen] at hal heof hrecords
  have hreach := Relation.ReflTransGen.head (engineMoves_of_ipsmagic hsource hsl hfit hmagic (by omega))
    (reaches_of_records (out := source) hrec hrecords (by omega))
  have hchecks : startChecks .ipsapply (s.setWork (.ips .start)) = .ok () := failIf_neg (not_or.2 ⟨hsrc.not_gt, haux.not_gt⟩)
  exact exec_of_reaches (i := .ipsapply) rfl hchecks hreach
    (engineStep_of_ipseof heof (by omega)) rfl

end Sys2Proof.Machine
end

section
/-! SUPPORT. The run of the UPS engine through a patch: the magic, the two sizes, the runs, the trailer (R228 to R235). -/

namespace Sys2Proof.Machine

variable {s : State} {u : UpsWork}

/-! ## What the engine reads -/

theorem length_encodeVlv (ds : List (BitVec 7)) : (encodeVlv ds).length = ds.length := by
  induction ds with
  | nil => rfl
  | cons d ds ih =>
    cases ds with
    | nil => rfl
    | cons d' ds => simp only [encodeVlv, List.length_cons, ih]

/-- The XOR bytes of a run are read up to the `00` that ends them, whatever follows it. -/
theorem readXors_of_closed {a : Nat} {xors : List Byte} (hx : ∀ x ∈ xors, x ≠ 0#8) (hold : Holds s.aux a (xors ++ [0#8])) (n : Nat) :
    readXors s a (xors.length + 1 + n) = .ok (xors ++ [0#8]) := by
  induction xors generalizing a with
  | nil =>
    have hbyte : s.readByte .aux a = .ok 0#8 := readByte_eq_ok.2 (holds_cons.1 hold).1
    rw [List.length_nil, Nat.zero_add, Nat.add_comm, readXors, hbyte]
    rfl
  | cons x xs ih =>
    obtain ⟨hread, hrest⟩ := holds_cons.1 hold
    obtain ⟨hx0, hxs⟩ := List.forall_mem_cons.1 hx
    rw [List.length_cons, Nat.add_right_comm, readXors_succ_of_ne_zero hread hx0, ih hxs hrest]
    rfl

/-- A VLV at the cursor, inside the body. -/
theorem readVlv_of_body {ds : List (BitVec 7)} (hds : ds ≠ []) {a : Nat} (hold : Holds s.aux a (encodeVlv ds))
    (ha : a + ds.length ≤ s.bodyEnd) : readVlv s a (s.bodyEnd - a) = .ok (encodeVlv ds) := by
  have hlen : s.bodyEnd - a = (encodeVlv ds).length + (s.bodyEnd - a - ds.length) := by rw [length_encodeVlv]; omega
  rw [hlen]
  exact readVlv_of_encodeVlv hds hold _

/-- A size that is there is read. -/
theorem upsFetch_of_size {ds : List (BitVec 7)} (hp : u.phase = .sourceSize ∨ ∃ n, u.phase = .targetSize n) (hds : ds ≠ [])
    (hold : Holds s.aux u.c (encodeVlv ds)) (hc : u.c + ds.length ≤ s.bodyEnd) :
    upsFetch u s = .ok (.element (.vlv ds)) := by
  have hread := readVlv_of_body hds hold hc
  have hwf : (Instr.vlv ds).wellFormed = true := by simpa [Instr.wellFormed] using hds
  obtain hp | ⟨n, hp⟩ := hp <;>
    · simp only [upsFetch, hp, hread, ok_bind]
      exact fetchAs_of_encode rfl hwf _ _

/-- A run that is there is read. -/
theorem upsFetch_of_run {r : Run} (hp : u.phase = .runs) (hrel : r.rel ≠ []) (hx : ∀ x ∈ r.xors, x ≠ 0#8)
    (hold : Holds s.aux u.c r.bytes) (hc : u.c + r.bytes.length ≤ s.bodyEnd) :
    upsFetch u s = .ok (.element (.upsrun r.rel r.xors)) := by
  have hbytes : r.bytes = encodeVlv r.rel ++ (r.xors ++ [0#8]) := List.append_assoc _ _ _
  have hpos := List.length_pos_of_ne_nil hrel
  have hwf : (Instr.upsrun r.rel r.xors).wellFormed = true := by simpa [Instr.wellFormed, hrel] using hx
  rw [hbytes] at hold hc
  simp only [List.length_append, List.length_singleton, length_encodeVlv] at hc
  obtain ⟨hvlv, hxors⟩ := holds_append.1 hold
  rw [length_encodeVlv] at hxors
  have hxlen : s.bodyEnd - (u.c + r.rel.length) = r.xors.length + 1 + (s.bodyEnd - (u.c + r.rel.length) - (r.xors.length + 1)) := by
    omega
  have hreadXors : readXors s (u.c + r.rel.length) (s.bodyEnd - (u.c + r.rel.length)) = .ok (r.xors ++ [0#8]) := by
    rw [hxlen]
    exact readXors_of_closed hx hxors _
  have hlt : u.c < s.bodyEnd := by omega
  simp only [upsFetch, hp, if_pos hlt, readVlv_of_body hrel hvlv (by omega), ok_bind, length_encodeVlv, hreadXors]
  exact fetchAs_of_encode (hbytes ▸ rfl) hwf _ _

/-- After the last run the trailer is read. -/
theorem upsFetch_of_trailer {srcCrc tgtCrc patchCrc : Word} (hp : u.phase = .runs) (hc : u.c = s.bodyEnd)
    (hold : Holds s.aux s.bodyEnd (streamBytes (.upstrailer srcCrc tgtCrc patchCrc))) :
    upsFetch u s = .ok (.element (.upstrailer srcCrc tgtCrc patchCrc)) := by
  have hread : s.readBytes .aux s.bodyEnd 12 = .ok (streamBytes (.upstrailer srcCrc tgtCrc patchCrc)) :=
    readBytes_of_holds (b := .aux) hold
  simp only [upsFetch, hp, if_neg hc.not_lt, hread, ok_bind]
  exact fetchAs_of_encode rfl rfl _ _

/-! ## The moves of the engine -/

/-- The working state of a patch whose accumulators have their initial value, as they keep it until the trailer. -/
def patchWork (phase : UpsPhase) (c cur : Nat) (out : List Byte) : UpsWork :=
  { UpsWork.start with phase := phase, c := c, cur := cur, out := out }

variable {c cur : Nat} {out : List Byte}

theorem engineMoves_of_upsmagic (hold : Holds s.aux 0 upsMagic) (hlen : 16 ≤ s.auxLen.toNat) :
    EngineMoves s (.ups .start) (.ups (patchWork .sourceSize 4 0 [])) := by
  refine ⟨?_, nofun⟩
  rw [engineStep_of_fetch_element (s := s.setWork (.ups .start)) (e := .upsmagic)
    (upsFetch_of_four_bytes (u := .start) rfl ((by decide : 4 ≤ 16).trans hlen) rfl hold)]
  exact execUpsmagic_of_long_patch (s := s.setWork _) (u := .start) rfl rfl hlen

theorem engineMoves_of_sourceSize {ds : List (BitVec 7)} (hds : ds ≠ []) (hold : Holds s.aux c (encodeVlv ds))
    (hc : c + ds.length ≤ s.bodyEnd) :
    EngineMoves s (.ups (patchWork .sourceSize c cur out)) (.ups (patchWork (.targetSize (vlvValue ds)) (c + ds.length) cur out)) := by
  refine ⟨?_, nofun⟩
  rw [engineStep_of_fetch_element (s := s.setWork (.ups (patchWork .sourceSize c cur out))) (e := .vlv ds)
    (upsFetch_of_size (u := patchWork .sourceSize c cur out) (.inl rfl) hds hold hc)]
  exact execVlv_of_sourceSize (s := s.setWork _) (u := patchWork .sourceSize c cur out) rfl hds rfl

/-- The target size, the source size being right, starts the output (R230, R231). -/
theorem engineMoves_of_targetSize {ds : List (BitVec 7)} {source : List Byte} (hds : ds ≠ []) (hold : Holds s.aux c (encodeVlv ds))
    (hc : c + ds.length ≤ s.bodyEnd) (hsource : Holds s.src 0 source) (hlen : source.length = s.srcLen.toNat)
    (hfit : vlvValue ds ≤ s.limit) :
    EngineMoves s (.ups (patchWork (.targetSize source.length) c cur out))
      (.ups (patchWork .runs (c + ds.length) 0
        (source.take (vlvValue ds) ++ List.replicate (vlvValue ds - source.length) 0#8))) := by
  refine ⟨?_, nofun⟩
  rw [engineStep_of_fetch_element (s := s.setWork (.ups (patchWork (.targetSize source.length) c cur out))) (e := .vlv ds)
    (upsFetch_of_size (u := patchWork (.targetSize source.length) c cur out) (.inr ⟨_, rfl⟩) hds hold hc)]
  refine (execVlv_of_targetSize (s := s.setWork _) (u := patchWork (.targetSize source.length) c cur out) rfl hds rfl).trans ?_
  rw [upsStart_of_sizes (s := s.setWork (.ups (patchWork (.targetSize source.length) c cur out))) hsource hlen hfit]
  rfl

theorem engineMoves_of_run {r : Run} (hrel : r.rel ≠ []) (hx : ∀ x ∈ r.xors, x ≠ 0#8) (hold : Holds s.aux c r.bytes)
    (hc : c + r.bytes.length ≤ s.bodyEnd) :
    EngineMoves s (.ups (patchWork .runs c cur out))
      (.ups (patchWork .runs (c + r.bytes.length) (cur + vlvValue r.rel + r.xors.length + 1)
        (xorRun r.xors (cur + vlvValue r.rel) out))) := by
  have hlen : c + r.bytes.length = c + r.rel.length + r.xors.length + 1 := by
    simp only [Run.bytes, streamBytes, encode, List.length_append, length_encodeVlv, List.length_singleton]
    omega
  have hpos : 0 < r.bytes.length := by omega
  refine ⟨?_, nofun⟩
  rw [engineStep_of_fetch_element (s := s.setWork (.ups (patchWork .runs c cur out))) (e := .upsrun r.rel r.xors)
    (upsFetch_of_run (u := patchWork .runs c cur out) rfl hrel hx hold hc), hlen]
  exact execUpsrun_of_runs (s := s.setWork _) (u := patchWork .runs c cur out) rfl hrel hx rfl
    (show c < s.bodyEnd by omega)

/-- The engine applies the runs in stream order. -/
theorem reaches_of_runs {runs : List Run} (hruns : ∀ r ∈ runs, r.rel ≠ [] ∧ ∀ x ∈ r.xors, x ≠ 0#8)
    (hold : Holds s.aux c (runs.flatMap Run.bytes)) (hc : c + (runs.flatMap Run.bytes).length ≤ s.bodyEnd) :
    ∃ cur', Reaches s (.ups (patchWork .runs c cur out))
      (.ups (patchWork .runs (c + (runs.flatMap Run.bytes).length) cur' (runsOutput runs cur out))) := by
  induction runs generalizing c cur out with
  | nil => exact ⟨cur, .refl⟩
  | cons r rs ih =>
    obtain ⟨⟨hrel, hx⟩, hrs⟩ := List.forall_mem_cons.1 hruns
    rw [List.flatMap_cons, holds_append] at hold
    obtain ⟨hhead, htail⟩ := hold
    simp only [List.flatMap_cons, List.length_append, ← Nat.add_assoc] at hc ⊢
    obtain ⟨cur', hrest⟩ := ih hrs htail hc
    exact ⟨cur', .head (engineMoves_of_run hrel hx hhead (by omega)) hrest⟩

/-- A trailer whose CRCs match ends the command. -/
theorem engineStep_of_trailer {source body : List Byte} (hsource : Holds s.src 0 source) (hsl : source.length = s.srcLen.toNat)
    (hbody : Holds s.aux 0 body) (hbl : body.length = s.bodyEnd)
    (hold : Holds s.aux s.bodyEnd (streamBytes (.upstrailer (crc32 s.cfg.crcPoly source) (crc32 s.cfg.crcPoly out)
      (crc32 s.cfg.crcPoly body)))) :
    engineStep (s.setWork (.ups (patchWork .runs s.bodyEnd cur out))) = .next (s.succeeded out) := by
  rw [engineStep_of_fetch_element (s := s.setWork (.ups (patchWork .runs s.bodyEnd cur out)))
    (upsFetch_of_trailer (u := patchWork .runs s.bodyEnd cur out) rfl rfl hold)]
  refine exec_upstrailer_of_match (s := s.setWork (.ups (patchWork .runs s.bodyEnd cur out)))
    (u := patchWork .runs s.bodyEnd cur out) rfl rfl le_rfl ?_
  rw [upsVerify_of_holds (s := s.setWork (.ups (patchWork .runs s.bodyEnd cur out))) hsource hsl hbody hbl rfl rfl rfl]
  simp only [State.setWork_cfg, patchWork, ne_eq, not_true_eq_false, failIf_neg, not_false_eq_true, ok_bind]

/-- Settles O59: the engine reads the magic, the sizes, the runs and a trailer that matches. -/
theorem upsapplyAppliesItsRuns : Obligations.UpsapplyAppliesItsRuns := by
  unfold Obligations.UpsapplyAppliesItsRuns
  rintro s source body sd td runs _ _ _ out hsd htd hsize hruns hsource hsl hsrc hfit hbody hold hal haux hout rfl rfl rfl
  obtain ⟨hholdBody, htrailer⟩ := holds_append.1 hold
  have hend : s.bodyEnd = body.length := by unfold State.bodyEnd; omega
  have hparts := hholdBody
  have hlen := congrArg List.length hbody
  have hmagicLen : upsMagic.length = 4 := rfl
  have hvlvLen (ds : List (BitVec 7)) : (streamBytes (.vlv ds)).length = ds.length := length_encodeVlv ds
  rw [hbody] at hparts
  simp only [List.length_append, holds_append, Nat.zero_add, hmagicLen, hvlvLen] at hlen hparts
  obtain ⟨⟨⟨hmagic, hsourceSize⟩, htargetSize⟩, hrunBytes⟩ := hparts
  have hsdPos := List.length_pos_of_ne_nil hsd
  have htdPos := List.length_pos_of_ne_nil htd
  obtain ⟨cur, hreachRuns⟩ := reaches_of_runs (s := s) (cur := 0)
    (out := source.take (vlvValue td) ++ List.replicate (vlvValue td - source.length) 0#8) hruns hrunBytes (by omega)
  rw [← hlen, ← hend, ← hout] at hreachRuns
  have hreach := (((Relation.ReflTransGen.single (engineMoves_of_upsmagic hmagic (by omega))).tail
    (engineMoves_of_sourceSize hsd hsourceSize (by omega))).tail
    (hsize ▸ engineMoves_of_targetSize htd htargetSize (by omega) hsource hsl.symm hfit)).trans hreachRuns
  have hchecks : startChecks .upsapply (s.setWork (.ups .start)) = .ok () := failIf_neg (not_or.2 ⟨hsrc.not_gt, haux.not_gt⟩)
  rw [Nat.zero_add, ← hend] at htrailer
  exact exec_of_reaches (i := .upsapply) rfl hchecks hreach
    (engineStep_of_trailer hsource hsl.symm hholdBody hend.symm htrailer) rfl

end Sys2Proof.Machine
end

section
/-! SUPPORT. The run of the LZ decompressor through a token stream, under every grammar and each way to end (R182 to R188). -/

namespace Sys2Proof.Machine

variable {s : State} {z : LzWork}

/-! ## The output of tokens -/

/-- The output after a list of tokens. -/
def tokensOutput (cfg : Word) (out : List Byte) (toks : List LzToken) : List Byte := toks.foldl (fun o t => t.run cfg o) out

theorem length_lt_of_legal_run {cfg : Word} {out : List Byte} {t : LzToken} (h : t.legal cfg out) :
    out.length < (t.run cfg out).length := by
  cases t with
  | lit d => simp [LzToken.run]
  | copy b0 b1 =>
    rw [LzToken.run, length_lzCopy]
    exact Nat.lt_add_of_pos_right (Nat.pos_of_ne_zero h.1)

theorem length_le_tokensOutput {cfg : Word} {out : List Byte} {toks : List LzToken} (h : legalTokens cfg out toks) :
    out.length + toks.length ≤ (tokensOutput cfg out toks).length := by
  induction toks generalizing out with
  | nil => exact le_rfl
  | cons t ts ih =>
    obtain ⟨ht, hts⟩ := h
    have hhead := length_lt_of_legal_run ht
    have htail : (t.run cfg out).length + ts.length ≤ (tokensOutput cfg out (t :: ts)).length := ih hts
    rw [List.length_cons]
    omega

theorem legalTokens_append {cfg : Word} {out : List Byte} {xs ys : List LzToken} :
    legalTokens cfg out (xs ++ ys) ↔ legalTokens cfg out xs ∧ legalTokens cfg (tokensOutput cfg out xs) ys := by
  induction xs generalizing out with
  | nil => exact (and_iff_right trivial).symm
  | cons x xs ih => rw [List.cons_append, legalTokens, legalTokens, ih, and_assoc]; rfl

theorem tokensOutput_append (cfg : Word) (out : List Byte) (xs ys : List LzToken) :
    tokensOutput cfg out (xs ++ ys) = tokensOutput cfg (tokensOutput cfg out xs) ys := List.foldl_append

/-! ## One token -/

section
variable (hgo : lzTerm s.lzCfg = 1 → z.out.length ≠ s.lzTarget.toNat)
include hgo

theorem lzFetch_of_literal {x : Byte} (hbits : z.bitsLeft ≠ 0) (hctrl : z.ctrl.getLsbD 7 = false) (hold : Holds s.src z.c [x])
    (hc : z.c < s.srcLen.toNat) (hfit : z.out.length + 1 ≤ s.limit) : lzFetch z s = .ok (.element (.lzlit x)) := by
  have hread : s.readByte .src z.c = .ok x := readByte_eq_ok.2 (holds_cons.1 hold).1
  rw [lzFetch, if_neg (not_and.2 hgo), if_neg hbits, if_pos hctrl, if_neg hc.not_ge, failIf_neg hfit.not_gt, ok_bind, hread, ok_bind]
  exact fetchAs_of_encode rfl rfl _ _

theorem lzFetch_of_match {b0 b1 : Byte} (hbits : z.bitsLeft ≠ 0) (hctrl : z.ctrl.getLsbD 7 = true)
    (hold : Holds s.src z.c [b0, b1]) (hc : z.c + 2 ≤ s.srcLen.toNat) : lzFetch z s = .ok (.element (.lzmatch b0 b1)) := by
  have hread : s.readBytes .src z.c 2 = .ok [b0, b1] := readBytes_of_holds (b := .src) hold
  rw [lzFetch, if_neg (not_and.2 hgo), if_neg hbits, if_neg (by simp [hctrl]), if_neg (by omega), failIf_neg (by omega), ok_bind, hread,
    ok_bind]
  exact fetchAs_of_encode rfl rfl _ _

theorem lzFetch_of_control {x : Byte} (hbits : z.bitsLeft = 0) (hx : lzTerm s.lzCfg ≠ 2 ∨ x ≠ lzEndCtrl s.lzCfg)
    (hold : Holds s.src z.c [x]) (hc : z.c < s.srcLen.toNat) : lzFetch z s = .ok (.element (.lzctrl x)) := by
  have hread : s.readByte .src z.c = .ok x := readByte_eq_ok.2 (holds_cons.1 hold).1
  rw [lzFetch, if_neg (not_and.2 hgo), if_pos hbits, if_neg hc.not_ge, hread, ok_bind, if_neg (not_and_or.2 hx)]
  exact fetchAs_of_encode rfl rfl _ _

end

/-- The checks of a legal match that fits pass. -/
theorem lzMatchChecks_of_fits {length dist : Nat} (hlen : length ≠ 0) (hdist : dist ≠ 0) (hback : dist ≤ z.out.length)
    (hfit : z.out.length + length ≤ s.limit) (htarget : lzTerm s.lzCfg = 1 → z.out.length + length ≤ s.lzTarget.toNat) :
    lzMatchChecks length dist z s = .ok () := by
  rw [lzMatchChecks_eq_ite, if_neg hlen, if_neg (not_or.2 ⟨hdist, hback.not_gt⟩),
    if_neg (not_or.2 ⟨hfit.not_gt, not_and.2 fun h => (htarget h).not_gt⟩)]

/-- A token that its control bit selects, legal and fitting, is decompressed. -/
theorem engineMoves_of_token {t : LzToken} (hbits : z.bitsLeft ≠ 0) (hctrl : z.ctrl.getLsbD 7 = t.bit)
    (hold : Holds s.src z.c t.bytes) (hc : z.c + t.bytes.length ≤ s.srcLen.toNat) (hlegal : t.legal s.lzCfg z.out)
    (hfit : (t.run s.lzCfg z.out).length ≤ s.limit)
    (htarget : lzTerm s.lzCfg = 1 → (t.run s.lzCfg z.out).length ≤ s.lzTarget.toNat) :
    EngineMoves s (.lz z) (.lz { z.useBit with c := z.c + t.bytes.length, out := t.run s.lzCfg z.out }) := by
  have hgrow := length_lt_of_legal_run hlegal
  have hgo : lzTerm s.lzCfg = 1 → z.out.length ≠ s.lzTarget.toNat := fun h => (hgrow.trans_le (htarget h)).ne
  refine ⟨?_, nofun⟩
  cases t with
  | lit x =>
    have hroom : z.out.length + 1 ≤ s.limit := hgrow.trans_le hfit
    rw [engineStep_of_fetch_element (s := s.setWork (.lz z)) (lzFetch_of_literal (s := s.setWork (.lz z)) hgo hbits hctrl hold hc hroom)]
    exact execLzlit_of_fits (s := s.setWork _) rfl hbits hctrl hroom x
  | copy b0 b1 =>
    obtain ⟨hlen, hdist, hback⟩ := hlegal
    rw [LzToken.run, length_lzCopy] at hfit htarget
    rw [engineStep_of_fetch_element (s := s.setWork (.lz z)) (lzFetch_of_match (s := s.setWork (.lz z)) hgo hbits hctrl hold hc)]
    exact execLzmatch_of_checks (s := s.setWork (.lz z)) rfl hbits hctrl
      (lzMatchChecks_of_fits (s := s.setWork (.lz z)) hlen hdist hback hfit htarget)

/-! ## One group -/

/-- The bits of a control byte after one is used. -/
theorem getLsbD_useBit {k : Nat} (hk : k < 7) : z.useBit.ctrl.getLsbD (7 - k) = z.ctrl.getLsbD (7 - (k + 1)) := by
  have hpos : ¬ 7 - k < 1 := by omega
  have hlt : 7 - k < 8 := by omega
  simp only [LzWork.useBit, BitVec.getLsbD_shiftLeft, hpos, hlt, decide_true, decide_false, Bool.not_false, Bool.true_and]
  rfl

/-- The tokens of a group are decompressed in turn, each selected by the bit that is then the highest. -/
theorem reaches_of_tokens {toks : List LzToken} (hbits : toks.length ≤ z.bitsLeft) (hcount : toks.length ≤ 8)
    (hselect : ∀ k (h : k < toks.length), z.ctrl.getLsbD (7 - k) = (toks[k]).bit)
    (hold : Holds s.src z.c (toks.flatMap LzToken.bytes)) (hc : z.c + (toks.flatMap LzToken.bytes).length ≤ s.srcLen.toNat)
    (hlegal : legalTokens s.lzCfg z.out toks) (hfit : (tokensOutput s.lzCfg z.out toks).length ≤ s.limit)
    (htarget : lzTerm s.lzCfg = 1 → (tokensOutput s.lzCfg z.out toks).length ≤ s.lzTarget.toNat) :
    ∃ ctrl, Reaches s (.lz z) (.lz ⟨z.c + (toks.flatMap LzToken.bytes).length, ctrl, z.bitsLeft - toks.length,
      tokensOutput s.lzCfg z.out toks⟩) := by
  induction toks generalizing z with
  | nil => exact ⟨z.ctrl, .refl⟩
  | cons t ts ih =>
    obtain ⟨ht, hts⟩ := hlegal
    have hgrow := length_le_tokensOutput hts
    change (tokensOutput s.lzCfg (t.run s.lzCfg z.out) ts).length ≤ _ at hfit
    change _ → (tokensOutput s.lzCfg (t.run s.lzCfg z.out) ts).length ≤ _ at htarget
    rw [List.length_cons] at hbits hcount
    rw [List.flatMap_cons, holds_append] at hold
    obtain ⟨hhead, htail⟩ := hold
    simp only [List.flatMap_cons, List.length_append, List.length_cons, ← Nat.add_assoc] at hc ⊢
    have hmove := engineMoves_of_token (s := s) (z := z) (t := t) (by omega) (hselect 0 (Nat.succ_pos _)) hhead (by omega) ht (by omega)
      fun h => (Nat.le_of_add_right_le hgrow).trans (htarget h)
    obtain ⟨ctrl, hrest⟩ := ih (z := { z.useBit with c := z.c + t.bytes.length, out := t.run s.lzCfg z.out })
      (show _ ≤ z.bitsLeft - 1 by omega) (by omega)
      (fun k hk => (getLsbD_useBit (by omega)).trans (hselect (k + 1) (Nat.succ_lt_succ hk))) htail hc hts hfit htarget
    refine ⟨ctrl, .head hmove ?_⟩
    have hleft : z.bitsLeft - 1 - ts.length = z.bitsLeft - (ts.length + 1) := by omega
    rw [← hleft]
    exact hrest

/-- A group is decompressed: its control byte, then its tokens. -/
theorem reaches_of_group {g : LzGroup} (hgo : lzTerm s.lzCfg = 1 → z.out.length ≠ s.lzTarget.toNat) (hbits : z.bitsLeft = 0)
    (hctrl : lzTerm s.lzCfg ≠ 2 ∨ g.ctrl ≠ lzEndCtrl s.lzCfg) (hg : g.Selects) (hold : Holds s.src z.c g.bytes)
    (hc : z.c + g.bytes.length ≤ s.srcLen.toNat) (hlegal : legalTokens s.lzCfg z.out g.toks)
    (hfit : (tokensOutput s.lzCfg z.out g.toks).length ≤ s.limit)
    (htarget : lzTerm s.lzCfg = 1 → (tokensOutput s.lzCfg z.out g.toks).length ≤ s.lzTarget.toNat) :
    ∃ ctrl, Reaches s (.lz z) (.lz ⟨z.c + g.bytes.length, ctrl, 8 - g.toks.length, tokensOutput s.lzCfg z.out g.toks⟩) := by
  obtain ⟨hcount, hselect⟩ := hg
  have hlen : z.c + g.bytes.length = z.c + 1 + (g.toks.flatMap LzToken.bytes).length := by
    rw [LzGroup.bytes, List.length_cons]
    omega
  rw [LzGroup.bytes, ← List.singleton_append, holds_append] at hold
  obtain ⟨hhead, htail⟩ := hold
  have hmove : EngineMoves s (.lz z) (.lz { z with c := z.c + 1, ctrl := g.ctrl, bitsLeft := 8 }) := by
    refine ⟨?_, nofun⟩
    rw [engineStep_of_fetch_element (s := s.setWork (.lz z))
      (lzFetch_of_control (s := s.setWork (.lz z)) hgo hbits hctrl hhead (show z.c < s.srcLen.toNat by omega))]
    exact execLzctrl_of_control (s := s.setWork _) rfl hbits hctrl
  obtain ⟨ctrl, hrest⟩ := reaches_of_tokens (s := s) (z := { z with c := z.c + 1, ctrl := g.ctrl, bitsLeft := 8 }) hcount hcount hselect
    htail (hlen ▸ hc) hlegal hfit htarget
  exact ⟨ctrl, hlen ▸ .head hmove hrest⟩

/-! ## A stream -/

/-- How a stream that stands at the cursor ends, under each `TERM` (R188). -/
def StreamEnds (s : State) (z : LzWork) (groups : List LzGroup) : Prop :=
  (lzTerm s.lzCfg = 0 ∧ s.srcLen.toNat = z.c + (groups.flatMap (·.bytes)).length) ∨
  (lzTerm s.lzCfg = 1 ∧ z.c + (groups.flatMap (·.bytes)).length ≤ s.srcLen.toNat ∧
    (tokensOutput s.lzCfg z.out (groups.flatMap (·.toks))).length = s.lzTarget.toNat) ∨
  (lzTerm s.lzCfg = 2 ∧ z.bitsLeft = 0 ∧ (∀ g ∈ groups, g.toks.length = 8 ∧ g.ctrl ≠ lzEndCtrl s.lzCfg) ∧
    Holds s.src (z.c + (groups.flatMap (·.bytes)).length) [lzEndCtrl s.lzCfg] ∧
    z.c + (groups.flatMap (·.bytes)).length < s.srcLen.toNat)

theorem StreamEnds.length_le {groups : List LzGroup} (h : StreamEnds s z groups) :
    z.c + (groups.flatMap (·.bytes)).length ≤ s.srcLen.toNat := by
  obtain ⟨-, h⟩ | ⟨-, h, -⟩ | ⟨-, -, -, -, h⟩ := h <;> omega

theorem StreamEnds.length_le_target {groups : List LzGroup} (h : StreamEnds s z groups) (ht : lzTerm s.lzCfg = 1) :
    (tokensOutput s.lzCfg z.out (groups.flatMap (·.toks))).length = s.lzTarget.toNat := by
  obtain ⟨h, -⟩ | ⟨-, -, h⟩ | ⟨h, -⟩ := h
  · omega
  · exact h
  · omega

theorem StreamEnds.control {g : LzGroup} {gs : List LzGroup} (h : StreamEnds s z (g :: gs)) :
    lzTerm s.lzCfg ≠ 2 ∨ g.ctrl ≠ lzEndCtrl s.lzCfg := by
  obtain ⟨h, -⟩ | ⟨h, -⟩ | ⟨-, -, h, -⟩ := h
  · exact .inl (by omega)
  · exact .inl (by omega)
  · exact .inr (h g List.mem_cons_self).2

theorem StreamEnds.tail {g : LzGroup} {gs : List LzGroup} {ctrl : Byte} (h : StreamEnds s z (g :: gs)) :
    StreamEnds s ⟨z.c + g.bytes.length, ctrl, 8 - g.toks.length, tokensOutput s.lzCfg z.out g.toks⟩ gs := by
  simp only [StreamEnds, List.flatMap_cons, List.length_append, tokensOutput_append, ← Nat.add_assoc] at h ⊢
  obtain h | h | ⟨ht, -, hgs, hrest⟩ := h
  · exact .inl h
  · exact .inr (.inl h)
  · obtain ⟨⟨hfull, -⟩, hgs⟩ := List.forall_mem_cons.1 hgs
    exact .inr (.inr ⟨ht, by omega, hgs, hrest⟩)

theorem engineStep_of_lz_done (h : lzFetch z (s.setWork (.lz z)) = .ok (.done z.out)) :
    engineStep (s.setWork (.lz z)) = .next (s.succeeded z.out) :=
  engineStep_succeeded (s := s.setWork (.lz z)) h nofun

/-- At its end a stream ends the command. -/
theorem engineStep_of_stream_end (h : StreamEnds s z []) : engineStep (s.setWork (.lz z)) = .next (s.succeeded z.out) := by
  obtain ⟨ht, hlen⟩ | ⟨ht, -, hlen⟩ | ⟨ht, hbits, -, hold, hlen⟩ := h
  · exact engineStep_of_lz_done (lzFetch_of_input_end ht hlen.le)
  · exact engineStep_of_lz_done (lzFetch_of_target_reached ht hlen)
  · rw [engineStep_of_fetch_element (s := s.setWork (.lz z)) (lzFetch_of_marker (s := s.setWork (.lz z)) ht hbits hlen hold)]
    exact exec_lzend_of_marker (s := s.setWork (.lz z)) rfl hbits ht

/-- A token stream is decompressed up to its end. -/
theorem reaches_end_of_stream {groups : List LzGroup} (hbits : groups ≠ [] → z.bitsLeft = 0) (hg : ∀ g ∈ groups, g.Selects)
    (hfull : ∀ g ∈ groups.dropLast, g.toks.length = 8) (hlegal : legalTokens s.lzCfg z.out (groups.flatMap (·.toks)))
    (hfit : (tokensOutput s.lzCfg z.out (groups.flatMap (·.toks))).length ≤ s.limit)
    (hold : Holds s.src z.c (groups.flatMap (·.bytes))) (hends : StreamEnds s z groups) :
    ∃ z', Reaches s (.lz z) (.lz z') ∧
      engineStep (s.setWork (.lz z')) = .next (s.succeeded (tokensOutput s.lzCfg z.out (groups.flatMap (·.toks)))) := by
  induction groups generalizing z with
  | nil => exact ⟨z, .refl, engineStep_of_stream_end hends⟩
  | cons g gs ih =>
    have hgrow := length_le_tokensOutput hlegal
    by_cases hdone : lzTerm s.lzCfg = 1 ∧ z.out.length = s.lzTarget.toNat
    · obtain ⟨ht, hout⟩ := hdone
      have hnone : (g :: gs).flatMap (·.toks) = [] := List.eq_nil_of_length_eq_zero (by
        have := hends.length_le_target ht
        omega)
      rw [hnone]
      exact ⟨z, .refl, engineStep_of_lz_done (lzFetch_of_target_reached ht hout)⟩
    · obtain ⟨hgSelects, hgs⟩ := List.forall_mem_cons.1 hg
      have hlen := hends.length_le
      rw [List.flatMap_cons, legalTokens_append] at hlegal
      obtain ⟨hlegalHead, hlegalTail⟩ := hlegal
      have hgrowTail := length_le_tokensOutput hlegalTail
      have htarget := hends.length_le_target
      rw [List.flatMap_cons, holds_append] at hold
      obtain ⟨hhead, htail⟩ := hold
      rw [List.flatMap_cons, tokensOutput_append] at hfit htarget ⊢
      rw [List.flatMap_cons, List.length_append] at hlen
      obtain ⟨ctrl, hreach⟩ := reaches_of_group (fun h => not_and.1 hdone h) (hbits nofun) hends.control hgSelects hhead (by omega)
        hlegalHead (by omega) fun h => by have := htarget h; omega
      have hnext (hne : gs ≠ []) : 8 - g.toks.length = 0 := by
        rw [hfull g (by rw [List.dropLast_cons_of_ne_nil hne]; exact List.mem_cons_self)]
      have hfullTail (g' : LzGroup) (hg' : g' ∈ gs.dropLast) : g'.toks.length = 8 := hfull g' (by
        rw [List.dropLast_cons_of_ne_nil (List.ne_nil_of_mem (List.mem_of_mem_dropLast hg'))]
        exact List.mem_cons_of_mem g hg')
      obtain ⟨z', hrest, hend⟩ := ih hnext hgs hfullTail hlegalTail hfit htail (hends.tail (ctrl := ctrl))
      exact ⟨z', hreach.trans hrest, hend⟩

/-- Settles O49: group by group, until the stream ends as its `TERM` says. -/
theorem lzdecDecompressesATokenStream : Obligations.LzdecDecompressesATokenStream := by
  unfold Obligations.LzdecDecompressesATokenStream
  rintro s groups out more hlegalCfg hg hfull hlegal rfl hfit hold hcap hterm
  have hends : StreamEnds s .start groups := by
    simp only [StreamEnds, LzWork.start, Nat.zero_add]
    obtain h | ⟨ht, hlen, hout⟩ | ⟨ht, hgs, hmarker, hlen⟩ := hterm
    · exact .inl h
    · exact .inr (.inl ⟨ht, by omega, hout⟩)
    · exact .inr (.inr ⟨ht, trivial, hgs, hmarker, by omega⟩)
  obtain ⟨z', hreach, hend⟩ := reaches_end_of_stream (z := .start) (fun _ => rfl) hg hfull hlegal hfit hold hends
  exact exec_of_reaches (i := .lzdec) rfl (lzChecks_of_legal_grammar (s := s.setWork _) hlegalCfg hcap) hreach hend rfl

end Sys2Proof.Machine
end

section
/-! SUPPORT. What a stream element can do to any state, whether or not its engine has read it, and the frame that follows (R76, R255,
R256). -/

namespace Sys2Proof.Machine

variable {s t : State}

/-! ## Stops -/

/-- A stop the spec allows: an error the block produces (R251), or a byte below the stated length that the host has not written
(R68). -/
def State.Legit (s : State) : Stop → Prop
  | .raise e _ => e.code ∈ producedCodes
  | .fault (.unwrittenByte b a) => a < s.streamLen b ∧ (s.buffer b).read a = none
  | .fault .notTerminated => False

theorem State.Legit.ne_notTerminated {st : Stop} (h : s.Legit st) : st ≠ .fault .notTerminated := by
  rintro rfl
  exact h

theorem legit_of_readByte {b : Buffer} {a : Nat} {st : Stop} (h : s.readByte b a = .error st) (ha : a < s.streamLen b) :
    s.Legit st := by
  obtain ⟨hnone, rfl⟩ := readByte_eq_error.1 h
  exact ⟨ha, hnone⟩

theorem legit_of_readBytes {b : Buffer} {a n : Nat} {st : Stop} (h : s.readBytes b a n = .error st) (ha : a + n ≤ s.streamLen b) :
    s.Legit st := by
  obtain ⟨k, hk, hnone, rfl⟩ := readBytes_eq_error h
  exact ⟨by omega, hnone⟩

theorem legit_of_failIf {bad : Prop} [Decidable bad] {e : Err} {pos : Nat} {st : Stop} (h : failIf bad e pos = .error st)
    (he : e.code ∈ producedCodes) : s.Legit st := by
  obtain ⟨-, rfl⟩ := failIf_eq_error.1 h
  exact he

/-! ## The ways an element can act -/

/-- The ways in which a stream element can act: the engine goes on, the command ends with an output (`BRRBLK` has changed the
working state before that) or at a stop, or the element has no meaning here. -/
inductive Acts (s : State) : Result → Prop where
  | go (w : Work) (hne : w ≠ .idle) : Acts s (.next (s.setWork w))
  | finish (out : List Byte) : Acts s (.next (s.commit out))
  | finishBrr {b : BrrWork} (hw : s.work = .brr b) (b' : BrrWork) : Acts s (.next ((s.setWork (.brr b')).commit b'.out))
  | stop (st : Stop) (h : s.Legit st) : Acts s (s.stop st)
  | refused (r : Refusal) : Acts s (.refused r)

theorem Acts.raise (s : State) {e : Err} (pos : Nat) (he : e.code ∈ producedCodes) : Acts s (s.stop (.raise e pos)) :=
  .stop _ he

theorem Acts.ite {c : Prop} [Decidable c] {r r' : Result} (h : c → Acts s r) (h' : ¬c → Acts s r') : Acts s (if c then r else r') := by
  split
  · exact h ‹_›
  · exact h' ‹_›

/-- An element that has a meaning only where a condition holds. -/
theorem Acts.guarded {c : Prop} [Decidable c] {r : Result} {ref : Refusal} (h : c → Acts s r) :
    Acts s (if c then r else .refused ref) :=
  .ite h fun _ => .refused ref

theorem Acts.continueWith {r : Except Stop Work} (hstop : ∀ st, r = .error st → s.Legit st) (hgo : ∀ w, r = .ok w → w ≠ .idle) :
    Acts s (s.continueWith r) := by
  cases r with
  | ok w => exact .go w (hgo w rfl)
  | error st => exact .stop st (hstop st rfl)

theorem packedTile_acts (d : Depth) (planes : List Byte) (s : State) : Acts s (packedTile d planes s) := by
  unfold packedTile
  cases s.work with
  | tdec t => exact .guarded fun _ => .go _ nofun
  | tasm a => exact .guarded fun _ => .go _ nofun
  | _ => exact .refused _

theorem execUtile_acts (pixels : List Byte) (s : State) : Acts s (execUtile pixels s) := by
  unfold execUtile
  cases s.work with
  | tenc t =>
    refine .guarded fun _ => ?_
    cases firstOutOfRange t.depth pixels 0 with
    | some k => exact .raise s _ (by decide)
    | none => exact .go _ nofun
  | _ => exact .refused _

theorem execImage_acts (pixels : List Byte) (s : State) : Acts s (execImage pixels s) := by
  unfold execImage
  cases s.work with
  | tasm a => exact .guarded fun _ => .finish _
  | _ => exact .refused _

theorem execFlip_acts (fh fv : Bool) (s : State) : Acts s (execFlip fh fv s) := by
  unfold execFlip
  cases s.work with
  | tasm a => exact .guarded fun _ => .go _ nofun
  | _ => exact .refused _

theorem execColor15_acts (x : Bool) (b g r : BitVec 5) (s : State) : Acts s (execColor15 x b g r s) := by
  unfold execColor15
  cases s.work with
  | cexp k => exact .go _ nofun
  | _ => exact .refused _

theorem execRgb24_acts (r g b : Byte) (s : State) : Acts s (execRgb24 r g b s) := by
  unfold execRgb24
  cases s.work with
  | cpack k => exact .go _ nofun
  | _ => exact .refused _

theorem execBrrblk_acts (shift : BitVec 4) (filter : BitVec 2) (loop fin : Bool) (nibbles : List (BitVec 4)) (s : State) :
    Acts s (execBrrblk shift filter loop fin nibbles s) := by
  unfold execBrrblk
  cases hw : s.work with
  | brr b =>
    refine .guarded fun _ => .ite (fun _ => .raise s _ (by decide)) fun _ => ?_
    cases fin with
    | true => exact .finishBrr hw _
    | false => exact .go _ nofun
  | _ => exact .refused _

theorem execPcm16_acts (sample : Sample) (s : State) : Acts s (execPcm16 sample s) := by
  unfold execPcm16
  cases s.work with
  | brr b => exact .go _ nofun
  | _ => exact .refused _

theorem execLzctrl_acts (ctrl : Byte) (s : State) : Acts s (execLzctrl ctrl s) := by
  unfold execLzctrl
  cases s.work with
  | lz z => exact .guarded fun _ => .go _ nofun
  | _ => exact .refused _

theorem execLzend_acts (marker : Byte) (s : State) : Acts s (execLzend marker s) := by
  unfold execLzend
  cases s.work with
  | lz z => exact .guarded fun _ => .finish _
  | _ => exact .refused _

theorem execLzlit_acts (data : Byte) (s : State) : Acts s (execLzlit data s) := by
  unfold execLzlit
  cases s.work with
  | lz z => exact .guarded fun _ => .ite (fun _ => .raise s _ (by decide)) fun _ => .go _ nofun
  | _ => exact .refused _

theorem legit_of_lzMatchChecks {length dist : Nat} {z : LzWork} {st : Stop} (h : lzMatchChecks length dist z s = .error st) :
    s.Legit st := by
  simp only [lzMatchChecks, bind_eq_error] at h
  obtain h | ⟨-, -, h | ⟨-, -, h | ⟨-, -, h⟩⟩⟩ := h <;> exact legit_of_failIf h (by decide)

theorem execLzmatch_acts (b0 b1 : Byte) (s : State) : Acts s (execLzmatch b0 b1 s) := by
  unfold execLzmatch
  cases s.work with
  | lz z =>
    refine .guarded fun _ => ?_
    cases hc : lzMatchChecks (lzLength s.lzCfg b0 b1) (lzDist s.lzCfg b0 b1) z s with
    | error st => exact .stop st (legit_of_lzMatchChecks hc)
    | ok _ => exact .go _ nofun
  | _ => exact .refused _

theorem execIpsmagic_acts (s : State) : Acts s (execIpsmagic s) := by
  unfold execIpsmagic
  cases s.work with
  | ips p =>
    refine .guarded fun _ => .ite (fun _ => .raise s _ (by decide)) fun _ => ?_
    cases hread : s.readBytes .src 0 s.srcLen.toNat with
    | error st => exact .stop st (legit_of_readBytes hread (Nat.zero_add _).le)
    | ok bytes => exact .go _ nofun
  | _ => exact .refused _

theorem ipsRecord_acts (offset : Nat) (data : List Byte) (len : Nat) (s : State) : Acts s (ipsRecord offset data len s) := by
  unfold ipsRecord
  cases s.work with
  | ips p => exact .guarded fun _ => .ite (fun _ => .raise s _ (by decide)) fun _ => .go _ nofun
  | _ => exact .refused _

theorem execIpseof_acts (s : State) : Acts s (execIpseof s) := by
  unfold execIpseof
  cases s.work with
  | ips p => exact .guarded fun _ => .finish _
  | _ => exact .refused _

theorem execUpsmagic_acts (s : State) : Acts s (execUpsmagic s) := by
  unfold execUpsmagic
  cases s.work with
  | ups u => exact .guarded fun _ => .ite (fun _ => .raise s _ (by decide)) fun _ => .go _ nofun
  | _ => exact .refused _

theorem legit_of_upsStart {sourceSize target : Nat} {u : UpsWork} {st : Stop} (h : upsStart sourceSize target u s = .error st) :
    s.Legit st := by
  simp only [upsStart, bind_eq_error] at h
  obtain h | ⟨-, -, h | ⟨-, -, h | ⟨bytes, -, h⟩⟩⟩ := h
  · exact legit_of_failIf h (by decide)
  · exact legit_of_failIf h (by decide)
  · exact legit_of_readBytes h ((Nat.zero_add _).trans_le (min_le_left _ _))
  · cases h

theorem execVlv_acts (digits : List (BitVec 7)) (s : State) : Acts s (execVlv digits s) := by
  unfold execVlv
  cases s.work with
  | ups u =>
    refine .guarded fun _ => ?_
    cases u.phase with
    | sourceSize => exact .go _ nofun
    | targetSize sourceSize =>
      refine .continueWith (fun st hs => legit_of_upsStart hs) fun w hs => ?_
      obtain ⟨out, rfl⟩ := upsStart_eq_ok hs
      nofun
    | magic | runs => exact .refused _
  | _ => exact .refused _

theorem execUpsrun_acts (rel : List (BitVec 7)) (xors : List Byte) (s : State) : Acts s (execUpsrun rel xors s) := by
  unfold execUpsrun
  cases s.work with
  | ups u => exact .guarded fun _ => .go _ nofun
  | _ => exact .refused _

theorem bodyEnd_le (s : State) : s.bodyEnd ≤ s.auxLen.toNat := Nat.sub_le _ _

theorem legit_of_upsVerify {srcCrc tgtCrc patchCrc : Word} {u : UpsWork} {st : Stop}
    (h : upsVerify srcCrc tgtCrc patchCrc u s = .error st) : s.Legit st := by
  simp only [upsVerify, bind_eq_error] at h
  obtain h | ⟨source, -, h | ⟨-, -, h | ⟨-, -, h | ⟨body, -, h⟩⟩⟩⟩ := h
  · exact legit_of_readBytes h (Nat.zero_add _).le
  · exact legit_of_failIf h (by decide)
  · exact legit_of_failIf h (by decide)
  · exact legit_of_readBytes h ((Nat.zero_add _).trans_le (bodyEnd_le s))
  · exact legit_of_failIf h (by decide)

theorem execUpstrailer_acts (srcCrc tgtCrc patchCrc : Word) (s : State) : Acts s (execUpstrailer srcCrc tgtCrc patchCrc s) := by
  unfold execUpstrailer
  cases s.work with
  | ups u =>
    refine .guarded fun _ => ?_
    cases hv : upsVerify srcCrc tgtCrc patchCrc u s with
    | error st => exact .stop st (legit_of_upsVerify hv)
    | ok _ => exact .finish _
  | _ => exact .refused _

/-- Every stream element acts in one of the ways, on every state. -/
theorem execElement_acts (i : Instr) (s : State) : Acts s (execElement i s) := by
  cases i with
  | tile2 planes => exact packedTile_acts .two planes s
  | tile4 planes => exact packedTile_acts .four planes s
  | utile pixels => exact execUtile_acts pixels s
  | image pixels => exact execImage_acts pixels s
  | flip fh fv => exact execFlip_acts fh fv s
  | color15 x b g r => exact execColor15_acts x b g r s
  | rgb24 r g b => exact execRgb24_acts r g b s
  | brrblk shift filter loop fin nibbles => exact execBrrblk_acts shift filter loop fin nibbles s
  | pcm16 sample => exact execPcm16_acts sample s
  | lzctrl ctrl => exact execLzctrl_acts ctrl s
  | lzlit data => exact execLzlit_acts data s
  | lzmatch b0 b1 => exact execLzmatch_acts b0 b1 s
  | lzend marker => exact execLzend_acts marker s
  | ipsmagic => exact execIpsmagic_acts s
  | ipsrec offset data => exact .guarded fun _ => ipsRecord_acts _ _ _ s
  | ipsrle offset runSize value => exact .guarded fun _ => ipsRecord_acts _ _ _ s
  | ipseof => exact execIpseof_acts s
  | upsmagic => exact execUpsmagic_acts s
  | vlv digits => exact execVlv_acts digits s
  | upsrun rel xors => exact execUpsrun_acts rel xors s
  | upstrailer srcCrc tgtCrc patchCrc => exact execUpstrailer_acts srcCrc tgtCrc patchCrc s
  | _ => exact .refused _

/-! ## An idle block has no meaning for an element -/

theorem execElement_of_idle (i : Instr) (hw : s.work = .idle) : execElement i s = .refused .notSelected := by
  cases i with
  | ipsrec offset data => simp only [execElement, execIpsrec, ipsRecord, hw, ite_self]
  | ipsrle offset runSize value => simp only [execElement, execIpsrle, ipsRecord, hw, ite_self]
  | _ =>
    simp only [execElement, execTile2, execTile4, packedTile, execUtile, execImage, execFlip, execColor15, execRgb24, execBrrblk, execPcm16,
      execLzctrl, execLzlit, execLzmatch, execLzend, execIpsmagic, execIpseof, execUpsmagic, execVlv, execUpsrun, execUpstrailer, hw]

/-! ## The frame -/

/-- What an element leaves when it has a meaning: the engine goes on, or its command has ended. -/
theorem Acts.next_cases (h : Acts s (.next t)) :
    (∃ w, w ≠ .idle ∧ t = s.setWork w) ∨ (∃ out, t = s.commit out) ∨
      (∃ b b' : BrrWork, s.work = .brr b ∧ t = (s.setWork (.brr b')).commit b'.out) ∨
      (∃ e pos, Err.code e ∈ producedCodes ∧ t = s.raise e pos) := by
  generalize hr : (Host.Outcome.next t : Result) = r at h
  cases h with
  | go w hne => cases hr; exact .inl ⟨w, hne, rfl⟩
  | finish out => cases hr; exact .inr (.inl ⟨out, rfl⟩)
  | finishBrr hw b' => cases hr; exact .inr (.inr (.inl ⟨_, b', hw, rfl⟩))
  | stop st hst =>
    obtain ⟨e, pos, rfl, rfl⟩ := stop_eq_next.1 hr.symm
    exact .inr (.inr (.inr ⟨e, pos, hst, rfl⟩))
  | refused r => cases hr

theorem Acts.onlyResultsDiffer (h : Acts s (.next t)) : OnlyResultsDiffer s t := by
  obtain ⟨w, -, rfl⟩ | ⟨out, rfl⟩ | ⟨-, b', -, rfl⟩ | ⟨e, pos, -, rfl⟩ := h.next_cases
  · exact onlyResultsDiffer_setWork s w
  · exact onlyResultsDiffer_commit s out
  · exact (onlyResultsDiffer_setWork s (.brr b')).trans (onlyResultsDiffer_commit _ b'.out)
  · exact onlyResultsDiffer_raise s e pos

theorem onlyResultsDiffer_of_exec {i : Instr} (h : exec i s = .next t) : OnlyResultsDiffer s t := by
  cases hi : i.isCommand with
  | true => exact (idle_and_onlyResultsDiffer_of_exec hi h).2
  | false =>
    rw [exec_eq_execElement hi] at h
    exact (h ▸ execElement_acts i s).onlyResultsDiffer

/-- Settles O12: no instruction writes more than the results and the working state. -/
theorem noInstructionWritesSrcOrAux : Obligations.NoInstructionWritesSrcOrAux := by
  unfold Obligations.NoInstructionWritesSrcOrAux
  intro i s t h
  rw [onlyResultsDiffer_of_exec h]
  exact ⟨rfl, rfl, rfl, rfl, rfl, rfl, rfl, rfl, rfl, rfl, rfl, rfl⟩

theorem loopAfterError_of_not_brr (h : ∀ b, s.work ≠ .brr b) : s.loopAfterError = s.brrLoop := by
  unfold State.loopAfterError
  split
  · exact absurd ‹_› (h _)
  · rfl

/-- Settles O13: from the ways in which an element can act. -/
theorem elementChangesOnlyTheWorkingStateOrEndsTheCommand : Obligations.ElementChangesOnlyTheWorkingStateOrEndsTheCommand := by
  unfold Obligations.ElementChangesOnlyTheWorkingStateOrEndsTheCommand
  intro i s t hi h
  rw [exec_eq_execElement hi] at h
  have hacts : Acts s (.next t) := h ▸ execElement_acts i s
  refine ⟨fun hidle => ?_, ?_⟩
  · rw [execElement_of_idle i hidle] at h
    cases h
  obtain ⟨w, hne, rfl⟩ | ⟨out, rfl⟩ | ⟨b, b', hw, rfl⟩ | ⟨e, pos, -, rfl⟩ := hacts.next_cases
  · exact ⟨.inl ⟨rfl, hne⟩, fun _ => rfl⟩
  · exact ⟨.inr (.inl ⟨out, s.commit_eq_withLoop out⟩), loopAfterSuccess_of_not_brr⟩
  · exact ⟨.inr (.inl ⟨b'.out, rfl⟩), fun hb => absurd hw (hb b)⟩
  · exact ⟨.inr (.inr ⟨e, pos, s.raise_eq_withLoop e pos⟩), loopAfterError_of_not_brr⟩

end Sys2Proof.Machine
end

section
/-! SUPPORT. What a running engine can find: an element that stands at its cursor inside the stated length, the end of its command, or
a stop (R21, R78, R90, R119). -/

namespace Sys2Proof.Machine

variable {s : State} {i : Instr}

/-! ## An element in a stream -/

/-- A well-formed stream element stands, as the encoder writes it, at an offset of a buffer. -/
structure Found (s : State) (b : Buffer) (a : Nat) (i : Instr) : Prop where
  notCommand : i.isCommand = false
  wellFormed : i.wellFormed = true
  bytes_ne : streamBytes i ≠ []
  holds : Holds (s.buffer b) a (streamBytes i)

theorem streamBytes_of_encode {kind : Element} {bytes : List Byte} (h : encode i = .stream kind bytes) : streamBytes i = bytes := by
  rw [streamBytes, h]

theorem isCommand_of_encode {kind : Element} {bytes : List Byte} (h : encode i = .stream kind bytes) : i.isCommand = false := by
  cases i with
  | tdec2 | tdec4 | tenc2 | tenc4 | tasm2 | tasm4 => cases h
  | cexp | cpack | brrdec | lzdec | ipsapply | upsapply | illegal => cases h
  | _ => rfl

theorem found_of_decode {kind : Element} {bytes : List Byte} {b : Buffer} {a : Nat} (h : decodeElement kind bytes = .ok i)
    (hne : bytes ≠ []) (hold : Holds (s.buffer b) a bytes) : encode i = .stream kind bytes ∧ Found s b a i := by
  obtain ⟨hcode, hwf⟩ := encode_of_decodeElement h
  have hbytes := streamBytes_of_encode hcode
  exact ⟨hcode, isCommand_of_encode hcode, hwf, hbytes ▸ hne, hbytes ▸ hold⟩

/-- The element that a packed tile of a depth is. -/
def Depth.tile : Depth → List Byte → Instr
  | .two, planes => .tile2 planes
  | .four, planes => .tile4 planes

theorem Depth.execElement_tile (d : Depth) (planes : List Byte) (s : State) :
    execElement (d.tile planes) s = packedTile d planes s := by
  cases d <;> rfl

theorem Depth.streamBytes_tile (d : Depth) (planes : List Byte) : streamBytes (d.tile planes) = planes := by
  cases d <;> rfl

/-! ## What can be found -/

/-- The element that a running engine selects, and what its fetch has established. The image of an assembly is produced, not read. -/
inductive Selected (s : State) : Instr → Prop where
  | tile {t : TileWork} {planes : List Byte} (hw : s.work = .tdec t) (hlen : planes.length = t.depth.tileBytes)
      (hc : t.c + t.depth.tileBytes ≤ s.srcLen.toNat) (hf : Found s .src t.c (t.depth.tile planes)) : Selected s (t.depth.tile planes)
  | utile {t : TileWork} {pixels : List Byte} (hw : s.work = .tenc t) (hlen : pixels.length = 64) (hc : t.c + 64 ≤ s.srcLen.toNat)
      (hf : Found s .src t.c (.utile pixels)) : Selected s (.utile pixels)
  | flip {a : AsmWork} {fh fv : Bool} (hw : s.work = .tasm a) (hn : a.flips.length < a.w * a.ht)
      (hf : Found s .aux a.flips.length (.flip fh fv)) : Selected s (.flip fh fv)
  | placed {a : AsmWork} {planes : List Byte} (hw : s.work = .tasm a) (hlen : planes.length = a.depth.tileBytes)
      (hn : a.w * a.ht ≤ a.flips.length) (ht : a.tiles.length < a.w * a.ht)
      (hf : Found s .src (a.depth.tileBytes * a.tiles.length) (a.depth.tile planes)) : Selected s (a.depth.tile planes)
  | image {a : AsmWork} (hw : s.work = .tasm a) (hn : a.w * a.ht ≤ a.flips.length) (ht : a.w * a.ht ≤ a.tiles.length) :
      Selected s (.image (assemble a.w a.ht a.tiles))
  | color15 {k : ColorWork} {x : Bool} {b g r : BitVec 5} (hw : s.work = .cexp k) (hc : k.c + 2 ≤ s.srcLen.toNat)
      (hf : Found s .src k.c (.color15 x b g r)) : Selected s (.color15 x b g r)
  | rgb24 {k : ColorWork} {r g b : Byte} (hw : s.work = .cpack k) (hc : k.c + 3 ≤ s.srcLen.toNat)
      (hf : Found s .src k.c (.rgb24 r g b)) : Selected s (.rgb24 r g b)
  | brrblk {b : BrrWork} {k : BrrBlock} {fin : Bool} (hw : s.work = .brr b) (hlen : k.nibbles.length = 16)
      (hc : b.c + 9 ≤ s.srcLen.toNat) (hfit : 2 * (b.out.length / 2 + 16) ≤ s.limit)
      (hf : Found s .src b.c (.brrblk k.shift k.filter k.loop fin k.nibbles)) :
      Selected s (.brrblk k.shift k.filter k.loop fin k.nibbles)
  | lzctrl {z : LzWork} {x : Byte} (hw : s.work = .lz z) (hbits : z.bitsLeft = 0)
      (hx : lzTerm s.lzCfg ≠ 2 ∨ x ≠ lzEndCtrl s.lzCfg) (hc : z.c < s.srcLen.toNat)
      (hf : Found s .src z.c (.lzctrl x)) : Selected s (.lzctrl x)
  | lzend {z : LzWork} (hw : s.work = .lz z) (hbits : z.bitsLeft = 0) (ht : lzTerm s.lzCfg = 2) (hc : z.c < s.srcLen.toNat)
      (hf : Found s .src z.c (.lzend (lzEndCtrl s.lzCfg))) : Selected s (.lzend (lzEndCtrl s.lzCfg))
  | lzlit {z : LzWork} {x : Byte} (hw : s.work = .lz z) (hgo : lzTerm s.lzCfg = 1 → z.out.length ≠ s.lzTarget.toNat)
      (hbits : z.bitsLeft ≠ 0) (hctrl : z.ctrl.getLsbD 7 = false) (hc : z.c < s.srcLen.toNat) (hfit : z.out.length + 1 ≤ s.limit)
      (hf : Found s .src z.c (.lzlit x)) : Selected s (.lzlit x)
  | lzmatch {z : LzWork} {b0 b1 : Byte} (hw : s.work = .lz z) (hbits : z.bitsLeft ≠ 0) (hctrl : z.ctrl.getLsbD 7 = true)
      (hc : z.c + 2 ≤ s.srcLen.toNat) (hf : Found s .src z.c (.lzmatch b0 b1)) : Selected s (.lzmatch b0 b1)
  | ipsmagic {p : IpsWork} (hw : s.work = .ips p) (hp : p.phase = .magic) (hc : 5 ≤ s.auxLen.toNat) (hf : Found s .aux 0 .ipsmagic) :
      Selected s .ipsmagic
  | record {p : IpsWork} {i : Instr} {e : Nat} (hw : s.work = .ips p) (hp : p.phase = .records) (he : recordEnd i = some e)
      (hc : p.c + (streamBytes i).length ≤ s.auxLen.toNat) (hf : Found s .aux p.c i) : Selected s i
  | ipseof {p : IpsWork} (hw : s.work = .ips p) (hp : p.phase = .records) (hc : p.c + 3 ≤ s.auxLen.toNat)
      (hf : Found s .aux p.c .ipseof) : Selected s .ipseof
  | upsmagic {u : UpsWork} (hw : s.work = .ups u) (hp : u.phase = .magic) (hc : 4 ≤ s.auxLen.toNat) (hf : Found s .aux 0 .upsmagic) :
      Selected s .upsmagic
  | size {u : UpsWork} {ds : List (BitVec 7)} (hw : s.work = .ups u) (hp : u.phase = .sourceSize ∨ ∃ n, u.phase = .targetSize n)
      (hds : ds ≠ []) (hc : u.c + ds.length ≤ s.bodyEnd) (hf : Found s .aux u.c (.vlv ds)) : Selected s (.vlv ds)
  | upsrun {u : UpsWork} {rel : List (BitVec 7)} {xors : List Byte} (hw : s.work = .ups u) (hp : u.phase = .runs) (hrel : rel ≠ [])
      (hx : ∀ x ∈ xors, x ≠ 0#8) (hc : u.c + (streamBytes (.upsrun rel xors)).length ≤ s.bodyEnd)
      (hf : Found s .aux u.c (.upsrun rel xors)) : Selected s (.upsrun rel xors)
  | upstrailer {u : UpsWork} {srcCrc tgtCrc patchCrc : Word} (hw : s.work = .ups u) (hp : u.phase = .runs) (hc : s.bodyEnd ≤ u.c)
      (hf : Found s .aux s.bodyEnd (.upstrailer srcCrc tgtCrc patchCrc)) : Selected s (.upstrailer srcCrc tgtCrc patchCrc)

/-- The output with which a running engine can end its command where no element is left. -/
inductive Complete (s : State) : List Byte → Prop where
  | tdec {t : TileWork} (hw : s.work = .tdec t) : Complete s t.out
  | tenc {t : TileWork} (hw : s.work = .tenc t) : Complete s t.out
  | cexp {k : ColorWork} (hw : s.work = .cexp k) : Complete s k.out
  | cpack {k : ColorWork} (hw : s.work = .cpack k) : Complete s k.out
  | lz {z : LzWork} (hw : s.work = .lz z) : Complete s z.out

/-- What a running engine can find. Where it stops at a byte, the byte is below the stated length as long as the engine is as the
invariant says. -/
inductive Finds (s : State) : Except Stop Fetched → Prop where
  | stop (st : Stop) (hterm : st ≠ .fault .notTerminated) (h : s.WorkInv → s.Legit st) : Finds s (.error st)
  | done (out : List Byte) (h : Complete s out) : Finds s (.ok (.done out))
  | element (i : Instr) (h : Selected s i) : Finds s (.ok (.element i))

/-! ## The steps of a fetch -/

theorem Finds.raise (s : State) {e : Err} (pos : Nat) (he : e.code ∈ producedCodes) : Finds s (.error (.raise e pos)) :=
  .stop _ nofun fun _ => he

theorem Finds.ite {c : Prop} [Decidable c] {r r' : Except Stop Fetched} (h : c → Finds s r) (h' : ¬c → Finds s r') :
    Finds s (if c then r else r') := by
  split
  · exact h ‹_›
  · exact h' ‹_›

theorem Finds.check {bad : Prop} [Decidable bad] {e : Err} {pos : Nat} {f : Unit → Except Stop Fetched} (he : e.code ∈ producedCodes)
    (h : ¬bad → Finds s (f ())) : Finds s (failIf bad e pos >>= f) := by
  by_cases hbad : bad
  · rw [failIf_pos hbad]
    exact .raise s pos he
  · rw [failIf_neg hbad]
    exact h hbad

theorem Finds.readByte {b : Buffer} {a : Nat} {f : Byte → Except Stop Fetched} (ha : s.WorkInv → a < s.streamLen b)
    (h : ∀ v, Holds (s.buffer b) a [v] → Finds s (f v)) : Finds s (s.readByte b a >>= f) := by
  cases hread : s.readByte b a with
  | error st =>
    obtain ⟨-, rfl⟩ := readByte_eq_error.1 hread
    exact .stop _ nofun fun hinv => legit_of_readByte hread (ha hinv)
  | ok v => exact h v (holds_cons.2 ⟨readByte_eq_ok.1 hread, nofun⟩)

theorem Finds.readBytes {b : Buffer} {a n : Nat} {f : List Byte → Except Stop Fetched} (ha : s.WorkInv → a + n ≤ s.streamLen b)
    (h : ∀ bytes, bytes.length = n → Holds (s.buffer b) a bytes → Finds s (f bytes)) : Finds s (s.readBytes b a n >>= f) := by
  cases hread : s.readBytes b a n with
  | error st =>
    obtain ⟨k, -, -, rfl⟩ := readBytes_eq_error hread
    exact .stop _ nofun fun hinv => legit_of_readBytes hread (ha hinv)
  | ok bytes => exact h bytes (readBytes_length hread) (holds_of_readBytes hread)

theorem Finds.fetchAs {kind : Element} {bytes : List Byte} {e : Err} {pos : Nat} {b : Buffer} {a : Nat} (he : e.code ∈ producedCodes)
    (hne : bytes ≠ []) (hold : Holds (s.buffer b) a bytes)
    (h : ∀ i, encode i = .stream kind bytes → Found s b a i → Selected s i) : Finds s (fetchAs kind bytes e pos) := by
  unfold Machine.fetchAs
  cases hd : decodeElement kind bytes with
  | ok i =>
    obtain ⟨hcode, hf⟩ := found_of_decode hd hne hold
    exact .element i (h i hcode hf)
  | error _ => exact .raise s pos he

/-! ## Tiles and colours -/

theorem eq_tile_of_encode {d : Depth} {bytes : List Byte} (h : encode i = .stream d.tileKind bytes) : i = d.tile bytes := by
  cases d with
  | two =>
    cases i with
    | tile2 planes => cases h; rfl
    | _ => cases h
  | four =>
    cases i with
    | tile4 planes => cases h; rfl
    | _ => cases h

theorem tdecFetch_finds {t : TileWork} (hw : s.work = .tdec t) : Finds s (tdecFetch t s) := by
  refine .ite (fun _ => .done _ (.tdec hw)) fun _ => .check (by decide) fun hleft => ?_
  have hpos := t.depth.tileBytes_pos
  refine .readBytes (fun _ => show _ ≤ s.srcLen.toNat by omega) fun planes hlen hold =>
    .fetchAs (by decide) (List.ne_nil_of_length_pos (by omega)) hold fun i hcode hf => ?_
  obtain rfl := eq_tile_of_encode hcode
  exact .tile hw hlen (by omega) hf

theorem tencFetch_finds {t : TileWork} (hw : s.work = .tenc t) : Finds s (tencFetch t s) := by
  refine .ite (fun _ => .done _ (.tenc hw)) fun _ => .check (by decide) fun hleft =>
    .readBytes (fun _ => show _ ≤ s.srcLen.toNat by omega) fun pixels hlen hold =>
    .fetchAs (by decide) (List.ne_nil_of_length_pos (by omega)) hold fun i hcode hf => ?_
  cases i with
  | utile px => cases hcode; exact .utile hw hlen (by omega) hf
  | _ => cases hcode

theorem cexpFetch_finds {k : ColorWork} (hw : s.work = .cexp k) : Finds s (cexpFetch k s) := by
  refine .ite (fun _ => .done _ (.cexp hw)) fun _ => .check (by decide) fun hleft =>
    .readBytes (fun _ => show _ ≤ s.srcLen.toNat by omega) fun bytes hlen hold =>
    .fetchAs (by decide) (List.ne_nil_of_length_pos (by omega)) hold fun i hcode hf => ?_
  cases i with
  | color15 x b g r => exact .color15 hw (by omega) hf
  | _ => cases hcode

theorem cpackFetch_finds {k : ColorWork} (hw : s.work = .cpack k) : Finds s (cpackFetch k s) := by
  refine .ite (fun _ => .done _ (.cpack hw)) fun _ => .check (by decide) fun hleft =>
    .readBytes (fun _ => show _ ≤ s.srcLen.toNat by omega) fun bytes hlen hold =>
    .fetchAs (by decide) (List.ne_nil_of_length_pos (by omega)) hold fun i hcode hf => ?_
  cases i with
  | rgb24 r g b => exact .rgb24 hw (by omega) hf
  | _ => cases hcode

/-! ## The assembly -/

/-- The invariant of an assembly engine. -/
theorem State.WorkInv.of_tasm {a : AsmWork} (h : s.WorkInv) (hw : s.work = .tasm a) :
    s.srcLen.toNat ≤ s.cfg.srcCap ∧ s.auxLen.toNat ≤ s.cfg.auxCap ∧ s.srcLen.toNat = a.depth.tileBytes * (a.w * a.ht) ∧
      s.auxLen.toNat = a.w * a.ht ∧ 64 * (a.w * a.ht) ≤ s.limit ∧ a.flips.length ≤ a.w * a.ht ∧ a.tiles.length ≤ a.w * a.ht ∧
      (a.tiles ≠ [] → a.flips.length = a.w * a.ht) ∧ (∀ t ∈ a.tiles, t.length = 64) := by
  rwa [State.WorkInv, hw] at h

/-- The tile that an assembly reads next lies inside the sheet. -/
theorem State.WorkInv.placed_tile_le {a : AsmWork} (h : s.WorkInv) (hw : s.work = .tasm a) (ht : a.tiles.length < a.w * a.ht) :
    a.depth.tileBytes * a.tiles.length + a.depth.tileBytes ≤ s.srcLen.toNat := by
  obtain ⟨-, -, hsrc, -⟩ := h.of_tasm hw
  rw [hsrc, ← Nat.mul_succ]
  exact Nat.mul_le_mul_left _ ht

theorem tasmFetch_finds {a : AsmWork} (hw : s.work = .tasm a) : Finds s (tasmFetch a s) := by
  refine .ite (fun hn => ?_) fun hn => .ite (fun ht => ?_) fun ht => .element _ (.image hw (not_lt.1 hn) (not_lt.1 ht))
  · refine .readByte (fun hinv => ?_) fun b hold => .fetchAs (by decide) nofun hold fun i hcode hf => ?_
    · obtain ⟨-, -, -, haux, -⟩ := hinv.of_tasm hw
      exact hn.trans_eq haux.symm
    · cases i with
      | flip fh fv => exact .flip hw hn hf
      | _ => cases hcode
  · have hpos := a.depth.tileBytes_pos
    refine .readBytes (fun hinv => hinv.placed_tile_le hw ht) fun planes hlen hold =>
      .fetchAs (by decide) (List.ne_nil_of_length_pos (by omega)) hold fun i hcode hf => ?_
    obtain rfl := eq_tile_of_encode hcode
    exact .placed hw hlen (not_lt.1 hn) ht hf

/-! ## Blocks and tokens -/

theorem brrFetch_finds {b : BrrWork} (hw : s.work = .brr b) : Finds s (brrFetch b s) := by
  refine .check (by decide) fun hleft => .check (by decide) fun hnine => .readByte (fun _ => show _ < s.srcLen.toNat by omega)
    fun hdr hhdr => .check (by decide) fun hfit => .readBytes (fun _ => show _ ≤ s.srcLen.toNat by omega)
    fun data hlen hdata => .fetchAs (by decide) nofun (holds_append.2 ⟨hhdr, hdata⟩) fun i hcode hf => ?_
  cases i with
  | brrblk shift filter loop fin nibbles =>
    have hwf := hf.wellFormed
    simp only [Instr.wellFormed, beq_iff_eq] at hwf
    exact .brrblk (k := ⟨shift, filter, loop, nibbles⟩) hw hwf (by omega) (not_lt.1 hfit) hf
  | _ => cases hcode

theorem lzInputEnd_finds {z : LzWork} (hw : s.work = .lz z) : Finds s (lzInputEnd z s) :=
  .ite (fun _ => .done _ (.lz hw)) fun _ => .raise s _ (by decide)

theorem lzFetch_finds {z : LzWork} (hw : s.work = .lz z) : Finds s (lzFetch z s) := by
  refine .ite (fun _ => .done _ (.lz hw)) fun hgo => .ite (fun hbits => ?_) fun hbits => .ite (fun hctrl => ?_) fun hctrl => ?_
  · refine .ite (fun _ => lzInputEnd_finds hw) fun hc => .readByte (fun _ => show _ < s.srcLen.toNat by omega) fun x hold =>
      .ite (fun hend => .fetchAs (by decide) nofun hold fun i hcode hf => ?_)
        fun hend => .fetchAs (by decide) nofun hold fun i hcode hf => ?_
    · obtain ⟨ht, rfl⟩ := hend
      cases i with
      | lzend marker => cases hcode; exact .lzend hw hbits ht (not_le.1 hc) hf
      | _ => cases hcode
    · cases i with
      | lzctrl ctrl => cases hcode; exact .lzctrl hw hbits (not_and_or.1 hend) (not_le.1 hc) hf
      | _ => cases hcode
  · refine .ite (fun _ => lzInputEnd_finds hw) fun hc => .check (by decide) fun hfit =>
      .readByte (fun _ => show _ < s.srcLen.toNat by omega) fun x hold => .fetchAs (by decide) nofun hold fun i hcode hf => ?_
    cases i with
    | lzlit data => exact .lzlit hw (not_and.1 hgo) hbits hctrl (not_le.1 hc) (not_lt.1 hfit) hf
    | _ => cases hcode
  · refine .ite (fun _ => lzInputEnd_finds hw) fun hc => .check (by decide) fun hfit =>
      .readBytes (fun _ => show _ ≤ s.srcLen.toNat by omega) fun bytes hlen hold =>
      .fetchAs (by decide) (List.ne_nil_of_length_pos (by omega)) hold fun i hcode hf => ?_
    cases i with
    | lzmatch b0 b1 => exact .lzmatch hw hbits (by simpa using hctrl) (by omega) hf
    | _ => cases hcode

/-! ## Patches -/

theorem ipsFetchRecord_finds {p : IpsWork} {offsetBytes : List Byte} (hw : s.work = .ips p) (hp : p.phase = .records)
    (hlen : offsetBytes.length = 3) (hold : Holds s.aux p.c offsetBytes) : Finds s (ipsFetchRecord p.c offsetBytes s) := by
  refine .check (by decide) fun hfive => .readBytes (fun _ => show _ ≤ s.auxLen.toNat by omega) fun sizeBytes hsizeLen hsize => ?_
  have hhead : Holds s.aux p.c (offsetBytes ++ sizeBytes) := holds_append.2 ⟨hold, by rwa [hlen]⟩
  have hheadLen : (offsetBytes ++ sizeBytes).length = 5 := by rw [List.length_append, hlen, hsizeLen]
  have hne : offsetBytes ++ sizeBytes ≠ [] := List.ne_nil_of_length_pos (by omega)
  refine .ite (fun _ => .check (by decide) fun hleft => .check (by decide) fun _ =>
      .readBytes (fun _ => show _ ≤ s.auxLen.toNat by omega) fun data hdataLen hdata =>
      .fetchAs (b := .aux) (by decide) (List.append_ne_nil_of_left_ne_nil hne _) (holds_append.2 ⟨hhead, by rwa [hheadLen]⟩)
        fun i hcode hf => ?_)
    fun _ => .check (by decide) fun hleft => .readBytes (fun _ => show _ ≤ s.auxLen.toNat by omega) fun rest hrestLen hrest =>
      .fetchAs (b := .aux) (by decide) (by simp [← List.length_pos_iff, hlen]) (holds_append.2 ⟨hhead, by rwa [hheadLen]⟩) fun i hcode hf => ?_
  · have hbytes := congrArg List.length (streamBytes_of_encode hcode)
    rw [List.length_append, hheadLen, hdataLen] at hbytes
    cases i with
    | ipsrec offset data => exact .record hw hp rfl (by omega) hf
    | _ => cases hcode
  · have hbytes := congrArg List.length (streamBytes_of_encode hcode)
    rw [List.length_append, hheadLen, hrestLen] at hbytes
    cases i with
    | ipsrle offset runSize value => exact .record hw hp rfl (by omega) hf
    | _ => cases hcode

theorem ipsFetch_finds {p : IpsWork} (hw : s.work = .ips p) : Finds s (ipsFetch p s) := by
  unfold ipsFetch
  split
  case h_1 hp =>
    refine .check (by decide) fun hleft => .readBytes (fun _ => show _ ≤ s.auxLen.toNat by omega) fun bytes hlen hold =>
      .fetchAs (by decide) (List.ne_nil_of_length_pos (by omega)) hold fun i hcode hf => ?_
    cases i with
    | ipsmagic => exact .ipsmagic hw hp (by omega) hf
    | _ => cases hcode
  case h_2 hp =>
    refine .check (by decide) fun hleft => .readBytes (fun _ => show _ ≤ s.auxLen.toNat by omega) fun bytes hlen hold =>
      .ite (fun heof => .fetchAs (by decide) (List.ne_nil_of_length_pos (by omega)) hold fun i hcode hf => ?_)
        fun _ => ipsFetchRecord_finds hw hp hlen hold
    cases i with
    | ipseof => exact .ipseof hw hp (by omega) hf
    | _ => cases hcode

/-- The read of a VLV in the body: its bytes, or a stop inside the body. -/
theorem Finds.readVlv {a n : Nat} {f : List Byte → Except Stop Fetched} (ha : a + n ≤ s.auxLen.toNat ∨ n = 0)
    (h : ∀ bytes, bytes ≠ [] → bytes.length ≤ n → Holds s.aux a bytes → Finds s (f bytes)) :
    Finds s (Machine.readVlv s a n >>= f) := by
  induction n generalizing a f with
  | zero => exact .raise s a (by decide)
  | succ n ih =>
    rw [Machine.readVlv, bind_assoc]
    refine .readByte (fun _ => show _ < s.auxLen.toNat by omega) fun b hold => ?_
    split
    · exact h [b] nofun (by simp) hold
    · rw [bind_assoc]
      exact ih (by omega) fun rest _ hlen hrest => h (b :: rest) nofun (Nat.succ_le_succ hlen) (holds_append.2 ⟨hold, hrest⟩)

/-- The read of XOR bytes in the body. -/
theorem Finds.readXors {a n : Nat} {f : List Byte → Except Stop Fetched} (ha : a + n ≤ s.auxLen.toNat ∨ n = 0)
    (h : ∀ bytes, bytes.length ≤ n → Holds s.aux a bytes → Finds s (f bytes)) : Finds s (Machine.readXors s a n >>= f) := by
  induction n generalizing a f with
  | zero => exact .raise s a (by decide)
  | succ n ih =>
    rw [Machine.readXors, bind_assoc]
    refine .readByte (fun _ => show _ < s.auxLen.toNat by omega) fun b hold => ?_
    split
    · exact h [b] (by simp) hold
    · rw [bind_assoc]
      exact ih (by omega) fun rest hlen hrest => h (b :: rest) (Nat.succ_le_succ hlen) (holds_append.2 ⟨hold, hrest⟩)

theorem upsFetch_size_finds {u : UpsWork} (hw : s.work = .ups u) (hp : u.phase = .sourceSize ∨ ∃ n, u.phase = .targetSize n) :
    Finds s (readVlv s u.c (s.bodyEnd - u.c) >>= fun bytes => fetchAs .vlv bytes .unexpectedEof u.c) := by
  have hend := bodyEnd_le s
  refine .readVlv (by omega) fun bytes hne hlen hold => .fetchAs (b := .aux) (by decide) hne hold fun i hcode hf => ?_
  have hpos := List.length_pos_of_ne_nil hne
  cases i with
  | vlv ds =>
    cases hcode
    rw [length_encodeVlv] at hlen hpos
    exact .size hw hp (List.ne_nil_of_length_pos hpos) (by omega) hf
  | _ => cases hcode

theorem upsFetch_finds {u : UpsWork} (hw : s.work = .ups u) : Finds s (upsFetch u s) := by
  have hend := bodyEnd_le s
  cases hp : u.phase with
  | magic =>
    simp only [upsFetch, hp]
    refine .check (by decide) fun hleft => .readBytes (fun _ => show _ ≤ s.auxLen.toNat by omega) fun bytes hlen hold =>
      .fetchAs (by decide) (List.ne_nil_of_length_pos (by omega)) hold fun i hcode hf => ?_
    cases i with
    | upsmagic => exact .upsmagic hw hp (by omega) hf
    | _ => cases hcode
  | sourceSize =>
    simp only [upsFetch, hp]
    exact upsFetch_size_finds hw (.inl hp)
  | targetSize n =>
    simp only [upsFetch, hp]
    exact upsFetch_size_finds hw (.inr ⟨n, hp⟩)
  | runs =>
    simp only [upsFetch, hp]
    refine .ite (fun hc => ?_) fun hc => ?_
    · refine .readVlv (by omega) fun rel hne hlen hrel => .readXors (by omega) fun xors hxlen hxors =>
        .fetchAs (b := .aux) (by decide) (by simp [hne]) (holds_append.2 ⟨hrel, hxors⟩) fun i hcode hf => ?_
      have hbytes := congrArg List.length (streamBytes_of_encode hcode)
      rw [List.length_append] at hbytes
      cases i with
      | upsrun rel' xors' =>
        have hwf := hf.wellFormed
        simp only [Instr.wellFormed, Bool.and_eq_true, bne_iff_ne, List.all_eq_true] at hwf
        exact .upsrun hw hp (by simpa using hwf.1) (by simpa using hwf.2) (by omega) hf
      | _ => cases hcode
    · refine .readBytes (fun hinv => ?_) fun bytes hlen hold =>
        .fetchAs (by decide) (List.ne_nil_of_length_pos (by omega)) hold fun i hcode hf => ?_
      · rw [State.WorkInv, hw] at hinv
        obtain ⟨-, -, -, -, -, -, -, hbody⟩ := hinv
        obtain ⟨hlen, -⟩ := hbody (by simp [hp])
        show s.auxLen.toNat - 12 + 12 ≤ s.auxLen.toNat
        omega
      · cases i with
        | upstrailer srcCrc tgtCrc patchCrc => exact .upstrailer hw hp (not_lt.1 hc) hf
        | _ => cases hcode

/-- What any running engine can find. -/
theorem engineFetch_finds (h : s.work ≠ .idle) : Finds s (engineFetch s) := by
  unfold engineFetch
  cases hw : s.work with
  | idle => exact absurd hw h
  | tdec t => exact tdecFetch_finds hw
  | tenc t => exact tencFetch_finds hw
  | tasm a => exact tasmFetch_finds hw
  | cexp k => exact cexpFetch_finds hw
  | cpack k => exact cpackFetch_finds hw
  | brr b => exact brrFetch_finds hw
  | lz z => exact lzFetch_finds hw
  | ips p => exact ipsFetch_finds hw
  | ups u => exact upsFetch_finds hw

theorem selected_of_fetch (hw : s.work ≠ .idle) (h : engineFetch s = .ok (.element i)) : Selected s i := by
  have hfinds := engineFetch_finds hw
  rw [h] at hfinds
  cases hfinds with
  | element _ hsel => exact hsel

/-! ## Where the element stands (R21, R78, R90) -/

/-- A well-formed element stands at the cursor of the running engine, inside the stated length. -/
def AtCursor (s : State) (i : Instr) : Prop :=
  i.isCommand = false ∧ i.wellFormed = true ∧ streamBytes i ≠ [] ∧
    Holds (s.buffer s.work.cursor.1) s.work.cursor.2 (streamBytes i) ∧
    s.work.cursor.2 + (streamBytes i).length ≤ s.streamLen s.work.cursor.1

theorem atCursor_of_found {b : Buffer} {a : Nat} (hcursor : s.work.cursor = (b, a)) (hf : Found s b a i)
    (hlen : a + (streamBytes i).length ≤ s.streamLen b) : AtCursor s i := by
  rw [AtCursor, hcursor]
  exact ⟨hf.notCommand, hf.wellFormed, hf.bytes_ne, hf.holds, hlen⟩

/-- The invariant of a UPS engine. -/
theorem State.WorkInv.of_ups {u : UpsWork} (h : s.WorkInv) (hw : s.work = .ups u) :
    s.srcLen.toNat ≤ s.cfg.srcCap ∧ s.auxLen.toNat ≤ s.cfg.auxCap ∧ u.out.length ≤ s.limit ∧
      u.srcAcc = 0xFFFFFFFF#32 ∧ u.tgtAcc = 0xFFFFFFFF#32 ∧ u.patchAcc = 0xFFFFFFFF#32 ∧
      (u.phase = .magic → u.c = 0) ∧ (u.phase ≠ .magic → 16 ≤ s.auxLen.toNat ∧ 4 ≤ u.c ∧ u.c ≤ s.bodyEnd) := by
  rwa [State.WorkInv, hw] at h

/-- What the engine selects is the image, which it produces, or stands at its cursor. -/
theorem atCursor_of_selected (hinv : s.WorkInv) (h : Selected s i) :
    (∃ a, s.work = .tasm a ∧ i = .image (assemble a.w a.ht a.tiles)) ∨ AtCursor s i := by
  have hbody := bodyEnd_le s
  cases h with
  | image hw => exact .inl ⟨_, hw, rfl⟩
  | tile hw hlen hc hf => exact .inr (atCursor_of_found (by rw [hw]; rfl) hf (by rwa [Depth.streamBytes_tile, hlen]))
  | utile hw hlen hc hf => exact .inr (atCursor_of_found (by rw [hw]; rfl) hf (hlen ▸ hc))
  | flip hw hn hf =>
    obtain ⟨-, -, -, haux, -⟩ := hinv.of_tasm hw
    exact .inr (atCursor_of_found (by rw [hw]; exact if_pos hn) hf (Nat.succ_le_of_lt (hn.trans_eq haux.symm)))
  | placed hw hlen hn ht hf =>
    refine .inr (atCursor_of_found (by rw [hw]; exact if_neg (not_lt.2 hn)) hf ?_)
    rw [Depth.streamBytes_tile, hlen]
    exact hinv.placed_tile_le hw ht
  | color15 hw hc hf | rgb24 hw hc hf | lzctrl hw _ _ hc hf | lzend hw _ _ hc hf | lzlit hw _ _ _ hc _ hf | lzmatch hw _ _ hc hf =>
    exact .inr (atCursor_of_found (by rw [hw]; rfl) hf hc)
  | brrblk hw hlen hc hfit hf =>
    exact .inr (atCursor_of_found (by rw [hw]; rfl) hf ((congrArg (_ + ·) (length_bytes_brrBlock hlen _)).trans_le hc))
  | ipsmagic hw hp hc hf =>
    rw [State.WorkInv, hw] at hinv
    obtain ⟨-, -, -, -, hzero, -⟩ := hinv
    exact .inr (atCursor_of_found (by rw [hw, Work.cursor, hzero hp]) hf hc)
  | record hw hp he hc hf => exact .inr (atCursor_of_found (by rw [hw]; rfl) hf hc)
  | ipseof hw hp hc hf => exact .inr (atCursor_of_found (by rw [hw]; rfl) hf hc)
  | upsmagic hw hp hc hf =>
    obtain ⟨-, -, -, -, -, -, hzero, -⟩ := hinv.of_ups hw
    exact .inr (atCursor_of_found (by rw [hw, Work.cursor, hzero hp]) hf hc)
  | size hw hp hds hc hf =>
    refine .inr (atCursor_of_found (by rw [hw]; rfl) hf ?_)
    exact (congrArg (_ + ·) (length_encodeVlv _)).trans_le (hc.trans hbody)
  | upsrun hw hp hrel hx hc hf => exact .inr (atCursor_of_found (by rw [hw]; rfl) hf (hc.trans hbody))
  | upstrailer hw hp hc hf =>
    obtain ⟨-, -, -, -, -, -, -, hruns⟩ := hinv.of_ups hw
    obtain ⟨hlen, -, hle⟩ := hruns (by simp [hp])
    refine .inr (atCursor_of_found (by rw [hw, Work.cursor, le_antisymm hle hc]) hf ?_)
    show s.auxLen.toNat - 12 + 12 ≤ s.auxLen.toNat
    omega

/-- Settles O7: by what an engine can find. -/
theorem fetchedElementStandsAtTheCursor : Obligations.FetchedElementStandsAtTheCursor := by
  unfold Obligations.FetchedElementStandsAtTheCursor
  intro s i hinv hw hf
  exact atCursor_of_selected hinv (selected_of_fetch hw hf)

end Sys2Proof.Machine
end

section
/-! SUPPORT. One step of a running engine keeps the invariant of its working state (R21, R27, R78, R160, R180, R200, R220): engine by
engine, element by element. -/

namespace Sys2Proof.Machine

variable {s : State} {i : Instr}

/-! ## The relation -/

/-- The working state is the one of `BRRDEC`, the only command that writes `BRR_LOOP` (R31). -/
def Work.isBrr : Work → Bool
  | .brr _ => true
  | _ => false

/-- What a step of a running engine can be: the engine goes on inside its invariant, or the command ends with an output inside the
limit, or it stops as the spec allows. -/
inductive Keeps (s : State) : Result → Prop where
  | go (w : Work) (hne : w ≠ .idle) (hbrr : w.isBrr = s.work.isBrr) (hinv : s.WorkInv → (s.setWork w).WorkInv) :
      Keeps s (.next (s.setWork w))
  | finish (out : List Byte) (hbrr : s.work.isBrr = false) (hout : s.WorkInv → out.length ≤ s.limit) : Keeps s (.next (s.commit out))
  | finishBrr (b : BrrWork) (hbrr : s.work.isBrr = true) (hinv : s.WorkInv → (s.setWork (.brr b)).WorkInv) :
      Keeps s (.next ((s.setWork (.brr b)).commit b.out))
  | stop (st : Stop) (hterm : st ≠ .fault .notTerminated) (h : s.WorkInv → s.Legit st) : Keeps s (s.stop st)

theorem Keeps.raise (s : State) {e : Err} (pos : Nat) (he : e.code ∈ producedCodes) : Keeps s (s.stop (.raise e pos)) :=
  .stop _ nofun fun _ => he

theorem Keeps.legit {st : Stop} (h : s.Legit st) : Keeps s (s.stop st) :=
  .stop st h.ne_notTerminated fun _ => h

/-! ## Tiles and colours -/

theorem length_tileBytes (m : Matrix) : (tileBytes m).length = 64 := by
  rw [tileBytes, List.length_map, List.length_range]

/-- A cursor at an element boundary moves to the next one, and the output by the product of one element. -/
theorem boundary_step {c size k len : Nat} (hsize : 0 < size) (hc : c % size = 0) (hlen : len = k * (c / size)) :
    (c + size) % size = 0 ∧ len + k = k * ((c + size) / size) := by
  rw [Nat.add_mod_right, Nat.add_div_right c hsize, Nat.mul_succ, hlen]
  exact ⟨hc, rfl⟩

theorem tile_keeps {t : TileWork} {planes : List Byte} (hw : s.work = .tdec t) (hlen : planes.length = t.depth.tileBytes)
    (hc : t.c + t.depth.tileBytes ≤ s.srcLen.toNat) : Keeps s (packedTile t.depth planes s) := by
  rw [packedTile_of_tdec hw rfl hlen]
  refine .go _ nofun (by rw [hw]; rfl) fun hinv => ?_
  rw [State.WorkInv, hw] at hinv
  obtain ⟨hcap, -, hsrc, hmod, hout, hfit⟩ := hinv
  obtain ⟨hmod', hout'⟩ := boundary_step t.depth.tileBytes_pos hmod hout
  exact ⟨hcap, hc, hsrc, hmod', by rw [List.length_append, length_tileBytes, hout'], hfit⟩

theorem utile_keeps {t : TileWork} {pixels : List Byte} (hw : s.work = .tenc t) (hlen : pixels.length = 64)
    (hc : t.c + 64 ≤ s.srcLen.toNat) : Keeps s (execUtile pixels s) := by
  simp only [execUtile, hw, if_pos hlen]
  cases firstOutOfRange t.depth pixels 0 with
  | some k => exact .raise s _ (by decide)
  | none =>
    refine .go _ nofun (by rw [hw]; rfl) fun hinv => ?_
    rw [State.WorkInv, hw] at hinv
    obtain ⟨hcap, -, hsrc, hmod, hout, hfit⟩ := hinv
    obtain ⟨hmod', hout'⟩ := boundary_step (by decide) hmod hout
    exact ⟨hcap, hc, hsrc, hmod', by rw [List.length_append, length_pack, hout'], hfit⟩

theorem color15_keeps {k : ColorWork} (hw : s.work = .cexp k) (hc : k.c + 2 ≤ s.srcLen.toNat) (x : Bool) (b g r : BitVec 5) :
    Keeps s (execColor15 x b g r s) := by
  rw [execColor15_of_cexp hw]
  refine .go _ nofun (by rw [hw]; rfl) fun hinv => ?_
  rw [State.WorkInv, hw] at hinv
  obtain ⟨hcap, -, hsrc, hmod, hout, hfit⟩ := hinv
  obtain ⟨hmod', hout'⟩ := boundary_step (by decide) hmod hout
  exact ⟨hcap, hc, hsrc, hmod', by rw [List.length_append, ← hout']; rfl, hfit⟩

theorem rgb24_keeps {k : ColorWork} (hw : s.work = .cpack k) (hc : k.c + 3 ≤ s.srcLen.toNat) (r g b : Byte) :
    Keeps s (execRgb24 r g b s) := by
  rw [execRgb24_of_cpack hw]
  refine .go _ nofun (by rw [hw]; rfl) fun hinv => ?_
  rw [State.WorkInv, hw] at hinv
  obtain ⟨hcap, -, hsrc, hmod, hout, hfit⟩ := hinv
  obtain ⟨hmod', hout'⟩ := boundary_step (by decide) hmod hout
  exact ⟨hcap, hc, hsrc, hmod', by rw [List.length_append, ← hout']; rfl, hfit⟩

/-! ## The assembly -/

section
variable {a : AsmWork} (hw : s.work = .tasm a)
include hw

theorem flip_keeps (hn : a.flips.length < a.w * a.ht) (fh fv : Bool) : Keeps s (execFlip fh fv s) := by
  rw [execFlip_of_missing hw hn (fh, fv)]
  refine .go _ nofun (by rw [hw]; rfl) fun hinv => ?_
  obtain ⟨hsrcCap, hauxCap, hsrc, haux, hfit, -, htiles, hfull, hall⟩ := hinv.of_tasm hw
  refine ⟨hsrcCap, hauxCap, hsrc, haux, hfit, ?_, htiles, fun hne => absurd (hfull hne) hn.ne, hall⟩
  rw [List.length_append]
  exact hn

theorem placed_keeps {planes : List Byte} (hlen : planes.length = a.depth.tileBytes) (hn : a.w * a.ht ≤ a.flips.length)
    (ht : a.tiles.length < a.w * a.ht) : Keeps s (packedTile a.depth planes s) := by
  simp only [packedTile, hw, hlen, hn, ht, and_self, if_true]
  refine .go _ nofun (by rw [hw]; rfl) fun hinv => ?_
  obtain ⟨hsrcCap, hauxCap, hsrc, haux, hfit, hflips, -, -, hall⟩ := hinv.of_tasm hw
  refine ⟨hsrcCap, hauxCap, hsrc, haux, hfit, hflips, ?_, fun _ => le_antisymm hflips hn, fun tb htb => ?_⟩
  · rw [List.length_append]
    exact ht
  · rcases List.mem_append.1 htb with hold | hnew
    · exact hall tb hold
    · rw [List.mem_singleton.1 hnew, length_tileBytes]

theorem image_keeps (hn : a.w * a.ht ≤ a.flips.length) (ht : a.w * a.ht ≤ a.tiles.length) :
    Keeps s (execImage (assemble a.w a.ht a.tiles) s) := by
  simp only [execImage, hw, hn, ht, and_self, if_true]
  refine .finish _ (by rw [hw]; rfl) fun hinv => ?_
  obtain ⟨-, -, -, -, hfit, -⟩ := hinv.of_tasm hw
  rwa [length_assemble]

end

/-! ## Blocks -/

/-- A block whose samples fit keeps the invariant of the BRR engine. -/
theorem workInv_run {b : BrrWork} {k : BrrBlock} (hw : s.work = .brr b) (hlen : k.nibbles.length = 16) (hc : b.c + 9 ≤ s.srcLen.toNat)
    (hfit : 2 * (b.out.length / 2 + 16) ≤ s.limit) (hinv : s.WorkInv) : (s.setWork (.brr (BrrBlock.run b k))).WorkInv := by
  rw [State.WorkInv, hw] at hinv
  obtain ⟨hcap, -, hmod, hout, hlim, hpoint, hblock, hvalid⟩ := hinv
  have hrun := length_run b k
  have hrunPoint : (BrrBlock.run b k).loopPoint = if k.loop then b.out.length / 2 else b.loopPoint := rfl
  obtain ⟨hmod', hout'⟩ := boundary_step (by decide) hmod hout
  refine ⟨hcap, hc, hmod', (hrun.trans (by rw [hlen])).trans hout', show (BrrBlock.run b k).out.length ≤ s.limit by omega,
    ?_, ?_, fun hv => ?_⟩
  · rw [hrun, hrunPoint]
    split <;> omega
  · rw [hrunPoint]
    split <;> omega
  · obtain ⟨hvb, hloop⟩ := Bool.or_eq_false_iff.1 hv
    exact (if_neg (by simp [hloop])).trans (hvalid hvb)

theorem brrblk_keeps {b : BrrWork} {k : BrrBlock} (hw : s.work = .brr b) (hlen : k.nibbles.length = 16)
    (hc : b.c + 9 ≤ s.srcLen.toNat) (hfit : 2 * (b.out.length / 2 + 16) ≤ s.limit) (fin : Bool) :
    Keeps s (execBrrblk k.shift k.filter k.loop fin k.nibbles s) := by
  rw [execBrrblk_of_fits hw hlen hfit]
  cases fin with
  | true => exact .finishBrr _ (by rw [hw]; rfl) (workInv_run hw hlen hc hfit)
  | false => exact .go _ nofun (by rw [hw]; rfl) (workInv_run hw hlen hc hfit)

/-! ## Tokens -/

section
variable {z : LzWork} (hw : s.work = .lz z)
include hw

/-- The invariant of an LZ engine. -/
theorem State.WorkInv.of_lz (h : s.WorkInv) :
    s.srcLen.toNat ≤ s.cfg.srcCap ∧ z.c ≤ s.srcLen.toNat ∧ lzLegal s.lzCfg = true ∧ z.bitsLeft ≤ 8 ∧
      z.out.length ≤ s.limit ∧ (lzTerm s.lzCfg = 1 → z.out.length ≤ s.lzTarget.toNat) := by
  rwa [State.WorkInv, hw] at h

theorem lzctrl_keeps {x : Byte} (hbits : z.bitsLeft = 0) (hx : lzTerm s.lzCfg ≠ 2 ∨ x ≠ lzEndCtrl s.lzCfg)
    (hc : z.c < s.srcLen.toNat) : Keeps s (execLzctrl x s) := by
  rw [execLzctrl_of_control hw hbits hx]
  refine .go _ nofun (by rw [hw]; rfl) fun hinv => ?_
  obtain ⟨hcap, -, hlegal, -, hfit, htarget⟩ := hinv.of_lz hw
  exact ⟨hcap, hc, hlegal, le_rfl, hfit, htarget⟩

theorem lzend_keeps (hbits : z.bitsLeft = 0) (ht : lzTerm s.lzCfg = 2) : Keeps s (execLzend (lzEndCtrl s.lzCfg) s) := by
  simp only [execLzend, hw, hbits, ht, and_self, if_true]
  refine .finish _ (by rw [hw]; rfl) fun hinv => ?_
  obtain ⟨-, -, -, -, hfit, -⟩ := hinv.of_lz hw
  exact hfit

theorem lzlit_keeps {x : Byte} (hgo : lzTerm s.lzCfg = 1 → z.out.length ≠ s.lzTarget.toNat) (hbits : z.bitsLeft ≠ 0)
    (hctrl : z.ctrl.getLsbD 7 = false) (hc : z.c < s.srcLen.toNat) (hfit : z.out.length + 1 ≤ s.limit) :
    Keeps s (execLzlit x s) := by
  rw [execLzlit_of_fits hw hbits hctrl hfit]
  refine .go _ nofun (by rw [hw]; rfl) fun hinv => ?_
  obtain ⟨hcap, -, hlegal, hleft, -, htarget⟩ := hinv.of_lz hw
  refine ⟨hcap, hc, hlegal, (Nat.sub_le _ _).trans hleft, ?_, fun h => ?_⟩
  · rw [List.length_append]
    exact hfit
  · rw [List.length_append]
    exact lt_of_le_of_ne (htarget h) (hgo h)

theorem lzmatch_keeps {b0 b1 : Byte} (hbits : z.bitsLeft ≠ 0) (hctrl : z.ctrl.getLsbD 7 = true) (hc : z.c + 2 ≤ s.srcLen.toNat) :
    Keeps s (execLzmatch b0 b1 s) := by
  cases hchecks : lzMatchChecks (lzLength s.lzCfg b0 b1) (lzDist s.lzCfg b0 b1) z s with
  | error st =>
    simp only [execLzmatch, hw, if_pos (And.intro hbits hctrl), hchecks]
    exact .legit (legit_of_lzMatchChecks hchecks)
  | ok _ =>
    rw [execLzmatch_of_checks hw hbits hctrl hchecks]
    refine .go _ nofun (by rw [hw]; rfl) fun hinv => ?_
    obtain ⟨hcap, -, hlegal, hleft, -, -⟩ := hinv.of_lz hw
    simp only [lzMatchChecks, bind_eq_ok, failIf_eq_ok] at hchecks
    obtain ⟨-, -, -, -, -, hfit, htarget⟩ := hchecks
    refine ⟨hcap, hc, hlegal, (Nat.sub_le _ _).trans hleft, ?_, fun h => ?_⟩
    · rw [length_lzCopy]
      exact not_lt.1 hfit
    · rw [length_lzCopy]
      exact not_lt.1 (not_and.1 htarget h)

end

/-! ## IPS patches -/

section
variable {p : IpsWork} (hw : s.work = .ips p)
include hw

/-- The invariant of an IPS engine. -/
theorem State.WorkInv.of_ips (h : s.WorkInv) :
    s.srcLen.toNat ≤ s.cfg.srcCap ∧ s.auxLen.toNat ≤ s.cfg.auxCap ∧ p.c ≤ s.auxLen.toNat ∧ p.out.length ≤ s.limit ∧
      (p.phase = .magic → p.c = 0) ∧ (p.phase = .records → 5 ≤ p.c ∧ s.srcLen.toNat ≤ p.out.length) := by
  rwa [State.WorkInv, hw] at h

theorem ipsmagic_keeps (hp : p.phase = .magic) (hc : 5 ≤ s.auxLen.toNat) : Keeps s (execIpsmagic s) := by
  simp only [execIpsmagic, hw, if_pos hp]
  split
  case isTrue => exact .raise s _ (by decide)
  case isFalse hfit =>
    cases hread : s.readBytes .src 0 s.srcLen.toNat with
    | error st => exact .legit (legit_of_readBytes hread (Nat.zero_add _).le)
    | ok bytes =>
      have hlen := readBytes_length hread
      refine .go _ nofun (by rw [hw]; rfl) fun hinv => ?_
      obtain ⟨hsrcCap, hauxCap, -, -, -, -⟩ := hinv.of_ips hw
      exact ⟨hsrcCap, hauxCap, hc, hlen.trans_le (not_lt.1 hfit), nofun, fun _ => ⟨le_rfl, hlen.ge⟩⟩

theorem record_keeps {e : Nat} (hp : p.phase = .records) (he : recordEnd i = some e)
    (hc : p.c + (streamBytes i).length ≤ s.auxLen.toNat) (hwf : i.wellFormed = true) : Keeps s (exec i s) := by
  obtain ⟨offset, data, hexec, rfl, -⟩ := exec_of_record hwf he s
  rw [hexec]
  simp only [ipsRecord, hw, if_pos hp]
  split
  case isTrue => exact .raise s _ (by decide)
  case isFalse hfit =>
    refine .go _ nofun (by rw [hw]; rfl) fun hinv => ?_
    obtain ⟨hsrcCap, hauxCap, -, hout, -, hrec⟩ := hinv.of_ips hw
    obtain ⟨hfive, hsrc⟩ := hrec hp
    have hlen := length_applyRecord p.out offset data
    refine ⟨hsrcCap, hauxCap, hc, show (applyRecord p.out offset data).length ≤ s.limit by omega, fun hmagic => ?_, fun _ =>
      ⟨show 5 ≤ p.c + _ by omega, show s.srcLen.toNat ≤ (applyRecord p.out offset data).length by omega⟩⟩
    rw [hp] at hmagic
    cases hmagic

theorem ipseof_keeps (hp : p.phase = .records) : Keeps s (execIpseof s) := by
  simp only [execIpseof, hw, if_pos hp]
  refine .finish _ (by rw [hw]; rfl) fun hinv => ?_
  obtain ⟨-, -, -, hout, -⟩ := hinv.of_ips hw
  exact hout

end

/-! ## UPS patches -/

section
variable {u : UpsWork} (hw : s.work = .ups u)
include hw

theorem upsmagic_keeps (hp : u.phase = .magic) : Keeps s (execUpsmagic s) := by
  simp only [execUpsmagic, hw, if_pos hp]
  split
  case isTrue => exact .raise s _ (by decide)
  case isFalse hlen =>
    refine .go _ nofun (by rw [hw]; rfl) fun hinv => ?_
    obtain ⟨hsrcCap, hauxCap, hout, hsrcAcc, htgtAcc, hpatchAcc, -⟩ := hinv.of_ups hw
    exact ⟨hsrcCap, hauxCap, hout, hsrcAcc, htgtAcc, hpatchAcc, nofun, fun _ =>
      ⟨not_lt.1 hlen, le_rfl, show 4 ≤ s.auxLen.toNat - 12 by omega⟩⟩

omit hw in
theorem length_initialOutput (source : List Byte) (target : Nat) : (initialOutput source target).length = target := by
  rw [initialOutput, List.length_append, List.length_take, List.length_replicate]
  omega

theorem size_keeps {ds : List (BitVec 7)} (hp : u.phase = .sourceSize ∨ ∃ n, u.phase = .targetSize n) (hds : ds ≠ [])
    (hc : u.c + ds.length ≤ s.bodyEnd) : Keeps s (execVlv ds s) := by
  obtain hp | ⟨n, hp⟩ := hp
  · rw [execVlv_of_sourceSize hw hds hp]
    refine .go _ nofun (by rw [hw]; rfl) fun hinv => ?_
    obtain ⟨hsrcCap, hauxCap, hout, hsrcAcc, htgtAcc, hpatchAcc, -, hbody⟩ := hinv.of_ups hw
    obtain ⟨hlen, hfour, -⟩ := hbody (by simp [hp])
    exact ⟨hsrcCap, hauxCap, hout, hsrcAcc, htgtAcc, hpatchAcc, nofun, fun _ => ⟨hlen, Nat.le_add_right_of_le hfour, hc⟩⟩
  · rw [execVlv_of_targetSize hw hds hp]
    cases hstart : upsStart n (vlvValue ds) { u with c := u.c + ds.length } s with
    | error st => exact .legit (legit_of_upsStart hstart)
    | ok w =>
      simp only [upsStart, bind_eq_ok, failIf_eq_ok] at hstart
      obtain ⟨-, -, -, hfit, bytes, -, hok⟩ := hstart
      cases hok
      refine .go _ nofun (by rw [hw]; rfl) fun hinv => ?_
      obtain ⟨hsrcCap, hauxCap, -, hsrcAcc, htgtAcc, hpatchAcc, -, hbody⟩ := hinv.of_ups hw
      obtain ⟨hlen, hfour, -⟩ := hbody (by simp [hp])
      exact ⟨hsrcCap, hauxCap, (length_initialOutput _ _).trans_le (not_lt.1 hfit), hsrcAcc, htgtAcc, hpatchAcc, nofun, fun _ =>
        ⟨hlen, Nat.le_add_right_of_le hfour, hc⟩⟩

theorem upsrun_keeps {rel : List (BitVec 7)} {xors : List Byte} (hp : u.phase = .runs) (hrel : rel ≠ []) (hx : ∀ x ∈ xors, x ≠ 0#8)
    (hc : u.c + (streamBytes (.upsrun rel xors)).length ≤ s.bodyEnd) : Keeps s (execUpsrun rel xors s) := by
  have hbytes : (streamBytes (.upsrun rel xors)).length = rel.length + xors.length + 1 := by
    show (encodeVlv rel ++ xors ++ [0#8]).length = _
    simp only [List.length_append, length_encodeVlv, List.length_singleton]
  rw [execUpsrun_of_runs hw hrel hx hp (by omega)]
  refine .go _ nofun (by rw [hw]; rfl) fun hinv => ?_
  obtain ⟨hsrcCap, hauxCap, hout, hsrcAcc, htgtAcc, hpatchAcc, -, hbody⟩ := hinv.of_ups hw
  obtain ⟨hlen, hfour, -⟩ := hbody (by simp [hp])
  refine ⟨hsrcCap, hauxCap, (length_xorRun _ _ _).trans_le hout, hsrcAcc, htgtAcc, hpatchAcc, fun hmagic => ?_, fun _ =>
    ⟨hlen, show 4 ≤ u.c + rel.length + xors.length + 1 by omega, show u.c + rel.length + xors.length + 1 ≤ s.bodyEnd by omega⟩⟩
  rw [hp] at hmagic
  cases hmagic

theorem upstrailer_keeps (hp : u.phase = .runs) (hc : s.bodyEnd ≤ u.c) (srcCrc tgtCrc patchCrc : Word) :
    Keeps s (execUpstrailer srcCrc tgtCrc patchCrc s) := by
  simp only [execUpstrailer, hw, if_pos (And.intro hp hc)]
  cases hv : upsVerify srcCrc tgtCrc patchCrc u s with
  | error st => exact .legit (legit_of_upsVerify hv)
  | ok _ =>
    refine .finish _ (by rw [hw]; rfl) fun hinv => ?_
    obtain ⟨-, -, hout, -⟩ := hinv.of_ups hw
    exact hout

end

/-! ## The step -/

/-- Every element that an engine selects keeps the invariant. -/
theorem Selected.keeps (h : Selected s i) : Keeps s (execElement i s) := by
  cases h with
  | tile hw hlen hc hf => rw [Depth.execElement_tile]; exact tile_keeps hw hlen hc
  | utile hw hlen hc hf => exact utile_keeps hw hlen hc
  | flip hw hn hf => exact flip_keeps hw hn _ _
  | placed hw hlen hn ht hf => rw [Depth.execElement_tile]; exact placed_keeps hw hlen hn ht
  | image hw hn ht => exact image_keeps hw hn ht
  | @color15 k x b g r hw hc hf => exact color15_keeps hw hc x b g r
  | rgb24 hw hc hf => exact rgb24_keeps hw hc _ _ _
  | brrblk hw hlen hc hfit hf => exact brrblk_keeps hw hlen hc hfit _
  | lzctrl hw hbits hx hc hf => exact lzctrl_keeps hw hbits hx hc
  | lzend hw hbits ht hc hf => exact lzend_keeps hw hbits ht
  | lzlit hw hgo hbits hctrl hc hfit hf => exact lzlit_keeps hw hgo hbits hctrl hc hfit
  | lzmatch hw hbits hctrl hc hf => exact lzmatch_keeps hw hbits hctrl hc
  | ipsmagic hw hp hc hf => exact ipsmagic_keeps hw hp hc
  | record hw hp he hc hf => exact exec_eq_execElement hf.notCommand s ▸ record_keeps hw hp he hc hf.wellFormed
  | ipseof hw hp hc hf => exact ipseof_keeps hw hp
  | upsmagic hw hp hc hf => exact upsmagic_keeps hw hp
  | size hw hp hds hc hf => exact size_keeps hw hp hds hc
  | upsrun hw hp hrel hx hc hf => exact upsrun_keeps hw hp hrel hx hc
  | upstrailer hw hp hc hf => exact upstrailer_keeps hw hp hc _ _ _

/-- Where an engine finds no element left, its output is inside the limit. -/
theorem Complete.keeps {out : List Byte} (h : Complete s out) : Keeps s (.next (s.commit out)) := by
  cases h with
  | tdec hw | tenc hw | cexp hw | cpack hw =>
    refine .finish _ (by rw [hw]; rfl) fun hinv => ?_
    rw [State.WorkInv, hw] at hinv
    obtain ⟨-, hc, -, -, hout, hfit⟩ := hinv
    exact hout.trans_le ((Nat.mul_le_mul_left _ (Nat.div_le_div_right hc)).trans hfit)
  | lz hw =>
    refine .finish _ (by rw [hw]; rfl) fun hinv => ?_
    obtain ⟨-, -, -, -, hfit, -⟩ := hinv.of_lz hw
    exact hfit

/-- One step of a running engine. -/
theorem engineStep_keeps (hw : s.work ≠ .idle) : Keeps s (engineStep s) := by
  have hfinds := engineFetch_finds hw
  unfold engineStep
  generalize engineFetch s = f at hfinds
  cases hfinds with
  | stop st hterm h => exact .stop st hterm h
  | done out h => exact h.keeps
  | element i h => exact h.keeps

end Sys2Proof.Machine
end

section
/-! SUPPORT. How a command ends: its checks pass into the invariant of its engine, and the engine runs to an output inside the limit, to
an error the block produces, or to a byte the host has not written (R255, R256, R307). -/

namespace Sys2Proof.Machine

variable {s t : State} {i : Instr} {w : Work}

/-! ## The stops of the checks -/

/-- A piece of a command that stops only as the spec allows. -/
def StopsLegit (s : State) {α : Type} (r : Except Stop α) : Prop := ∀ st, r = .error st → s.Legit st

theorem StopsLegit.failIf {bad : Prop} [Decidable bad] {e : Err} (pos : Nat) (he : e.code ∈ producedCodes) :
    StopsLegit s (Machine.failIf bad e pos) := fun _ h => legit_of_failIf h he

theorem StopsLegit.bind {α β : Type} {r : Except Stop α} {f : α → Except Stop β} (h : StopsLegit s r)
    (h' : ∀ a, StopsLegit s (f a)) : StopsLegit s (r >>= f) := fun st hst => by
  obtain hr | ⟨a, -, hf⟩ := bind_eq_error.1 hst
  · exact h st hr
  · exact h' a st hf

/-- A check in front of the rest. -/
theorem StopsLegit.check {bad : Prop} [Decidable bad] {e : Err} {pos : Nat} {f : Unit → Except Stop Unit} (he : e.code ∈ producedCodes)
    (h : StopsLegit s (f ())) : StopsLegit s (Machine.failIf bad e pos >>= f) :=
  .bind (.failIf pos he) fun _ => h

theorem scanPixels_stopsLegit (d : Depth) {a n : Nat} (h : a + n ≤ s.srcLen.toNat) : StopsLegit s (scanPixels d s a n) := by
  induction n generalizing a with
  | zero => nofun
  | succ n ih =>
    exact .bind (fun _ hread => legit_of_readByte hread (show a < s.srcLen.toNat by omega)) fun v =>
      .check (by decide) (ih (by omega))

theorem tencChecks_stopsLegit (d : Depth) (s : State) : StopsLegit s (tencChecks d s) :=
  .check (by decide) (.check (by decide) (.check (by decide) (scanPixels_stopsLegit d (Nat.zero_add _).le)))

theorem tdecChecks_stopsLegit (d : Depth) (s : State) : StopsLegit s (tdecChecks d s) :=
  .check (by decide) (.check (by decide) (.failIf _ (by decide)))

theorem tasmChecks_stopsLegit (d : Depth) (n : Nat) (s : State) : StopsLegit s (tasmChecks d n s) :=
  .check (by decide) (.check (by decide) (.check (by decide) (.check (by decide) (.check (by decide) (.failIf _ (by decide))))))

theorem startChecks_stopsLegit (i : Instr) (s : State) : StopsLegit s (startChecks i s) := by
  cases i with
  | tdec2 | tdec4 => exact tdecChecks_stopsLegit _ s
  | tenc2 | tenc4 => exact tencChecks_stopsLegit _ s
  | tasm2 | tasm4 => exact tasmChecks_stopsLegit _ _ s
  | cexp | cpack => exact .check (by decide) (.check (by decide) (.failIf _ (by decide)))
  | brrdec | ipsapply | upsapply => exact .failIf _ (by decide)
  | lzdec => exact .check (by decide) (.failIf _ (by decide))
  | _ => nofun

/-! ## The start of an engine -/

theorem workInv_of_tdecChecks {d : Depth} {h v : Bool} (hc : tdecChecks d (s.setWork (.tdec (.start d h v))) = .ok ()) :
    (s.setWork (.tdec (.start d h v))).WorkInv := by
  simp only [tdecChecks, bind_eq_ok, failIf_eq_ok] at hc
  obtain ⟨-, hcap, -, hmod, hfit⟩ := hc
  exact ⟨not_lt.1 hcap, Nat.zero_le _, not_not.1 hmod, Nat.zero_mod _, by rw [TileWork.start, Nat.zero_div]; rfl, not_lt.1 hfit⟩

theorem workInv_of_tencChecks {d : Depth} {h v : Bool} (hc : tencChecks d (s.setWork (.tenc (.start d h v))) = .ok ()) :
    (s.setWork (.tenc (.start d h v))).WorkInv := by
  simp only [tencChecks, bind_eq_ok, failIf_eq_ok] at hc
  obtain ⟨-, hcap, -, hmod, -, hfit, -⟩ := hc
  exact ⟨not_lt.1 hcap, Nat.zero_le _, not_not.1 hmod, Nat.zero_mod _, by rw [TileWork.start, Nat.zero_div]; rfl, not_lt.1 hfit⟩

theorem workInv_of_tasmChecks {d : Depth} {w ht : Byte}
    (hc : tasmChecks d (w.toNat * ht.toNat) (s.setWork (.tasm (.start d w ht))) = .ok ()) :
    (s.setWork (.tasm (.start d w ht))).WorkInv := by
  obtain ⟨hsrc, haux⟩ := lengths_of_tasmChecks hc
  simp only [tasmChecks, bind_eq_ok, failIf_eq_ok] at hc
  obtain ⟨-, hcap, -, -, -, -, -, -, -, -, hfit⟩ := hc
  obtain ⟨hsrcCap, hauxCap⟩ := not_or.1 hcap
  exact ⟨not_lt.1 hsrcCap, not_lt.1 hauxCap, hsrc, haux, not_lt.1 hfit, Nat.zero_le _, Nat.zero_le _, fun hne => absurd rfl hne, nofun⟩

theorem lengths_of_patchChecks (hc : patchChecks s = .ok ()) :
    s.srcLen.toNat ≤ s.cfg.srcCap ∧ s.auxLen.toNat ≤ s.cfg.auxCap := by
  obtain ⟨hsrc, haux⟩ := not_or.1 (failIf_eq_ok.1 hc)
  exact ⟨not_lt.1 hsrc, not_lt.1 haux⟩

theorem workInv_of_cexpChecks (hc : cexpChecks (s.setWork (.cexp .start)) = .ok ()) : (s.setWork (.cexp .start)).WorkInv := by
  simp only [cexpChecks, bind_eq_ok, failIf_eq_ok] at hc
  obtain ⟨-, hcap, -, hmod, hfit⟩ := hc
  exact ⟨not_lt.1 hcap, Nat.zero_le _, not_not.1 hmod, Nat.zero_mod _, rfl, not_lt.1 hfit⟩

theorem workInv_of_cpackChecks (hc : cpackChecks (s.setWork (.cpack .start)) = .ok ()) : (s.setWork (.cpack .start)).WorkInv := by
  simp only [cpackChecks, bind_eq_ok, failIf_eq_ok] at hc
  obtain ⟨-, hcap, -, hmod, hfit⟩ := hc
  exact ⟨not_lt.1 hcap, Nat.zero_le _, not_not.1 hmod, Nat.zero_mod _, rfl, not_lt.1 hfit⟩

theorem workInv_of_brrChecks (hc : brrChecks (s.setWork (.brr .start)) = .ok ()) : (s.setWork (.brr .start)).WorkInv := by
  simp only [brrChecks, failIf_eq_ok] at hc
  exact ⟨not_lt.1 hc, Nat.zero_le _, Nat.zero_mod _, rfl, Nat.zero_le _, le_rfl, Nat.zero_mod _, fun _ => rfl⟩

theorem workInv_of_lzChecks (hc : lzChecks (s.setWork (.lz .start)) = .ok ()) : (s.setWork (.lz .start)).WorkInv := by
  simp only [lzChecks, bind_eq_ok, failIf_eq_ok, Bool.not_eq_false] at hc
  obtain ⟨-, hcap, hlegal⟩ := hc
  exact ⟨not_lt.1 hcap, Nat.zero_le _, hlegal, Nat.zero_le _, Nat.zero_le _, fun _ => Nat.zero_le _⟩

theorem workInv_of_ipsChecks (hc : patchChecks (s.setWork (.ips .start)) = .ok ()) : (s.setWork (.ips .start)).WorkInv := by
  obtain ⟨hsrc, haux⟩ := lengths_of_patchChecks hc
  exact ⟨hsrc, haux, Nat.zero_le _, Nat.zero_le _, fun _ => rfl, nofun⟩

theorem workInv_of_upsChecks (hc : patchChecks (s.setWork (.ups .start)) = .ok ()) : (s.setWork (.ups .start)).WorkInv := by
  obtain ⟨hsrc, haux⟩ := lengths_of_patchChecks hc
  exact ⟨hsrc, haux, Nat.zero_le _, rfl, rfl, rfl, fun _ => rfl, fun h => absurd rfl h⟩

/-- Checks that pass leave the engine in its invariant. -/
theorem workInv_of_startChecks (hw : startWork i = some w) (hc : startChecks i (s.setWork w) = .ok ()) : (s.setWork w).WorkInv := by
  cases i with
  | tdec2 h v => cases hw; exact workInv_of_tdecChecks (d := .two) (h := h) (v := v) hc
  | tdec4 h v => cases hw; exact workInv_of_tdecChecks (d := .four) (h := h) (v := v) hc
  | tenc2 h v => cases hw; exact workInv_of_tencChecks (d := .two) (h := h) (v := v) hc
  | tenc4 h v => cases hw; exact workInv_of_tencChecks (d := .four) (h := h) (v := v) hc
  | tasm2 w ht => cases hw; exact workInv_of_tasmChecks (d := .two) (w := w) (ht := ht) hc
  | tasm4 w ht => cases hw; exact workInv_of_tasmChecks (d := .four) (w := w) (ht := ht) hc
  | cexp => cases hw; exact workInv_of_cexpChecks hc
  | cpack => cases hw; exact workInv_of_cpackChecks hc
  | brrdec => cases hw; exact workInv_of_brrChecks hc
  | lzdec => cases hw; exact workInv_of_lzChecks hc
  | ipsapply => cases hw; exact workInv_of_ipsChecks hc
  | upsapply => cases hw; exact workInv_of_upsChecks hc
  | _ => cases hw

theorem isBrr_of_startWork (hw : startWork i = some w) : w.isBrr = true ↔ i = .brrdec := by
  cases i with
  | brrdec => cases hw; exact iff_of_true rfl rfl
  | tdec2 | tdec4 | tenc2 | tenc4 | tasm2 | tasm4 | cexp | cpack | lzdec | ipsapply | upsapply =>
    cases hw
    exact iff_of_false nofun nofun
  | _ => cases hw

/-! ## The end of a run -/

theorem loopAfterError_eq_ite (s : State) : s.loopAfterError = if s.work.isBrr then 0#32 else s.brrLoop := by
  unfold State.loopAfterError
  cases s.work <;> rfl

theorem not_brr_of_isBrr (h : s.work.isBrr = false) (b : BrrWork) : s.work ≠ .brr b := by
  intro hw
  rw [hw] at h
  cases h

/-- How a command can end: with an output inside the limit, with an error the block produces, or at a byte below the stated length
that the host has not written. -/
inductive Ends (s : State) : Result → Prop where
  | success (out : List Byte) (hbrr : s.work.isBrr = false) (hout : out.length ≤ s.limit) : Ends s (.next (s.succeeded out))
  | successBrr (b : BrrWork) (hbrr : s.work.isBrr = true) (hinv : (s.setWork (.brr b)).WorkInv) :
      Ends s (.next ((s.setWork (.brr b)).commit b.out))
  | failure (e : Err) (pos : Nat) (he : e.code ∈ producedCodes) : Ends s (.next (s.raise e pos))
  | unwritten (b : Buffer) (a : Nat) (ha : a < s.streamLen b) (hnone : (s.buffer b).read a = none) :
      Ends s (.fault (.unwrittenByte b a))

theorem ends_of_legit {st : Stop} (h : s.Legit st) : Ends s (s.stop st) := by
  cases st with
  | raise e pos => exact .failure e pos h
  | fault f =>
    cases f with
    | unwrittenByte b a => exact .unwritten b a h.1 h.2
    | notTerminated => exact absurd h not_false

/-- An engine that has moved on ends as the one it was. -/
theorem Ends.of_setWork {r : Result} (h : Ends (s.setWork w) r) (hbrr : w.isBrr = s.work.isBrr) : Ends s r := by
  cases h with
  | success out hb hout => exact .success out (hbrr ▸ hb) hout
  | successBrr b hb hinv => exact .successBrr b (hbrr ▸ hb) hinv
  | failure e pos he =>
    have hraise : (s.setWork w).raise e pos = s.raise e pos := by
      rw [State.raise_eq_withLoop, State.raise_eq_withLoop, loopAfterError_eq_ite, loopAfterError_eq_ite, State.setWork_work, hbrr]
      rfl
    rw [hraise]
    exact .failure e pos he
  | unwritten b a ha hnone =>
    cases b with
    | src | aux => exact .unwritten _ a ha hnone
    | dst => cases ha

/-- One step of a running engine: it goes on inside its invariant, or the command ends. -/
theorem Keeps.go_or_ends {r : Result} (h : Keeps s r) (hinv : s.WorkInv) :
    (∃ w : Work, w ≠ .idle ∧ w.isBrr = s.work.isBrr ∧ (s.setWork w).WorkInv ∧ r = .next (s.setWork w)) ∨ Ends s r := by
  cases h with
  | go w hne hbrr hkeep => exact .inl ⟨w, hne, hbrr, hkeep hinv, rfl⟩
  | finish out hbrr hout =>
    rw [s.commit_eq_succeeded out (loopAfterSuccess_of_not_brr (not_brr_of_isBrr hbrr))]
    exact .inr (.success out hbrr (hout hinv))
  | finishBrr b hbrr hkeep => exact .inr (.successBrr b hbrr (hkeep hinv))
  | stop st hterm hlegit => exact .inr (ends_of_legit (hlegit hinv))

/-- An engine step that ends the command ends the run. -/
theorem Ends.runEngine_eq (h : Ends s (engineStep s)) (n : Nat) : runEngine (n + 1) s = engineStep s := by
  generalize hr : engineStep s = r at h
  cases h with
  | success | successBrr | failure => exact runEngine_of_end hr rfl
  | unwritten => rw [runEngine, hr]

/-- A run within its bound ends the command. -/
theorem runEngine_ends {n : Nat} (hr : s.Runs i) (hinv : s.WorkInv) (hn : s.remaining < n) : Ends s (runEngine n s) := by
  induction n generalizing s with
  | zero => cases hn
  | succ n ih =>
    have hrunning : s.work ≠ .idle := fun hidle => by rwa [State.Runs, hidle] at hr
    obtain ⟨w, hne, hbrr, hkeep, hstep⟩ | hends := (engineStep_keeps hrunning).go_or_ends hinv
    · obtain ⟨w', ha, heq⟩ := advances_of_step hr hstep hne
      obtain rfl : w = w' := congrArg State.work heq
      have hlt := ha.remaining_lt (remaining_pos_of_step hstep hne)
      rw [runEngine_of_step hstep hne]
      exact (ih (ha.runs hr) hkeep (by omega)).of_setWork hbrr
    · rw [hends.runEngine_eq]
      exact hends

/-- A command that starts an engine ends. -/
theorem exec_ends (hw : startWork i = some w) (s : State) : Ends (s.setWork w) (exec i s) := by
  rw [exec_eq_runCommand hw, runCommand]
  cases hc : startChecks i (s.setWork w) with
  | error st => exact ends_of_legit (startChecks_stopsLegit i _ st hc)
  | ok _ => exact runEngine_ends (runs_of_startChecks hw hc) (workInv_of_startChecks hw hc) (remaining_lt_fuel hw hc)

/-! ## The statements about commands -/

/-- Settles O14: by how a command can end. -/
theorem commandLeavesACompleteOutputOrOneError : Obligations.CommandLeavesACompleteOutputOrOneError := by
  unfold Obligations.CommandLeavesACompleteOutputOrOneError
  intro i s t hi ht
  obtain ⟨word, rfl⟩ | ⟨w, hw⟩ := illegal_or_startWork_of_isCommand hi
  · cases ht
    exact ⟨.inr ⟨.illegalCommand, 0, by decide, rfl, nofun⟩, fun _ => rfl⟩
  · have hends := exec_ends hw s
    have hbrrdec := isBrr_of_startWork hw
    rw [ht] at hends
    generalize hr : (Host.Outcome.next t : Result) = r at hends
    cases hends with
    | success out hbrr hout => cases hr; exact ⟨.inl ⟨out, hout, rfl⟩, fun _ => rfl⟩
    | successBrr b hbrr hinv =>
      cases hr
      obtain ⟨-, -, -, -, hout, -⟩ := hinv
      exact ⟨.inl ⟨b.out, hout, rfl⟩, fun hne => absurd (hbrrdec.1 hbrr) hne⟩
    | failure e pos he =>
      cases hr
      have hloop := loopAfterError_eq_ite (s.setWork w)
      exact ⟨.inr ⟨e, pos, he, rfl, fun hbrr => hloop.trans (if_pos (hbrrdec.2 hbrr))⟩,
        fun hne => hloop.trans (if_neg (mt hbrrdec.1 hne))⟩
    | unwritten b a ha hnone => cases hr

theorem done_of_raise (s : State) (e : Err) (pos : Nat) : (s.raise e pos).done = true := by
  rw [State.done, State.raise_status, statusWord, BitVec.getLsbD_append]
  rfl

theorem done_of_commit (s : State) (out : List Byte) : (s.commit out).done = true :=
  (by decide : (statusWord 0#8).getLsbD 8 = true)

theorem done_of_succeeded (s : State) (out : List Byte) : (s.succeeded out).done = true :=
  (by decide : (0x00000100#32).getLsbD 8 = true)

/-- Below the stated lengths the host has written every byte. -/
theorem read_ne_none_of_loaded (h : s.Loaded) {b : Buffer} {a : Nat} (ha : a < s.streamLen b) : (s.buffer b).read a ≠ none := by
  obtain ⟨hsrc, haux⟩ := h
  cases b with
  | src => exact Option.isSome_iff_ne_none.1 (hsrc a ha)
  | aux => exact Option.isSome_iff_ne_none.1 (haux a ha)
  | dst => cases ha

/-- Settles O16: a command can end only at an output, at an error, or at a byte that is not written, and there is none. -/
theorem commandOverLoadedInputsCompletes : Obligations.CommandOverLoadedInputsCompletes := by
  unfold Obligations.CommandOverLoadedInputsCompletes
  intro i s hi hloaded
  obtain ⟨word, rfl⟩ | ⟨w, hw⟩ := illegal_or_startWork_of_isCommand hi
  · exact ⟨_, rfl, rfl, done_of_raise _ _ _⟩
  · have hends := exec_ends hw s
    generalize hr : exec i s = r at hends
    cases hends with
    | success out hbrr hout => exact ⟨_, rfl, rfl, done_of_succeeded _ out⟩
    | successBrr b hbrr hinv => exact ⟨_, rfl, rfl, done_of_commit _ b.out⟩
    | failure e pos he => exact ⟨_, rfl, rfl, done_of_raise _ e pos⟩
    | unwritten b a ha hnone => exact absurd hnone (read_ne_none_of_loaded (s := s.setWork w) hloaded ha)

/-! ## Termination (R307) -/

theorem exec_ne_notTerminated (i : Instr) (s : State) : exec i s ≠ .fault .notTerminated := by
  intro h
  cases hi : i.isCommand with
  | true =>
    obtain ⟨word, rfl⟩ | ⟨w, hw⟩ := illegal_or_startWork_of_isCommand hi
    · cases h
    · have hends := exec_ends hw s
      rw [h] at hends
      cases hends
  | false =>
    rw [exec_eq_execElement hi] at h
    have hacts := execElement_acts i s
    generalize execElement i s = r at hacts h
    cases hacts with
    | stop st hst =>
      cases st with
      | raise e pos => cases h
      | fault f => cases h; exact hst
    | _ => cases h

theorem exec_ne_refused (hi : i.isCommand = true) (s : State) (r : Refusal) : exec i s ≠ .refused r := by
  intro h
  obtain ⟨word, rfl⟩ | ⟨w, hw⟩ := illegal_or_startWork_of_isCommand hi
  · cases h
  · have hends := exec_ends hw s
    rw [h] at hends
    cases hends

theorem Selected.notCommand (h : Selected s i) : i.isCommand = false := by
  cases h with
  | image => rfl
  | tile _ _ _ hf | utile _ _ _ hf | flip _ _ hf | placed _ _ _ _ hf | color15 _ _ hf | rgb24 _ _ hf | brrblk _ _ _ _ hf
  | lzctrl _ _ _ _ hf | lzend _ _ _ _ hf | lzlit _ _ _ _ _ _ hf | lzmatch _ _ _ _ hf | ipsmagic _ _ _ hf | record _ _ _ _ hf
  | ipseof _ _ _ hf | upsmagic _ _ _ hf | size _ _ _ _ hf | upsrun _ _ _ _ _ hf | upstrailer _ _ _ hf => exact hf.notCommand

/-- One step of a running state is one step of its engine. -/
theorem step_eq_engineStep (hw : s.work ≠ .idle) : step s = engineStep s := by
  cases hf : engineFetch s with
  | error st => rw [step_of_fetch_error hw hf, engineStep_of_fetch_error hf]
  | ok f =>
    cases f with
    | done out => rw [step_of_fetch_done hw hf, engineStep_of_fetch_done hf]
    | element i =>
      rw [step_of_fetch_element hw hf, engineStep_of_fetch_element hf, exec_eq_execElement (selected_of_fetch hw hf).notCommand]

/-- What a step of an idle block can be: nothing, an access, or a command. -/
theorem step_of_idle (hw : s.work = .idle) :
    step s = .next s ∨ (∃ a rest, s.host = a :: rest ∧ step s = .next ((s.takeAccess rest).hostAccess a)) ∨
      ∃ i s', i.isCommand = true ∧ (∃ rest v, s' = { s with host := rest, cmd := v }) ∧ step s = exec i s' := by
  cases hh : s.host with
  | nil => exact .inl (by simp only [step, nextAction_of_idle hw, hostNext, hh])
  | cons a rest =>
    cases ha : a.command? with
    | none => exact .inr (.inl ⟨a, rest, rfl, step_of_access hw hh ha⟩)
    | some v => exact .inr (.inr ⟨_, _, isCommand_decodeCommand v, ⟨rest, v, rfl⟩, step_of_command hw hh ha⟩)

theorem engineStep_ne_refused (hw : s.work ≠ .idle) (r : Refusal) : engineStep s ≠ .refused r := by
  have hkeeps := engineStep_keeps hw
  intro h
  generalize engineStep s = res at hkeeps h
  cases hkeeps with
  | stop st _ _ => cases st <;> cases h
  | _ => cases h

theorem engineStep_ne_notTerminated (hw : s.work ≠ .idle) : engineStep s ≠ .fault .notTerminated := by
  have hkeeps := engineStep_keeps hw
  intro h
  generalize engineStep s = res at hkeeps h
  cases hkeeps with
  | stop st hterm _ =>
    cases st with
    | raise e pos => cases h
    | fault f => cases h; exact hterm rfl
  | _ => cases h

/-- What neither a command nor a step of an engine answers, no step answers. -/
theorem step_ne {r : Result} (hnext : ∀ t, r ≠ .next t) (hcommand : ∀ i s, Instr.isCommand i = true → exec i s ≠ r)
    (hengine : ∀ s : State, s.work ≠ .idle → engineStep s ≠ r) (s : State) : step s ≠ r := by
  intro h
  by_cases hw : s.work = .idle
  · obtain hstep | ⟨a, rest, -, hstep⟩ | ⟨i, s', hi, -, hstep⟩ := step_of_idle hw
    · exact hnext _ (h.symm.trans hstep)
    · exact hnext _ (h.symm.trans hstep)
    · exact hcommand i s' hi (hstep.symm.trans h)
  · exact hengine s hw ((step_eq_engineStep hw).symm.trans h)

/-- Settles O15: a run within its bound ends, and an engine selects only elements that have a meaning where it stands. -/
theorem everyCommandEndsAndNoStepIsRefused : Obligations.EveryCommandEndsAndNoStepIsRefused := by
  unfold Obligations.EveryCommandEndsAndNoStepIsRefused
  exact ⟨exec_ne_notTerminated, fun i s r hi => exec_ne_refused hi s r,
    fun s r => step_ne (r := .refused r) (fun _ => nofun) (fun i s hi => exec_ne_refused hi s r)
      (fun s hw => engineStep_ne_refused hw r) s,
    step_ne (r := .fault .notTerminated) (fun _ => nofun) (fun i s _ => exec_ne_notTerminated i s)
      (fun s hw => engineStep_ne_notTerminated hw)⟩

end Sys2Proof.Machine
end

section
/-! SUPPORT. Every step keeps the invariant: an access of the host, a command, a step of a running engine (R21, R24, R25, R27, R28, R31,
R67, R78). -/

namespace Sys2Proof.Machine

variable {s t : State}

theorem workInv_of_idle (h : s.work = .idle) : s.WorkInv := by
  rw [State.WorkInv, h]
  trivial

/-! ## Accesses of the host -/

/-- `t` is `s` but for what the host may write or learn: the registers it writes, SRC, AUX, the reply and the model's own fields. -/
def OnlyInputsDiffer (s t : State) : Prop :=
  t = { s with
    cmd := t.cmd, srcLen := t.srcLen, auxLen := t.auxLen, outLimit := t.outLimit, lzCfg := t.lzCfg, lzTarget := t.lzTarget
    src := t.src, aux := t.aux, host := t.host, reply := t.reply, freeIdx := t.freeIdx }

theorem onlyInputsDiffer_hostAccess (s : State) {x : HostAccess} (h : x ≠ .reset) : OnlyInputsDiffer s (s.hostAccess x) := by
  cases x with
  | regRead offset width => rfl
  | regWrite offset width v =>
    simp only [State.hostAccess, State.writeReg]
    repeat' split
    all_goals rfl
  | bufRead b a =>
    obtain ⟨v, n, heq, -⟩ := s.hostBufRead_eq b a
    rw [State.hostAccess, heq]
    rfl
  | bufWrite b a v =>
    rw [State.hostAccess]
    obtain ⟨-, -, heq⟩ | ⟨-, -, heq⟩ | ⟨-, heq⟩ := s.hostBufWrite_eq b a v <;> rw [heq] <;> rfl
  | reset => contradiction

/-- Buffers whose cells lie inside the capacities. -/
def CellsInside (s : State) : Prop := (∀ c ∈ s.src, c.1 < s.cfg.srcCap) ∧ (∀ c ∈ s.aux, c.1 < s.cfg.auxCap)

theorem cellsInside_hostAccess (h : CellsInside s) (x : HostAccess) : CellsInside (s.hostAccess x) := by
  obtain ⟨hsrc, haux⟩ := h
  cases x with
  | regRead offset width => exact ⟨hsrc, haux⟩
  | regWrite offset width v =>
    simp only [State.hostAccess, State.writeReg]
    repeat' split
    all_goals exact ⟨hsrc, haux⟩
  | bufRead b a =>
    obtain ⟨v, n, heq, -⟩ := s.hostBufRead_eq b a
    rw [State.hostAccess, heq]
    exact ⟨hsrc, haux⟩
  | bufWrite b a v =>
    rw [State.hostAccess]
    obtain ⟨-, hcap, heq⟩ | ⟨-, hcap, heq⟩ | ⟨-, heq⟩ := s.hostBufWrite_eq b a v
    · rw [heq]
      exact ⟨fun c hc => (Memory.mem_write hc).elim (fun hnew => hnew ▸ hcap) (hsrc c), haux⟩
    · rw [heq]
      exact ⟨hsrc, fun c hc => (Memory.mem_write hc).elim (fun hnew => hnew ▸ hcap) (haux c)⟩
    · rw [heq]
      exact ⟨hsrc, haux⟩
  | reset => exact ⟨nofun, nofun⟩

/-- The invariant of an idle block depends on the host's part only by the form of SRC and AUX. -/
theorem inv_of_onlyInputsDiffer (h : OnlyInputsDiffer s t) (hinv : s.Inv) (hidle : s.work = .idle) (hsrc : t.src.wf = true)
    (haux : t.aux.wf = true) (hcells : CellsInside t) : t.Inv := by
  obtain ⟨hreg, hmem, -⟩ := hinv
  have hcfg : t.cfg = s.cfg := by rw [h]
  have hwork : t.work = .idle := by rw [h]; exact hidle
  obtain ⟨hsrcCap, hauxCap⟩ := hcells
  refine ⟨?_, ⟨hcfg ▸ hmem.cfg, hsrc, haux, hsrcCap, hauxCap, ?_, ?_⟩, workInv_of_idle hwork⟩
  · rw [h]
    exact ⟨hreg.reserved, hreg.code, hreg.notDone, hreg.posZero, hreg.noOutput, hreg.loopZero, hreg.loopBlock⟩
  · rw [h]
    exact hmem.dstCells
  · rw [h]
    exact hmem.outCap

theorem inv_hostAccess (hinv : s.Inv) (hidle : s.work = .idle) (x : HostAccess) : (s.hostAccess x).Inv := by
  obtain ⟨hsrc, haux⟩ := s.hostAccess_wf x hinv.mem.srcWf hinv.mem.auxWf
  have hcells := cellsInside_hostAccess ⟨hinv.mem.srcCap, hinv.mem.auxCap⟩ x
  by_cases hreset : x = .reset
  · subst hreset
    exact inv_of_onlyInputsDiffer (s := State.resetWith s.cfg) rfl (inv_resetWith hinv.mem.cfg) rfl hsrc haux hcells
  · exact inv_of_onlyInputsDiffer (onlyInputsDiffer_hostAccess s hreset) hinv hidle hsrc haux hcells

/-! ## The result registers -/

theorem statusWord_reserved (e : Err) : (statusWord e.code).extractLsb' 9 23 = 0#23 := by
  cases e <;> decide

theorem statusWord_errCode (e : Err) : (statusWord e.code).extractLsb' 0 8 = e.code := by
  cases e <;> decide

theorem Err.code_ne_zero (e : Err) : e.code ≠ 0#8 := by
  cases e <;> decide

theorem loopWord_valid (v : Bool) (p : Nat) : (loopWord v p).getLsbD 31 = v := by
  rw [loopWord, BitVec.getLsbD_append]
  simp

theorem loopWord_point (v : Bool) {p : Nat} (hp : p < 2 ^ 31) : ((loopWord v p).extractLsb' 0 31).toNat = p := by
  have hpoint : (loopWord v p).extractLsb' 0 31 = BitVec.ofNat 31 p := by
    ext k hk
    rw [loopWord, BitVec.getElem_extractLsb', Nat.zero_add, BitVec.getLsbD_append, if_pos hk, BitVec.getLsbD_eq_getElem]
  rw [hpoint, BitVec.toNat_ofNat, Nat.mod_eq_of_lt hp]

/-! ## The ends of a command -/

theorem limit_lt (s : State) : s.limit < 2 ^ 32 := (min_le_left _ _).trans_lt s.outLimit.isLt

theorem ofBytes_cells {out : List Byte} (h : out.length < 2 ^ 32) :
    (Memory.ofBytes 0 out).map Prod.fst = List.range (BitVec.ofNat 32 out.length).toNat := by
  rw [Memory.ofBytes_addresses, BitVec.toNat_ofNat, Nat.mod_eq_of_lt h, List.range_eq_range']

section
variable (hreg : s.RegInv) (hmem : s.MemInv)

include hmem in
/-- An output inside the limit keeps the invariant of the buffers. -/
theorem memInv_commit {out : List Byte} (hout : out.length ≤ s.limit) : (s.commit out).MemInv := by
  have hlt := hout.trans_lt (limit_lt s)
  refine ⟨hmem.cfg, hmem.srcWf, hmem.auxWf, hmem.srcCap, hmem.auxCap, ofBytes_cells hlt, ?_⟩
  rw [State.commit_outLen, BitVec.toNat_ofNat, Nat.mod_eq_of_lt hlt]
  exact hout.trans (min_le_right _ _)

/-- A success with a loop record that agrees with itself keeps the invariant of the registers. -/
theorem regInv_commit (out : List Byte) (hzero : (s.commit out).loopValid = false → (s.commit out).loopPoint = 0)
    (hblock : (s.commit out).loopPoint % 16 = 0) : (s.commit out).RegInv where
  reserved := (by decide : (statusWord 0#8).extractLsb' 9 23 = 0#23)
  code := (by decide : (statusWord 0#8).extractLsb' 0 8 ∈ producedCodes)
  notDone h := by rw [done_of_commit] at h; cases h
  posZero _ := rfl
  noOutput h := absurd (by decide : (statusWord 0#8).extractLsb' 0 8 = 0#8) h
  loopZero := hzero
  loopBlock := hblock

include hreg hmem

theorem inv_succeeded {out : List Byte} (hbrr : s.work.isBrr = false) (hout : out.length ≤ s.limit) : (s.succeeded out).Inv := by
  have hloop := loopAfterSuccess_of_not_brr (not_brr_of_isBrr hbrr)
  have hcommit := s.commit_eq_succeeded out hloop
  have hbrrLoop : (s.commit out).brrLoop = s.brrLoop := hloop
  rw [← hcommit]
  refine ⟨regInv_commit out ?_ ?_, memInv_commit hmem hout, workInv_of_idle rfl⟩
  · rw [State.loopValid, State.loopPoint, hbrrLoop]
    exact hreg.loopZero
  · rw [State.loopPoint, hbrrLoop]
    exact hreg.loopBlock

omit hreg in
theorem inv_commit_brr {b : BrrWork} (hinv : (s.setWork (.brr b)).WorkInv) : ((s.setWork (.brr b)).commit b.out).Inv := by
  obtain ⟨-, -, -, -, hout, hpoint, hblock, hvalid⟩ := hinv
  have hout' : b.out.length ≤ s.limit := hout
  have hlt := limit_lt s
  have hp : b.loopPoint < 2 ^ 31 := by omega
  refine ⟨regInv_commit _ (fun h => ?_) ?_, ?_, workInv_of_idle rfl⟩
  · have h : (loopWord b.loopValid b.loopPoint).getLsbD 31 = false := h
    rw [loopWord_valid] at h
    exact (loopWord_point b.loopValid hp).trans (hvalid h)
  · exact (congrArg (· % 16) (loopWord_point b.loopValid hp)).trans hblock
  · have hmem' : (s.setWork (.brr b)).MemInv :=
      ⟨hmem.cfg, hmem.srcWf, hmem.auxWf, hmem.srcCap, hmem.auxCap, hmem.dstCells, hmem.outCap⟩
    exact memInv_commit hmem' hout

theorem inv_raise {e : Err} (he : e.code ∈ producedCodes) (pos : Nat) : (s.raise e pos).Inv := by
  have hcode : (s.raise e pos).errCode = e.code := statusWord_errCode e
  have hbrrLoop : (s.raise e pos).brrLoop = if s.work.isBrr then 0#32 else s.brrLoop := loopAfterError_eq_ite s
  refine ⟨⟨statusWord_reserved e, hcode ▸ he, fun h => ?_, fun h => absurd (hcode.symm.trans h) e.code_ne_zero, fun _ => rfl, ?_, ?_⟩,
    ⟨hmem.cfg, hmem.srcWf, hmem.auxWf, hmem.srcCap, hmem.auxCap, rfl, Nat.zero_le _⟩, workInv_of_idle rfl⟩
  · rw [done_of_raise] at h
    cases h
  · rw [State.loopValid, State.loopPoint, hbrrLoop]
    split
    · exact fun _ => (by decide : ((0#32).extractLsb' 0 31).toNat = 0)
    · exact hreg.loopZero
  · rw [State.loopPoint, hbrrLoop]
    split
    · decide
    · exact hreg.loopBlock

/-- A command that ends leaves the invariant. -/
theorem inv_of_ends (h : Ends s (.next t)) : t.Inv := by
  generalize hr : (Host.Outcome.next t : Result) = r at h
  cases h with
  | success out hbrr hout => cases hr; exact inv_succeeded hreg hmem hbrr hout
  | successBrr b hbrr hinv => cases hr; exact inv_commit_brr hmem hinv
  | failure e pos he => cases hr; exact inv_raise hreg hmem he pos
  | unwritten b a ha hnone => cases hr

end

/-! ## The statement -/

theorem RegInv.setWork (h : s.RegInv) (w : Work) : (s.setWork w).RegInv :=
  ⟨h.reserved, h.code, h.notDone, h.posZero, h.noOutput, h.loopZero, h.loopBlock⟩

theorem MemInv.setWork (h : s.MemInv) (w : Work) : (s.setWork w).MemInv :=
  ⟨h.cfg, h.srcWf, h.auxWf, h.srcCap, h.auxCap, h.dstCells, h.outCap⟩

theorem inv_of_command {i : Instr} (hinv : s.Inv) (hi : i.isCommand = true) (h : exec i s = .next t) : t.Inv := by
  obtain ⟨word, rfl⟩ | ⟨w, hw⟩ := illegal_or_startWork_of_isCommand hi
  · cases h
    exact inv_raise (RegInv.setWork hinv.reg .idle) (MemInv.setWork hinv.mem .idle) (e := .illegalCommand) (by decide) 0
  · exact inv_of_ends (RegInv.setWork hinv.reg w) (MemInv.setWork hinv.mem w) (h ▸ exec_ends hw s)

/-- Settles O11: an idle block by what the access does, a running one by what a step of its engine can be. -/
theorem stepKeepsTheInvariant : Obligations.StepKeepsTheInvariant := by
  unfold Obligations.StepKeepsTheInvariant
  intro s t hinv h
  by_cases hw : s.work = .idle
  · have hframe {s' : State} (hs' : OnlyInputsDiffer s s') (hsrc : s'.src = s.src) (haux : s'.aux = s.aux) (hcfg : s'.cfg = s.cfg) :
        s'.Inv :=
      inv_of_onlyInputsDiffer hs' hinv hw (hsrc ▸ hinv.mem.srcWf) (haux ▸ hinv.mem.auxWf)
        ⟨by rw [hsrc, hcfg]; exact hinv.mem.srcCap, by rw [haux, hcfg]; exact hinv.mem.auxCap⟩
    obtain hstep | ⟨a, rest, -, hstep⟩ | ⟨i, s', hi, ⟨rest, v, rfl⟩, hstep⟩ := step_of_idle hw
    · cases hstep.symm.trans h
      exact hinv
    · cases hstep.symm.trans h
      exact inv_hostAccess (hframe (s' := s.takeAccess rest) rfl rfl rfl rfl) hw a
    · exact inv_of_command (hframe (s' := { s with host := rest, cmd := v }) rfl rfl rfl rfl) hi (hstep.symm.trans h)
  · rw [step_eq_engineStep hw] at h
    obtain ⟨w, -, -, hwork, hstep⟩ | hends := (engineStep_keeps hw).go_or_ends hinv.work
    · cases hstep.symm.trans h
      exact ⟨RegInv.setWork hinv.reg w, MemInv.setWork hinv.mem w, hwork⟩
    · exact inv_of_ends hinv.reg hinv.mem (h ▸ hends)

end Sys2Proof.Machine
end

section
/-! SUPPORT. The run of a command as single steps of its engine (R65, R71). -/

namespace Sys2Proof.Machine

variable {s t : State} {n : Nat}

theorem steps_succ_eq_next : steps (n + 1) s = .next t ↔ ∃ u, step s = .next u ∧ steps n u = .next t := by
  rw [steps]
  cases step s <;> simp

/-- After `n` steps the block is idle for the first time, in the state `t`. -/
def EndsAfter (s t : State) (n : Nat) : Prop :=
  steps n s = .next t ∧ t.work = .idle ∧ ∀ k, k < n → ∃ u, steps k s = .next u ∧ u.work ≠ .idle

/-- An idle block has ended already. -/
theorem endsAfter_of_idle (hs : s.work = .idle) : EndsAfter s t n ↔ n = 0 ∧ t = s := by
  constructor
  · rintro ⟨hsteps, -, hrunning⟩
    cases n with
    | zero =>
      cases hsteps
      exact ⟨rfl, rfl⟩
    | succ n =>
      obtain ⟨u, hu, hne⟩ := hrunning 0 n.succ_pos
      cases hu
      exact absurd hs hne
  · rintro ⟨rfl, rfl⟩
    exact ⟨rfl, hs, nofun⟩

theorem not_endsAfter_zero (hs : s.work ≠ .idle) : ¬ EndsAfter s t 0 := by
  rintro ⟨hsteps, hidle, -⟩
  cases hsteps
  exact hs hidle

/-- A running engine ends one step after the state it reaches by one step. -/
theorem endsAfter_succ (hs : s.work ≠ .idle) : EndsAfter s t (n + 1) ↔ ∃ u, step s = .next u ∧ EndsAfter u t n := by
  constructor
  · rintro ⟨hsteps, hidle, hrunning⟩
    obtain ⟨u, hu, hrest⟩ := steps_succ_eq_next.1 hsteps
    refine ⟨u, hu, hrest, hidle, fun k hk => ?_⟩
    obtain ⟨v, hv, hne⟩ := hrunning (k + 1) (Nat.succ_lt_succ hk)
    obtain ⟨u', hu', hv⟩ := steps_succ_eq_next.1 hv
    cases hu.symm.trans hu'
    exact ⟨v, hv, hne⟩
  · rintro ⟨u, hu, hrest, hidle, hrunning⟩
    refine ⟨steps_succ_eq_next.2 ⟨u, hu, hrest⟩, hidle, fun k hk => ?_⟩
    cases k with
    | zero => exact ⟨s, rfl, hs⟩
    | succ k =>
      obtain ⟨v, hv, hne⟩ := hrunning k (Nat.lt_of_succ_lt_succ hk)
      exact ⟨v, steps_succ_eq_next.2 ⟨u, hu, hv⟩, hne⟩

/-- The loop of an engine is its single steps up to the one that ends the command. -/
theorem runEngine_eq_next_iff (hs : s.work ≠ .idle) : runEngine n s = .next t ↔ ∃ k, k ≤ n ∧ EndsAfter s t k := by
  induction n generalizing s with
  | zero =>
    refine iff_of_false nofun ?_
    rintro ⟨k, hk, hends⟩
    obtain rfl := Nat.le_zero.1 hk
    exact not_endsAfter_zero hs hends
  | succ n ih =>
    have hrest (u : State) :
        (u.work = .idle ∧ t = u) ∨ (u.work ≠ .idle ∧ runEngine n u = .next t) ↔ ∃ k, k ≤ n ∧ EndsAfter u t k := by
      by_cases hu : u.work = .idle
      · simp [hu, endsAfter_of_idle hu]
      · simp [hu, ih hu]
    constructor
    · intro h
      obtain ⟨u, hu, hend⟩ := runEngine_succ_eq_next.1 h
      obtain ⟨k, hk, hends⟩ := (hrest u).1 hend
      exact ⟨k + 1, Nat.succ_le_succ hk, (endsAfter_succ hs).2 ⟨u, (step_eq_engineStep hs).trans hu, hends⟩⟩
    · rintro ⟨k, hk, hends⟩
      cases k with
      | zero => exact absurd hends (not_endsAfter_zero hs)
      | succ k =>
        obtain ⟨u, hu, hends⟩ := (endsAfter_succ hs).1 hends
        exact runEngine_succ_eq_next.2
          ⟨u, (step_eq_engineStep hs).symm.trans hu, (hrest u).2 ⟨k, Nat.le_of_succ_le_succ hk, hends⟩⟩

/-! ## The checks do not read the working state -/

theorem scanPixels_setWork (d : Depth) (s : State) (w : Work) (a n : Nat) : scanPixels d (s.setWork w) a n = scanPixels d s a n := by
  induction n generalizing a with
  | zero => rfl
  | succ n ih => simp only [scanPixels, State.setWork_readByte, ih]

theorem sheetChecks_setWork (size k : Nat) (s : State) (w : Work) : sheetChecks size k (s.setWork w) = sheetChecks size k s := rfl

theorem tencChecks_setWork (d : Depth) (s : State) (w : Work) : tencChecks d (s.setWork w) = tencChecks d s := by
  simp only [tencChecks_eq_sheetChecks, sheetChecks_setWork, State.setWork_srcLen, scanPixels_setWork]

theorem startChecks_setWork (i : Instr) (s : State) (w : Work) : startChecks i (s.setWork w) = startChecks i s := by
  cases i with
  | tenc2 | tenc4 => exact tencChecks_setWork _ s w
  | _ => rfl

theorem ne_idle_of_startWork {i : Instr} {w : Work} (hw : startWork i = some w) : w ≠ .idle := by
  rintro rfl
  cases i <;> cases hw

/-- Settles O18: the loop of the engine is its single steps. -/
theorem atomicCommandIsTheRunOfItsElements : Obligations.AtomicCommandIsTheRunOfItsElements := by
  unfold Obligations.AtomicCommandIsTheRunOfItsElements
  intro i w s hw
  rw [exec_eq_runCommand hw, runCommand, startChecks_setWork]
  refine ⟨fun st hc => ?_, fun hc t => ?_⟩
  · rw [hc]
    rfl
  · rw [hc]
    exact runEngine_eq_next_iff (s := s.setWork w) (ne_idle_of_startWork hw)

end Sys2Proof.Machine
end
